-- ==== Sys2Proof/Word.lean ====
section
/-! DEFINITION. The plain types the rest of the model is written over: bytes, and the index of each kind of item
(00_scope.md, "Indices and numbers": indices count from 0, stations from 1). -/

namespace Sys2Proof

/-- One byte, as it stands on the basin line or in flash. -/
abbrev Byte := BitVec 8

/-- A pump channel, 0 to 3. -/
abbrev Channel := Fin 4

/-- A nozzle (and its valve), 0 to 15. -/
abbrev Nozzle := Fin 16

/-- A swivel head, 0 to 7. -/
abbrev Head := Fin 8

/-- A lamp fixture, 0 to 11. -/
abbrev Fixture := Fin 12

/-- A monitor counter, 0 to 3. -/
abbrev Counter := Fin 4

/-- A peer entry; entry `k` is that of station number `k + 1` (R36). -/
abbrev Peer := Fin 24

/-- A set of nozzle indices, bit `i` standing for index `i` (13_layouts). -/
abbrev NozzleSet := BitVec 16

end Sys2Proof
end

