-- ==== Sys2Proof/Config.lean ====
section
/-! DEFINITION. What one installation fixes: the configuration block of the station (R75, R76), read from flash at
start-up and constant until the next hard reset.  It is data of the machine, so `State` holds it.  The one free value
of the model stands here too: the phase of the valve hold counter, on which the spec says nothing (R124). -/

namespace Sys2Proof

/-- FREE VALUE (notes/assumptions/12.md): the count at which the 100-count valve hold counter of R124 stands when the
local timer reads 0.  R124 gives the counter's clock and length and not its phase; nothing in Lean can evaluate this. -/
opaque Config.holdPhase : Nat

namespace Machine

/-- One channel record (R76): heights in cm, flows in L/s, speeds in per-mille, times in ms. -/
structure ChannelCfg where
  present : Bool := false
  hfull : Nat := 0
  qfull : Nat := 0
  nmin : Nat := 0
  nmax : Nat := 0
  rampUp : Nat := 0
  rampDown : Nat := 0
  startTimeout : Nat := 0
  kf : Nat := 0
  lbase : Nat := 0
  deriving DecidableEq, Repr

/-- One head record (R76): steps, µs for the intervals, ms for the settle pause. -/
structure HeadCfg where
  present : Bool := false
  range : Nat := 0
  stepInterval : Nat := 0
  homeInterval : Nat := 0
  ratio : Nat := 0
  tolerance : Nat := 0
  settle : Nat := 0
  park : Nat := 0
  deriving DecidableEq, Repr

/-- One nozzle record (R76).  `kind` is the code as stored: 0 FIXED, 1 SWIVEL. -/
structure NozzleCfg where
  present : Bool := false
  channel : Nat := 0
  kind : Nat := 0
  head : Nat := 0
  envMin : Nat := 0
  envMax : Nat := 0
  hmax : Nat := 0
  out : Bool := false
  deriving DecidableEq, Repr

/-- One fixture record (R76).  `role` is the code as stored: 0 JET, 1 AREA. -/
structure FixtureCfg where
  present : Bool := false
  role : Nat := 0
  nozzle : Nat := 0
  submerged : Bool := false
  deriving DecidableEq, Repr

/-- The configuration block (R75, R76, layout R172). -/
structure StationConfig where
  counterKinds : Vector Nat 4
  thresholds : Vector Nat 4
  capacity : Nat
  ceiling : Nat
  lineDelay : Nat
  anemometer : Bool
  windK : Nat
  wLo : Nat
  wHi : Nat
  dFloor : Nat
  holdDuty : Nat
  safeWhite : Nat
  zone : Bool
  channels : Vector ChannelCfg 4
  heads : Vector HeadCfg 8
  nozzles : Vector NozzleCfg 16
  fixtures : Vector FixtureCfg 12
  deriving DecidableEq, Repr

/-- No configuration loaded yet (R77, "Hard reset: empty"): every record absent. -/
def StationConfig.empty : StationConfig where
  counterKinds := Vector.replicate 4 0
  thresholds := Vector.replicate 4 0
  capacity := 0
  ceiling := 0
  lineDelay := 0
  anemometer := false
  windK := 0
  wLo := 0
  wHi := 0
  dFloor := 0
  holdDuty := 0
  safeWhite := 0
  zone := false
  channels := Vector.replicate 4 {}
  heads := Vector.replicate 8 {}
  nozzles := Vector.replicate 16 {}
  fixtures := Vector.replicate 12 {}

end Machine

end Sys2Proof
end

