-- ==== Sys2Proof/Syntax.lean ====
section
/-! DEFINITION. The commands the block takes: one constructor per row of spec/opcode_table.json, in the table's order.
The table gives its rows no bit fields; the operands are what the row's rule says arrives with the step: the fields of
the frame, the strap levels, the flash data, the index of the item whose timer runs out, and the level of an input
pin where the rule examines a level for which the table has no row of its own (notes/assumptions/3.md). -/

namespace Sys2Proof

/-- The pair latched at the falling edge that opens a frame (R25): this station's show time and its local timer. -/
structure Rx where
  latch : Int
  moment : Nat
  deriving DecidableEq, Repr

/-- The payload of a PACE as it stands on the line (R171, 20 bytes). -/
structure PacePayload where
  stamp : BitVec 32
  showNo : Byte
  stateCode : Byte
  sectionNo : Byte
  flags : Byte
  planned : BitVec 16
  ceiling : BitVec 16
  current : BitVec 16
  wind : BitVec 16
  outNozzles : Byte
  faultHeads : Byte
  trippedPumps : Byte
  causes : Byte
  deriving DecidableEq, Repr

/-- Why a frame in reception is abandoned (R24) or a complete frame is discarded (R26, in the order of its table). -/
inductive RxFailure where
  | markTooLong                 -- R24: the run of low level lasts beyond 20 bit times
  | stopBitLow                  -- R24: a stop bit is sampled low
  | lengthOver80                -- R24: the length character exceeds 80
  | noStartBit                  -- R24: no start bit within 10 bit times
  | lowRun (rx : Rx)            -- R24: 12 bit times low inside the frame; `rx` is the new run's own latch
  | badCrc                      -- R26 check 1
  | badSender                   -- R26 check 2
  | badKind                     -- R26 check 3
  | badLength                   -- R26 check 4
  | deskKindFromStation         -- R26 check 5
  | stationKindFromDesk         -- R26 check 6
  | badPaceState                -- R26 check 7
  deriving DecidableEq, Repr

/-- A command of the block: one constructor per row of spec/opcode_table.json. -/
inductive Instr where
  | hardReset
  | resetRelease (stn : BitVec 5) (rehearse : Bool)
  | settlingExpiry
  | select (n : Byte) (hhom : BitVec 8)
  | start (n : Byte) (delay : BitVec 16) (rx : Rx)
  | hold
  | resume (pflt : BitVec 4)
  | stop
  | clear (estop : Bool)
  | restart (target : Byte)
  | query (target : Byte) (clearFlag : Byte)
  | paceReceived (sender : Byte) (p : PacePayload) (rx : Rx)
  | alertReceived (sender : Byte) (cause : Byte) (rx : Rx)
  | reportReceived (sender : Byte)
  | frameError (why : RxFailure)
  | peerLapse (k : Peer)
  | peerLost (k : Peer)
  | duplicateTimerExpiry
  | deferGapEnd
  | backoffEnd
  | collision
  | frameSent
  | paceTimerExpiry (pflt : BitVec 4)
  | stepRecentTimerExpiry
  | solitudeTimerExpiry
  | showTimeZeroCrossing
  | timeLimit
  | estopAsserted
  | lowLevelAsserted
  | lowLevelReleased
  | alertTimerExpiry (estop : Bool)
  | flashReadComplete (data : List Byte) (estop : Bool)
  | stagedRecordTaken
  | cueIssue
  | jetComputationPass (pflt : BitVec 4)
  | windEdge
  | windCalmTimeout
  | windFilterPeriod
  | pumpControlPeriod
  | startTimerExpiry (c : Channel)
  | driveFault (c : Channel)
  | holdOffExpiry (c : Channel) (pflt : Bool)
  | flowEdge (c : Channel)
  | flowSilenceTimeout (c : Channel)
  | valvePullInEnd (z : Nozzle)
  | nozzleClimbComplete (z : Nozzle)
  | nozzleFallComplete (z : Nozzle)
  | homeIntervalExpiry (h : Head) (hhom : Bool)
  | stepIntervalExpiry (h : Head)
  | reversalPauseEnd (h : Head)
  | settlePauseEnd (h : Head) (hhom : Bool)
  | encoderEdge (h : Head) (a b : Bool)
  | sweepLegBoundary (h : Head)
  | lightStep
  | lampPwmRollover
  | audioFrameSlot
  | syncCheck
  | gainStep
  | rehearsalStartingExpiry (c : Channel)
  deriving DecidableEq, Repr

end Sys2Proof
end

