-- ==== Sys2Proof/WellFormed.lean ====
section
/-! DEFINITION. Which commands can arrive.  A frame of a station passes the receive checks of R26 only with a sender of
1 to 24, and a PACE only with a show state code of 1 to 9; a flash read brings one block of 4,096 bytes (R62). -/

namespace Sys2Proof

/-- A sender number of a station (R26 checks 2 and 6). -/
def stationSender (sender : Byte) : Bool := 1 ≤ sender.toNat && sender.toNat ≤ 24

/-- A show state code of R33 (R26 check 7). -/
def paceStateCode (code : Byte) : Bool := 1 ≤ code.toNat && code.toNat ≤ 9

/-- The command is one the block can be sent. -/
def Instr.wf : Instr → Bool
  | .paceReceived sender p _ => stationSender sender && paceStateCode p.stateCode
  | .alertReceived sender _ _ => stationSender sender
  | .reportReceived sender => stationSender sender
  | .flashReadComplete data _ => data.length == 4096
  | .hardReset => true
  | .resetRelease _ _ => true
  | .settlingExpiry => true
  | .select _ _ => true
  | .start _ _ _ => true
  | .hold => true
  | .resume _ => true
  | .stop => true
  | .clear _ => true
  | .restart _ => true
  | .query _ _ => true
  | .frameError _ => true
  | .peerLapse _ => true
  | .peerLost _ => true
  | .duplicateTimerExpiry => true
  | .deferGapEnd => true
  | .backoffEnd => true
  | .collision => true
  | .frameSent => true
  | .paceTimerExpiry _ => true
  | .stepRecentTimerExpiry => true
  | .solitudeTimerExpiry => true
  | .showTimeZeroCrossing => true
  | .timeLimit => true
  | .estopAsserted => true
  | .lowLevelAsserted => true
  | .lowLevelReleased => true
  | .alertTimerExpiry _ => true
  | .stagedRecordTaken => true
  | .cueIssue => true
  | .jetComputationPass _ => true
  | .windEdge => true
  | .windCalmTimeout => true
  | .windFilterPeriod => true
  | .pumpControlPeriod => true
  | .startTimerExpiry _ => true
  | .driveFault _ => true
  | .holdOffExpiry _ _ => true
  | .flowEdge _ => true
  | .flowSilenceTimeout _ => true
  | .valvePullInEnd _ => true
  | .nozzleClimbComplete _ => true
  | .nozzleFallComplete _ => true
  | .homeIntervalExpiry _ _ => true
  | .stepIntervalExpiry _ => true
  | .reversalPauseEnd _ => true
  | .settlePauseEnd _ _ => true
  | .encoderEdge _ _ _ => true
  | .sweepLegBoundary _ => true
  | .lightStep => true
  | .lampPwmRollover => true
  | .audioFrameSlot => true
  | .syncCheck => true
  | .gainStep => true
  | .rehearsalStartingExpiry _ => true

end Sys2Proof
end

