-- ==== Sys2Proof/Machine/State.lean ====
section
/-! DEFINITION. The state of the station: one structure per block of the part (00_scope.md, "Block overview"), each
holding what the block's chapter says it owns, and `State` joining them with the local timer, the levels of the input
pins and the queue of waiting commands.  All of it is plain data.  A timer is the local timer reading at which it
expires, or `none` while it is stopped. -/

namespace Sys2Proof.Machine

/-- The one closed list of faults is empty: the spec names no event at which the block stops working, so no meaning
ends in a fault (safe: nothing is cut short). -/
inductive Fault where
  deriving DecidableEq, Repr

/-- The reasons for which a command has no outcome. -/
inductive Refusal where
  /-- Raised by an arm of `exec` for a command that has no meaning yet (safe: the machine stops).  No arm raises it. -/
  | notModelled (mnemonic : String)
  deriving DecidableEq, Repr

/-! ### Show Control (01) -/

/-- The show states (01, R33).  `startUp` is not one of the nine: it stands from hard reset to the end of start-up,
when the station has no show state yet (R2). -/
inductive ShowState where
  | startUp | idle | loading | armed | countdown | running | hold | ending | safe | configFault
  deriving DecidableEq, Repr

/-- The stages of start-up (R1, R2): RESET held, settling, loading the configuration, done. -/
inductive StartPhase where
  | held | settling | loadingConfig | done
  deriving DecidableEq, Repr

/-- The causes of SAFE (R16). -/
inductive SafeCause where
  | powerUp | eStop | lowLevel | peerAlert
  deriving DecidableEq, Repr

/-- A set of SAFE causes (R16: "a set, not a list"). -/
structure CauseSet where
  powerUp : Bool := false
  eStop : Bool := false
  lowLevel : Bool := false
  peerAlert : Bool := false
  deriving DecidableEq, Repr

/-- The causes of ENDING (R10). -/
inductive EndingCause where
  | stop | endCue | follow | timeLimit
  deriving DecidableEq, Repr

/-- A held START (R8): the clamped delay in ms and the start moment of its frame. -/
structure HeldStart where
  delay : Nat
  moment : Nat
  deriving DecidableEq, Repr

/-- What Show Control owns (01). -/
structure ShowControl where
  phase : StartPhase
  settleTimer : Option Nat
  state : ShowState
  station : Nat
  rehearsal : Bool
  reason : Nat
  firstCause : Option SafeCause
  causes : CauseSet
  selected : Nat
  held : Option HeldStart
  followHold : Nat
  followRunning : Nat
  followEnding : Nat
  endingCause : Option EndingCause
  lightRunOut : Bool
  audioRunOut : Bool
  alertTimer : Option Nat
  deriving DecidableEq, Repr

/-! ### Show Monitor (12) -/

/-- The 23 event kinds (R166), in code order. -/
inductive EventKind where
  | lateCue | heightClamp | aimClamp | valueClamp | budgetScaled | starved | pumpTrip | headRetry | headFault
  | collisionLoss | frameError | duplicateStation | blockReread | blockLost | unknownCue | badTarget | queueFull
  | audioSlip | audioResync | underrun | clockStep | commandIgnored | noShow
  deriving DecidableEq, Repr

/-- The record of an event: what the counter that it crossed samples (R167). -/
structure Sample where
  kind : EventKind
  time : Int
  cueId : Option Nat
  object : Option Nat
  deriving DecidableEq, Repr

/-- A monitor counter (R167).  `kind` is `none` until the monitor fields are handed over. -/
structure CounterRec where
  kind : Option EventKind := none
  threshold : Nat := 0
  value : Nat := 0
  crossed : Bool := false
  sample : Option Sample := none
  deriving DecidableEq, Repr

/-- The pending clear (R169): the snapshot values and the crossed set. -/
structure PendingClear where
  values : Vector Nat 4
  crossed : Vector Bool 4
  deriving DecidableEq, Repr

/-- What the Show Monitor owns (12). -/
structure Monitor where
  counters : Vector CounterRec 4
  pendingClear : Option PendingClear
  deriving DecidableEq, Repr

/-- A REPORT as it was built (R169). -/
structure ReportImage where
  counters : Vector CounterRec 4
  outNozzles : NozzleSet
  faultHeads : BitVec 8
  latchedPumps : BitVec 4
  causes : CauseSet
  clearRequested : Bool
  firstCause : Option SafeCause
  endingCause : Option EndingCause
  deriving DecidableEq, Repr

/-! ### Line Controller (02) -/

/-- The kinds of frame a station sends (R23, R29). -/
inductive FrameKind where
  | pace | alert | report
  deriving DecidableEq, Repr

/-- The cause an ALERT of this station carries (R16, R17). -/
inductive AlertCause where
  | eStop | lowLevel
  deriving DecidableEq, Repr

/-- The transmitter's condition (R31).  While SENDING it holds the frame's bytes as they go out and the local timer
reading at which its start mark began; the line driver is on exactly then. -/
inductive TxState where
  | quiet | deferring | backingOff
  | sending (kind : FrameKind) (bytes : List Byte) (since : Nat)
  deriving DecidableEq, Repr

/-- The receive buffer (R24): the frame in reception with the pair latched at the falling edge that began it.  `inMark`
says that its start mark still lasts; `bits` are those of the character under way, start bit first, and `highs` the bit
times of high level since the last character, or since the mark. -/
structure RxBuffer where
  rx : Rx
  inMark : Bool
  chars : List Byte
  bits : List Bool
  highs : Nat
  deriving DecidableEq, Repr

/-- The receiver's condition (R24): HUNTING, RECEIVING with its buffer, HUNTING that waits for 50 µs of idle line before it
recognises a start mark (`waitIdle`), or not hunting while the station's own driver is on (`off`). -/
inductive Receiver where
  | hunting | waitIdle | off
  | receiving (b : RxBuffer)
  deriving DecidableEq, Repr

/-- What the Line Controller owns (02).  `quietSince` is the local timer reading from which the line has stood high without
a break, none while it is low or the own driver is on (R31); `lowRun` counts the bit times of the present low level
(R24); `latch` is the pair latched at the last falling edge (R25).  `replaced` says that the frame in the slot being sent
was replaced during the attempt (R29, R30). -/
structure Line where
  tx : TxState
  receiver : Receiver
  quietSince : Option Nat
  lowRun : Nat
  latch : Rx
  alertSlot : Option AlertCause
  alertTries : Nat
  reportSlot : Option ReportImage
  reportTries : Nat
  paceSlot : Bool
  paceTries : Nat
  replaced : Bool
  duplicate : Bool
  dupTimer : Option Nat
  deriving DecidableEq, Repr

/-! ### Peer View (03) -/

/-- The freshness of a peer entry (R40). -/
inductive Freshness where
  | absent | fresh | lapsed | lost
  deriving DecidableEq, Repr

/-- The fields a peer entry keeps of the peer's last PACE (R36), with the arrival time. -/
structure PeerPace where
  showNo : Nat
  stateCode : Nat
  stamp : Int
  planned : Nat
  ceiling : Nat
  wind : Option Nat
  arrival : Nat
  deriving DecidableEq, Repr

/-- A stored offset with its offset time (R36, R38). -/
structure Offset where
  value : Int
  time : Nat
  deriving DecidableEq, Repr

/-- One peer entry (R36). -/
structure PeerEntry where
  fresh : Freshness := .absent
  pace : Option PeerPace := none
  offset : Option Offset := none
  alert : Option Nat := none
  deriving DecidableEq, Repr

/-- An adjustment of show time, as Peer View was told of it (R39): when, and by how much. -/
structure Adjustment where
  time : Nat
  amount : Int
  deriving DecidableEq, Repr

/-- What Peer View owns (03): the entries, the local timer reading of the last setting of show time, and the last
adjustment, for a PACE whose reception it overtook (R39). -/
structure PeerView where
  entries : Vector PeerEntry 24
  lastSetting : Option Nat
  lastAdjust : Option Adjustment
  deriving DecidableEq, Repr

/-! ### Show Clock (04) -/

/-- What the Show Clock owns (04).  Whether show time runs follows from the show state (R49). -/
structure Clock where
  showTime : Int
  paceTimer : Option Nat
  solo : Bool
  solitude : Option Nat
  stepped : Bool
  stepRecent : Option Nat
  deriving DecidableEq, Repr

/-! ### Show Store (05) -/

/-- The four readers of the flash (R66, R68). -/
inductive Reader where
  | config | directory | cue | audio
  deriving DecidableEq, Repr

/-- The kinds of block (R62). -/
inductive BlockKind where
  | config | directory | cue | audio
  deriving DecidableEq, Repr

/-- What a reader expects of a block (R66); `len = none` accepts 0 to 4,064. -/
structure Expect where
  kind : BlockKind
  showNo : Nat
  station : Nat
  seq : Nat
  len : Option Nat
  deriving DecidableEq, Repr

/-- A reader's request (R69). -/
structure Request where
  block : Nat
  expect : Expect
  attempts : Nat
  deriving DecidableEq, Repr

/-- The read in progress on the flash port (R70). -/
structure PortRead where
  reader : Reader
  withdrawn : Bool
  deriving DecidableEq, Repr

/-- The copy of the volume header (R63). -/
structure VolumeHeader where
  version : Nat
  dirCount : Nat
  dirFirst : Nat
  configBlocks : Vector Nat 24
  deriving DecidableEq, Repr

/-- This station's section of the selected show (R64): the directory entry held (R72). -/
structure ShowSection where
  firstCue : Nat
  cueCount : Nat
  firstAudio : Nat
  frames : Nat
  deriving DecidableEq, Repr

/-- Where the directory reader stands (R72): in directory block `i`, or in the section table. -/
inductive DirStep where
  | block (i : Nat) | table
  deriving DecidableEq, Repr

/-- What the Show Store owns (05).  `header = none` while the config loader has not accepted block 0. -/
structure Store where
  header : Option VolumeHeader
  config : StationConfig
  entry : Option ShowSection
  configReq : Option Request
  dirReq : Option Request
  cueReq : Option Request
  audioReq : Option Request
  dirStep : DirStep
  cuePos : Option Nat
  audioPos : Option Nat
  port : Option PortRead
  deriving DecidableEq, Repr

/-! ### Cue Sequencer (06) -/

/-- Four lamp levels, red, green, blue, white. -/
structure Colour where
  r : Nat := 0
  g : Nat := 0
  b : Nat := 0
  w : Nat := 0
  deriving DecidableEq, Repr

/-- The sweep part of an AIM (R78): partner step and leg length in beats. -/
structure SweepPart where
  partner : Nat
  beats : Nat
  deriving DecidableEq, Repr

/-- The body of a cue (R78). -/
inductive CueBody where
  | jet (channel : Channel) (height : Nat) (openSet : NozzleSet)
  | aim (head : Head) (target : Nat) (sweep : Option SweepPart)
  | light (fixture : Fixture) (colours : List Colour) (fade : Nat) (divisor : Nat)
  | level (gain : Nat) (fade : Nat)
  | mark (sectionNo : Nat) (beatLen : Nat)
  | endCue
  deriving DecidableEq, Repr

/-- An accepted cue with its stream order (R86). -/
structure CueRec where
  id : Nat
  beat : Nat
  order : Nat
  body : CueBody
  deriving DecidableEq, Repr

/-- The staged record with its stall mark (R83, R84). -/
structure Staged where
  cue : CueRec
  stalled : Bool
  deriving DecidableEq, Repr

/-- An entry of the pending queue (R86); `issue` is its issue time in ms. -/
structure QueueEntry where
  cue : CueRec
  issue : Int
  deriving DecidableEq, Repr

/-- An entry of the channel state table (R88); `seen` says that a pass has already read it (R100, HEIGHT CLAMP once). -/
structure TableEntry where
  height : Nat
  openSet : NozzleSet
  cueId : Nat
  seen : Bool
  deriving DecidableEq, Repr

/-- What the Cue Sequencer owns (06).  `current` is the rest of the current block not yet decoded. -/
structure Sequencer where
  current : Option (List Byte)
  partialRec : Option (List Byte)
  staged : Option Staged
  queue : List QueueEntry
  table : Vector (Option TableEntry) 4
  sectionNo : Nat
  beatLen : Nat
  sectionStart : Nat
  predicted : Vector Nat 8
  lastId : Option Nat
  nextOrder : Nat
  endSeen : Bool
  catchUp : Bool
  deriving DecidableEq, Repr

/-! ### Jet Computation (07) -/

/-- The figures of one channel (07). -/
structure JetChan where
  hd : Nat := 0
  openSet : NozzleSet := 0
  n : Nat := 0
  f : Nat := 0
  nt : Nat := 0
  fs : Nat := 0            -- f′
  starved : Bool := false
  deriving DecidableEq, Repr

/-- A JET entry of the pending queue as the walk of R103 reads it. -/
structure QueuedJet where
  channel : Channel
  height : Nat
  openSet : NozzleSet
  deriving DecidableEq, Repr

/-- The catch-up view (R109). -/
structure CatchUpView where
  table : Vector (Option TableEntry) 4
  jets : List QueuedJet
  deriving DecidableEq, Repr

/-- What Jet Computation owns (07).  `passDue` says that a report asks for a pass (R108). -/
structure Jet where
  rawWind : Nat
  windEdge : Option Nat
  wf : Nat
  derate : Nat
  windFilter : Option Nat
  planned : Nat
  other : Nat
  share : Nat
  scale : Nat
  chans : Vector JetChan 4
  view : Option CatchUpView
  passDue : Bool
  deriving DecidableEq, Repr

/-! ### Pump Control (08) -/

/-- The pump states (R114). -/
inductive PumpState where
  | stopped | starting | running | stopping | tripped
  deriving DecidableEq, Repr

/-- The causes of a trip (R120), in cause-number order. -/
inductive TripCause where
  | noFlow | flowLost | driveFault
  deriving DecidableEq, Repr

/-- A pump record (R114) with the flow meter's reading and held edge (R122). -/
structure PumpRec where
  state : PumpState := .stopped
  output : Nat := 0
  goal : Nat := 0
  nt : Nat := 0
  openSet : NozzleSet := 0
  hd : Nat := 0
  fs : Nat := 0
  working : Nat := 0
  valves : NozzleSet := 0
  trips : Nat := 0
  latched : Bool := false
  startTimer : Option Nat := none
  rehearsalTimer : Option Nat := none
  lowSince : Option Nat := none
  holdOff : Option Nat := none
  settle : Option Nat := none
  flow : Nat := 0
  flowEdge : Option Nat := none
  deriving DecidableEq, Repr

/-- The nozzle states (R125). -/
inductive NozzleState where
  | dry | rising | wet | falling | out
  deriving DecidableEq, Repr

/-- How a valve is driven (R124): off, full on until the end of its pull-in, or on the hold duty from the pull-in's end. -/
inductive ValveDrive where
  | off | pullIn (until_ : Nat) | hold (since : Nat)
  deriving DecidableEq, Repr

/-- A nozzle record (R124 to R126): its state, its valve's command and drive, when the valve opened and closed, the fall
height, and the two OUT marks. -/
structure NozzleRec where
  state : NozzleState := .dry
  command : Bool := false
  drive : ValveDrive := .off
  openedAt : Nat := 0
  closedAt : Nat := 0
  fallHeight : Nat := 0
  configOut : Bool := false
  faultOut : Bool := false
  deriving DecidableEq, Repr

/-- What Pump Control owns (08).  `wetEnding` says that the present ENDING was entered from RUNNING or HOLD (R123). -/
structure PumpControl where
  period : Option Nat
  pumps : Vector PumpRec 4
  nozzles : Vector NozzleRec 16
  wetEnding : Bool
  deriving DecidableEq, Repr

/-! ### Head Control (09) -/

/-- The head states (R130). -/
inductive HeadState where
  | unhomed | homing | settled | moving | reversing | verifying | fault
  deriving DecidableEq, Repr

/-- The causes of a head FAULT (R140), in cause-number order. -/
inductive HeadCause where
  | homeFail | slip
  deriving DecidableEq, Repr

/-- The sense of a step. -/
inductive Direction where
  | up | down
  deriving DecidableEq, Repr

/-- A target step with the cue id of the AIM that set it, if any (R130). -/
structure Target where
  step : Nat
  cueId : Option Nat
  deriving DecidableEq, Repr

/-- A sweep record (R141): its two positions, the leg length in beats, the anchor leg with its position, the cue id, and
the leg last seen. -/
structure Sweep where
  a : Nat
  b : Nat
  beats : Nat
  anchor : Int
  anchorPos : Nat
  cueId : Nat
  leg : Int
  deriving DecidableEq, Repr

/-- A head record (R130), with the timer of its present state (home interval, step interval, reversal or settle pause),
the count of seek steps taken (R132), and the reading at which the last step pulse began (R131). -/
structure HeadRec where
  state : HeadState := .unhomed
  position : Option Nat := none
  encoder : Int := 0
  target : Option Target := none
  direction : Option Direction := none
  pending : Option Target := none
  homing : Target := { step := 0, cueId := none }
  failures : Nat := 0
  rehomed : Bool := false
  sweep : Option Sweep := none
  marks : Bool := false
  timer : Option Nat := none
  seekSteps : Nat := 0
  pulse : Option Nat := none
  deriving DecidableEq, Repr

/-- What Head Control owns (09). -/
structure HeadControl where
  heads : Vector HeadRec 8
  permits : Vector Bool 16
  deriving DecidableEq, Repr

/-! ### Light Engine (10) -/

/-- The pattern part of a fixture record (R146). -/
structure Pattern where
  colours : List Colour
  divisor : Nat
  stepFade : Nat
  index : Nat
  group : Int
  deriving DecidableEq, Repr

/-- A fixture record (R146).  The mode is PATTERN exactly when there is a pattern part. -/
structure FixtureRec where
  pattern : Option Pattern := none
  current : Colour := {}
  start : Colour := {}
  target : Colour := {}
  fadeLen : Nat := 0
  elapsed : Nat := 0
  ending : Bool := false
  deriving DecidableEq, Repr

/-- What the Light Engine owns (10): the records, the light step timer, the working and holding duties of the 48 lamp
channels (one colour per fixture), and the moment of the next PWM rollover. -/
structure Lights where
  fixtures : Vector FixtureRec 12
  lightTimer : Option Nat
  working : Vector Colour 12
  holding : Vector Colour 12
  pwmTimer : Option Nat
  deriving DecidableEq, Repr

/-! ### Music Playback (11) -/

/-- A stereo frame with its index (R157). -/
structure AudioFrame where
  index : Nat
  left : Int
  right : Int
  deriving DecidableEq, Repr

/-- What Music Playback owns (11).  `repeatDue` says that the next slot repeats (R160); frame slots are counted from
`slotBase`, the moment the interface started. -/
structure Music where
  fifo : List AudioFrame
  playIndex : Nat
  resync : Bool
  underrun : Bool
  repeatDue : Bool
  lastLeft : Int
  lastRight : Int
  gain : Nat
  startGain : Nat
  targetGain : Nat
  fadeLen : Nat
  elapsed : Nat
  runOut : Bool
  slotBase : Option Nat
  slots : Nat
  syncTimer : Option Nat
  gainTimer : Option Nat
  deriving DecidableEq, Repr

/-! ### The whole station -/

/-- The levels of the input pins as last seen (00_scope, pin summary): bit `i` is that of item `i`.  `lrx` is what the other
parties make of the line in the coming bit times, the next one first: a level that LRX shows whatever this station
drives, or none where they leave the line alone (notes/assumptions/33.md). -/
structure Inputs where
  estop : Bool
  lowlvl : Bool
  pflt : BitVec 4
  hhom : BitVec 8
  hena : BitVec 8
  henb : BitVec 8
  lrx : List (Option Bool)
  deriving DecidableEq, Repr

/-- The state of the station. -/
structure State where
  localTimer : Nat
  inputs : Inputs
  ctl : ShowControl
  line : Line
  peers : PeerView
  clock : Clock
  store : Store
  seq : Sequencer
  jet : Jet
  pump : PumpControl
  head : HeadControl
  lights : Lights
  music : Music
  mon : Monitor
  pending : List Instr
  deriving DecidableEq, Repr

/-- The station as HARD RESET leaves it (R1, R4 and the "hard reset" columns of the chapters), RESET still held.  The
values the spec does not state (the local timer's reading, the input levels) are 0 and low, but for the start and target
gain of the gain fade, which are 255 as the gain itself (notes/assumptions/5.md). -/
def State.reset : State where
  localTimer := 0
  inputs := { estop := false, lowlvl := false, pflt := 0, hhom := 0, hena := 0, henb := 0, lrx := [] }
  ctl :=
    { phase := .held, settleTimer := none, state := .startUp, station := 0, rehearsal := false, reason := 0
      firstCause := none, causes := {}, selected := 0, held := none, followHold := 0, followRunning := 0
      followEnding := 0, endingCause := none, lightRunOut := false, audioRunOut := false, alertTimer := none }
  line :=
    { tx := .quiet, receiver := .hunting, quietSince := some 0, lowRun := 0, latch := { latch := 0, moment := 0 }
      alertSlot := none, alertTries := 0, reportSlot := none, reportTries := 0
      paceSlot := false, paceTries := 0, replaced := false, duplicate := false, dupTimer := none }
  peers := { entries := Vector.replicate 24 {}, lastSetting := none, lastAdjust := none }
  clock := { showTime := 0, paceTimer := none, solo := false, solitude := none, stepped := false, stepRecent := none }
  store :=
    { header := none, config := StationConfig.empty, entry := none, configReq := none, dirReq := none, cueReq := none
      audioReq := none, dirStep := .block 0, cuePos := none, audioPos := none, port := none }
  seq :=
    { current := none, partialRec := none, staged := none, queue := [], table := Vector.replicate 4 none
      sectionNo := 0, beatLen := 500, sectionStart := 0, predicted := Vector.replicate 8 0, lastId := none
      nextOrder := 0, endSeen := false, catchUp := false }
  jet :=
    { rawWind := 0, windEdge := none, wf := 0, derate := 1000, windFilter := none, planned := 0, other := 0
      share := 0, scale := 1000, chans := Vector.replicate 4 {}, view := none, passDue := false }
  pump := { period := none, pumps := Vector.replicate 4 {}, nozzles := Vector.replicate 16 {}, wetEnding := false }
  head := { heads := Vector.replicate 8 {}, permits := Vector.replicate 16 false }
  lights :=
    { fixtures := Vector.replicate 12 {}, lightTimer := none, working := Vector.replicate 12 {}
      holding := Vector.replicate 12 {}, pwmTimer := none }
  music :=
    { fifo := [], playIndex := 0, resync := false, underrun := false, repeatDue := false, lastLeft := 0, lastRight := 0
      gain := 255, startGain := 255, targetGain := 255, fadeLen := 0, elapsed := 0, runOut := false, slotBase := none
      slots := 0, syncTimer := none, gainTimer := none }
  mon := { counters := Vector.replicate 4 {}, pendingClear := none }
  pending := []

end Sys2Proof.Machine
end

