-- ==== Sys2Proof/Machine/Ops.lean ====
section
/-! DEFINITION. The operations the blocks share: sets of indices, integer arithmetic, the passing of time (R25, R49),
which states the blocks work in, the raising of events (R167, R168), and the request for a pass of Jet Computation. -/

namespace Sys2Proof.Machine

/-! ### Sets held as bits, and bytes -/

/-- Bit `i` of a field stands for index `i` (13_layouts). -/
def withBit {w : Nat} (b : BitVec w) (i : Nat) (v : Bool) : BitVec w :=
  if v then b ||| (1#w <<< i) else b &&& ~~~(1#w <<< i)

/-- The set of the indices for which `f` holds. -/
def bitsOf (n : Nat) (f : Fin n → Bool) : BitVec n :=
  (List.finRange n).foldl (fun b i => withBit b i.val (f i)) 0

/-- How many indices a set holds. -/
def countBits {w : Nat} (b : BitVec w) : Nat :=
  ((List.range w).filter fun i => b.getLsbD i).length

/-- Byte `i` of some data; bytes beyond its end read as 0. -/
def byteAt (d : List Byte) (i : Nat) : Nat := (d.getD i 0).toNat

/-- Two bytes, most significant first (13_layouts). -/
def be16 (d : List Byte) (i : Nat) : Nat := byteAt d i * 256 + byteAt d (i + 1)

/-- Four bytes, most significant first (13_layouts). -/
def be32 (d : List Byte) (i : Nat) : Nat := be16 d i * 65536 + be16 d (i + 2)

/-- A 16-bit field in two's complement. -/
def signed16 (n : Nat) : Int := if n < 32768 then n else (n : Int) - 65536

/-- The two bytes of a 16-bit field, most significant first. -/
def bytes16 (n : Nat) : List Byte := [BitVec.ofNat 8 (n / 256), BitVec.ofNat 8 n]

/-- The four bytes of a 32-bit field, most significant first. -/
def bytes32 (n : Nat) : List Byte := bytes16 (n / 65536) ++ bytes16 n

/-- Whether index `i` of a table of `n` items is the item numbered `k` in a configuration field. -/
def nthD {α : Type} {n : Nat} (v : Vector α n) (i : Nat) (d : α) : α := v.toList.getD i d

/-! ### Arithmetic (00_scope, "Arithmetic") -/

/-- The digits of the integer square root, from bit `k - 1` down. -/
def isqrtFrom : Nat → Nat → Nat → Nat
  | 0, r, _ => r
  | k + 1, r, x => if (r + 2 ^ k) * (r + 2 ^ k) ≤ x then isqrtFrom k (r + 2 ^ k) x else isqrtFrom k r x

/-- isqrt (00_scope): the largest integer whose square does not exceed `x`. -/
def isqrt (x : Nat) : Nat := isqrtFrom (Nat.log2 x / 2 + 1) 0 x

/-- A value clamped to a range takes the nearer end of the range when it falls outside (00_scope). -/
def clampNat (lo hi x : Nat) : Nat := if x < lo then lo else if hi < x then hi else x

/-- The same for a signed value. -/
def clampInt (lo hi x : Int) : Int := if x < lo then lo else if hi < x then hi else x

/-! ### States and time -/

/-- The blocks work: start-up is over and the station is not in CONFIG FAULT (R2, R3). -/
def State.operating (s : State) : Bool :=
  match s.ctl.state with
  | .startUp | .configFault => false
  | _ => true

/-- The sampled station number lies in 1 to 24 (R2). -/
def State.validNumber (s : State) : Bool := 1 ≤ s.ctl.station && s.ctl.station ≤ 24

/-- The states in which an agreement is held (R15) and SOLO is watched (R59). -/
def ShowState.underWay : ShowState → Bool
  | .countdown | .running | .hold => true
  | _ => false

/-- The states in which cues are read and issued (R83, R87). -/
def ShowState.cueing : ShowState → Bool
  | .countdown | .running => true
  | _ => false

/-- The states in which show time runs (R49). -/
def ShowState.timeRuns : ShowState → Bool
  | .countdown | .running | .ending => true
  | _ => false

/-- Show time is held within the signed 32-bit range; what would pass an end stays at it (R49). -/
def clampShowTime (t : Int) : Int := clampInt (-2147483648) 2147483647 t

/-- `dt` µs of the station's oscillator pass: the local timer counts them in every state after release (R25), and show
time counts them where it runs (R49).  While RESET is held nothing counts. -/
def State.passTime (dt : Nat) (s : State) : State :=
  if s.ctl.phase = .held then s
  else
    { s with
      localTimer := s.localTimer + dt
      clock := { s.clock with
        showTime := if s.ctl.state.timeRuns then clampShowTime (s.clock.showTime + dt) else s.clock.showTime } }

/-- Time passes until the local timer reads `t`; nothing passes when it already does (notes/assumptions/2.md). -/
def State.passTo (t : Nat) (s : State) : State := s.passTime (t - s.localTimer)

/-- Time passes until show time, where it runs, reaches `t` µs (notes/assumptions/2.md). -/
def State.passShowTo (t : Int) (s : State) : State :=
  if s.ctl.state.timeRuns then s.passTime (t - s.clock.showTime).toNat else s

/-- Show time in ms, rounded down (R89, R151). -/
def State.showMs (s : State) : Int := Int.fdiv s.clock.showTime 1000

/-! ### Events (12) -/

/-- What one event makes of one counter (R167, R168). -/
def CounterRec.count (e : Sample) (c : CounterRec) : CounterRec :=
  if c.kind = some e.kind then
    let v := if c.value < 65535 then c.value + 1 else 65535
    if 0 < c.threshold ∧ c.crossed = false ∧ c.threshold ≤ v then
      { c with value := v, crossed := true, sample := some e }
    else { c with value := v }
  else c

/-- Every counter counts the event (R167). -/
def Monitor.count (e : Sample) (m : Monitor) : Monitor :=
  { m with counters := Vector.ofFn fun i : Fin 4 => (m.counters[i]).count e }

/-- A block raises an event: it goes to the Show Monitor with the present show time (R35, R68, R96 …). -/
def State.raise (kind : EventKind) (cueId object : Option Nat) (s : State) : State :=
  { s with mon := s.mon.count { kind := kind, time := s.clock.showTime, cueId := cueId, object := object } }

/-- A report of R108 asks Jet Computation for a pass; none is made in CONFIG FAULT or before start-up ends. -/
def State.askPass (s : State) : State :=
  if s.operating then { s with jet := { s.jet with passDue := true } } else s

/-! ### Updates of one item -/

/-- One pump record changes. -/
def State.setPump (c : Channel) (p : PumpRec) (s : State) : State :=
  { s with pump := { s.pump with pumps := s.pump.pumps.set c p } }

/-- One nozzle record changes. -/
def State.setNozzle (z : Nozzle) (n : NozzleRec) (s : State) : State :=
  { s with pump := { s.pump with nozzles := s.pump.nozzles.set z n } }

/-- One head record changes. -/
def State.setHead (h : Head) (r : HeadRec) (s : State) : State :=
  { s with head := { s.head with heads := s.head.heads.set h r } }

/-- One fixture record changes. -/
def State.setFixture (f : Fixture) (r : FixtureRec) (s : State) : State :=
  { s with lights := { s.lights with fixtures := s.lights.fixtures.set f r } }

/-- One peer entry changes. -/
def State.setPeer (k : Peer) (e : PeerEntry) (s : State) : State :=
  { s with peers := { s.peers with entries := s.peers.entries.set k e } }

end Sys2Proof.Machine
end

