-- ==== Sys2Proof/Machine/Flags.lean ====
section
/-! DEFINITION. The codes and flag bytes of the layouts (R33, R166, R171): show state codes, event kind codes, frame kind
codes, the PACE flags, the SAFE cause set, and the counter flags of a REPORT. -/

namespace Sys2Proof.Machine

/-- The code of a show state (01, R33); start-up has none. -/
def ShowState.code : ShowState → Nat
  | .startUp => 0
  | .idle => 1
  | .loading => 2
  | .armed => 3
  | .countdown => 4
  | .running => 5
  | .hold => 6
  | .ending => 7
  | .safe => 8
  | .configFault => 9

/-- The code of an event kind (R166). -/
def EventKind.code : EventKind → Nat
  | .lateCue => 1
  | .heightClamp => 2
  | .aimClamp => 3
  | .valueClamp => 4
  | .budgetScaled => 5
  | .starved => 6
  | .pumpTrip => 7
  | .headRetry => 8
  | .headFault => 9
  | .collisionLoss => 10
  | .frameError => 11
  | .duplicateStation => 12
  | .blockReread => 13
  | .blockLost => 14
  | .unknownCue => 15
  | .badTarget => 16
  | .queueFull => 17
  | .audioSlip => 18
  | .audioResync => 19
  | .underrun => 20
  | .clockStep => 21
  | .commandIgnored => 22
  | .noShow => 23

/-- The event kind a code names (R166), or none. -/
def eventKindOf : Nat → Option EventKind
  | 1 => some .lateCue
  | 2 => some .heightClamp
  | 3 => some .aimClamp
  | 4 => some .valueClamp
  | 5 => some .budgetScaled
  | 6 => some .starved
  | 7 => some .pumpTrip
  | 8 => some .headRetry
  | 9 => some .headFault
  | 10 => some .collisionLoss
  | 11 => some .frameError
  | 12 => some .duplicateStation
  | 13 => some .blockReread
  | 14 => some .blockLost
  | 15 => some .unknownCue
  | 16 => some .badTarget
  | 17 => some .queueFull
  | 18 => some .audioSlip
  | 19 => some .audioResync
  | 20 => some .underrun
  | 21 => some .clockStep
  | 22 => some .commandIgnored
  | 23 => some .noShow
  | _ => none

/-- The code of a frame kind the station sends (R26). -/
def FrameKind.code : FrameKind → Nat
  | .pace => 1
  | .alert => 2
  | .report => 3

/-- The code of an ALERT's cause (R16). -/
def AlertCause.code : AlertCause → Nat
  | .eStop => 1
  | .lowLevel => 2

/-- The cause number of a trip (R120). -/
def TripCause.number : TripCause → Nat
  | .noFlow => 0
  | .flowLost => 1
  | .driveFault => 2

/-- The cause number of a head FAULT (R140). -/
def HeadCause.number : HeadCause → Nat
  | .homeFail => 0
  | .slip => 1

/-- The reader as an object index (R68). -/
def Reader.object : Reader → Nat
  | .config => 1
  | .directory => 2
  | .cue => 3
  | .audio => 4

/-- The code of a block kind (R172). -/
def BlockKind.code : BlockKind → Nat
  | .config => 1
  | .directory => 2
  | .cue => 3
  | .audio => 4

/-- A flag as the number of its bit. -/
def flagBit (v : Bool) (bit : Nat) : Nat := if v then 2 ^ bit else 0

/-- The SAFE cause set as its byte (R171). -/
def CauseSet.byte (c : CauseSet) : Nat :=
  flagBit c.powerUp 0 + flagBit c.eStop 1 + flagBit c.lowLevel 2 + flagBit c.peerAlert 3

/-- A cause joins the set (R16). -/
def CauseSet.insert (c : CauseSet) : SafeCause → CauseSet
  | .powerUp => { c with powerUp := true }
  | .eStop => { c with eStop := true }
  | .lowLevel => { c with lowLevel := true }
  | .peerAlert => { c with peerAlert := true }

/-- The first cause as its byte: one bit set as in the cause set, 0 when none (R171). -/
def firstCauseByte : Option SafeCause → Nat
  | none => 0
  | some c => (CauseSet.insert {} c).byte

/-- The ENDING cause as its byte (R171). -/
def endingCauseByte : Option EndingCause → Nat
  | none => 0
  | some .stop => 1
  | some .endCue => 2
  | some .follow => 3
  | some .timeLimit => 4

/-- The PACE flags byte (R171). -/
def paceFlags (solo reportPending rehearsal duplicate windPresent stepped : Bool) : Nat :=
  flagBit solo 0 + flagBit reportPending 1 + flagBit rehearsal 2 + flagBit duplicate 3 + flagBit windPresent 4 +
    flagBit stepped 5

/-- The flags of a counter part of a REPORT (R171). -/
def CounterRec.reportFlags (c : CounterRec) : Nat :=
  flagBit c.crossed 0 + flagBit c.sample.isSome 1 + flagBit (c.sample.any fun e => e.cueId.isSome) 2 +
    flagBit (c.sample.any fun e => e.object.isSome) 3

/-- REPORT PENDING: some crossed flag is set (R168). -/
def Monitor.reportPending (m : Monitor) : Bool := m.counters.toList.any fun c => c.crossed

end Sys2Proof.Machine
end

