-- ==== Sys2Proof/Decode.lean ====
section
/-! DEFINITION. Reading commands.  spec/opcode_table.json gives no row any bits, so no word spells a command and
`decodeTableWord` answers none.  The desk commands and the frames of stations do have a spelling, on the basin line:
the frame of R171 with its CRC-16, the receive checks of R26, and below them the bits of the line (R22, R23).
`decodeFrame` reads any bytes of a frame as a command (a frame that fails a check is a FRAME_ERROR, by its reason), and
`commandFrame` is its encoder. -/

namespace Sys2Proof

/-- The command that a word spells by the table's bits: the table gives none of its rows any bits. -/
def decodeTableWord (_nbits _w : Nat) : Option Instr := none

/-! ### The frame check (R171) -/

/-- One left shift of the 16-bit check, generator 1021h. -/
def crc16Shift (r : BitVec 16) : BitVec 16 := if r.getLsbD 15 then (r <<< 1) ^^^ 0x1021#16 else r <<< 1

/-- One byte worked into the 16-bit check: exclusive-ORed into the high eight bits, then eight shifts. -/
def crc16Byte (r : BitVec 16) (b : Byte) : BitVec 16 :=
  (List.range 8).foldl (fun r _ => crc16Shift r) (r ^^^ (b.setWidth 16 <<< 8))

/-- The frame check over some bytes: the register starts at FFFFh, with no final inversion. -/
def crc16 (bs : List Byte) : BitVec 16 := bs.foldl crc16Byte 0xFFFF#16

/-! ### Frames as bytes (R23, R171) -/

/-- A frame: sender, kind, payload. -/
structure LineFrame where
  sender : Byte
  kind : Byte
  payload : List Byte
  deriving DecidableEq, Repr

/-- Sender, kind, length and payload: the bytes the check is worked over. -/
def LineFrame.body (f : LineFrame) : List Byte :=
  f.sender :: f.kind :: BitVec.ofNat 8 f.payload.length :: f.payload

/-- The whole frame after its start mark and delimiter, the CRC's high byte first. -/
def LineFrame.bytes (f : LineFrame) : List Byte :=
  f.body ++ Machine.bytes16 (crc16 f.body).toNat

/-- The payload length fixed for a kind code (R26), or none when the code is not one of the eleven. -/
def payloadLength : Nat → Option Nat
  | 1 => some 20
  | 2 => some 1
  | 3 => some 64
  | 16 => some 1
  | 17 => some 3
  | 18 => some 0
  | 19 => some 0
  | 20 => some 0
  | 21 => some 0
  | 22 => some 1
  | 23 => some 2
  | _ => none

/-- The receive checks of R26, in order, on the characters of a frame; before them the two reasons of R24 for which the
characters are no complete frame: a length over 80, and a character that never began. -/
def checkFrame (bs : List Byte) : Except RxFailure LineFrame :=
  let len := Machine.byteAt bs 2
  if 80 < len then .error .lengthOver80
  else if bs.length < 5 + len then .error .noStartBit
  else
    let sender := bs.getD 0 0
    let kind := bs.getD 1 0
    let payload := (bs.drop 3).take len
    if Machine.be16 bs (3 + len) ≠ (crc16 (bs.take (3 + len))).toNat then .error .badCrc
    else if 24 < sender.toNat then .error .badSender
    else
      match payloadLength kind.toNat with
      | none => .error .badKind
      | some want =>
        if len ≠ want then .error .badLength
        else if 16 ≤ kind.toNat ∧ sender.toNat ≠ 0 then .error .deskKindFromStation
        else if kind.toNat < 16 ∧ sender.toNat = 0 then .error .stationKindFromDesk
        else if kind.toNat = 1 ∧ paceStateCode (payload.getD 5 0) = false then .error .badPaceState
        else .ok { sender := sender, kind := kind, payload := payload }

/-- A 16-bit field of a payload. -/
def field16 (p : List Byte) (i : Nat) : BitVec 16 := BitVec.ofNat 16 (Machine.be16 p i)

/-- The PACE payload at its offsets (R171). -/
def readPace (p : List Byte) : PacePayload where
  stamp := BitVec.ofNat 32 (Machine.be32 p 0)
  showNo := p.getD 4 0
  stateCode := p.getD 5 0
  sectionNo := p.getD 6 0
  flags := p.getD 7 0
  planned := field16 p 8
  ceiling := field16 p 10
  current := field16 p 12
  wind := field16 p 14
  outNozzles := p.getD 16 0
  faultHeads := p.getD 17 0
  trippedPumps := p.getD 18 0
  causes := p.getD 19 0

/-- The bytes of a PACE payload (R171). -/
def PacePayload.bytes (p : PacePayload) : List Byte :=
  Machine.bytes32 p.stamp.toNat ++ [p.showNo, p.stateCode, p.sectionNo, p.flags] ++ Machine.bytes16 p.planned.toNat ++
    Machine.bytes16 p.ceiling.toNat ++ Machine.bytes16 p.current.toNat ++ Machine.bytes16 p.wind.toNat ++
    [p.outNozzles, p.faultHeads, p.trippedPumps, p.causes]

/-- What stands at the station when a frame has been received: the frame's latches (R25) and the levels of the inputs
that a command may have to examine. -/
structure Arrival where
  rx : Rx
  hhom : BitVec 8
  pflt : BitVec 4
  estop : Bool
  deriving DecidableEq, Repr

/-- The command that a frame which passed the checks stands for (R28). -/
def frameCommand (a : Arrival) (f : LineFrame) : Instr :=
  let p := f.payload
  match f.kind.toNat with
  | 1 => .paceReceived f.sender (readPace p) a.rx
  | 2 => .alertReceived f.sender (p.getD 0 0) a.rx
  | 3 => .reportReceived f.sender
  | 16 => .select (p.getD 0 0) a.hhom
  | 17 => .start (p.getD 0 0) (field16 p 1) a.rx
  | 18 => .hold
  | 19 => .resume a.pflt
  | 20 => .stop
  | 21 => .clear a.estop
  | 22 => .restart (p.getD 0 0)
  | 23 => .query (p.getD 0 0) (p.getD 1 0)
  | _ => .frameError .badKind

/-- The characters of a received frame, read as a command: total, a frame that fails a check is a FRAME_ERROR with its
reason. -/
def decodeFrame (a : Arrival) (bs : List Byte) : Instr :=
  match checkFrame bs with
  | .error why => .frameError why
  | .ok f => frameCommand a f

/-- The encoder: the frame that spells a command which arrives on the line.  A REPORT's payload is not read by the
station, so zeros stand for it. -/
def commandFrame : Instr → Option LineFrame
  | .paceReceived sender p _ => some { sender := sender, kind := 1, payload := p.bytes }
  | .alertReceived sender cause _ => some { sender := sender, kind := 2, payload := [cause] }
  | .reportReceived sender => some { sender := sender, kind := 3, payload := List.replicate 64 0 }
  | .select n _ => some { sender := 0, kind := 16, payload := [n] }
  | .start n delay _ => some { sender := 0, kind := 17, payload := n :: Machine.bytes16 delay.toNat }
  | .hold => some { sender := 0, kind := 18, payload := [] }
  | .resume _ => some { sender := 0, kind := 19, payload := [] }
  | .stop => some { sender := 0, kind := 20, payload := [] }
  | .clear _ => some { sender := 0, kind := 21, payload := [] }
  | .restart target => some { sender := 0, kind := 22, payload := [target] }
  | .query target clearFlag => some { sender := 0, kind := 23, payload := [target, clearFlag] }
  | _ => none

/-! ### The line, bit by bit (R22, R23) -/

/-- A character: a start bit low, eight data bits least significant first, a stop bit high (R22). -/
def charWave (b : Byte) : List Bool :=
  false :: ((List.range 8).map fun i => b.getLsbD i) ++ [true]

/-- A frame on the line, one entry per bit time: the start mark, the delimiter, the characters (R23). -/
def frameWave (bs : List Byte) : List Bool :=
  List.replicate 14 false ++ true :: bs.flatMap charWave

/-- The bit times at the high level with which a frame ends: the last stop bit, and the data bits right before it that are
1 (R22, R23). -/
def endHighs (bs : List Byte) : Nat := ((charWave (bs.getLastD 0)).reverse.takeWhile id).length

/-- The bit times at the high level with which a frame ends that comes as a command.  Of a REPORT's check and of a frame
that failed only the stop bit is known, and after a missing start bit only the 10 bit times of R24
(the model's choice, notes/assumptions/34.md). -/
def commandHighs (c : Instr) : Nat :=
  match c with
  | .reportReceived _ => 1
  | .frameError .noStartBit => 10
  | _ =>
    match commandFrame c with
    | some f => endHighs f.bytes
    | none => 1

/-- The eight data bits of a character as a byte, least significant first. -/
def byteOfBits (bits : List Bool) : Byte :=
  (List.range 8).foldl (fun b i => Machine.withBit b i (bits.getD i true)) 0

end Sys2Proof
end

