-- ==== Sys2Proof/Machine/Operands.lean ====
section
/-! DEFINITION. What the flash brings, read at its offsets (R62 to R66, R171, R172): the block header and its CRC-32, the
volume header, directory slots, section tables, the configuration with its validation (R75, R76), cue records (R78) and
audio frames. -/

namespace Sys2Proof.Machine

/-! ### Blocks -/

/-- Block numbers run from 0 to 131,071 (R62). -/
def maxBlock : Nat := 131071

/-- One right shift of the 32-bit check, generator EDB88320h in reflected form (R172). -/
def crc32Shift (r : BitVec 32) : BitVec 32 := if r.getLsbD 0 then (r >>> 1) ^^^ 0xEDB88320#32 else r >>> 1

/-- One byte worked into the 32-bit check. -/
def crc32Byte (r : BitVec 32) (b : Byte) : BitVec 32 :=
  (List.range 8).foldl (fun r _ => crc32Shift r) (r ^^^ b.setWidth 32)

/-- The block check over some bytes: the register starts at FFFFFFFFh and is inverted at the end (R172). -/
def crc32 (bs : List Byte) : BitVec 32 := ~~~(bs.foldl crc32Byte 0xFFFFFFFF#32)

/-- The payload length field of a block (R172). -/
def blockLength (data : List Byte) : Nat := be16 data 6

/-- The payload in use of a block: its first payload-length bytes after the header (R62). -/
def blockPayload (data : List Byte) : List Byte := (data.drop 32).take (blockLength data)

/-- The bytes the block CRC covers: the header with its CRC field as zeros, then the payload in use (R62). -/
def crcCover (data : List Byte) : List Byte := data.take 28 ++ [0, 0, 0, 0] ++ blockPayload data

/-- The four checks of R67: length in range, CRC, identity, and the expected length. -/
def goodRead (e : Expect) (data : List Byte) : Bool :=
  blockLength data ≤ 4064 && be32 data 28 == (crc32 (crcCover data)).toNat &&
    (byteAt data 0 == e.kind.code && byteAt data 1 == e.showNo && byteAt data 2 == e.station && be16 data 4 == e.seq) &&
    (match e.len with
     | none => true
     | some n => blockLength data == n)

/-! ### The volume header, the directory, the section table (R63, R64, R172) -/

/-- The volume header's payload (102 bytes). -/
def readHeader (p : List Byte) : VolumeHeader where
  version := byteAt p 0
  dirCount := byteAt p 1
  dirFirst := be32 p 2
  configBlocks := Vector.ofFn fun s : Fin 24 => be32 p (6 + 4 * s.val)

/-- The section table block that the first slot of show `n` names, searching the 32 slots in order (R64). -/
def findSlot (p : List Byte) (n : Nat) : Option Nat :=
  ((List.range 32).find? fun i => byteAt p (21 * i) == n).map fun i => be32 p (21 * i + 17)

/-- A station's section of a section table (R64). -/
def readSection (p : List Byte) (station : Nat) : ShowSection where
  firstCue := be32 p (14 * (station - 1))
  cueCount := be16 p (14 * (station - 1) + 4)
  firstAudio := be32 p (14 * (station - 1) + 6)
  frames := be32 p (14 * (station - 1) + 10)

/-- The number of audio blocks of a stream: its frame count divided by 1,016, rounded up (R65). -/
def audioBlocks (frames : Nat) : Nat := (frames + 1015) / 1016

/-- How many frames audio block `k` holds (R65). -/
def audioBlockFrames (frames k : Nat) : Nat :=
  if k + 1 < audioBlocks frames then 1016 else frames - 1016 * (audioBlocks frames - 1)

/-- The frames of audio block `k` (R172): frame `1,016k + m` at offset `4m`. -/
def readFrames (p : List Byte) (k count : Nat) : List AudioFrame :=
  (List.range count).map fun m =>
    { index := 1016 * k + m, left := signed16 (be16 p (4 * m)), right := signed16 (be16 p (4 * m + 2)) }

/-- As many silent frames as audio block `k` would have held (R74). -/
def silentFrames (k count : Nat) : List AudioFrame :=
  (List.range count).map fun m => { index := 1016 * k + m, left := 0, right := 0 }

/-! ### The configuration (R75, R76, R172) -/

/-- A channel record at its offset. -/
def readChannel (p : List Byte) (o : Nat) : ChannelCfg where
  present := byteAt p o != 0
  hfull := be16 p (o + 1)
  qfull := be16 p (o + 3)
  nmin := be16 p (o + 5)
  nmax := be16 p (o + 7)
  rampUp := byteAt p (o + 9)
  rampDown := byteAt p (o + 10)
  startTimeout := be16 p (o + 11)
  kf := be32 p (o + 13)
  lbase := be16 p (o + 17)

/-- A head record at its offset. -/
def readHead (p : List Byte) (o : Nat) : HeadCfg where
  present := byteAt p o != 0
  range := be16 p (o + 1)
  stepInterval := be16 p (o + 3)
  homeInterval := be16 p (o + 5)
  ratio := byteAt p (o + 7)
  tolerance := byteAt p (o + 8)
  settle := byteAt p (o + 9)
  park := be16 p (o + 10)

/-- A nozzle record at its offset. -/
def readNozzle (p : List Byte) (o : Nat) : NozzleCfg where
  present := byteAt p o != 0
  channel := byteAt p (o + 1)
  kind := byteAt p (o + 2)
  head := byteAt p (o + 3)
  envMin := be16 p (o + 4)
  envMax := be16 p (o + 6)
  hmax := be16 p (o + 8)
  out := byteAt p (o + 10) != 0

/-- A fixture record at its offset. -/
def readFixture (p : List Byte) (o : Nat) : FixtureCfg where
  present := byteAt p o != 0
  role := byteAt p (o + 1)
  nozzle := byteAt p (o + 2)
  submerged := byteAt p (o + 3) != 0

/-- The configuration payload (427 bytes). -/
def readConfig (p : List Byte) : StationConfig where
  counterKinds := Vector.ofFn fun i : Fin 4 => byteAt p (3 * i.val)
  thresholds := Vector.ofFn fun i : Fin 4 => be16 p (3 * i.val + 1)
  capacity := be16 p 12
  ceiling := be16 p 14
  lineDelay := byteAt p 16
  anemometer := byteAt p 17 != 0
  windK := be32 p 18
  wLo := be16 p 22
  wHi := be16 p 24
  dFloor := be16 p 26
  holdDuty := byteAt p 28
  safeWhite := byteAt p 29
  zone := byteAt p 30 != 0
  channels := Vector.ofFn fun c : Fin 4 => readChannel p (31 + 19 * c.val)
  heads := Vector.ofFn fun h : Fin 8 => readHead p (107 + 12 * h.val)
  nozzles := Vector.ofFn fun z : Fin 16 => readNozzle p (203 + 11 * z.val)
  fixtures := Vector.ofFn fun f : Fin 12 => readFixture p (379 + 4 * f.val)

/-- `lo ≤ x ≤ hi`. -/
def within (lo hi x : Nat) : Bool := lo ≤ x && x ≤ hi

/-- The monitor fields (R75, order 1): each kind one of the 23 codes. -/
def StationConfig.monitorOk (g : StationConfig) : Bool := g.counterKinds.toList.all fun k => within 1 23 k

/-- A channel record passes (R76); an absent one passes unread. -/
def ChannelCfg.ok (c : ChannelCfg) : Bool :=
  !c.present ||
    (within 100 8000 c.hfull && within 1 2000 c.qfull && within 50 500 c.nmin && within c.nmin 1000 c.nmax &&
      within 1 100 c.rampUp && within 1 100 c.rampDown && within 500 5000 c.startTimeout && within 1 4294967295 c.kf &&
      within 0 1500 c.lbase)

/-- A head record passes (R76). -/
def HeadCfg.ok (h : HeadCfg) : Bool :=
  !h.present ||
    (within 200 3200 h.range && within 250 20000 h.stepInterval && within 250 20000 h.homeInterval &&
      (h.ratio == 1 || h.ratio == 2 || h.ratio == 4) && within 1 16 h.tolerance && within 20 200 h.settle &&
      h.park < h.range)

/-- The channel record a nozzle names. -/
def StationConfig.channelOf (g : StationConfig) (n : NozzleCfg) : ChannelCfg := nthD g.channels n.channel {}

/-- The head record a nozzle names. -/
def StationConfig.headOf (g : StationConfig) (n : NozzleCfg) : HeadCfg := nthD g.heads n.head {}

/-- A nozzle record passes (R76). -/
def StationConfig.nozzleOk (g : StationConfig) (n : NozzleCfg) : Bool :=
  !n.present ||
    ((g.channelOf n).present && within 0 1 n.kind &&
      (n.kind != 1 || ((g.headOf n).present && n.envMin ≤ n.envMax && n.envMax < (g.headOf n).range)) &&
      within 100 (g.channelOf n).hfull n.hmax)

/-- A fixture record passes (R76). -/
def StationConfig.fixtureOk (g : StationConfig) (f : FixtureCfg) : Bool :=
  !f.present || (within 0 1 f.role && (f.role != 0 || (nthD g.nozzles f.nozzle {}).present))

/-- A present channel has a present nozzle naming it (R76). -/
def StationConfig.channelHasNozzle (g : StationConfig) (c : Channel) : Bool :=
  !(g.channels[c]).present || g.nozzles.toList.any fun n => n.present && n.channel == c.val

/-- Every check of R75 and R76 in order, each with its reason code. -/
def StationConfig.checks (g : StationConfig) : List (Bool × Nat) :=
  [(g.monitorOk, 8), (within 1 65535 g.capacity, 9), (within 1 65535 g.ceiling && g.ceiling ≤ g.capacity, 10),
   (within 0 255 g.lineDelay, 11), (!g.anemometer || within 1 4294967295 g.windK, 12),
   (within 0 600 g.wLo && within 0 600 g.wHi && g.wLo < g.wHi, 13), (within 100 1000 g.dFloor, 14),
   (within 20 100 g.holdDuty, 15), (within 0 255 g.safeWhite, 16)] ++
  ((List.finRange 4).map fun c => ((g.channels[c]).ok, 32 + c.val)) ++
  ((List.finRange 8).map fun h => ((g.heads[h]).ok, 40 + h.val)) ++
  ((List.finRange 16).map fun z => (g.nozzleOk g.nozzles[z], 48 + z.val)) ++
  ((List.finRange 12).map fun f => (g.fixtureOk g.fixtures[f], 64 + f.val)) ++
  ((List.finRange 4).map fun c => (g.channelHasNozzle c, 80 + c.val))

/-- The reason code of the first check that fails, or none when the configuration is valid (R71 step 6). -/
def StationConfig.reason (g : StationConfig) : Option Nat := (g.checks.find? fun c => !c.1).map fun c => c.2

/-- A configuration that passes every check. -/
def StationConfig.valid (g : StationConfig) : Bool := g.reason == none

/-! ### What the configuration says of its items -/

/-- The present nozzles of a channel, in index order (R100). -/
def StationConfig.nozzlesOf (g : StationConfig) (c : Channel) : List Nozzle :=
  (List.finRange 16).filter fun z => (g.nozzles[z]).present && (g.nozzles[z]).channel == c.val

/-- The nozzle count nc of a channel (R100). -/
def StationConfig.nc (g : StationConfig) (c : Channel) : Nat := (g.nozzlesOf c).length

/-- The least Hmax among a channel's present nozzles (R85, R100). -/
def StationConfig.leastHmax (g : StationConfig) (c : Channel) : Nat :=
  match g.nozzlesOf c with
  | [] => 0
  | z :: zs => zs.foldl (fun m y => min m (g.nozzles[y]).hmax) (g.nozzles[z]).hmax

/-- The present swivel nozzles of a head (R140, R142). -/
def StationConfig.swivelsOf (g : StationConfig) (h : Head) : List Nozzle :=
  (List.finRange 16).filter fun z => (g.nozzles[z]).present && (g.nozzles[z]).kind == 1 && (g.nozzles[z]).head == h.val

/-! ### Cue records (R78, R172) -/

/-- A cue's body as the record spells it, its target index not yet checked. -/
inductive CueForm where
  | jet (channel height : Nat) (openSet : NozzleSet)
  | aim (head target : Nat) (sweep : Option SweepPart)
  | light (fixture : Nat) (colours : List Colour) (fade divisor : Nat)
  | level (gain fade : Nat)
  | mark (sectionNo beatLen : Nat)
  | endCue
  deriving DecidableEq, Repr

/-- A colour at its offset: red, green, blue, white. -/
def readColour (r : List Byte) (o : Nat) : Colour where
  r := byteAt r o
  g := byteAt r (o + 1)
  b := byteAt r (o + 2)
  w := byteAt r (o + 3)

/-- The form of a whole record (R80 check 1): its kind is one of the six and its length a form of that kind.  An AIM whose
sweep part has a leg length of 0 is read without one (R78). -/
def cueForm (r : List Byte) : Option CueForm :=
  match byteAt r 1, r.length with
  | 1, 13 => some (.jet (byteAt r 8) (be16 r 9) (BitVec.ofNat 16 (be16 r 11)))
  | 2, 11 => some (.aim (byteAt r 8) (be16 r 9) none)
  | 2, 14 =>
    some (.aim (byteAt r 8) (be16 r 9)
      (if byteAt r 13 = 0 then none else some { partner := be16 r 11, beats := byteAt r 13 }))
  | 3, 15 => some (.light (byteAt r 8) [readColour r 11] (be16 r 9) 1)
  | 3, 20 => some (.light (byteAt r 8) [readColour r 12, readColour r 16] (be16 r 9) (byteAt r 11))
  | 3, 24 =>
    some (.light (byteAt r 8) [readColour r 12, readColour r 16, readColour r 20] (be16 r 9) (byteAt r 11))
  | 3, 28 =>
    some (.light (byteAt r 8) [readColour r 12, readColour r 16, readColour r 20, readColour r 24] (be16 r 9)
      (byteAt r 11))
  | 4, 11 => some (.level (byteAt r 8) (be16 r 9))
  | 5, 11 => some (.mark (byteAt r 8) (be16 r 9))
  | 6, 8 => some .endCue
  | _, _ => none

/-- The target check of R80 (check 3): the body when the target lies in range and is present, else the index named.  The
open set of a JET keeps only the present nozzles of its channel. -/
def CueForm.resolve (g : StationConfig) : CueForm → Except Nat CueBody
  | .jet c height openSet =>
    if h : c < 4 then
      if (g.channels[c]).present then
        .ok (.jet ⟨c, h⟩ height (openSet &&& bitsOf 16 fun z => (g.nozzlesOf ⟨c, h⟩).contains z))
      else .error c
    else .error c
  | .aim i target sweep =>
    if h : i < 8 then if (g.heads[i]).present then .ok (.aim ⟨i, h⟩ target sweep) else .error i else .error i
  | .light i colours fade divisor =>
    if h : i < 12 then
      if (g.fixtures[i]).present then .ok (.light ⟨i, h⟩ colours fade divisor) else .error i
    else .error i
  | .level gain fade => .ok (.level gain fade)
  | .mark sectionNo beatLen => .ok (.mark sectionNo beatLen)
  | .endCue => .ok .endCue

/-- The object index of a cue's target (R96): channel, head or fixture, and none for the other kinds. -/
def CueBody.object : CueBody → Option Nat
  | .jet c _ _ => some c.val
  | .aim h _ _ => some h.val
  | .light f _ _ _ => some f.val
  | .level _ _ => none
  | .mark _ _ => none
  | .endCue => none

end Sys2Proof.Machine
end

