-- ==== Sys2Proof/Machine/Light.lean ====
section
/-! DEFINITION. The Light Engine (10): fades, gamma, chases, gating and the run-out, as operations on the fixture records
and on the working and holding duties. -/

namespace Sys2Proof.Machine

/-! ### Levels and duties -/

/-- Gamma (R150): the duty of an output level. -/
def gamma (l : Nat) : Nat := l * l * 4096 / 65025

/-- Gamma on each colour. -/
def Colour.duties (c : Colour) : Colour := { r := gamma c.r, g := gamma c.g, b := gamma c.b, w := gamma c.w }

/-- The state of the nozzle a fixture is bound to; a number that names no nozzle reads as DRY. -/
def State.boundNozzle (s : State) (g : FixtureCfg) : NozzleState := (nthD s.pump.nozzles g.nozzle {}).state

/-- The output levels of fixture `f`: the first case of R152 that applies. -/
def State.outputLevel (s : State) (f : Fixture) : Colour :=
  let g := s.store.config.fixtures[f]
  if g.present = false then {}
  else if g.submerged ∧ s.inputs.lowlvl then {}
  else if s.ctl.state = .safe then (if g.role = 1 then { w := s.store.config.safeWhite } else {})
  else if g.role = 0 ∧ (s.boundNozzle g = .dry ∨ s.boundNozzle g = .out) then {}
  else (s.lights.fixtures[f]).current

/-- The working duties of every fixture are worked afresh (R152); the engine does not work in CONFIG FAULT. -/
def State.regate (s : State) : State :=
  if s.operating then
    { s with lights := { s.lights with working := Vector.ofFn fun f : Fin 12 => (s.outputLevel f).duties } }
  else s

/-! ### Fades (R149) -/

/-- The level a fade has reached: start + trunc((target - start) * elapsed / length). -/
def fadeLevel (start target elapsed len : Nat) : Nat :=
  ((start : Int) + Int.tdiv (((target : Int) - start) * elapsed) len).toNat

/-- The levels a lamp fade has reached. -/
def fadeColour (start target : Colour) (elapsed len : Nat) : Colour where
  r := fadeLevel start.r target.r elapsed len
  g := fadeLevel start.g target.g elapsed len
  b := fadeLevel start.b target.b elapsed len
  w := fadeLevel start.w target.w elapsed len

/-- A fade begins (R149); a fade of length 0 is complete at once. -/
def FixtureRec.beginFade (to_ : Colour) (len : Nat) (r : FixtureRec) : FixtureRec :=
  { r with
    start := r.current, target := to_, fadeLen := len, elapsed := 0
    current := if len = 0 then to_ else r.current }

/-- A fade whose elapsed has reached its length is complete (R146). -/
def FixtureRec.fadeComplete (r : FixtureRec) : Bool := r.fadeLen ≤ r.elapsed

/-- A light step advances a fade that is not complete (R149). -/
def FixtureRec.advance (r : FixtureRec) : FixtureRec :=
  if r.fadeComplete then r
  else
    let e := min (r.elapsed + 10) r.fadeLen
    { r with
      elapsed := e
      current := if e = r.fadeLen then r.target else fadeColour r.start r.target e r.fadeLen }

/-! ### Chases (R151) -/

/-- The beat index of the present show time (R89, R151). -/
def State.beatIndex (s : State) : Int := Int.fdiv (s.showMs - s.seq.sectionStart) s.seq.beatLen

/-- The beat group for a divisor (R151). -/
def State.beatGroup (s : State) (divisor : Nat) : Int := Int.fdiv s.beatIndex divisor

/-- A fixture in PATTERN steps its chase when the beat group has changed (R151): in every show state, so that a boundary
crossed between the last light step and the entry to HOLD steps it once in HOLD (the model's reading,
notes/assumptions/49.md). -/
def State.chase (s : State) (r : FixtureRec) : FixtureRec :=
  match r.pattern with
  | none => r
  | some p =>
    if s.beatGroup p.divisor = p.group then r
    else
      let i := if p.index + 1 < p.colours.length then p.index + 1 else 0
      FixtureRec.beginFade (p.colours.getD i {}) p.stepFade
        { r with pattern := some { p with group := s.beatGroup p.divisor, index := i } }

/-- At the issue of a MARK the group of every chase is worked afresh without an advance (R151). -/
def State.markChases (s : State) : State :=
  { s with lights := { s.lights with
      fixtures := Vector.ofFn fun f : Fin 12 =>
        let r := s.lights.fixtures[f]
        { r with pattern := r.pattern.map fun p => { p with group := s.beatGroup p.divisor } } } }

/-! ### Taking a LIGHT (R148) -/

/-- A LIGHT is taken: its fade and divisor are clamped, and a fade or a chase begins.  `instant` is a LIGHT applied by a
catch-up scan, whose first fade is 0 (R93). -/
def State.takeLight (f : Fixture) (colours : List Colour) (fade divisor id : Nat) (instant : Bool) (s : State) : State :=
  let chase := 1 < colours.length
  let len := min fade 60000
  let div := clampNat 1 16 divisor
  let clamped := (60000 < fade ∧ (instant = false ∨ chase)) ∨ (chase ∧ div ≠ divisor)
  let s1 := if clamped then s.raise .valueClamp (some id) (some f.val) else s
  let r := s.lights.fixtures[f]
  let pattern : Option Pattern :=
    if chase then
      some { colours := colours, divisor := div, stepFade := len, index := 0, group := s.beatGroup div }
    else none
  let r' := FixtureRec.beginFade (colours.getD 0 {}) (if instant then 0 else len)
    { r with ending := false, pattern := pattern }
  (s1.setFixture f r').regate

/-! ### Run-out, resets and the two periods -/

/-- Every fixture record as at hard reset (R146, R153, R155). -/
def State.resetFixtures (s : State) : State :=
  { s with lights := { s.lights with fixtures := Vector.replicate 12 {} } }

/-- The run-out fade of ENDING begins (R154); with no present fixture it is reported complete at once. -/
def State.beginLightRunOut (s : State) : State :=
  let g := s.store.config.fixtures
  let s1 := { s with lights := { s.lights with fixtures := Vector.ofFn fun f : Fin 12 =>
    let r := s.lights.fixtures[f]
    if (g[f]).present then { FixtureRec.beginFade {} 2000 { r with pattern := none } with ending := true } else r } }
  if g.toList.any fun x => x.present then s1 else { s1 with ctl := { s1.ctl with lightRunOut := true } }

/-- Stage 3 of the light step (R154): when every present fixture in its run-out has a complete fade, the run-out is
reported complete, once, and the ending fields are cleared. -/
def State.checkLightRunOut (s : State) : State :=
  let inRunOut := (List.finRange 12).filter fun f => (s.store.config.fixtures[f]).present && (s.lights.fixtures[f]).ending
  if inRunOut ≠ [] ∧ inRunOut.all (fun f => (s.lights.fixtures[f]).fadeComplete) then
    { s with
      ctl := { s.ctl with lightRunOut := true }
      lights := { s.lights with
        fixtures := Vector.ofFn fun f : Fin 12 => { s.lights.fixtures[f] with ending := false } } }
  else s

/-- Stages 1 and 2 of the light step (R147): fades advance, then chases step, for every present fixture. -/
def State.advanceFixtures (s : State) : State :=
  { s with lights := { s.lights with
      fixtures := Vector.ofFn fun f : Fin 12 =>
        if (s.store.config.fixtures[f]).present then s.chase (s.lights.fixtures[f]).advance
        else s.lights.fixtures[f] } }

/-- The four stages of a light step (R147). -/
def State.lightStep (s : State) : State := s.advanceFixtures.checkLightRunOut.regate

/-- At a rollover every holding duty takes the working duty (R145). -/
def State.pwmRollover (s : State) : State := { s with lights := { s.lights with holding := s.lights.working } }

end Sys2Proof.Machine
end

