-- ==== Sys2Proof/Machine/Pump.lean ====
section
/-! DEFINITION. Pump Control (08): the pump state machine, trips, flow, the valve commands, the nozzle states. -/

namespace Sys2Proof.Machine

/-! ### Figures -/

/-- The flight of a height in ms (R125): the time the water takes to climb to it. -/
def flight (hd : Nat) : Nat := isqrt (hd * 2039)

/-- The run enable is on in STARTING, RUNNING and STOPPING (R114). -/
def PumpState.runs : PumpState → Bool
  | .starting | .running | .stopping => true
  | .stopped | .tripped => false

/-- A channel's measured flow (R122); in rehearsal the f′ of the latest hand-off while the simulated pump runs. -/
def State.measuredFlow (s : State) (c : Channel) : Nat :=
  let p := s.pump.pumps[c]
  if s.ctl.rehearsal then (if p.state.runs then p.fs else 0) else p.flow

/-- The current draw: the sum of the measured flows of the present channels (R122). -/
def State.currentDraw (s : State) : Nat :=
  min 65535 (((List.finRange 4).map fun c =>
    if (s.store.config.channels[c]).present then s.measuredFlow c else 0).foldl (fun a x => a + x) 0)

/-- The start threshold Fs (R116). -/
def ChannelCfg.startThreshold (g : ChannelCfg) : Nat := g.qfull * g.nmin / 1000

/-- The expected flow of a running pump (R119). -/
def State.expectedFlow (s : State) (c : Channel) (output : Nat) : Nat :=
  (s.store.config.channels[c]).qfull * output * countBits (s.pump.pumps[c]).openSet / (1000 * s.store.config.nc c)

/-- Some valve of the channel is open. -/
def State.anyValveOpen (s : State) (c : Channel) : Bool :=
  (s.store.config.nozzlesOf c).any fun z => (s.pump.nozzles[z]).command

/-! ### Valves and nozzles (R123 to R125) -/

/-- The show states in which a valve may be open (R123). -/
def State.valvesAllowed (s : State) : Bool :=
  match s.ctl.state with
  | .running | .hold => true
  | .ending => s.pump.wetEnding
  | _ => false

/-- The record of the pump whose channel a nozzle is on. -/
def State.pumpOf (s : State) (z : Nozzle) : PumpRec := nthD s.pump.pumps (s.store.config.nozzles[z]).channel {}

/-- The command of valve `z` (R123). -/
def State.valveCommand (s : State) (z : Nozzle) : Bool :=
  s.valvesAllowed && (s.store.config.nozzles[z]).present && (s.pumpOf z).valves.getLsbD z.val &&
    (s.pump.nozzles[z]).state != .out && s.head.permits[z] && (s.pumpOf z).state.runs

/-- The nozzle record after its valve command is worked afresh (R123 to R126). -/
def State.nozzleAfter (s : State) (z : Nozzle) : NozzleRec :=
  let n := s.pump.nozzles[z]
  let open_ := s.valveCommand z
  if n.state = .out then { n with command := false, drive := .off }
  else if open_ ∧ n.command = false then
    { n with command := true, drive := .pullIn (s.localTimer + 100000), openedAt := s.localTimer, state := .rising }
  else if open_ = false ∧ n.command then
    { n with
      command := false, drive := .off, closedAt := s.localTimer, fallHeight := (s.pumpOf z).working
      state := if n.state = .rising ∨ n.state = .wet then .falling else n.state }
  else n

/-- The start timer of a STARTING pump begins at the first moment a valve of its channel is open (R116); rehearsal uses
none (R128). -/
def State.pumpWithStartTimer (s : State) (c : Channel) : PumpRec :=
  let p := s.pump.pumps[c]
  if p.state = .starting ∧ p.startTimer = none ∧ s.ctl.rehearsal = false ∧ s.anyValveOpen c then
    { p with startTimer := some (s.localTimer + (s.store.config.channels[c]).startTimeout * 1000) }
  else p

/-- Start timers begin where R116 says. -/
def State.armStartTimers (s : State) : State :=
  { s with pump := { s.pump with pumps := Vector.ofFn fun c : Fin 4 => s.pumpWithStartTimer c } }

/-- Every valve command is worked afresh, with what follows from it: nozzle states, start timers, lamp gating. -/
def State.refreshValves (s : State) : State :=
  ({ s with pump := { s.pump with nozzles := Vector.ofFn fun z : Fin 16 => s.nozzleAfter z } }).armStartTimers.regate

/-- The nozzles of a set leave their channels' valve sets (R123). -/
def State.dropValves (set : NozzleSet) (s : State) : State :=
  { s with pump := { s.pump with pumps := Vector.ofFn fun c : Fin 4 =>
      { s.pump.pumps[c] with valves := (s.pump.pumps[c]).valves &&& ~~~set } } }

/-- The settle moment (R125): when the output came to equal a goal above 0. -/
def PumpRec.resettle (now : Nat) (p : PumpRec) : PumpRec :=
  { p with
    settle := if 0 < p.goal ∧ p.output = p.goal then (match p.settle with | none => some now | some t => some t)
      else none }

/-! ### Trips (R120, R121) -/

/-- A pump trips.  The first trip of the show run starts the hold-off, the second latches. -/
def State.trip (c : Channel) (cause : TripCause) (s : State) : State :=
  let p := s.pump.pumps[c]
  let latch := 1 ≤ p.trips
  let p' : PumpRec :=
    { p with
      state := .tripped, output := 0, valves := 0, startTimer := none, rehearsalTimer := none, lowSince := none
      settle := none, trips := p.trips + 1, latched := latch
      holdOff := if latch then none else some (s.localTimer + 2000000)
      goal := if latch then 0 else p.goal }
  let s1 := (s.setPump c p').raise .pumpTrip none (some (c.val + 4 * cause.number))
  (if latch then s1.askPass else s1).refreshValves

/-! ### Goals (R115) -/

/-- The goal of a pump: its latest nt in COUNTDOWN and RUNNING while it is not latched, and 0 otherwise. -/
def State.goalOf (s : State) (c : Channel) : Nat :=
  let p := s.pump.pumps[c]
  if s.ctl.state.cueing ∧ p.latched = false then p.nt else 0

/-- A pump enters STARTING (R115): its output jumps to nmin and V becomes E.  A drive that already asserts its fault
trips it at that entry (R120), before V is acted on: no valve of the channel opens, and its DRY nozzles stay DRY
(the model's choice, notes/assumptions/43.md). -/
def State.startPump (c : Channel) (s : State) : State :=
  let p := s.pump.pumps[c]
  let s1 := s.setPump c (PumpRec.resettle s.localTimer
    { p with
      state := .starting, output := (s.store.config.channels[c]).nmin, valves := p.openSet
      startTimer := none
      rehearsalTimer := if s.ctl.rehearsal then some (s.localTimer + 200000) else none })
  if s.ctl.rehearsal = false ∧ s.inputs.pflt.getLsbD c.val then s1.trip c .driveFault else s1

/-- The pump of a present channel acts on its goal, worked afresh (R115); `handOff` says that a hand-off of Jet
Computation brought it. -/
def State.actGoal (handOff : Bool) (c : Channel) (s : State) : State :=
  let p := s.pump.pumps[c]
  let goal := s.goalOf c
  let renew := handOff ∨ p.goal ≠ goal
  let q := { p with goal := goal }
  if (s.store.config.channels[c]).present = false then s
  else
    match p.state with
    | .stopped => if 0 < goal then (s.setPump c q).startPump c else s.setPump c (q.resettle s.localTimer)
    | .starting =>
      if goal = 0 then
        s.setPump c (PumpRec.resettle s.localTimer
          { q with state := .stopping, startTimer := none, rehearsalTimer := none })
      else s.setPump c (PumpRec.resettle s.localTimer (if renew then { q with valves := q.openSet } else q))
    | .running =>
      if goal = 0 then s.setPump c (PumpRec.resettle s.localTimer { q with state := .stopping, lowSince := none })
      else s.setPump c (PumpRec.resettle s.localTimer (if renew then { q with valves := q.openSet } else q))
    | .stopping =>
      if 0 < goal then
        s.setPump c (PumpRec.resettle s.localTimer { q with state := .running, valves := q.openSet })
      else s.setPump c (q.resettle s.localTimer)
    | .tripped => s.setPump c (q.resettle s.localTimer)

/-- Every goal is worked afresh at a change of the show state (R115), then the valves.  The channels are taken in index order,
so of two drive-fault trips the lower channel's PUMP TRIP is counted first (the model's choice,
notes/assumptions/36.md). -/
def State.workGoals (s : State) : State :=
  ((List.finRange 4).foldl (fun s c => s.actGoal false c) s).refreshValves

/-! ### The pump control period (R116 to R119) -/

/-- The ramp of a RUNNING pump (R117). -/
def rampOutput (g : ChannelCfg) (output goal : Nat) : Nat :=
  if output < goal then min goal (output + g.rampUp)
  else if goal < output then max goal (output - g.rampDown)
  else output

/-- The lost-flow check of a RUNNING pump (R119), after its ramp. -/
def State.checkLostFlow (c : Channel) (s : State) : State :=
  let p := s.pump.pumps[c]
  let low := s.anyValveOpen c && s.measuredFlow c * 20 < s.expectedFlow c p.output
  if low = false then s.setPump c { p with lowSince := none }
  else
    match p.lowSince with
    | none => s.setPump c { p with lowSince := some s.localTimer }
    | some t => if t + 1000000 ≤ s.localTimer then s.trip c .flowLost else s

/-- What one pump control period does to the pump of one channel. -/
def State.periodPump (c : Channel) (s : State) : State :=
  let g := s.store.config.channels[c]
  let p := s.pump.pumps[c]
  if g.present = false then s
  else
    match p.state with
    | .starting =>
      if s.ctl.rehearsal = false ∧ p.startTimer.isSome ∧ g.startThreshold ≤ s.measuredFlow c * 10 then
        s.setPump c { p with state := .running, startTimer := none }
      else s
    | .running =>
      let s1 := s.setPump c (PumpRec.resettle s.localTimer { p with output := rampOutput g p.output p.goal })
      if s.ctl.rehearsal then s1 else s1.checkLostFlow c
    | .stopping =>
      if p.output ≤ g.nmin then
        s.setPump c (PumpRec.resettle s.localTimer { p with state := .stopped, output := 0, valves := 0 })
      else s.setPump c (PumpRec.resettle s.localTimer { p with output := max g.nmin (p.output - g.rampDown) })
    | .stopped => s
    | .tripped => s

/-- The pump control period: every channel in index order, then the valves. -/
def State.pumpPeriod (s : State) : State :=
  ((List.finRange 4).foldl (fun s c => s.periodPump c) s).refreshValves

/-! ### OUT marks (R126) -/

/-- The fault mark of a nozzle is set: the nozzle enters OUT from whatever state it stands in and leaves V. -/
def State.setFaultMark (z : Nozzle) (s : State) : State :=
  let n := s.pump.nozzles[z]
  if n.state = .out then s.setNozzle z { n with faultOut := true }
  else
    ((s.setNozzle z { n with faultOut := true, state := .out, command := false, drive := .off, fallHeight := 0 }).dropValves
      (withBit 0 z.val true)).askPass

/-- The fault mark of a nozzle is cleared: when it was the last of the two marks, the nozzle becomes DRY. -/
def State.clearFaultMark (z : Nozzle) (s : State) : State :=
  let n := s.pump.nozzles[z]
  if n.state = .out ∧ n.configOut = false then (s.setNozzle z { n with faultOut := false, state := .dry }).askPass
  else s.setNozzle z { n with faultOut := false }

/-! ### Show states (R127) -/

/-- SAFE entry: every pump STOPPED without a ramp, trips and latches cleared. -/
def PumpRec.safe (p : PumpRec) : PumpRec :=
  { p with
    state := .stopped, output := 0, goal := 0, valves := 0, trips := 0, latched := false, startTimer := none
    rehearsalTimer := none, lowSince := none, holdOff := none, settle := none }

/-- IDLE entry: TRIPPED pumps enter STOPPED; latches and the trips of the run are cleared (R121). -/
def PumpRec.idle (p : PumpRec) : PumpRec :=
  let q := { p with trips := 0, latched := false, holdOff := none }
  if p.state = .tripped then { q with state := .stopped } else q

/-- Every pump record changes in the same way. -/
def State.mapPumps (f : PumpRec → PumpRec) (s : State) : State :=
  { s with pump := { s.pump with pumps := Vector.ofFn fun c : Fin 4 => f s.pump.pumps[c] } }

/-- No pump is STARTING, RUNNING or STOPPING (R13). -/
def State.pumpsStopped (s : State) : Bool :=
  (List.finRange 4).all fun c => !(s.pump.pumps[c]).state.runs

/-- The set of nozzles in the nozzle state OUT (R169). -/
def State.outNozzles (s : State) : NozzleSet := bitsOf 16 fun z => (s.pump.nozzles[z]).state == .out

/-- The set of pumps in TRIPPED with the trip latched (R33, R169). -/
def State.latchedPumps (s : State) : BitVec 4 :=
  bitsOf 4 fun c => (s.pump.pumps[c]).state == .tripped && (s.pump.pumps[c]).latched

end Sys2Proof.Machine
end

