-- ==== Sys2Proof/Machine/Head.lean ====
section
/-! DEFINITION. Head Control (09): steps, homing, moves, verification and its ladder, faults, sweeps, aim permits. -/

namespace Sys2Proof.Machine

/-! ### Aim permits (R142) -/

/-- The encoder step (R131): floor(encoder count / ratio), rounded down toward minus infinity. -/
def HeadRec.encoderStep (g : HeadCfg) (r : HeadRec) : Int := Int.fdiv r.encoder g.ratio

/-- The head states in which a swivel nozzle may hold its permit. -/
def HeadState.aimed : HeadState → Bool
  | .settled | .moving | .reversing | .verifying => true
  | .unhomed | .homing | .fault => false

/-- The aim permit of nozzle `z` (R142). -/
def State.permitOf (s : State) (z : Nozzle) : Bool :=
  let n := s.store.config.nozzles[z]
  let g := s.store.config.headOf n
  let r := nthD s.head.heads n.head {}
  n.present && (n.kind != 1 ||
    (r.state.aimed && (n.envMin : Int) ≤ r.encoderStep g && r.encoderStep g ≤ (n.envMax : Int)))

/-- The permits are worked afresh (R142): a lost permit closes its valve at once, and any change asks for a pass. -/
def State.refreshPermits (s : State) : State :=
  let new := Vector.ofFn fun z : Fin 16 => s.permitOf z
  if new = s.head.permits then s
  else
    let lost := bitsOf 16 fun z => s.head.permits[z] && !new[z]
    let s1 := { s with head := { s.head with permits := new } }
    ((s1.dropValves lost).askPass).refreshValves

/-! ### Moving (R131, R135, R136, R139) -/

/-- The head enters VERIFYING and its settle pause begins (R137). -/
def State.enterVerifying (h : Head) (s : State) : State :=
  s.setHead h { s.head.heads[h] with
    state := .verifying, timer := some (s.localTimer + (s.store.config.heads[h]).settle * 1000) }

/-- The stall check (R139), made at each step issued and at each encoder count while MOVING or REVERSING. -/
def State.stallCheck (h : Head) (s : State) : State :=
  let r := s.head.heads[h]
  let g := s.store.config.heads[h]
  if (r.state = .moving ∨ r.state = .reversing) ∧
      4 * g.tolerance < (r.encoder - (r.position.getD 0 : Nat) * g.ratio).natAbs then s.enterVerifying h
  else s

/-- One step of a MOVING head (R131): the position changes by one at the pulse, and a new step interval begins. -/
def State.issueStep (h : Head) (d : Direction) (s : State) : State :=
  let r := s.head.heads[h]
  let p := r.position.getD 0
  (s.setHead h { r with
    state := .moving, direction := some d
    position := some (match d with | .up => p + 1 | .down => p - 1)
    pulse := some s.localTimer
    timer := some (s.localTimer + (s.store.config.heads[h]).stepInterval) }).stallCheck h

/-- The sense in which a target lies from a position. -/
def senseTo (position target : Nat) : Direction := if position < target then .up else .down

/-- The head takes a target that the present position may already meet: MOVING toward it, or VERIFYING (R132, R136,
R138). -/
def State.goTo (h : Head) (t : Target) (s : State) : State :=
  let r := s.head.heads[h]
  let p := r.position.getD 0
  let s1 := s.setHead h { r with target := some t }
  if p = t.step then s1.enterVerifying h else s1.issueStep h (senseTo p t.step)

/-- Home is found (R132): position and encoder count become 0, and the homing target is taken. -/
def State.homeFound (h : Head) (s : State) : State :=
  let r := s.head.heads[h]
  (s.setHead h { r with position := some 0, encoder := 0, pending := none }).goTo h r.homing

/-- The head enters HOMING (R132) and samples its home switch; when it is not asserted, the seek's first step down is
taken.  The permits are worked at this change of state (R142), before a home found at once changes it again, so that a
nozzle loses its permit at HOMING entry even where the next state gives it back.  While it seeks the head has no target, only
its homing target (the model's choice, notes/assumptions/48.md). -/
def State.enterHoming (h : Head) (homing : Target) (asserted : Bool) (s : State) : State :=
  let r := s.head.heads[h]
  let s1 := State.refreshPermits <| s.setHead h { r with
    state := .homing, position := none, target := none, homing := homing
    direction := if asserted then r.direction else some .down
    pulse := if asserted then r.pulse else some s.localTimer
    seekSteps := if asserted then 0 else 1
    timer := if asserted then none else some (s.localTimer + (s.store.config.heads[h]).homeInterval) }
  if asserted then s1.homeFound h else s1

/-! ### Faults (R140) -/

/-- The head enters FAULT: its swivel nozzles get the fault mark and HEAD FAULT is raised. -/
def State.headFault (h : Head) (cause : HeadCause) (s : State) : State :=
  let r := s.head.heads[h]
  let s1 := s.setHead h { r with
    state := .fault, position := none, target := none, pending := none, sweep := none, timer := none, marks := true }
  let s2 := (s.store.config.swivelsOf h).foldl (fun s z => s.setFaultMark z) s1
  (s2.raise .headFault none (some (h.val + 8 * cause.number))).refreshValves

/-! ### Verification (R137, R138) -/

/-- A head that passes and has nothing further to do is SETTLED; marks outstanding are cleared (R133), also when a re-home of
the ladder stood between the homing begun in LOADING and this entry (the model's reading, notes/assumptions/44.md). -/
def State.settleHead (h : Head) (s : State) : State :=
  let r := s.head.heads[h]
  let s1 := s.setHead h { r with state := .settled, target := none, pending := none, timer := none, marks := false }
  if r.marks then ((s.store.config.swivelsOf h).foldl (fun s z => s.clearFaultMark z) s1).refreshValves else s1

/-- The verification passes when encoder count and position × ratio differ by no more than the tolerance (R137). -/
def State.verifies (s : State) (h : Head) : Bool :=
  let r := s.head.heads[h]
  let g := s.store.config.heads[h]
  (r.encoder - (r.position.getD 0 : Nat) * g.ratio).natAbs ≤ g.tolerance

/-- A passed verification (R137). -/
def State.verifyPass (h : Head) (s : State) : State :=
  let r := { s.head.heads[h] with failures := 0, rehomed := false }
  match r.pending with
  | some t =>
    if r.position = some t.step then (s.setHead h r).settleHead h
    else (s.setHead h { r with pending := none }).goTo h t
  | none => (s.setHead h r).settleHead h

/-- A failed verification (R138): the position is corrected to the encoder step, and the ladder's first case applies. -/
def State.verifyFail (h : Head) (asserted : Bool) (s : State) : State :=
  let g := s.store.config.heads[h]
  let r := s.head.heads[h]
  let pos := (clampInt 0 ((g.range : Int) - 1) (r.encoderStep g)).toNat
  let t := match r.pending with
    | some t => t
    | none => r.target.getD { step := pos, cueId := none }
  let fails := r.failures + 1
  let s1 := s.setHead h { r with position := some pos, target := some t, pending := none, failures := fails }
  if fails < 3 then (s1.raise .headRetry t.cueId (some h.val)).goTo h t
  else if r.rehomed = false then
    ((s1.raise .headRetry t.cueId (some h.val)).setHead h
      { s1.head.heads[h] with failures := 0, rehomed := true }).enterHoming h t asserted
  else s1.headFault h .slip

/-! ### Taking a target (R134) -/

/-- A target reaches the head in whatever state it stands (R134). -/
def State.takeTarget (h : Head) (t : Target) (s : State) : State :=
  let r := s.head.heads[h]
  match r.state with
  | .settled => if r.position = some t.step then s else s.goTo h t
  | .moving => s.setHead h { r with target := some t }
  | .reversing => s.setHead h { r with target := some t }
  | .verifying => s.setHead h { r with pending := some t }
  | .unhomed => s.setHead h { r with pending := some t }
  | .homing => s.setHead h { r with pending := some t, homing := t }
  | .fault => s

/-! ### Sweeps (R141) -/

/-- The leg index of the present show time for a leg of some beats. -/
def State.legIndex (s : State) (beats : Nat) : Int :=
  Int.fdiv (s.showMs - s.seq.sectionStart) (beats * s.seq.beatLen : Nat)

/-- The position of a leg: the anchor's for an even number of legs from it, the other for an odd one. -/
def Sweep.posOf (w : Sweep) (leg : Int) : Nat :=
  if (leg - w.anchor) % 2 = 0 then w.anchorPos else if w.anchorPos = w.a then w.b else w.a

/-- The head takes the leg that the present show time lies in. -/
def State.takeLeg (h : Head) (s : State) : State :=
  let r := s.head.heads[h]
  match r.sweep with
  | none => s
  | some w =>
    let leg := s.legIndex w.beats
    ((s.setHead h { r with sweep := some { w with leg := leg } }).takeTarget h
      { step := w.posOf leg, cueId := some w.cueId })

/-- The sweep of a head has a new leg. -/
def State.legDue (s : State) (h : Head) : Bool :=
  match (s.head.heads[h]).sweep with
  | none => false
  | some w => s.legIndex w.beats ≠ w.leg

/-- A head whose sweep has a new leg at the present show time takes it (R141). -/
def State.takeDueLeg (h : Head) (s : State) : State := if s.legDue h then s.takeLeg h else s

/-- Every head whose sweep has a new leg at the present show time takes it (R141). -/
def State.takeDueLegs (s : State) : State :=
  State.refreshPermits ((List.finRange 8).foldl (fun s h => s.takeDueLeg h) s)

/-- At the issue of a MARK every sweep is re-anchored, moving no head (R141). -/
def State.markSweeps (s : State) : State :=
  { s with head := { s.head with heads := Vector.ofFn fun h : Fin 8 =>
      let r := s.head.heads[h]
      { r with sweep := r.sweep.map fun w =>
          { w with anchor := s.legIndex w.beats, anchorPos := w.posOf w.leg, leg := s.legIndex w.beats } } } }

/-! ### Taking an AIM (R134) -/

/-- An AIM is taken: a head in FAULT discards it with BAD TARGET; otherwise its steps are clamped, it ends any sweep, sets
up its own, and its target is taken. -/
def State.takeAim (h : Head) (target : Nat) (part : Option SweepPart) (id : Nat) (s : State) : State :=
  let r := s.head.heads[h]
  let top := (s.store.config.heads[h]).range - 1
  if r.state = .fault then s.raise .badTarget (some id) (some h.val)
  else
    let t := min target top
    let clamped := t ≠ target ∨ (part.any fun p => top < p.partner)
    let s1 := if clamped then s.raise .aimClamp (some id) (some h.val) else s
    let sweep := part.map fun p =>
      { a := t, b := min p.partner top, beats := p.beats, anchor := s.legIndex p.beats, anchorPos := t, cueId := id
        leg := s.legIndex p.beats : Sweep }
    ((s1.setHead h { r with sweep := sweep }).takeTarget h { step := t, cueId := some id }).refreshPermits

/-! ### The heads through the show states (R143) -/

/-- Whether the head's record is present. -/
def State.headPresent (s : State) (h : Head) : Bool := (s.store.config.heads[h]).present

/-- Entry to LOADING: UNHOMED and FAULT heads enter HOMING toward park, or toward a pending target (R133, R134). -/
def State.homeForLoading (h : Head) (s : State) : State :=
  let r := s.head.heads[h]
  if s.headPresent h ∧ (r.state = .unhomed ∨ r.state = .fault) then
    (s.setHead h { r with failures := 0, rehomed := false, pending := none }).enterHoming h
      (r.pending.getD { step := (s.store.config.heads[h]).park, cueId := none }) (s.inputs.hhom.getLsbD h.val)
  else s

/-- Every head that must be homed begins its homing. -/
def State.homeHeads (s : State) : State :=
  ((List.finRange 8).foldl (fun s h => s.homeForLoading h) s).refreshPermits

/-- Entry to ENDING: sweeps end, and the heads take their park positions (R143).  A seek that takes park drops the pending
target that set its homing target (the model's reading, notes/assumptions/14.md). -/
def State.parkHead (h : Head) (s : State) : State :=
  let r := { s.head.heads[h] with sweep := none }
  let park : Target := { step := (s.store.config.heads[h]).park, cueId := none }
  if s.headPresent h = false then s
  else
    match r.state with
    | .homing => s.setHead h { r with homing := park, pending := none }
    | .unhomed => s.setHead h r
    | .fault => s.setHead h r
    | _ => (s.setHead h r).takeTarget h park

/-- Every head is sent to park. -/
def State.parkHeads (s : State) : State :=
  ((List.finRange 8).foldl (fun s h => s.parkHead h) s).refreshPermits

/-- SAFE entry and soft restart: every head becomes UNHOMED; marks outstanding and encoder count are kept (R143). -/
def HeadRec.unhome (r : HeadRec) : HeadRec :=
  { r with
    state := .unhomed, position := none, target := none, pending := none, sweep := none, failures := 0
    rehomed := false, timer := none, seekSteps := 0 }

/-- Every head becomes UNHOMED. -/
def State.unhomeHeads (s : State) : State :=
  State.refreshPermits
    { s with head := { s.head with heads := Vector.ofFn fun h : Fin 8 => (s.head.heads[h]).unhome } }

/-- Every present head is SETTLED or FAULT (R7). -/
def State.headsReady (s : State) : Bool :=
  (List.finRange 8).all fun h => !s.headPresent h || (s.head.heads[h]).state == .settled || (s.head.heads[h]).state == .fault

/-- No head is MOVING, REVERSING or VERIFYING (R13). -/
def State.headsStill (s : State) : Bool :=
  (List.finRange 8).all fun h =>
    !((s.head.heads[h]).state == .moving || (s.head.heads[h]).state == .reversing || (s.head.heads[h]).state == .verifying)

/-- The set of heads in the head state FAULT (R169). -/
def State.faultHeads (s : State) : BitVec 8 := bitsOf 8 fun h => (s.head.heads[h]).state == .fault

end Sys2Proof.Machine
end

