-- ==== Sys2Proof/Machine/Store.lean ====
section
/-! DEFINITION. The Show Store (05): requests, withdrawals, and the flash arbiter. -/

namespace Sys2Proof.Machine

/-- The request of a reader, if one stands. -/
def Store.request (st : Store) : Reader → Option Request
  | .config => st.configReq
  | .directory => st.dirReq
  | .cue => st.cueReq
  | .audio => st.audioReq

/-- A reader's request becomes another, or none. -/
def Store.setRequest (st : Store) (q : Option Request) : Reader → Store
  | .config => { st with configReq := q }
  | .directory => { st with dirReq := q }
  | .cue => { st with cueReq := q }
  | .audio => { st with audioReq := q }

/-- A reader withdraws its request (R70): a request not granted is removed, and the data of an attempt in progress for
it will be discarded. -/
def Store.withdraw (r : Reader) (st : Store) : Store :=
  let st1 := st.setRequest none r
  match st.port with
  | some p => if p.reader = r then { st1 with port := some { p with withdrawn := true } } else st1
  | none => st1

/-- A reader makes a request (R69).  A block number above 131,071 makes none: it is lost at once (R67). -/
def State.makeRequest (r : Reader) (block : Nat) (e : Expect) (s : State) : State :=
  { s with store := s.store.setRequest (some { block := block, expect := e, attempts := 0 }) r }

/-- The reader whose request the order of R69 finds first. -/
def State.grantChoice (s : State) : Option Reader :=
  let st := s.store
  if st.audioReq.isSome ∧ s.music.fifo.length < 1024 then some .audio
  else if st.configReq.isSome then some .config
  else if st.dirReq.isSome then some .directory
  else if st.cueReq.isSome then some .cue
  else if st.audioReq.isSome then some .audio
  else none

/-- A grant decision (R69), made while the port is FREE. -/
def State.grant (s : State) : State :=
  match s.store.port, s.grantChoice with
  | none, some r => { s with store := { s.store with port := some { reader := r, withdrawn := false } } }
  | _, _ => s

/-- The directory entry is dropped, and the directory, cue and audio requests withdrawn (R72, R73, R74, R77); the readers'
positions are dropped with them. -/
def State.dropEntry (s : State) : State :=
  { s with store :=
      { (((s.store.withdraw .directory).withdraw .cue).withdraw .audio) with
        entry := none, cuePos := none, audioPos := none } }

/-- The cue reader stops: its request is withdrawn and its position dropped (R73). -/
def State.stopCueReader (s : State) : State :=
  { s with store := { s.store.withdraw .cue with cuePos := none } }

/-- What the directory reader expects of directory block `i` (R66). -/
def expectDirectory (i : Nat) : Expect := { kind := .directory, showNo := 0, station := 0, seq := i, len := some 672 }

/-- What the directory reader expects of the section table of show `n` (R66). -/
def expectTable (n : Nat) : Expect := { kind := .directory, showNo := n, station := 0, seq := 0, len := some 336 }

/-- What the config loader expects of the volume header (R66). -/
def expectHeader : Expect := { kind := .config, showNo := 0, station := 0, seq := 0, len := some 102 }

/-- What the config loader expects of this station's configuration block (R66). -/
def expectConfig (station : Nat) : Expect :=
  { kind := .config, showNo := 0, station := station, seq := 0, len := some 427 }

/-- What the cue reader expects of cue block `j` (R66). -/
def State.expectCue (s : State) (j : Nat) : Expect :=
  { kind := .cue, showNo := s.ctl.selected, station := s.ctl.station, seq := j, len := none }

/-- What the audio reader expects of audio block `k` (R65, R66). -/
def State.expectAudio (s : State) (frames k : Nat) : Expect :=
  { kind := .audio, showNo := s.ctl.selected, station := s.ctl.station, seq := k
    len := some (4 * audioBlockFrames frames k) }

/-- The location of directory block `i`: consecutive block numbers from the first (R63). -/
def State.dirBlock (s : State) (i : Nat) : Nat :=
  match s.store.header with
  | some v => v.dirFirst + i
  | none => maxBlock + 1

/-- The audio frame count of the section held; 0 when no entry is held. -/
def State.frameCount (s : State) : Nat :=
  match s.store.entry with
  | some e => e.frames
  | none => 0

/-- The section has audio and the zone is present (R158, R160, R164). -/
def State.hasAudio (s : State) : Bool := 0 < s.frameCount && s.store.config.zone

end Sys2Proof.Machine
end

