-- ==== Sys2Proof/Machine/Music.lean ====
section
/-! DEFINITION. Music Playback (11): filling the FIFO, the frame slots, the sync check with slip and resync, the gain. -/

namespace Sys2Proof.Machine

/-- Every flush of the FIFO clears the resync flag, the underrun mark and the run-out mark (R163).  A gain fade under way goes
on, that of a run-out which an entry to SAFE ends included (R162, R164; the model's reading, notes/assumptions/50.md). -/
def Music.flush (m : Music) : Music :=
  { m with fifo := [], resync := false, underrun := false, runOut := false, repeatDue := false }

/-- The FIFO is flushed and the play index is 0 (R163). -/
def State.flushMusic (s : State) : State := { s with music := { s.music.flush with playIndex := 0 } }

/-- Emission and sync checks are made: RUNNING, or ENDING before the run-out fade is complete (R159, R160).  In an ENDING
entered from RUNNING without audio the run-out is reported complete at the entry, so nothing is emitted and the play
index stands (the model's reading of R163 and R164, notes/assumptions/18.md). -/
def State.emitting (s : State) : Bool :=
  match s.ctl.state with
  | .running => true
  | .ending => s.music.runOut
  | _ => false

/-- The show states in which the FIFO is filled (R158). -/
def State.filling (s : State) : Bool :=
  match s.ctl.state with
  | .loading | .armed | .countdown | .running | .hold => true
  | .ending => s.music.runOut
  | _ => false

/-! ### Filling (R74, R158) -/

/-- The frames of a delivered block join the tail of the FIFO; one below the play index is not stored.  The reader moves
to the next block. -/
def State.deliverAudio (frames : List AudioFrame) (s : State) : State :=
  { s with
    music := { s.music with
      fifo := s.music.fifo ++ frames.filter fun f => s.music.playIndex ≤ f.index }
    store := { s.store with audioPos := s.store.audioPos.map fun k => k + 1 } }

/-- Music Playback asks the audio reader for the next block when the conditions of R158 hold.  A block number above
131,071 is lost at once (R67), which delivers silent frames (R74), and the asking goes on. -/
def askAudio : Nat → State → State
  | 0, s => s
  | n + 1, s =>
    match s.store.entry, s.store.audioPos with
    | some e, some k =>
      if s.hasAudio ∧ k < audioBlocks e.frames ∧ s.store.audioReq = none ∧ s.music.fifo.length ≤ 3080 ∧ s.filling then
        if maxBlock < e.firstAudio + k then
          askAudio n ((s.raise .blockLost none (some Reader.audio.object)).deliverAudio
            (silentFrames k (audioBlockFrames e.frames k)))
        else s.makeRequest .audio (e.firstAudio + k) (s.expectAudio e.frames k)
      else s
    | _, _ => s

/-- The asking of R158, with enough steps for every block of the stream to be lost at once. -/
def State.fillAudio (s : State) : State := askAudio (audioBlocks s.frameCount + 1) s

/-- The prefill is complete (R158, R7): with no audio to play as soon as the entry is found, else when the FIFO holds
more than 3,080 frames or the reader has reached the end of its stream. -/
def State.prefillDone (s : State) : Bool :=
  s.store.entry.isSome &&
    (!s.hasAudio || 3080 < s.music.fifo.length ||
      (match s.store.audioPos with
       | some k => audioBlocks s.frameCount ≤ k
       | none => false))

/-! ### Frame slots (R159) -/

/-- A sample at a gain: multiplied by gain / 256 and truncated toward zero. -/
def scaleSample (x : Int) (gain : Nat) : Int := Int.tdiv (x * gain) 256

/-- What the slot sent becomes the last emitted frame. -/
def Music.emit (l r : Int) (m : Music) : Music := { m with lastLeft := l, lastRight := r }

/-- One frame slot (R157, R159): a repeat, a frame of the FIFO, or silence.  A repeat slot does nothing of step 2: the resync
flag and the underrun mark stand, an empty FIFO raises no UNDERRUN, and the last frame goes out again even past the end
of the stream.  With the zone absent every slot is silent as one past the end of the stream is, without UNDERRUN, whatever
the frame count (both the model's reading, notes/assumptions/17.md). -/
def State.audioSlot (s : State) : State :=
  let m := { s.music with repeatDue := false }
  if s.emitting = false then { s with music := m.emit 0 0 }
  else
    let fifo := m.fifo.dropWhile fun f => f.index < m.playIndex
    let m1 := { m with fifo := fifo }
    if s.music.repeatDue then { s with music := m1 }
    else
      let next := m.playIndex + 1
      if s.hasAudio = false ∨ s.frameCount ≤ m.playIndex then
        { s with music := { m1.emit 0 0 with playIndex := next, resync := false, underrun := false } }
      else
        match fifo with
        | f :: rest =>
          if f.index = m.playIndex then
            { s with music :=
              { m1.emit (scaleSample f.left m.gain) (scaleSample f.right m.gain) with
                fifo := rest, playIndex := next, resync := false, underrun := false } }
          else { s with music := { m1.emit 0 0 with playIndex := next } }
        | [] =>
          if m.resync then { s with music := { m1.emit 0 0 with playIndex := next } }
          else
            let s1 := { s with music := { m1.emit 0 0 with playIndex := next, underrun := true } }
            if m.underrun then s1 else s1.raise .underrun none none

/-! ### Keeping in step (R160, R161) -/

/-- The due frame at a show time of 0 or above (R157). -/
def dueFrame (t : Int) : Nat := t.toNat * 4 / 125

/-- A resync (R161): the FIFO is emptied, the reader placed at the block that holds due + 2,048 (or at the end of the
stream), and the play index set to the due frame.  A repeat that is still due is dropped (the model's choice,
notes/assumptions/17.md). -/
def State.resyncAudio (due : Nat) (s : State) : State :=
  let blocks := audioBlocks s.frameCount
  let k := if due + 2048 < s.frameCount then (due + 2048) / 1016 else blocks
  let s1 :=
    { s with
      music := { s.music with fifo := [], playIndex := due, resync := true, underrun := false, repeatDue := false }
      store := { s.store.withdraw .audio with audioPos := some k } }
  (s1.raise .audioResync none none).fillAudio

/-- The sync check (R160): nothing, a skip, a repeat, or a resync. -/
def State.checkSync (s : State) : State :=
  if s.emitting = false ∨ s.clock.showTime < 0 ∨ s.hasAudio = false then s
  else
    let due := dueFrame s.clock.showTime
    let e : Int := (due : Int) - s.music.playIndex
    if -1 ≤ e ∧ e ≤ 1 then s
    else if 2 ≤ e ∧ e ≤ 320 then
      State.raise .audioSlip none (some 0) { s with music := { s.music with playIndex := s.music.playIndex + 1 } }
    else if -320 ≤ e ∧ e ≤ -2 then
      State.raise .audioSlip none (some 1) { s with music := { s.music with repeatDue := true } }
    else s.resyncAudio due

/-! ### Gain (R162, R164) -/

/-- A gain fade begins; a fade of 0 sets the gain at once. -/
def Music.beginFade (target len : Nat) (m : Music) : Music :=
  { m with
    startGain := m.gain, targetGain := target, fadeLen := len, elapsed := 0
    gain := if len = 0 then target else m.gain }

/-- A LEVEL is taken (R162).  `instant` is a LEVEL applied by a catch-up scan, whose fade is 0 (R93). -/
def State.takeLevel (gain fade id : Nat) (instant : Bool) (s : State) : State :=
  let len := if instant then 0 else min fade 60000
  let s1 := if instant = false ∧ 60000 < fade then s.raise .valueClamp (some id) none else s
  { s1 with music := { Music.beginFade gain len s1.music with runOut := false } }

/-- The gain is 255 with any fade ended, as at the start of every show run (R162). -/
def Music.fullGain (m : Music) : Music :=
  { m with gain := 255, startGain := 255, targetGain := 255, fadeLen := 0, elapsed := 0 }

/-- A gain step (R162): a fade that is not complete advances; one that carries the run-out mark and completes reports
the run-out complete and clears the mark (R164). -/
def State.gainStep (s : State) : State :=
  let m := s.music
  if m.fadeLen ≤ m.elapsed then s
  else
    let e := min (m.elapsed + 10) m.fadeLen
    if e = m.fadeLen then
      let s1 := { s with music := { m with elapsed := e, gain := m.targetGain, runOut := false } }
      if m.runOut then { s1 with ctl := { s1.ctl with audioRunOut := true } } else s1
    else
      { s with music := { m with
          elapsed := e
          gain := ((m.startGain : Int) + Int.tdiv (((m.targetGain : Int) - m.startGain) * e) m.fadeLen).toNat } }

/-- Entry to ENDING (R164): from RUNNING a 500 ms fade to gain 0 begins, carrying the run-out mark where there is audio to
run out; in every other case the run-out is reported complete at the entry. -/
def State.beginAudioRunOut (fromRunning : Bool) (s : State) : State :=
  let s1 := if fromRunning then { s with music := { Music.beginFade 0 500 s.music with runOut := s.hasAudio } }
    else { s with music := { s.music with runOut := false } }
  if fromRunning ∧ s.hasAudio then s1 else { s1 with ctl := { s1.ctl with audioRunOut := true } }

end Sys2Proof.Machine
end

