-- ==== Sys2Proof/Machine/Peer.lean ====
section
/-! DEFINITION. Peer View (03): the entries, their ageing, and the five figures it supplies. -/

namespace Sys2Proof.Machine

/-- The draw term of an entry (R43). -/
def PeerEntry.drawTerm (e : PeerEntry) : Nat :=
  match e.fresh, e.pace with
  | .fresh, some p => p.planned
  | .lapsed, some p => p.ceiling
  | .lost, some p => p.ceiling
  | _, _ => 0

/-- The peer draw sum, Other (R43). -/
def PeerView.other (v : PeerView) : Nat := (v.entries.toList.map fun e => e.drawTerm).foldl (fun a x => a + x) 0

/-- The wind set (R44). -/
def PeerView.windSet (v : PeerView) : List Nat :=
  v.entries.toList.filterMap fun e =>
    match e.fresh, e.pace with
    | .fresh, some p => p.wind
    | _, _ => none

/-- No entry is FRESH (R48). -/
def PeerView.noneFresh (v : PeerView) : Bool := v.entries.toList.all fun e => e.fresh != .fresh

/-- A show state code under way: COUNTDOWN, RUNNING or HOLD (R38, R45). -/
def codeUnderWay (code : Nat) : Bool := code == 4 || code == 5 || code == 6

/-- The offset an entry contributes to an agreement at local time `now` for show `sel` (R45), if any. -/
def PeerEntry.usableOffset (e : PeerEntry) (sel now : Nat) : Option Int :=
  match e.fresh, e.pace, e.offset with
  | .fresh, some p, some o =>
    if p.showNo ≠ 0 ∧ p.showNo = sel ∧ codeUnderWay p.stateCode ∧ now ≤ o.time + 100000 then some o.value else none
  | _, _, _ => none

/-- The usable offsets, in station-number order (R45). -/
def State.usableOffsets (s : State) : List Int :=
  s.peers.entries.toList.filterMap fun e => e.usableOffset s.ctl.selected s.localTimer

/-- The FRESH entries of this station's show (R46). -/
def State.sameShowPeers (s : State) : List PeerPace :=
  s.peers.entries.toList.filterMap fun e =>
    match e.fresh, e.pace with
    | .fresh, some p => if p.showNo ≠ 0 ∧ p.showNo = s.ctl.selected then some p else none
    | _, _ => none

/-- How many of them announce a show state (R46). -/
def State.majorityCount (s : State) (code : Nat) : Nat := (s.sameShowPeers.filter fun p => p.stateCode == code).length

/-- The latest alert time (R47). -/
def PeerView.latestAlert (v : PeerView) : Option Nat :=
  (v.entries.toList.filterMap fun e => e.alert).foldl
    (fun a t => match a with
      | none => some t
      | some u => some (max u t)) none

/-- Peer View reports a change of freshness or of a draw term to Jet Computation (R43, R108). -/
def State.reportPeers (s : State) : State :=
  State.askPass { s with jet := { s.jet with other := s.peers.other } }

/-- Every stored offset becomes absent (R39). -/
def State.dropOffsets (s : State) : State :=
  { s with peers := { s.peers with
      entries := Vector.ofFn fun k : Fin 24 => { s.peers.entries[k] with offset := none } } }

/-- Show time has been set (R39, R51): offsets become absent and the local timer reading is recorded. -/
def State.recordSetting (s : State) : State :=
  let s1 := s.dropOffsets
  { s1 with peers := { s1.peers with lastSetting := some s.localTimer } }

/-- Show time has been adjusted by `a` (R39): `a` is subtracted from every stored offset. -/
def State.shiftOffsets (a : Int) (s : State) : State :=
  { s with peers := { s.peers with
      lastAdjust := some { time := s.localTimer, amount := a }
      entries := Vector.ofFn fun k : Fin 24 =>
        let e := s.peers.entries[k]
        { e with offset := e.offset.map fun o => { o with value := o.value - a } } } }

/-- On entry into IDLE every LOST entry becomes ABSENT, its alert time kept (R41), and the offsets become absent (R39).  The
arrival time goes with the other PACE fields (the model's choice, notes/assumptions/35.md). -/
def State.idlePeers (s : State) : State :=
  let s1 := s.dropOffsets
  let entries := Vector.ofFn fun k : Fin 24 =>
    let e := s1.peers.entries[k]
    if e.fresh = .lost then { e with fresh := .absent, pace := none } else e
  if entries = s1.peers.entries then s1
  else State.reportPeers { s1 with peers := { s1.peers with entries := entries } }

/-- The offset measured from a PACE (R38), or none when a condition fails.  An adjustment made since the frame's start
latch is subtracted (R39). -/
def State.measureOffset (p : PacePayload) (rx : Rx) (s : State) : Option Offset :=
  let later : Bool := match s.peers.lastSetting with
    | none => true
    | some t => decide (t < rx.moment)
  if s.ctl.state.underWay ∧ p.showNo.toNat ≠ 0 ∧ p.showNo.toNat = s.ctl.selected ∧ codeUnderWay p.stateCode.toNat ∧ later
  then
    let inFlight : Int := match s.peers.lastAdjust with
      | some a => if rx.moment < a.time then a.amount else 0
      | none => 0
    some { value := p.stamp.toInt + s.store.config.lineDelay - rx.latch - inFlight, time := rx.moment }
  else none

/-- The PACE fields an entry keeps (R37 steps 1 to 3). -/
def keptPace (p : PacePayload) (rx : Rx) : PeerPace where
  showNo := p.showNo.toNat
  stateCode := p.stateCode.toNat
  stamp := p.stamp.toInt
  planned := p.planned.toNat
  ceiling := p.ceiling.toNat
  wind := if p.flags.getLsbD 4 then some (min p.wind.toNat 600) else none
  arrival := rx.moment

/-- Peer View takes a valid PACE (R37) and reports what changed (R43, R48). -/
def State.hearPace (k : Peer) (p : PacePayload) (rx : Rx) (s : State) : State :=
  let e := s.peers.entries[k]
  let e' : PeerEntry :=
    { e with
      fresh := .fresh, pace := some (keptPace p rx)
      offset := match s.measureOffset p rx with
        | some o => some o
        | none => e.offset }
  let s1 := s.setPeer k e'
  let s2 := if e.fresh = .fresh then s1 else { s1 with clock := { s1.clock with solitude := none, solo := false } }
  if e.fresh ≠ .fresh ∨ e.drawTerm ≠ e'.drawTerm then s2.reportPeers else s2

/-- A FRESH entry lapses (R40); when none is FRESH any more, the solitude timer starts (R48, R59). -/
def State.lapsePeer (k : Peer) (s : State) : State :=
  let s1 := (s.setPeer k { s.peers.entries[k] with fresh := .lapsed }).reportPeers
  if s1.peers.noneFresh ∧ s.ctl.state.underWay then
    { s1 with clock := { s1.clock with solitude := some (s.localTimer + 2000000) } }
  else s1

/-- A LAPSED entry is lost (R40). -/
def State.losePeer (k : Peer) (s : State) : State :=
  (s.setPeer k { s.peers.entries[k] with fresh := .lost }).reportPeers

/-- The arrival time of an entry; an entry without PACE fields has none, and the present reading stands for it. -/
def State.arrivalOf (s : State) (k : Peer) : Nat :=
  match (s.peers.entries[k]).pace with
  | some p => p.arrival
  | none => s.localTimer

end Sys2Proof.Machine
end

