-- ==== Sys2Proof/Machine/Transitions.lean ====
section
/-! DEFINITION. The changes of the show state (01) and what each block does at them: entry to IDLE (R14), ENDING (R13),
SAFE (R16) and HOLD (R11), the crossings of show time (R56), and the end of ENDING (R13). -/

namespace Sys2Proof.Machine

/-! ### What every change of state does -/

/-- The show state changes: the follow counters become 0 (R15), the solitude timer and SOLO follow R59, P is 0 where R104
says so, and a pass is asked for (R108).  The blocks' own effects are the callers'. -/
def State.changeState (new : ShowState) (s : State) : State :=
  let was := s.ctl.state.underWay
  let s1 : State :=
    { s with
      ctl := { s.ctl with state := new, followHold := 0, followRunning := 0, followEnding := 0 }
      clock :=
        if new.underWay = false then { s.clock with solitude := none, solo := false }
        else if was = false ∧ s.peers.noneFresh then { s.clock with solitude := some (s.localTimer + 2000000) }
        else s.clock
      jet := { s.jet with planned := if new.underWay then s.jet.planned else 0 } }
  s1.askPass

/-- The Cue Sequencer is emptied (R95): queue, table, blocks and records; the reader stops, the catch-up flag clears and
the catch-up view is dropped (R109). -/
def State.clearSequencer (s : State) : State :=
  let s1 := s.stopCueReader
  { s1 with
    seq := { s1.seq with
      current := none, partialRec := none, staged := none, queue := [], table := Vector.replicate 4 none
      endSeen := false, catchUp := false }
    jet := { s1.jet with view := none } }

/-- The section figures are those of the start of a show run (R89). -/
def State.resetSection (s : State) : State :=
  { s with seq := { s.seq with sectionNo := 0, beatLen := 500, sectionStart := 0 } }

/-! ### Entry to IDLE (R14) -/

/-- Entry to IDLE.  `soft` is an entry by soft restart, which keeps Peer View's entries and the fixture records (R19, R41,
R155). -/
def State.enterIdle (soft : Bool) (s : State) : State :=
  let s1 : State :=
    { s with ctl := { s.ctl with selected := 0, held := none, lightRunOut := false, audioRunOut := false } }
  let s2 := (((s1.changeState .idle).clearSequencer.resetSection).dropEntry.flushMusic).mapPumps PumpRec.idle
  (if soft then s2 else s2.resetFixtures.idlePeers).workGoals

/-! ### ENDING (R13) -/

/-- Show Control leaves ENDING for IDLE at the first moment when all the conditions of R13 hold. -/
def State.checkEnding (s : State) : State :=
  if s.ctl.state = .ending ∧ s.pumpsStopped ∧ s.headsStill ∧ s.ctl.lightRunOut ∧ s.ctl.audioRunOut then s.enterIdle false
  else s

/-- Every channel target becomes 0 (R13). -/
def State.zeroTargets (s : State) : State :=
  { s with jet := { s.jet with chans := Vector.ofFn fun c : Fin 4 => { s.jet.chans[c] with nt := 0, fs := 0 } } }

/-- Entry to ENDING, from any of its causes (R13). -/
def State.enterEnding (cause : EndingCause) (s : State) : State :=
  let from_ := s.ctl.state
  let s1 : State :=
    { s with
      ctl := { s.ctl with endingCause := some cause, lightRunOut := false, audioRunOut := false }
      pump := { s.pump with wetEnding := from_ = .running ∨ from_ = .hold } }
  let s2 := ((s1.changeState .ending).clearSequencer.zeroTargets).beginLightRunOut
  ((s2.beginAudioRunOut (from_ = .running)).parkHeads.workGoals).checkEnding

/-! ### SAFE (R16) -/

/-- Entry to SAFE: from another state every block acts at once; in SAFE already, the cause only joins the set.  In start-up
and in CONFIG FAULT there is no such entry. -/
def State.enterSafe (cause : SafeCause) (s : State) : State :=
  if s.operating = false then s
  else if s.ctl.state = .safe then { s with ctl := { s.ctl with causes := s.ctl.causes.insert cause } }
  else
    let s1 : State :=
      { s with ctl := { s.ctl with
          firstCause := some cause, causes := CauseSet.insert {} cause, selected := 0, held := none
          lightRunOut := false, audioRunOut := false } }
    let s2 := (((s1.changeState .safe).clearSequencer.resetSection).dropEntry.flushMusic).mapPumps PumpRec.safe
    (s2.resetFixtures.dropOffsets.unhomeHeads).workGoals

/-- The SAFE record is emptied, as when CLEAR is taken (R18). -/
def State.emptySafe (s : State) : State := { s with ctl := { s.ctl with firstCause := none, causes := {} } }

/-! ### Crossings of show time (R10, R56) -/

/-- Show time at the time limit in RUNNING brings ENDING with the cause TIME LIMIT. -/
def timeLimitUs : Int := 1800000000

/-- The time-limit crossing. -/
def State.checkTimeLimit (s : State) : State :=
  if s.ctl.state = .running ∧ timeLimitUs ≤ s.clock.showTime then s.enterEnding .timeLimit else s

/-- Entry to RUNNING: goals are worked, valve commands open (R127), a sync check is made at once (R160), and show time
already at the time limit ends the show at once (R10). -/
def State.enterRunning (s : State) : State := ((s.changeState .running).workGoals.checkSync).checkTimeLimit

/-- The zero crossing (R56): show time at 0 or above in COUNTDOWN enters RUNNING. -/
def State.checkZero (s : State) : State :=
  if s.ctl.state = .countdown ∧ 0 ≤ s.clock.showTime then s.enterRunning else s

/-! ### HOLD (R11, R94) -/

/-- Entry to HOLD: every goal becomes 0; a catch-up scan in progress is abandoned with its single recompute request. -/
def State.enterHold (s : State) : State :=
  let s1 := s.changeState .hold
  State.workGoals
    { s1 with
      seq := { s1.seq with catchUp := false }
      jet := { s1.jet with view := none } }

end Sys2Proof.Machine
end

