-- ==== Sys2Proof/Machine/Sequencer.lean ====
section
/-! DEFINITION. The Cue Sequencer (06): decoding the cue stream, leads, the pending queue, handing cues on, and the
catch-up scan. -/

namespace Sys2Proof.Machine

/-! ### Handing cues on (R88 to R90, R93) -/

/-- A MARK takes effect (R89): a leg that show time has crossed under the old figures is taken first (R141, the model's
reading, notes/assumptions/23.md), then the section figures change, and the sweeps and chases that count beats from
them. -/
def State.applyMark (sectionNo beatLen beat id : Nat) (s : State) : State :=
  let len := clampNat 200 2000 beatLen
  let s0 := s.takeDueLegs
  let s1 := if len ≠ beatLen then s0.raise .valueClamp (some id) none else s0
  State.markChases (State.markSweeps
    { s1 with seq := { s1.seq with sectionNo := sectionNo, sectionStart := beat, beatLen := len } })

/-- A JET replaces its channel's table entry whole (R88). -/
def State.applyJet (c : Channel) (height : Nat) (openSet : NozzleSet) (id : Nat) (s : State) : State :=
  { s with seq := { s.seq with
      table := s.seq.table.set c (some { height := height, openSet := openSet, cueId := id, seen := false }) } }

/-- A cue is handed to the block it concerns.  `scan` is a cue applied by a catch-up scan: its fades are 0, and Jet
Computation is asked only at the scan's end (R93, R94). -/
def State.handOn (c : CueRec) (scan : Bool) (s : State) : State :=
  match c.body with
  | .jet ch height openSet =>
    let s1 := s.applyJet ch height openSet c.id
    if scan then s1 else s1.askPass
  | .aim h target part => s.takeAim h target part c.id
  | .light f colours fade divisor => s.takeLight f colours fade divisor c.id scan
  | .level gain fade => s.takeLevel gain fade c.id scan
  | .mark sectionNo beatLen => s.applyMark sectionNo beatLen c.beat c.id
  | .endCue => if s.ctl.state.cueing then s.enterEnding .endCue else s

/-! ### Leads (R85) -/

/-- The clamped target step of an AIM for its head. -/
def State.aimTarget (s : State) (h : Head) (target : Nat) : Nat := min target ((s.store.config.heads[h]).range - 1)

/-- The lead of a cue in ms (R85), clamped to at most 3,500. -/
def State.leadOf (s : State) (c : CueRec) : Nat :=
  min 3500
    (match c.body with
     | .jet ch height _ =>
       if height = 0 then 0
       else (s.store.config.channels[ch]).lbase + flight (min height (s.store.config.leastHmax ch) * s.jet.derate / 1000)
     | .aim h target _ =>
       let g := s.store.config.heads[h]
       ((s.aimTarget h target : Int) - s.seq.predicted[h]).natAbs * g.stepInterval / 1000 + g.settle
     | _ => 0)

/-- The issue time of a cue in ms: its beat time less its lead. -/
def State.issueTime (s : State) (c : CueRec) : Int := (c.beat : Int) - s.leadOf c

/-- The predicted position of a head becomes the target of the AIM taken (R85). -/
def State.predict (c : CueRec) (s : State) : State :=
  match c.body with
  | .aim h target _ => { s with seq := { s.seq with predicted := s.seq.predicted.set h (s.aimTarget h target) } }
  | _ => s

/-! ### The pending queue (R84, R86, R87) -/

/-- The order of the queue: issue time, then beat time, then stream order (R86). -/
def QueueEntry.before (a b : QueueEntry) : Bool :=
  a.issue < b.issue || (a.issue == b.issue && (a.cue.beat < b.cue.beat || (a.cue.beat == b.cue.beat && a.cue.order < b.cue.order)))

/-- An entry is inserted in its place (R86). -/
def insertEntry (e : QueueEntry) : List QueueEntry → List QueueEntry
  | [] => [e]
  | x :: xs => if e.before x then e :: x :: xs else x :: insertEntry e xs

/-- Whether a cue is a JET. -/
def CueRec.isJet (c : CueRec) : Bool :=
  match c.body with
  | .jet _ _ _ => true
  | _ => false

/-- The staged record is dropped from its place. -/
def State.unstage (s : State) : State := { s with seq := { s.seq with staged := none } }

/-- The staged record is taken (R84): late, due, into the queue, or stalled. -/
def State.takeStaged (s : State) : State :=
  match s.seq.staged with
  | none => s
  | some st =>
    let c := st.cue
    let issue := s.issueTime c
    if issue * 1000 < s.clock.showTime then
      ((s.unstage.predict c).raise .lateCue (some c.id) c.body.object).handOn c false
    else if s.clock.showTime = issue * 1000 then (s.unstage.predict c).handOn c false
    else if s.seq.queue.length < 64 then
      let s1 := s.unstage.predict c
      let s2 := { s1 with seq := { s1.seq with queue := insertEntry { cue := c, issue := issue } s1.seq.queue } }
      if c.isJet then s2.askPass else s2
    else if st.stalled then s
    else
      State.raise .queueFull (some c.id) none
        { s with seq := { s.seq with staged := some { st with stalled := true } } }

/-- Entries issue: COUNTDOWN or RUNNING, with the catch-up flag clear (R87). -/
def State.issuing (s : State) : Bool := s.ctl.state.cueing && !s.seq.catchUp

/-- The staged record may be taken (R84): issuing, inside the lookahead window, and not stalled.  A record that is beyond
the window when it ends a catch-up scan waits staged until the window reaches it (the model's reading of R93,
notes/assumptions/38.md). -/
def State.stagedReady (s : State) : Bool :=
  s.issuing &&
    (match s.seq.staged with
     | none => false
     | some st => !st.stalled && (st.cue.beat : Int) * 1000 ≤ s.clock.showTime + 4000000)

/-- A stalled record is taken again when an entry has left the queue by issue (R84). -/
def State.retake (s : State) : State :=
  match s.seq.staged with
  | none => s
  | some st => if st.stalled ∧ s.issuing then s.takeStaged else s

/-- The head of the queue is due (R87). -/
def State.headDue (s : State) : Bool :=
  match s.seq.queue with
  | [] => false
  | e :: _ => e.issue * 1000 ≤ s.clock.showTime

/-- The entry at the head of the queue issues (R87), and a stalled record is taken again (R84), also among the entries that
one step or RESUME makes due (the model's reading, notes/assumptions/23.md). -/
def State.issueHead (s : State) : State :=
  match s.seq.queue with
  | [] => s
  | e :: rest => (State.handOn e.cue false { s with seq := { s.seq with queue := rest } }).retake

/-- Due entries issue from the head of the queue, at most `n` of them. -/
def issueDueN : Nat → State → State
  | 0, s => s
  | n + 1, s => if s.issuing ∧ s.headDue then issueDueN n s.issueHead else s

/-- Every due entry issues (R87, R91). -/
def State.issueDue (s : State) : State := issueDueN s.seq.queue.length s

/-! ### Decoding (R79 to R82) -/

/-- A whole record is checked (R80): it becomes the staged record, or is skipped with its event. -/
def State.checkRecord (r : List Byte) (s : State) : State :=
  let kind := byteAt r 1
  let id := be16 r 2
  match cueForm r with
  | none => s.raise .unknownCue (some id) (some kind)
  | some form =>
    if s.seq.lastId.any fun l => id ≤ l then s.raise .unknownCue (some id) (some kind)
    else
      let s1 := { s with seq := { s.seq with lastId := some id } }
      match form.resolve s.store.config with
      | .error i => s1.raise .badTarget (some id) (some i)
      | .ok body =>
        { s1 with seq := { s1.seq with
            staged := some
              { cue := { id := id, beat := be32 r 4, order := s.seq.nextOrder, body := body }, stalled := false }
            nextOrder := s.seq.nextOrder + 1 } }

/-- A partial record is discarded with UNKNOWN CUE (R82), with the cue id and the kind as far as the partial held them. -/
def State.discardPartial (s : State) : State :=
  match s.seq.partialRec with
  | none => s
  | some p =>
    State.raise .unknownCue (if 4 ≤ p.length then some (be16 p 2) else none)
      (if 2 ≤ p.length then some (byteAt p 1) else none) { s with seq := { s.seq with partialRec := none } }

/-- The rest of the current block is unreadable (R79, R82): BLOCK LOST is raised, the block and any partial record go. -/
def State.blockUnreadable (s : State) : State :=
  State.raise .blockLost none (some Reader.cue.object)
    { s with seq := { s.seq with current := none, partialRec := none } }

/-- One record is decoded from the current block (R79, R81). -/
def State.decodeOne (s : State) : State :=
  match s.seq.current with
  | none => s
  | some [] => s
  | some (b :: bs) =>
    let len := b.toNat
    let bytes := b :: bs
    if len < 8 ∨ 40 < len then s.blockUnreadable
    else if bytes.length < len then
      { s with seq := { s.seq with current := none, partialRec := some bytes } }
    else
      State.checkRecord (bytes.take len) { s with seq := { s.seq with current := some (bytes.drop len) } }

/-- A cue block has been accepted: its carry is handled and it becomes the current block (R81, R82).  A carry count above the
payload length less one makes the block unreadable, also where it differs from what a partial record needs, and no UNKNOWN
CUE is raised then (the model's choice, notes/assumptions/47.md). -/
def State.takeCueBlock (payload : List Byte) (s : State) : State :=
  match payload with
  | [] => { s with seq := { s.seq with current := some [] } }
  | c :: rest =>
    let carry := c.toNat
    if rest.length < carry then s.blockUnreadable
    else
      let go (s : State) : State := { s with seq := { s.seq with current := some (rest.drop carry) } }
      match s.seq.partialRec with
      | none => go s
      | some p =>
        if carry = byteAt p 0 - p.length then
          go (State.checkRecord (p ++ rest.take carry) { s with seq := { s.seq with partialRec := none } })
        else go s.discardPartial

/-- A cue block is reported lost (R82): a partial record is discarded without a further event. -/
def State.cueBlockLost (s : State) : State := { s with seq := { s.seq with current := none, partialRec := none } }

/-- The cue reader moves to the next block (R73). -/
def State.cueReaderOn (s : State) : State :=
  { s with store := { s.store with cuePos := s.store.cuePos.map fun j => j + 1 } }

/-- The end of the stream is reported (R73, R82). -/
def State.endOfStream (s : State) : State :=
  let s1 := s.discardPartial
  { s1 with seq := { s1.seq with endSeen := true } }

/-! ### Reading ahead and the catch-up scan (R83, R92 to R94) -/

/-- The end of a catch-up scan (R93, R94): the flag clears, the view is dropped, one recompute is asked for, and a stalled
record that ended the scan is taken again. -/
def State.endScan (s : State) : State :=
  State.retake
    (State.askPass
      { s with
        seq := { s.seq with catchUp := false }
        jet := { s.jet with view := none } })

/-- A scan applies one cue at once (R93). -/
def State.applyCue (c : CueRec) (s : State) : State := (s.predict c).handOn c true

/-- The sequencer reads on, in at most `n` steps: it decodes, or asks for the next block (R83); in a scan it applies each
record already due, and the first that is not ends the scan (R93). -/
def readOnN : Nat → State → State
  | 0, s => s
  | n + 1, s =>
    if s.ctl.state.cueing = false then s
    else
      match s.seq.staged with
      | some st =>
        if s.seq.catchUp = false then s
        else if (st.cue.beat : Int) * 1000 ≤ s.clock.showTime then readOnN n (s.unstage.applyCue st.cue)
        else readOnN n s.endScan
      | none =>
        match s.seq.current with
        | some (_ :: _) => readOnN n s.decodeOne
        | _ =>
          if s.seq.endSeen then (if s.seq.catchUp then s.endScan else s)
          else if s.store.cueReq.isSome then s
          else
            match s.store.entry, s.store.cuePos with
            | some e, some j =>
              if e.cueCount ≤ j then readOnN n s.endOfStream
              else if maxBlock < e.firstCue + j then
                readOnN n ((s.raise .blockLost none (some Reader.cue.object)).cueBlockLost.cueReaderOn)
              else s.makeRequest .cue (e.firstCue + j) (s.expectCue j)
            | _, _ => s

/-- Enough steps for every byte of the current block and every block of the stream. -/
def State.readSteps (s : State) : Nat :=
  let bytes := match s.seq.current with
    | some b => b.length
    | none => 0
  let blocks := match s.store.entry with
    | some e => e.cueCount
    | none => 0
  2 * bytes + 2 * blocks + 8

/-- The sequencer reads on as far as it can, up to a staged record: outside a scan that is taken in a step of its own (the
model's reading, notes/assumptions/23.md, 46.md). -/
def State.readOn (s : State) : State := readOnN s.readSteps s

/-- Order of application of the queue in a scan: beat time, ties in stream order (R92). -/
def insertByBeat (e : QueueEntry) : List QueueEntry → List QueueEntry
  | [] => [e]
  | x :: xs =>
    if e.cue.beat < x.cue.beat ∨ (e.cue.beat = x.cue.beat ∧ e.cue.order < x.cue.order) then e :: x :: xs
    else x :: insertByBeat e xs

/-- The JET entries of the queue, in queue order, as the walk reads them (R103). -/
def queuedJets (q : List QueueEntry) : List QueuedJet :=
  q.filterMap fun e =>
    match e.cue.body with
    | .jet c height openSet => some { channel := c, height := height, openSet := openSet }
    | _ => none

/-- A scan applies one entry of the queue, unless an END applied before it has ended the scan (R93). -/
def State.applyEntry (e : QueueEntry) (s : State) : State := if s.ctl.state.cueing then s.applyCue e.cue else s

/-- A catch-up scan begins (R92, R109): the view is taken, the flag set, the queue's entries already due by beat time are
applied in beat order, and the scan reads on. -/
def State.startScan (s : State) : State :=
  if s.seq.catchUp then s
  else
    let due (e : QueueEntry) : Bool := (e.cue.beat : Int) * 1000 ≤ s.clock.showTime
    let now := (s.seq.queue.filter due).foldl (fun l e => insertByBeat e l) []
    let s1 : State :=
      { s with
        jet := { s.jet with view := some { table := s.seq.table, jets := queuedJets s.seq.queue } }
        seq := { s.seq with catchUp := true, queue := s.seq.queue.filter fun e => !due e } }
    (now.foldl (fun s e => s.applyEntry e) s1).readOn

/-- The Show Clock reports a step with its applied amount (R57, R91): a scan, or the entries now due issue and reading goes
on (R83).  One reported during a scan does nothing (R94). -/
def State.stepReported (a : Int) (s : State) : State :=
  if s.seq.catchUp ∨ s.ctl.state.cueing = false then s
  else if 4000000 < a then s.startScan
  else if 0 < a then s.issueDue.readOn
  else s

end Sys2Proof.Machine
end

