-- ==== Sys2Proof/Machine/Entry.lean ====
section
/-! DEFINITION. The entries that begin or resume a show run: COUNTDOWN and RUNNING by START, held START or join (R8 to
R11, R51, R61), ARMED (R7), RESUME, and following the majority (R15). -/

namespace Sys2Proof.Machine

/-- The start of a show run: section figures (R89), predicted positions (R85, R95) and gain (R162). -/
def State.startRun (s : State) : State :=
  let s1 := s.resetSection
  { s1 with
    seq := { s1.seq with predicted := Vector.ofFn fun h : Fin 8 => (s.store.config.heads[h]).park }
    music := { s1.music.fullGain with playIndex := 0 } }

/-- Show time is set (R49, R51, R61). -/
def State.setShowTime (t : Int) (s : State) : State :=
  State.recordSetting { s with clock := { s.clock with showTime := clampShowTime t } }

/-- Entry to COUNTDOWN (R8, R61): reading begins (R83), and a show time already at 0 or above passes at once into RUNNING
(R56).  A nozzle that is still FALLING stays so until its fall completes (the model's reading of R125 and R127,
notes/assumptions/37.md). -/
def State.enterCountdown (s : State) : State :=
  (((s.changeState .countdown).startRun.workGoals).readOn).checkZero

/-- Entry to RUNNING by join or through a held START (R9, R61): through a catch-up scan. -/
def State.joinRunning (s : State) : State :=
  ((((s.changeState .running).startRun.workGoals).checkSync).startScan).checkTimeLimit

/-- RESUME (R11, R87, R95): due entries issue, and decoding resumes. -/
def State.resumeShow (s : State) : State := (s.enterRunning.issueDue).readOn

/-- The show time a START gives (R51): -(delay × 1,000) plus the time since its start moment. -/
def State.startTime (delay moment : Nat) (s : State) : Int := -((delay : Int) * 1000) + ((s.localTimer : Int) - moment)

/-- Entry to ARMED (R7), with a held START applied at once (R9). -/
def State.enterArmed (s : State) : State :=
  let s1 := ((s.changeState .armed).resetFixtures).workGoals
  match s1.ctl.held with
  | none => s1
  | some hs =>
    let t := s1.startTime hs.delay hs.moment
    let s2 := State.setShowTime t { s1 with ctl := { s1.ctl with held := none } }
    if t < 0 then s2.enterCountdown else s2.joinRunning

/-- The station enters ARMED when the three operations of R7 have completed. -/
def State.checkArmed (s : State) : State :=
  if s.ctl.state = .loading ∧ s.prefillDone ∧ s.headsReady then s.enterArmed else s

/-- What Show Control and the arbiter do at the end of a step that may have completed an operation: ARMED (R7), the end of
ENDING (R13), and a grant decision (R69). -/
def State.settle (s : State) : State := s.checkArmed.checkEnding.grant

/-- A follow counter at an agreement (R15): up with a majority, 0 without. -/
def followCount (count total n : Nat) : Nat := if total < 2 * count then n + 1 else 0

/-- Show Control follows the majority at an agreement (R15). -/
def State.follow (s : State) : State :=
  if s.ctl.state.underWay = false then s
  else
    let total := s.sameShowPeers.length
    let s1 : State :=
      { s with ctl := { s.ctl with
          followHold := followCount (s.majorityCount 6) total s.ctl.followHold
          followRunning := followCount (s.majorityCount 5) total s.ctl.followRunning
          followEnding := followCount (s.majorityCount 7) total s.ctl.followEnding } }
    if s.ctl.state = .running ∧ 3 ≤ s1.ctl.followHold then s1.enterHold
    else if s.ctl.state = .hold ∧ 3 ≤ s1.ctl.followRunning then s1.resumeShow
    else if 3 ≤ s1.ctl.followEnding then s1.enterEnding .follow
    else s1

end Sys2Proof.Machine
end

