-- ==== Sys2Proof/Machine/Jet.lean ====
section
/-! DEFINITION. Jet Computation (07): wind and derate, height to speed, the planned draw, share and scale, the pass and its
hand-off; and the commands of the wind and of the pass. -/

namespace Sys2Proof.Machine

/-! ### Wind (R97 to R99) -/

/-- The derate of a filtered wind (R99). -/
def derateOf (g : StationConfig) (wf : Nat) : Nat :=
  if wf ≤ g.wLo then 1000
  else if g.wHi ≤ wf then g.dFloor
  else 1000 - (1000 - g.dFloor) * (wf - g.wLo) / (g.wHi - g.wLo)

/-- A rising edge of the anemometer (R97). -/
def State.windEdgeAt (s : State) : Jet :=
  let j := { s.jet with windEdge := some s.localTimer }
  match s.jet.windEdge with
  | none => j
  | some t => { j with rawWind := min 600 (s.store.config.windK / max 1 (s.localTimer - t)) }

/-- The effective raw wind W (R98): the greatest of the own raw wind and the wind set. -/
def State.effectiveWind (s : State) : Nat :=
  s.peers.windSet.foldl max (if s.store.config.anemometer then s.jet.rawWind else 0)

/-- The wind filter (R98): the filtered wind rises at once and falls by one, then the derate follows (R99). -/
def State.filterWind (s : State) : State :=
  let w := s.effectiveWind
  let wf := if s.jet.wf ≤ w then w else s.jet.wf - 1
  let d := derateOf s.store.config wf
  let s1 := { s with jet := { s.jet with wf := wf, derate := d } }
  if d = s.jet.derate then s1 else s1.askPass

/-! ### From height to speed and flow (R100, R101) -/

/-- The working height of a target height (R100, R101 step 1). -/
def workingHeight (hmax derate height : Nat) : Nat := min height hmax * derate / 1000

/-- The speed of a working height (R101 steps 2 and 3). -/
def speedOf (g : ChannelCfg) (hd : Nat) : Nat := min (isqrt (hd * 1000000 / g.hfull)) g.nmax

/-- The flow of a speed with `e` of `nc` nozzles open (R101 step 4). -/
def flowOf (g : ChannelCfg) (n e nc : Nat) : Nat := g.qfull * n * e / (1000 * nc)

/-- The trip of the channel's pump is latched. -/
def State.latchedAt (s : State) (c : Channel) : Bool :=
  (s.pump.pumps[c]).state == .tripped && (s.pump.pumps[c]).latched

/-- The nozzles that are OUT. -/
def State.withoutOut (s : State) (set : NozzleSet) : NozzleSet := set &&& ~~~s.outNozzles

/-- The open set E (R100): less the OUT nozzles and those that hold no aim permit. -/
def State.openSetOf (s : State) (set : NozzleSet) : NozzleSet :=
  s.withoutOut set &&& bitsOf 16 fun z => s.head.permits[z]

/-- The walk flow fw of a channel for a table entry (R103 step 2). -/
def State.walkFlow (s : State) (c : Channel) (height : Nat) (set : NozzleSet) : Nat :=
  let g := s.store.config.channels[c]
  let ew := countBits (s.withoutOut set)
  if height = 0 ∨ ew = 0 ∨ s.latchedAt c then 0
  else flowOf g (speedOf g (workingHeight (s.store.config.leastHmax c) s.jet.derate height)) ew (s.store.config.nc c)

/-! ### Planned draw (R103, R104) -/

/-- The table a pass reads: the catch-up view's while one is held (R109). -/
def State.passTable (s : State) : Vector (Option TableEntry) 4 :=
  match s.jet.view with
  | some v => v.table
  | none => s.seq.table

/-- The queued JETs a pass walks (R103, R109). -/
def State.passJets (s : State) : List QueuedJet :=
  match s.jet.view with
  | some v => v.jets
  | none => queuedJets s.seq.queue

/-- The sum of the walk flows of the present channels for a shadow table. -/
def State.walkSum (s : State) (shadow : Vector (Nat × NozzleSet) 4) : Nat :=
  ((List.finRange 4).map fun c =>
    if (s.store.config.channels[c]).present then s.walkFlow c (shadow[c]).1 (shadow[c]).2 else 0).foldl
    (fun a x => a + x) 0

/-- The shadow table of a walk: an empty entry reads as height 0 with an empty set (R88). -/
def shadowOf (t : Vector (Option TableEntry) 4) : Vector (Nat × NozzleSet) 4 :=
  Vector.ofFn fun c : Fin 4 =>
    match t[c] with
    | some e => (e.height, e.openSet)
    | none => (0, 0)

/-- The walk (R103): the greatest of the present sum and every later one. -/
def State.walk (s : State) : List QueuedJet → Vector (Nat × NozzleSet) 4 → Nat
  | [], shadow => s.walkSum shadow
  | j :: js, shadow => max (s.walkSum shadow) (s.walk js (shadow.set j.channel (j.height, j.openSet)))

/-- The planned draw P (R103, R104). -/
def State.plannedDraw (s : State) : Nat :=
  if s.ctl.state.underWay then min 65535 (s.walk s.passJets (shadowOf s.passTable)) else 0

/-! ### Share and scale (R105, R106) -/

/-- The share G of a planned draw (R105). -/
def shareOf (g : StationConfig) (planned other : Nat) : Nat :=
  min (if planned + other ≤ g.capacity then planned else planned * g.capacity / (planned + other)) g.ceiling

/-- The scale S (R106). -/
def scaleOf (planned share : Nat) : Nat := if planned = 0 then 1000 else share * 1000 / planned

/-- Steps 1 and 2 of a pass (R107): P, G and S, with BUDGET SCALED. -/
def State.passShare (s : State) : State :=
  let p := s.plannedDraw
  let g := shareOf s.store.config p s.jet.other
  let sc := scaleOf p g
  let s1 := { s with jet := { s.jet with planned := p, share := g, scale := sc } }
  if sc < 1000 ∧ s.jet.scale = 1000 then s1.raise .budgetScaled none none else s1

/-! ### The channels of a pass (R100 to R102) -/

/-- The figures of a channel for its table entry and the scale of the pass. -/
def State.chanFigures (s : State) (c : Channel) (height : Nat) (set : NozzleSet) : JetChan :=
  let g := s.store.config.channels[c]
  let hd := workingHeight (s.store.config.leastHmax c) s.jet.derate height
  let e := s.openSetOf set
  let idle := height = 0 ∨ countBits e = 0 ∨ s.latchedAt c
  let n := if idle then 0 else speedOf g hd
  let f := if idle then 0 else flowOf g n (countBits e) (s.store.config.nc c)
  let scaled := n * s.jet.scale / 1000
  let flushed := 0 < scaled ∧ scaled < g.nmin
  let nt := if flushed then 0 else scaled
  { hd := hd, openSet := e, n := n, f := f, nt := nt, fs := if 0 < nt then f * s.jet.scale / 1000 else 0
    starved := flushed }

/-- A pass has read the table entry of a channel: HEIGHT CLAMP is not raised for it again (R100). -/
def State.markSeen (c : Channel) (s : State) : State :=
  let mark (t : Vector (Option TableEntry) 4) (id : Option Nat) : Vector (Option TableEntry) 4 :=
    t.set c ((t[c]).map fun e => if id = none ∨ id = some e.cueId then { e with seen := true } else e)
  match s.jet.view with
  | none => { s with seq := { s.seq with table := mark s.seq.table none } }
  | some v =>
    { s with
      seq := { s.seq with table := mark s.seq.table (some (((v.table[c]).map fun e => e.cueId).getD 65536)) }
      jet := { s.jet with view := some { v with table := mark v.table none } } }

/-- Step 3 of a pass for one channel: its figures, HEIGHT CLAMP and STARVED (R100 to R102). -/
def State.passChannel (c : Channel) (s : State) : State :=
  if (s.store.config.channels[c]).present = false then s
  else
    let entry := s.passTable[c]
    let height := (entry.map fun e => e.height).getD 0
    let id := entry.map fun e => e.cueId
    let fig := s.chanFigures c height ((entry.map fun e => e.openSet).getD 0)
    let s1 :=
      if s.store.config.leastHmax c < height ∧ entry.any (fun e => !e.seen) then
        s.raise .heightClamp id (some c.val)
      else s
    let s2 := if fig.starved ∧ (s.jet.chans[c]).starved = false then s1.raise .starved id (some c.val) else s1
    State.markSeen c { s2 with jet := { s2.jet with chans := s2.jet.chans.set c fig } }

/-- Step 4 of a pass for one channel: nt, E, Hd and f′ are handed to Pump Control, whose pump acts on its goal (R107,
R115). -/
def State.handOffChannel (c : Channel) (s : State) : State :=
  if (s.store.config.channels[c]).present = false then s
  else
    let j := s.jet.chans[c]
    let p := s.pump.pumps[c]
    State.actGoal true c (s.setPump c
      { p with
        nt := j.nt, openSet := j.openSet, hd := j.hd, fs := j.fs
        working := if 0 < j.nt then j.hd else p.working })

/-- A pass (R107), working from the inputs as they stand when it begins.  The hand-off of step 4 goes through the channels in
index order, as step 3 does (the model's choice, notes/assumptions/36.md). -/
def State.pass (s : State) : State :=
  let s1 := State.passShare { s with jet := { s.jet with passDue := false } }
  let s2 := (List.finRange 4).foldl (fun s c => s.passChannel c) s1
  (((List.finRange 4).foldl (fun s c => s.handOffChannel c) s2).refreshValves).checkEnding

/-! ### The commands -/

/-- WIND_EDGE (R97): the WIND input is examined only where an anemometer is configured. -/
def execWindEdge (s : State) : Host.Outcome State Fault Refusal :=
  .next (if s.operating ∧ s.store.config.anemometer then { s with jet := s.windEdgeAt } else s)

/-- WIND_CALM_TIMEOUT (R97): 2,000 ms after the held edge. -/
def execWindCalmTimeout (s : State) : Host.Outcome State Fault Refusal :=
  .next
    (match s.jet.windEdge with
     | none => s
     | some t =>
       let s1 := s.passTo (t + 2000000)
       { s1 with jet := { s1.jet with rawWind := 0, windEdge := none } })

/-- WIND_FILTER_PERIOD (R98). -/
def execWindFilterPeriod (s : State) : Host.Outcome State Fault Refusal :=
  .next
    (match s.jet.windFilter with
     | none => s
     | some t =>
       let s1 := s.passTo t
       State.filterWind { s1 with jet := { s1.jet with windFilter := some (t + 100000) } })

/-- JET_COMPUTATION_PASS (R107, R108): no pass is made in CONFIG FAULT or before start-up ends. -/
def execJetComputationPass (pflt : BitVec 4) (s : State) : Host.Outcome State Fault Refusal :=
  let s1 := { s with inputs := { s.inputs with pflt := pflt } }
  .next (if s.operating then s1.pass else s1)

end Sys2Proof.Machine
end

