-- ==== Sys2Proof/Machine/Line.lean ====
section
/-! DEFINITION. The Line Controller (02): the three transmit slots, the one transmitter, the contents of PACE, ALERT and
REPORT frames, the clear-after-send of the Show Monitor (R170), and the commands of the transmitter. -/

namespace Sys2Proof.Machine

/-! ### Slots (R29) -/

/-- The kind of frame now on the line from this station, if any. -/
def Line.sendingKind (l : Line) : Option FrameKind :=
  match l.tx with
  | .sending kind _ _ => some kind
  | .quiet => none
  | .deferring => none
  | .backingOff => none

/-- A slot is filled: a QUIET transmitter becomes DEFERRING (R31). -/
def Line.fill (l : Line) : Line := if l.tx = .quiet then { l with tx := .deferring } else l

/-- A new frame of a kind that is on the line just now is a replacement (R29). -/
def Line.noteReplaced (kind : FrameKind) (l : Line) : Line :=
  if l.sendingKind = some kind then { l with replaced := true } else l

/-- An ALERT is placed in its slot, over one that waits there, whose attempt count it takes over (R29). -/
def Line.queueAlert (cause : AlertCause) (l : Line) : Line :=
  { (l.noteReplaced .alert) with alertSlot := some cause }.fill

/-- A PACE request is placed in its slot, in the same way (R29). -/
def Line.queuePace (l : Line) : Line := { (l.noteReplaced .pace) with paceSlot := true }.fill

/-- A REPORT is placed in its empty slot (R29). -/
def Line.placeReport (image : ReportImage) (l : Line) : Line := { l with reportSlot := some image }.fill

/-- The kind of the first full slot in the order ALERT, REPORT, PACE (R29). -/
def Line.firstFull (l : Line) : Option FrameKind :=
  if l.alertSlot.isSome then some .alert
  else if l.reportSlot.isSome then some .report
  else if l.paceSlot then some .pace
  else none

/-- A slot empties, with its attempt count (R29). -/
def Line.empty (kind : FrameKind) (l : Line) : Line :=
  match kind with
  | .alert => { l with alertSlot := none, alertTries := 0 }
  | .report => { l with reportSlot := none, reportTries := 0 }
  | .pace => { l with paceSlot := false, paceTries := 0 }

/-- The attempt count of a slot. -/
def Line.tries (l : Line) : FrameKind → Nat
  | .alert => l.alertTries
  | .report => l.reportTries
  | .pace => l.paceTries

/-- The attempt count of a slot becomes `n`. -/
def Line.setTries (n : Nat) (kind : FrameKind) (l : Line) : Line :=
  match kind with
  | .alert => { l with alertTries := n }
  | .report => { l with reportTries := n }
  | .pace => { l with paceTries := n }

/-- A PACE is queued in the Line Controller (R50). -/
def State.queuePace (s : State) : State := { s with line := s.line.queuePace }

/-- An ALERT is queued in the Line Controller (R17). -/
def State.queueAlert (cause : AlertCause) (s : State) : State := { s with line := s.line.queueAlert cause }

/-! ### Frame contents (R33, R171) -/

/-- The stamp as it goes out: show time in two's complement. -/
def stampOf (t : Int) : BitVec 32 := BitVec.ofInt 32 t

/-- The contents of a PACE in CONFIG FAULT (R3): state 9, the reason code in the section field, REHEARSAL and DUPLICATE as
they stand, and 0 elsewhere. -/
def State.faultPace (s : State) : PacePayload where
  stamp := 0
  showNo := 0
  stateCode := BitVec.ofNat 8 ShowState.configFault.code
  sectionNo := BitVec.ofNat 8 s.ctl.reason
  flags := BitVec.ofNat 8 (paceFlags false false s.ctl.rehearsal s.line.duplicate false false)
  planned := 0
  ceiling := 0
  current := 0
  wind := 0
  outNozzles := 0
  faultHeads := 0
  trippedPumps := 0
  causes := 0

/-- The contents of a PACE, gathered from their owners as they stand (R33); in rehearsal the three draws are 0 (R21). -/
def State.showPace (s : State) : PacePayload where
  stamp := stampOf s.clock.showTime
  showNo := BitVec.ofNat 8 s.ctl.selected
  stateCode := BitVec.ofNat 8 s.ctl.state.code
  sectionNo := BitVec.ofNat 8 s.seq.sectionNo
  flags := BitVec.ofNat 8 (paceFlags s.clock.solo s.mon.reportPending s.ctl.rehearsal s.line.duplicate
    s.store.config.anemometer s.clock.stepped)
  planned := if s.ctl.rehearsal then 0 else BitVec.ofNat 16 s.jet.planned
  ceiling := if s.ctl.rehearsal then 0 else BitVec.ofNat 16 s.store.config.ceiling
  current := if s.ctl.rehearsal then 0 else BitVec.ofNat 16 s.currentDraw
  wind := if s.store.config.anemometer then BitVec.ofNat 16 s.jet.rawWind else 0
  outNozzles := BitVec.ofNat 8 (countBits s.outNozzles)
  faultHeads := BitVec.ofNat 8 (countBits s.faultHeads)
  trippedPumps := BitVec.ofNat 8 (countBits s.latchedPumps)
  causes := BitVec.ofNat 8 s.ctl.causes.byte

/-- The PACE contents of the present state. -/
def State.paceContents (s : State) : PacePayload := if s.ctl.state = .configFault then s.faultPace else s.showPace

/-- A counter part of a REPORT (R171, 14 bytes); what is absent is sent as 0. -/
def CounterRec.bytes (c : CounterRec) : List Byte :=
  [BitVec.ofNat 8 ((c.kind.map fun k => k.code).getD 0)] ++ bytes16 c.value ++ bytes16 c.threshold ++
    [BitVec.ofNat 8 c.reportFlags, BitVec.ofNat 8 ((c.sample.map fun e => e.kind.code).getD 0)] ++
    bytes32 ((c.sample.map fun e => (stampOf e.time).toNat).getD 0) ++
    bytes16 ((c.sample.bind fun e => e.cueId).getD 0) ++
    [BitVec.ofNat 8 ((c.sample.bind fun e => e.object).getD 0)]

/-- The payload of a REPORT (R171, 64 bytes). -/
def ReportImage.bytes (r : ReportImage) : List Byte :=
  (r.counters.toList.flatMap CounterRec.bytes) ++ bytes16 r.outNozzles.toNat ++
    [r.faultHeads, r.latchedPumps.setWidth 8, BitVec.ofNat 8 r.causes.byte, if r.clearRequested then 1 else 0,
     BitVec.ofNat 8 (firstCauseByte r.firstCause), BitVec.ofNat 8 (endingCauseByte r.endingCause)]

/-- The REPORT as it stands when a QUERY is taken (R169). -/
def State.buildReport (clear : Bool) (s : State) : ReportImage where
  counters := s.mon.counters
  outNozzles := s.outNozzles
  faultHeads := s.faultHeads
  latchedPumps := s.latchedPumps
  causes := s.ctl.causes
  clearRequested := clear
  firstCause := s.ctl.firstCause
  endingCause := s.ctl.endingCause

/-- The pending clear recorded with a REPORT (R169). -/
def Monitor.snapshot (m : Monitor) : PendingClear where
  values := Vector.ofFn fun i : Fin 4 => (m.counters[i]).value
  crossed := Vector.ofFn fun i : Fin 4 => (m.counters[i]).crossed

/-- The payload of the frame in a slot. -/
def State.slotPayload (s : State) : FrameKind → List Byte
  | .pace => s.paceContents.bytes
  | .alert => match s.line.alertSlot with
    | some cause => [BitVec.ofNat 8 cause.code]
    | none => []
  | .report => match s.line.reportSlot with
    | some image => image.bytes
    | none => []

/-- The whole frame of a slot, with this station's number as its sender (R23). -/
def State.slotFrame (kind : FrameKind) (s : State) : LineFrame where
  sender := BitVec.ofNat 8 s.ctl.station
  kind := BitVec.ofNat 8 kind.code
  payload := s.slotPayload kind

/-! ### The idle line (R24, R31) -/

/-- The line has been idle for `n` µs at a local timer reading (R22). -/
def Line.idleFor (n now : Nat) (l : Line) : Bool :=
  match l.quietSince with
  | none => false
  | some q => q + n ≤ now

/-- The receiver can recognise a start mark, or has recognised one (R24): the own driver is off, and after a run of low
level that was too long the line has been idle for 50 µs. -/
def Line.hears (now : Nat) (l : Line) : Bool :=
  match l.receiver with
  | .hunting => true
  | .receiving _ => true
  | .waitIdle => l.idleFor 50 now
  | .off => false

/-- A frame, or the error that ends one, can reach the station: RESET is released, and the receiver can hear (R24).  In any
other state such a command cannot come about (notes/assumptions/7.md). -/
def State.hears (s : State) : Bool := s.ctl.phase != .held && s.line.hears s.localTimer

/-- The level this station drives at the present reading (R22, R23): that of the bit time of its frame, and high at rest. -/
def State.drivenLevel (s : State) : Bool :=
  match s.line.tx with
  | .sending _ bytes since => (frameWave bytes).getD (s.localTimer - since) true
  | .quiet => true
  | .deferring => true
  | .backingOff => true

/-! ### Attempts (R30 to R32) -/

/-- An attempt begins for the first full slot: the driver turns on, and the receiver no longer hunts (R24, R31). -/
def State.beginAttempt (s : State) : State :=
  match s.line.firstFull with
  | none => s
  | some kind =>
    { s with line := { s.line with
        tx := .sending kind (s.slotFrame kind).bytes s.localTimer, receiver := .off, quietSince := none, replaced := false } }

/-- How long a frame takes on the line, in µs (R23); its bytes are the five outside the payload and the payload. -/
def frameTime (bytes : List Byte) : Nat := 15 + 10 * bytes.length

/-- What follows a sent REPORT for one counter (R170). -/
def PendingClear.clearCounter (p : PendingClear) (i : Counter) (c : CounterRec) : CounterRec :=
  let c1 := { c with value := c.value - p.values[i] }
  if p.crossed[i] then { c1 with crossed := false, sample := none } else c1

/-- The clear-after-send (R170). -/
def Monitor.clearAfterSend (m : Monitor) : Monitor :=
  match m.pendingClear with
  | none => m
  | some p =>
    { counters := Vector.ofFn fun i : Fin 4 => p.clearCounter i m.counters[i], pendingClear := none }

/-- The transmitter after a sent frame (R31): DEFERRING for a full slot, or QUIET; the line has been idle since the last
rising edge of the frame. -/
def Line.afterSend (rise : Nat) (l : Line) : Line :=
  { l with
    tx := if l.firstFull.isSome then .deferring else .quiet, receiver := .hunting, quietSince := some rise, lowRun := 0
    replaced := false }

/-- The transmitter after a collision (R32): BACKING OFF, or QUIET when no slot is full any more; the line is idle from here
on, unless the coming bit times show carrier (notes/assumptions/34.md). -/
def Line.afterCollision (now : Nat) (l : Line) : Line :=
  { l with
    tx := if l.firstFull.isSome then .backingOff else .quiet, receiver := .hunting, quietSince := some now
    replaced := false }

/-- A frame has gone out (R30): its slot empties, or holds its replacement with count 0. -/
def State.sent (kind : FrameKind) (rise : Nat) (s : State) : State :=
  let l := if s.line.replaced then s.line.setTries 0 kind else s.line.empty kind
  { s with
    line := l.afterSend rise
    mon := if kind = .report then s.mon.clearAfterSend else s.mon }

/-- A frame is dropped after its eighth collision (R32). -/
def State.dropFrame (kind : FrameKind) (s : State) : State :=
  let s1 : State :=
    { s with
      line := (s.line.empty kind).afterCollision s.localTimer
      mon := if kind = .report then { s.mon with pendingClear := none } else s.mon }
  s1.raise .collisionLoss none (some kind.code)

/-- A collision (R32): the attempt count of the slot being served rises by one, and at 8 the frame is dropped. -/
def State.collide (kind : FrameKind) (s : State) : State :=
  let n := s.line.tries kind + 1
  if n < 8 then { s with line := (s.line.setTries n kind).afterCollision s.localTimer } else s.dropFrame kind

/-! ### The commands -/

/-- An attempt begins when the line has been idle for `gap` µs, any idle time already passed included; while there is
carrier on the line, or the own driver is on, the gap has not begun (R31). -/
def State.attemptAfter (gap : Nat) (s : State) : State :=
  match s.line.quietSince with
  | none => s
  | some q => (s.passTo (q + gap)).beginAttempt

/-- DEFER_GAP_END (R31): a DEFERRING transmitter has seen 50 µs of idle line. -/
def execDeferGapEnd (s : State) : Host.Outcome State Fault Refusal :=
  .next (if s.line.tx = .deferring then s.attemptAfter 50 else s)

/-- The idle line a transmitter BACKING OFF waits for, in µs (R31). -/
def backoffGap (station : Nat) : Nat := 50 + 20 * station

/-- BACKOFF_END (R31): a transmitter BACKING OFF has seen its longer idle gap. -/
def execBackoffEnd (s : State) : Host.Outcome State Fault Refusal :=
  .next (if s.line.tx = .backingOff then s.attemptAfter (backoffGap s.ctl.station) else s)

/-- COLLISION (R32). -/
def execCollision (s : State) : Host.Outcome State Fault Refusal :=
  .next
    (match s.line.tx with
     | .sending kind _ _ => s.collide kind
     | .quiet => s
     | .deferring => s
     | .backingOff => s)

/-- FRAME_SENT (R30): the end of the last stop bit; the line rose for the last time as the high bit times at its end began
(R31). -/
def execFrameSent (s : State) : Host.Outcome State Fault Refusal :=
  .next
    (match s.line.tx with
     | .sending kind bytes since =>
       (s.passTo (since + frameTime bytes)).sent kind (since + frameTime bytes - endHighs bytes)
     | .quiet => s
     | .deferring => s
     | .backingOff => s)

/-- DUPLICATE_TIMER_EXPIRY (R27). -/
def execDuplicateTimerExpiry (s : State) : Host.Outcome State Fault Refusal :=
  .next
    (match s.line.dupTimer with
     | none => s
     | some t =>
       let s1 := s.passTo t
       { s1 with line := { s1.line with duplicate := false, dupTimer := none } })

end Sys2Proof.Machine
end

