-- ==== Sys2Proof/Machine/ClockCommands.lean ====
section
/-! DEFINITION. The Show Clock (04): the pace timer with its agreement (R50, R53 to R55), steps (R57), SOLO (R59), and the
crossings of show time (R56). -/

namespace Sys2Proof.Machine

/-! ### Agreement (R53, R54) -/

/-- The least of some values. -/
def leastOf (l : List Int) : Int := l.foldl min (l.headD 0)

/-- The greatest of some values. -/
def greatestOf (l : List Int) : Int := l.foldl max (l.headD 0)

/-- The trim of R53: from four values up, one member of greatest and one of least value are discarded. -/
def trimExtremes (l : List Int) : List Int :=
  if 4 ≤ l.length then (l.erase (greatestOf l)).erase (leastOf l) else l

/-- The exact sum of some values. -/
def sumOf (l : List Int) : Int := l.foldl (fun a x => a + x) 0

/-- The average of R53, truncated toward zero. -/
def averageOf (l : List Int) : Int := Int.tdiv (sumOf l) l.length

/-- The agreement result A (R53): the usable offsets with the station's own 0, trimmed and averaged. -/
def agreementOf (offsets : List Int) : Int := averageOf (trimExtremes (0 :: offsets))

/-- An agreement of this size is a step (R54). -/
def isStep (a : Int) : Bool := 20000 < a.natAbs

/-- The adjustment that A asks for (R54), before the limits of show time. -/
def adjustmentOf (a : Int) : Int := if isStep a then a else clampInt (-100) 100 (Int.tdiv a 4)

/-- Show time after an adjustment (R54): the RUNNING floor, and the signed range of R49. -/
def adjustedTime (state : ShowState) (t a : Int) : Int :=
  clampShowTime (if state = .running ∧ t + a < 0 then 0 else t + a)

/-- What the Show Clock does once a step has been applied (R57). -/
def State.noteStep (applied : Int) (s : State) : State :=
  let s1 := s.raise .clockStep none none
  State.stepReported applied
    { s1 with clock := { s1.clock with stepped := true, stepRecent := some (s1.localTimer + 1000000) } }

/-- An agreement with adjustment (R53, R54), then the crossings (R56), which are judged by the adjusted show time: where
show time has just run up to a bound and the adjustment takes it back, none is reported yet.  The crossing report comes
before the report that ends the agreement (R55).  Both are the model's choices (notes/assumptions/42.md). -/
def State.agree (s : State) : State :=
  let a := agreementOf s.usableOffsets
  let t := adjustedTime s.ctl.state s.clock.showTime (adjustmentOf a)
  let applied := t - s.clock.showTime
  let s1 := State.shiftOffsets applied { s with clock := { s.clock with showTime := t } }
  let s2 := if isStep a then s1.noteStep applied else s1
  s2.checkZero.checkTimeLimit

/-- What an expiry of the pace timer does (R50): a PACE request, and in a show under way the agreement and its report to
Show Control.  Where the adjustment brings a crossing, the crossing report comes first, so the follow counters are zeroed
by the change of state and then counted in the new state (R15, R55; the model's choice, notes/assumptions/42.md). -/
def State.paceExpiry (s : State) : State :=
  let s1 := s.queuePace
  match s1.ctl.state with
  | .countdown | .running => (s1.agree.follow).settle
  | .hold => (s1.follow).settle
  | _ => s1

/-! ### The commands -/

/-- PACE_TIMER_EXPIRY (R50): a free-running 20 ms timer. -/
def execPaceTimerExpiry (pflt : BitVec 4) (s : State) : Host.Outcome State Fault Refusal :=
  let s0 := { s with inputs := { s.inputs with pflt := pflt } }
  .next
    (match s.clock.paceTimer with
     | none => s0
     | some t =>
       let s1 := s0.passTo t
       State.paceExpiry { s1 with clock := { s1.clock with paceTimer := some (t + 20000) } })

/-- STEP_RECENT_TIMER_EXPIRY (R57). -/
def execStepRecentTimerExpiry (s : State) : Host.Outcome State Fault Refusal :=
  .next
    (match s.clock.stepRecent with
     | none => s
     | some t =>
       let s1 := s.passTo t
       { s1 with clock := { s1.clock with stepped := false, stepRecent := none } })

/-- SOLITUDE_TIMER_EXPIRY (R59). -/
def execSolitudeTimerExpiry (s : State) : Host.Outcome State Fault Refusal :=
  .next
    (match s.clock.solitude with
     | none => s
     | some t =>
       let s1 := s.passTo t
       { s1 with clock := { s1.clock with solo := true, solitude := none } })

/-- SHOW_TIME_ZERO_CROSSING (R56): show time runs up to 0 in COUNTDOWN. -/
def execShowTimeZeroCrossing (s : State) : Host.Outcome State Fault Refusal :=
  .next (if s.ctl.state = .countdown then ((s.passShowTo 0).checkZero).settle else s)

/-- TIME_LIMIT (R10, R56): show time runs up to the limit in RUNNING. -/
def execTimeLimit (s : State) : Host.Outcome State Fault Refusal :=
  .next (if s.ctl.state = .running then ((s.passShowTo timeLimitUs).checkTimeLimit).settle else s)

end Sys2Proof.Machine
end

