-- ==== Sys2Proof/Machine/CueCommands.lean ====
section
/-! DEFINITION. The commands of the Cue Sequencer (06): the staged record enters the lookahead window, and entries of the
pending queue come due. -/

namespace Sys2Proof.Machine

/-- The show time at which a staged record enters the lookahead window (R84). -/
def windowTime (c : CueRec) : Int := (c.beat : Int) * 1000 - 4000000

/-- The staged record is taken when its conditions hold, and reading resumes (R83, R84); the record staged then is taken by
the next STAGED_RECORD_TAKEN (notes/assumptions/46.md). -/
def State.takeIfReady (s : State) : State := if s.stagedReady then s.takeStaged.readOn else s

/-- STAGED_RECORD_TAKEN (R84): show time reaches the window, where it has not already. -/
def execStagedRecordTaken (s : State) : Host.Outcome State Fault Refusal :=
  .next
    (match s.seq.staged with
     | none => s
     | some st =>
       if s.issuing ∧ st.stalled = false then (((s.passShowTo (windowTime st.cue)).takeIfReady).settle) else s)

/-- The head of the queue issues when it is due, and reading resumes (R83, R87). -/
def State.issueIfDue (s : State) : State := if s.headDue then s.issueHead.readOn else s

/-- CUE_ISSUE (R87): show time reaches the issue time of the entry at the head of the queue, where it has not already. -/
def execCueIssue (s : State) : Host.Outcome State Fault Refusal :=
  .next
    (match s.seq.queue with
     | [] => s
     | e :: _ => if s.issuing then (((s.passShowTo (e.issue * 1000)).issueIfDue).settle) else s)

end Sys2Proof.Machine
end

