-- ==== Sys2Proof/Machine/Frames.lean ====
section
/-! DEFINITION. Frames of other stations (R26 to R28, R37, R42), frame errors (R24), duplicates (R27), the late join (R60,
R61), and the ageing of peer entries (R40). -/

namespace Sys2Proof.Machine

/-- The reading of the last rising edge of the line at the end of a frame (R31): the one that was heard, or, for a frame
that comes whole as a command, the one that its bits put there (notes/assumptions/34.md). -/
def State.lastRise (c : Instr) (s : State) : Nat :=
  let whole := s.localTimer - commandHighs c
  match s.line.receiver with
  | .receiving _ => s.line.quietSince.getD whole
  | .hunting => whole
  | .waitIdle => whole
  | .off => whole

/-- The receiver becomes HUNTING at the end of a frame (R24); the line has been idle since its last rising edge (R31). -/
def State.frameDone (c : Instr) (s : State) : State :=
  { s with line := { s.line with receiver := .hunting, quietSince := some (s.lastRise c), lowRun := 0 } }

/-- A buffer at the recognition of a start mark (R24). -/
def RxBuffer.start (rx : Rx) : RxBuffer := { rx := rx, inMark := true, chars := [], bits := [], highs := 0 }

/-- The condition of the receiver after an abandoned or discarded frame (R24). -/
def receiverAfter : RxFailure → Receiver
  | .markTooLong => .waitIdle
  | .lowRun rx => .receiving (RxBuffer.start rx)
  | .stopBitLow => .hunting
  | .lengthOver80 => .hunting
  | .noStartBit => .hunting
  | .badCrc => .hunting
  | .badSender => .hunting
  | .badKind => .hunting
  | .badLength => .hunting
  | .deskKindFromStation => .hunting
  | .stationKindFromDesk => .hunting
  | .badPaceState => .hunting

/-- The reading from which the line has been idle at an abandoned or discarded frame: none for those that end at a low
level, and the last rising edge for the others (R31). -/
def quietAfter (rise : Nat) : RxFailure → Option Nat
  | .markTooLong => none
  | .lowRun _ => none
  | .stopBitLow => none
  | .lengthOver80 => some rise
  | .noStartBit => some rise
  | .badCrc => some rise
  | .badSender => some rise
  | .badKind => some rise
  | .badLength => some rise
  | .deskKindFromStation => some rise
  | .stationKindFromDesk => some rise
  | .badPaceState => some rise

/-- A frame is abandoned or discarded (R24, R26): FRAME ERROR, which is not raised before the configuration load ends. -/
def State.frameFails (c : Instr) (why : RxFailure) (s : State) : State :=
  let s1 := { s with line := { s.line with
    receiver := receiverAfter why, quietSince := quietAfter (s.lastRise c) why } }
  if s.ctl.state = .startUp then s1 else s1.raise .frameError none none

/-- A frame with the station's own number (R27): the flag, its 2 s timer, and the event, which is not raised before the
configuration load ends (R26). -/
def State.duplicateHeard (s : State) : State :=
  let s1 := { s with line := { s.line with duplicate := true, dupTimer := some (s.localTimer + 2000000) } }
  if s.ctl.state = .startUp then s1 else s1.raise .duplicateStation none none

/-- A frame of a station that passed the checks (R26 to R28, R2, R3): a duplicate is noted and discarded, and any other is
taken only while the blocks work.  While the receiver does not hear, no frame can come (R24). -/
def State.stationFrame (c : Instr) (sender : Byte) (take : State → State) (s : State) : State :=
  if s.hears = false then s
  else
    let s1 := s.frameDone c
    if s.validNumber ∧ sender.toNat = s.ctl.station then s1.duplicateHeard
    else if s.operating then take s1
    else s1

/-- The peer entry of a station number. -/
def peerOf (sender : Byte) : Peer := Fin.ofNat 24 (sender.toNat - 1)

/-! ### The late join (R60, R61) -/

/-- The show time that a PACE gives at this moment (R61). -/
def State.joinTime (p : PacePayload) (rx : Rx) (s : State) : Int :=
  p.stamp.toInt + s.store.config.lineDelay + ((s.localTimer : Int) - rx.moment)

/-- The conditions of a late join (R60). -/
def State.joins (s : State) (k : Peer) (p : PacePayload) : Bool :=
  s.ctl.state == .armed && p.showNo.toNat == s.ctl.selected && (p.stateCode.toNat == 4 || p.stateCode.toNat == 5) &&
    (s.peers.entries[k]).fresh == .fresh

/-- A late join: show time is set, and the station takes the state the peer announced. -/
def State.lateJoin (k : Peer) (p : PacePayload) (rx : Rx) (s : State) : State :=
  if s.joins k p then
    let s1 := s.setShowTime (s.joinTime p rx)
    if p.stateCode.toNat = 4 then s1.enterCountdown else s1.joinRunning
  else s

/-- A PACE of a peer is taken (R37): Peer View, then the join test on the arrival report. -/
def State.takePace (k : Peer) (p : PacePayload) (rx : Rx) (s : State) : State :=
  ((s.hearPace k p rx).lateJoin k p rx).settle

/-- An ALERT of a peer is taken (R42, R16). -/
def State.takeAlert (k : Peer) (rx : Rx) (s : State) : State :=
  ((s.setPeer k { s.peers.entries[k] with alert := some rx.moment }).enterSafe .peerAlert).settle

/-! ### The commands -/

/-- PACE_RECEIVED (R37); a sender or a state code that the checks of R26 do not pass is a FRAME ERROR. -/
def execPaceReceived (sender : Byte) (p : PacePayload) (rx : Rx) (s : State) : Host.Outcome State Fault Refusal :=
  .next
    (if s.hears = false then s
     else if 24 < sender.toNat then s.frameFails (.paceReceived sender p rx) .badSender
     else if sender.toNat = 0 then s.frameFails (.paceReceived sender p rx) .stationKindFromDesk
     else if paceStateCode p.stateCode = false then s.frameFails (.paceReceived sender p rx) .badPaceState
     else s.stationFrame (.paceReceived sender p rx) sender fun s => s.takePace (peerOf sender) p rx)

/-- ALERT_RECEIVED (R42): whatever its cause byte, which is received as it stands (R171). -/
def execAlertReceived (sender : Byte) (cause : Byte) (rx : Rx) (s : State) : Host.Outcome State Fault Refusal :=
  .next
    (if s.hears = false then s
     else if 24 < sender.toNat then s.frameFails (.alertReceived sender cause rx) .badSender
     else if sender.toNat = 0 then s.frameFails (.alertReceived sender cause rx) .stationKindFromDesk
     else s.stationFrame (.alertReceived sender cause rx) sender fun s => s.takeAlert (peerOf sender) rx)

/-- REPORT_RECEIVED (R28): discarded without an event. -/
def execReportReceived (sender : Byte) (s : State) : Host.Outcome State Fault Refusal :=
  .next
    (if s.hears = false then s
     else if 24 < sender.toNat then s.frameFails (.reportReceived sender) .badSender
     else if sender.toNat = 0 then s.frameFails (.reportReceived sender) .stationKindFromDesk
     else s.stationFrame (.reportReceived sender) sender fun s => s)

/-- FRAME_ERROR (R24, R26). -/
def execFrameError (why : RxFailure) (s : State) : Host.Outcome State Fault Refusal :=
  .next (if s.hears = false then s else s.frameFails (.frameError why) why)

/-- PEER_LAPSE (R40): 60 ms after the arrival time of a FRESH entry. -/
def execPeerLapse (k : Peer) (s : State) : Host.Outcome State Fault Refusal :=
  .next
    (if (s.peers.entries[k]).fresh = .fresh then (s.passTo (s.arrivalOf k + 60000)).lapsePeer k else s)

/-- PEER_LOST (R40): 2,000 ms after the arrival time of a LAPSED entry. -/
def execPeerLost (k : Peer) (s : State) : Host.Outcome State Fault Refusal :=
  .next
    (if (s.peers.entries[k]).fresh = .lapsed then (s.passTo (s.arrivalOf k + 2000000)).losePeer k else s)

end Sys2Proof.Machine
end

