-- ==== Sys2Proof/Machine/Loader.lean ====
section
/-! DEFINITION. What completed flash reads bring about: the config loader with both outcomes of start-up (R2 to R4, R71,
R75), the directory reader (R72), the cue and audio readers (R73, R74), and the verdict on an attempt (R67, R70). -/

namespace Sys2Proof.Machine

/-! ### Assertions of ESTOP and LOWLVL (R16, R17) -/

/-- ALERT generation begins (R17): an ALERT is queued and the 100 ms alert timer starts. -/
def State.startAlerts (cause : AlertCause) (s : State) : State :=
  let s1 := s.queueAlert cause
  { s1 with ctl := { s1.ctl with alertTimer := some (s1.localTimer + 100000) } }

/-- An input is asserted while the blocks work: SAFE, then ALERT generation. -/
def State.assertInput (cause : SafeCause) (alert : AlertCause) (s : State) : State :=
  (s.enterSafe cause).startAlerts alert

/-! ### CONFIG FAULT (R2, R3) -/

/-- Start-up fails with a reason code.  With a valid number the pace timer starts, and an input already asserted begins
ALERT generation. -/
def State.enterConfigFault (reason : Nat) (s : State) : State :=
  let s1 : State := { s with ctl := { s.ctl with phase := .done, state := .configFault, reason := reason } }
  if s.validNumber then
    let s2 := { s1 with clock := { s1.clock with paceTimer := some (s1.localTimer + 20000) } }
    if s2.inputs.estop then s2.startAlerts .eStop
    else if s2.inputs.lowlvl then s2.startAlerts .lowLevel
    else s2
  else s1

/-! ### The end of start-up (R4) -/

/-- The nozzle records after start-up: DRY, but OUT where the configuration marks them so (R4, R126). -/
def startNozzle (n : NozzleCfg) : NozzleRec :=
  if n.present ∧ n.out then { state := .out, configOut := true } else {}

/-- The station enters SAFE with the cause POWER-UP, and the timers of the blocks start (R4, R50, R98, R117, R145, R147, R157,
R160, R162).  This first entry asks for no pass of its own under R108 (the model's reading, notes/assumptions/39.md). -/
def State.powerUp (g : StationConfig) (s : State) : State :=
  let now := s.localTimer
  { s with
    ctl := { s.ctl with
      phase := .done, state := .safe, firstCause := some .powerUp, causes := CauseSet.insert {} .powerUp }
    clock := { s.clock with paceTimer := some (now + 20000) }
    store := { s.store with config := g }
    jet := { s.jet with windFilter := some (now + 100000) }
    pump := { s.pump with
      period := some (now + 20000), nozzles := Vector.ofFn fun z : Fin 16 => startNozzle g.nozzles[z] }
    lights := { s.lights with lightTimer := some (now + 10000), pwmTimer := some (now + 1000) }
    music := { s.music with slotBase := some now, syncTimer := some (now + 5000), gainTimer := some (now + 10000) } }

/-- Start-up completes (R4): SAFE with POWER-UP, the permits and duties of that state, then the inputs already asserted. -/
def State.completeStartUp (g : StationConfig) (s : State) : State :=
  let s1 := ((s.powerUp g).refreshPermits).regate
  let s2 := if s1.inputs.lowlvl then s1.assertInput .lowLevel .lowLevel else s1
  if s2.inputs.estop then s2.assertInput .eStop .eStop else s2

/-! ### The config loader (R71, R75) -/

/-- The directory location of a volume header is in range (R71 step 3). -/
def VolumeHeader.locationOk (v : VolumeHeader) : Bool :=
  within 1 maxBlock v.dirFirst && within 1 2 v.dirCount && v.dirFirst + v.dirCount - 1 ≤ maxBlock

/-- The configuration block of a station (R63). -/
def VolumeHeader.configOf (v : VolumeHeader) (station : Nat) : Nat := nthD v.configBlocks (station - 1) 0

/-- A config loader's request; a block number that cannot be read is lost at once (R67, R71 step 5). -/
def State.requestConfig (block : Nat) (s : State) : State :=
  if maxBlock < block then (s.raise .blockLost none (some Reader.config.object)).enterConfigFault 5
  else s.makeRequest .config block (expectConfig s.ctl.station)

/-- The volume header has been accepted (R71 steps 2 to 5). -/
def State.takeHeader (p : List Byte) (s : State) : State :=
  let v := readHeader p
  let s1 := { s with store := { s.store with header := some v } }
  if v.version ≠ 1 then s1.enterConfigFault 2
  else if v.locationOk = false then s1.enterConfigFault 3
  else if v.configOf s.ctl.station = 0 then s1.enterConfigFault 4
  else s1.requestConfig (v.configOf s.ctl.station)

/-- The kinds and thresholds are handed to the Show Monitor (R75, R167). -/
def State.adoptMonitor (g : StationConfig) (s : State) : State :=
  { s with mon := { s.mon with counters := Vector.ofFn fun i : Fin 4 =>
      { s.mon.counters[i] with kind := eventKindOf g.counterKinds[i], threshold := g.thresholds[i] } } }

/-- The configuration block has been accepted (R71 step 6): the monitor fields are handed over first, whatever happens to
the later ones.  A block whose validation fails is not held: the configuration stays as it was, empty since hard reset (R77;
the model's choice, notes/assumptions/45.md). -/
def State.takeConfig (p : List Byte) (s : State) : State :=
  let g := readConfig p
  let s1 := if g.monitorOk then s.adoptMonitor g else s
  match g.reason with
  | some r => s1.enterConfigFault r
  | none => s1.completeStartUp g

/-! ### The directory reader (R72) -/

/-- NO SHOW: the event, with the show number, and the return to IDLE (R7, R72). -/
def State.noShow (s : State) : State := (s.raise .noShow none (some s.ctl.selected)).enterIdle false

/-- A directory reader's request; a block number that cannot be read is lost at once (R67). -/
def State.requestDirectory (step : DirStep) (block : Nat) (e : Expect) (s : State) : State :=
  if maxBlock < block then (s.raise .blockLost none (some Reader.directory.object)).noShow
  else State.makeRequest .directory block e { s with store := { s.store with dirStep := step } }

/-- The directory reader begins with directory block 0 (R72 step 1). -/
def State.beginDirectory (s : State) : State := s.requestDirectory (.block 0) (s.dirBlock 0) (expectDirectory 0)

/-- The number of directory blocks. -/
def State.dirCount (s : State) : Nat :=
  match s.store.header with
  | some v => v.dirCount
  | none => 0

/-- Directory block `i` has been accepted (R72 steps 1 to 3). -/
def State.takeDirectory (i : Nat) (p : List Byte) (s : State) : State :=
  match findSlot p s.ctl.selected with
  | some table => s.requestDirectory .table table (expectTable s.ctl.selected)
  | none =>
    if i + 1 < s.dirCount then s.requestDirectory (.block (i + 1)) (s.dirBlock (i + 1)) (expectDirectory (i + 1))
    else s.noShow

/-- The section table has been accepted: this station's section becomes the directory entry, the cue reader is positioned
at block 0 with the last cue id emptied (R73, R95), and the audio reader at block 0 where there is audio (R74). -/
def State.takeTable (p : List Byte) (s : State) : State :=
  let e := readSection p s.ctl.station
  let audio := 0 < e.frames ∧ s.store.config.zone
  State.fillAudio
    { s with
      store := { s.store with
        entry := some e, cuePos := some 0, audioPos := if audio then some 0 else none }
      seq := { s.seq with current := none, partialRec := none, staged := none, lastId := none, endSeen := false } }

/-! ### Delivery and loss (R67, R73, R74) -/

/-- A block has been accepted, and its request ended: its payload in use goes to its reader.  A record that the sequencer
stages from a cue block waits for a STAGED_RECORD_TAKEN of its own, also when it is inside the window already (R84; the
model's reading, notes/assumptions/46.md). -/
def State.deliver (r : Reader) (seq : Nat) (p : List Byte) (s : State) : State :=
  match r with
  | .config => if s.store.header = none then s.takeHeader p else s.takeConfig p
  | .directory =>
    match s.store.dirStep with
    | .block i => s.takeDirectory i p
    | .table => s.takeTable p
  | .cue => (s.cueReaderOn.takeCueBlock p).readOn
  | .audio => (s.deliverAudio (readFrames p seq (audioBlockFrames s.frameCount seq))).fillAudio

/-- A block is lost, and its request ended: BLOCK LOST, and the reader acts under its own rule. -/
def State.lose (r : Reader) (seq : Nat) (s : State) : State :=
  let s1 := s.raise .blockLost none (some r.object)
  match r with
  | .config => s1.enterConfigFault (if s.store.header = none then 1 else 5)
  | .directory => s1.noShow
  | .cue => (s1.cueReaderOn.cueBlockLost).readOn
  | .audio => (s1.deliverAudio (silentFrames seq (audioBlockFrames s.frameCount seq))).fillAudio

/-- A standing request's attempt has brought its data (R67): accepted, to be read again, or lost. -/
def State.judge (r : Reader) (q : Request) (data : List Byte) (s : State) : State :=
  let ended := { s with store := s.store.setRequest none r }
  if goodRead q.expect data then ended.deliver r q.expect.seq (blockPayload data)
  else if q.attempts + 1 < 3 then
    State.raise .blockReread none (some r.object)
      { s with store := s.store.setRequest (some { q with attempts := q.attempts + 1 }) r }
  else ended.lose r q.expect.seq

/-- An attempt completes (R70): the port returns to FREE; the data of a withdrawn request is discarded unchecked. -/
def State.readCompletes (data : List Byte) (s : State) : State :=
  match s.store.port with
  | none => s
  | some p =>
    let s1 := { s with store := { s.store with port := none } }
    if p.withdrawn then s1
    else
      match s1.store.request p.reader with
      | none => s1
      | some q => s1.judge p.reader q data

end Sys2Proof.Machine
end

