-- ==== Sys2Proof/Machine/Desk.lean ====
section
/-! DEFINITION. The desk commands (R5 to R12, R18 to R20): each is taken with the effect of its rule, or ignored. -/

namespace Sys2Proof.Machine

/-- A desk command reaches Show Control (R5) when its frame can be heard (R24); before start-up ends and in CONFIG FAULT it
is discarded without an event (R2, R3). -/
def State.deskCommand (c : Instr) (take : State → State) (s : State) : State :=
  if s.hears = false then s
  else
    let s1 := s.frameDone c
    if s.operating then take s1 else s1

/-- An ignored command raises COMMAND IGNORED with its kind code (R5, R166). -/
def State.ignore (code : Nat) (s : State) : State := s.raise .commandIgnored none (some code)

/-! ### SELECT (R6, R7) -/

/-- A SELECT is taken: what stood loaded is abandoned, and the station enters LOADING for show `n`. -/
def State.takeSelect (n : Nat) (s : State) : State :=
  let s1 : State := { s with ctl := { s.ctl with selected := n, held := none } }
  let s2 := ((s1.dropEntry.flushMusic).changeState .loading).resetFixtures
  ((s2.workGoals).homeHeads.beginDirectory).settle

/-- The states in which a SELECT is taken (R5). -/
def State.selectable (s : State) : Bool :=
  match s.ctl.state with
  | .idle | .loading | .armed => true
  | _ => false

/-- SELECT (R6). -/
def execSelect (n : Byte) (hhom : BitVec 8) (s : State) : Host.Outcome State Fault Refusal :=
  .next
    (State.deskCommand (.select n hhom)
      (fun s => if n.toNat ≠ 0 ∧ s.selectable then s.takeSelect n.toNat else s.ignore 16)
      { s with inputs := { s.inputs with hhom := hhom } })

/-! ### START (R8, R51) -/

/-- The clamped delay of a START in ms. -/
def clampDelay (delay : Nat) : Nat := clampNat 1000 60000 delay

/-- A START whose delay is clamped raises VALUE CLAMP, with neither cue id nor object index (R8, R166). -/
def State.noteDelay (delay : Nat) (s : State) : State :=
  if clampDelay delay = delay then s else s.raise .valueClamp none none

/-- A START is examined (R8): COUNTDOWN from ARMED, held in LOADING, and otherwise ignored. -/
def State.takeStart (n delay moment : Nat) (s : State) : State :=
  let d := clampDelay delay
  let s1 := s.noteDelay delay
  if n ≠ 0 ∧ n = s.ctl.selected ∧ s.ctl.state = .armed then
    ((s1.setShowTime (s1.startTime d moment)).enterCountdown).settle
  else if n ≠ 0 ∧ n = s.ctl.selected ∧ s.ctl.state = .loading then
    { s1 with ctl := { s1.ctl with held := some { delay := d, moment := moment } } }
  else s1.ignore 17

/-- START (R8). -/
def execStart (n : Byte) (delay : BitVec 16) (rx : Rx) (s : State) : Host.Outcome State Fault Refusal :=
  .next (s.deskCommand (.start n delay rx) fun s => s.takeStart n.toNat delay.toNat rx.moment)

/-! ### HOLD, RESUME, STOP (R11, R12) -/

/-- HOLD (R11): taken in RUNNING. -/
def execHold (s : State) : Host.Outcome State Fault Refusal :=
  .next (s.deskCommand .hold fun s => if s.ctl.state = .running then s.enterHold.settle else s.ignore 18)

/-- RESUME (R11): taken in HOLD. -/
def execResume (pflt : BitVec 4) (s : State) : Host.Outcome State Fault Refusal :=
  .next
    (State.deskCommand (.resume pflt) (fun s => if s.ctl.state = .hold then s.resumeShow.settle else s.ignore 19)
      { s with inputs := { s.inputs with pflt := pflt } })

/-- STOP is examined (R12): ENDING from a show under way, IDLE from a load or an armed show. -/
def State.takeStop (s : State) : State :=
  match s.ctl.state with
  | .countdown | .running | .hold => (s.enterEnding .stop).settle
  | .loading | .armed => (s.enterIdle false).settle
  | _ => s.ignore 20

/-- STOP (R12). -/
def execStop (s : State) : Host.Outcome State Fault Refusal := .next (s.deskCommand .stop State.takeStop)

/-! ### CLEAR (R18) -/

/-- The conditions on which a station in SAFE is cleared (R18). -/
def State.clearable (s : State) : Bool :=
  s.ctl.state == .safe && !s.inputs.estop && !s.inputs.lowlvl &&
    (match s.peers.latestAlert with
     | none => true
     | some t => t + 500000 < s.localTimer)

/-- CLEAR (R18). -/
def execClear (estop : Bool) (s : State) : Host.Outcome State Fault Refusal :=
  .next
    (State.deskCommand (.clear estop) (fun s => if s.clearable then (s.emptySafe.enterIdle false).settle else s.ignore 21)
      { s with inputs := { s.inputs with estop := estop } })

/-! ### RESTART (R19) -/

/-- The soft restart: what R19 discards; from ARMED and IDLE the station enters IDLE, and from SAFE it stays in SAFE. -/
def State.softRestart (s : State) : State :=
  if s.ctl.state = .safe then
    (((s.clearSequencer.resetSection).dropEntry.flushMusic).unhomeHeads).askPass
  else (s.unhomeHeads).enterIdle true

/-- A RESTART addressed to this station is examined (R19). -/
def State.takeRestart (s : State) : State :=
  match s.ctl.state with
  | .idle | .armed | .safe => s.softRestart.settle
  | _ => s.ignore 22

/-- RESTART (R19): one addressed to another station is discarded without an event (R5). -/
def execRestart (target : Byte) (s : State) : Host.Outcome State Fault Refusal :=
  .next
    (s.deskCommand (.restart target) fun s =>
      if target.toNat = s.ctl.station ∨ target.toNat = 255 then s.takeRestart else s)

/-! ### QUERY (R20, R169) -/

/-- A QUERY is taken: the REPORT is built into its slot, with the pending clear when the clear flag is set. -/
def State.takeQuery (clear : Bool) (s : State) : State :=
  { s with
    line := s.line.placeReport (s.buildReport clear)
    mon := if clear then { s.mon with pendingClear := some s.mon.snapshot } else s.mon }

/-- QUERY (R20, R5). -/
def execQuery (target clearFlag : Byte) (s : State) : Host.Outcome State Fault Refusal :=
  .next
    (s.deskCommand (.query target clearFlag) fun s =>
      if target.toNat = 255 then s.ignore 23
      else if target.toNat ≠ s.ctl.station then s
      else if s.line.reportSlot.isSome then s.ignore 23
      else s.takeQuery (clearFlag.toNat ≠ 0))

end Sys2Proof.Machine
end

