-- ==== Sys2Proof/Machine/HeadCommands.lean ====
section
/-! DEFINITION. The commands of Head Control (09): the four timers of a head, encoder edges, sweep legs. -/

namespace Sys2Proof.Machine

/-- HOME_INTERVAL_EXPIRY (R132): the switch is sampled; home is found, another step is taken, or the seek has failed. -/
def execHomeIntervalExpiry (h : Head) (hhom : Bool) (s : State) : Host.Outcome State Fault Refusal :=
  let s0 := { s with inputs := { s.inputs with hhom := withBit s.inputs.hhom h.val hhom } }
  let r := s.head.heads[h]
  let g := s.store.config.heads[h]
  .next
    (match r.timer with
     | none => s0
     | some t =>
       if r.state = .homing then
         let s1 := s0.passTo t
         if hhom then ((s1.homeFound h).refreshPermits).settle
         else if g.range + g.range / 8 ≤ r.seekSteps then ((s1.headFault h .homeFail).refreshPermits).settle
         else s1.setHead h { r with
           seekSteps := r.seekSteps + 1, timer := some (s1.localTimer + g.homeInterval)
           pulse := some s1.localTimer }
       else s0)

/-- STEP_INTERVAL_EXPIRY (R135): the next step, the end of the move, or a reversal. -/
def execStepIntervalExpiry (h : Head) (s : State) : Host.Outcome State Fault Refusal :=
  let r := s.head.heads[h]
  .next
    (match r.timer, r.position, r.target with
     | some t, some p, some g =>
       if r.state = .moving then
         let s1 := s.passTo t
         if p = g.step then (s1.enterVerifying h).refreshPermits
         else if r.direction = some (senseTo p g.step) then (s1.issueStep h (senseTo p g.step)).refreshPermits
         else (s1.setHead h { r with state := .reversing, timer := some (s1.localTimer + 40000) }).refreshPermits
       else s
     | _, _, _ => s)

/-- REVERSAL_PAUSE_END (R136): MOVING in the sense in which the target now lies, or VERIFYING. -/
def execReversalPauseEnd (h : Head) (s : State) : Host.Outcome State Fault Refusal :=
  let r := s.head.heads[h]
  .next
    (match r.timer, r.target with
     | some t, some g => if r.state = .reversing then ((s.passTo t).goTo h g).refreshPermits else s
     | _, _ => s)

/-- SETTLE_PAUSE_END (R137, R138): the encoder is verified. -/
def execSettlePauseEnd (h : Head) (hhom : Bool) (s : State) : Host.Outcome State Fault Refusal :=
  let s0 := { s with inputs := { s.inputs with hhom := withBit s.inputs.hhom h.val hhom } }
  let r := s.head.heads[h]
  .next
    (match r.timer with
     | none => s0
     | some t =>
       if r.state = .verifying then
         let s1 := s0.passTo t
         ((if s1.verifies h then s1.verifyPass h else s1.verifyFail h hhom).refreshPermits).settle
       else s0)

/-- The place of the levels of HENA and HENB in the order low-low, high-low, high-high, low-high (R131). -/
def quadrature (a b : Bool) : Nat :=
  match a, b with
  | false, false => 0
  | true, false => 1
  | true, true => 2
  | false, true => 3

/-- What a change of the encoder levels counts (R131): up by one forward, down by one backward; a change of both inputs at
the same moment, or of neither, counts nothing. -/
def encoderCount (a b a' b' : Bool) : Int :=
  if (quadrature a b + 1) % 4 = quadrature a' b' then 1
  else if (quadrature a' b' + 1) % 4 = quadrature a b then -1
  else 0

/-- ENCODER_EDGE (R131, R139, R142): the levels of HENA and HENB after the edge. -/
def execEncoderEdge (h : Head) (a b : Bool) (s : State) : Host.Outcome State Fault Refusal :=
  let s0 := { s with inputs := { s.inputs with
    hena := withBit s.inputs.hena h.val a, henb := withBit s.inputs.henb h.val b } }
  let r := s.head.heads[h]
  let d := encoderCount (s.inputs.hena.getLsbD h.val) (s.inputs.henb.getLsbD h.val) a b
  .next
    (if s.operating ∧ s.headPresent h ∧ d ≠ 0 then
      ((s0.setHead h { r with encoder := r.encoder + d }).stallCheck h).refreshPermits
     else s0)

/-- The show time at which the leg after the one last seen begins, in µs (R141). -/
def State.nextLegAt (s : State) (w : Sweep) : Int :=
  ((w.leg + 1) * (w.beats * s.seq.beatLen : Nat) + s.seq.sectionStart) * 1000

/-- SWEEP_LEG_BOUNDARY (R141): the leg index changes with show time, and the head takes the new leg's position. -/
def execSweepLegBoundary (h : Head) (s : State) : Host.Outcome State Fault Refusal :=
  .next
    (match (s.head.heads[h]).sweep with
     | none => s
     | some w =>
       let s1 := if s.legIndex w.beats = w.leg then s.passShowTo (s.nextLegAt w) else s
       if s1.legIndex w.beats = w.leg then s1 else (s1.takeLeg h).refreshPermits)

end Sys2Proof.Machine
end

