-- ==== Sys2Proof/Machine/LightCommands.lean ====
section
/-! DEFINITION. The commands of the Light Engine (10) and of the low-level input's release. -/

namespace Sys2Proof.Machine

/-- LIGHT_STEP (R147): a free-running 10 ms timer. -/
def execLightStep (s : State) : Host.Outcome State Fault Refusal :=
  .next
    (match s.lights.lightTimer with
     | none => s
     | some t =>
       let s1 := s.passTo t
       (State.lightStep { s1 with lights := { s1.lights with lightTimer := some (t + 10000) } }).settle)

/-- LAMP_PWM_ROLLOVER (R145): the 48 counters roll over together, every 1 ms. -/
def execLampPwmRollover (s : State) : Host.Outcome State Fault Refusal :=
  .next
    (match s.lights.pwmTimer with
     | none => s
     | some t =>
       let s1 := s.passTo t
       State.pwmRollover { s1 with lights := { s1.lights with pwmTimer := some (t + 1000) } })

/-- LOW_LEVEL_RELEASED (R152): the gating of submerged fixtures is worked afresh. -/
def execLowLevelReleased (s : State) : Host.Outcome State Fault Refusal :=
  .next (State.regate { s with inputs := { s.inputs with lowlvl := false } })

end Sys2Proof.Machine
end

