-- ==== Sys2Proof/Machine/MusicCommands.lean ====
section
/-! DEFINITION. The commands of Music Playback (11): frame slots, sync checks, gain steps. -/

namespace Sys2Proof.Machine

/-- When frame slot number `n` (counted from 1) comes due after the interface's start: every 31.25 µs (R157), the first
whole reading of the local timer at or after it.  The first slot falls one slot time after the start (the model's choice,
notes/assumptions/41.md). -/
def slotAt (base n : Nat) : Nat := base + (125 * n + 3) / 4

/-- AUDIO_FRAME_SLOT (R157 to R159). -/
def execAudioFrameSlot (s : State) : Host.Outcome State Fault Refusal :=
  .next
    (match s.music.slotBase with
     | none => s
     | some b =>
       let s1 := s.passTo (slotAt b (s.music.slots + 1))
       ((State.audioSlot { s1 with music := { s1.music with slots := s1.music.slots + 1 } }).fillAudio).settle)

/-- SYNC_CHECK (R160): a free-running 5 ms timer. -/
def execSyncCheck (s : State) : Host.Outcome State Fault Refusal :=
  .next
    (match s.music.syncTimer with
     | none => s
     | some t =>
       let s1 := s.passTo t
       (State.checkSync { s1 with music := { s1.music with syncTimer := some (t + 5000) } }).settle)

/-- GAIN_STEP (R162, R164): a free-running 10 ms timer. -/
def execGainStep (s : State) : Host.Outcome State Fault Refusal :=
  .next
    (match s.music.gainTimer with
     | none => s
     | some t =>
       let s1 := s.passTo t
       (State.gainStep { s1 with music := { s1.music with gainTimer := some (t + 10000) } }).settle)

end Sys2Proof.Machine
end

