-- ==== Sys2Proof/Machine/PumpCommands.lean ====
section
/-! DEFINITION. The commands of Pump Control (08): its period, its timers, the drive fault, the flow meters, the valves and
the nozzles. -/

namespace Sys2Proof.Machine

/-- Whether a channel is present. -/
def State.channelPresent (s : State) (c : Channel) : Bool := (s.store.config.channels[c]).present

/-- PUMP_CONTROL_PERIOD (R116 to R119): a free-running 20 ms timer. -/
def execPumpControlPeriod (s : State) : Host.Outcome State Fault Refusal :=
  .next
    (match s.pump.period with
     | none => s
     | some t =>
       let s1 := s.passTo t
       (State.pumpPeriod { s1 with pump := { s1.pump with period := some (t + 20000) } }).settle)

/-- START_TIMER_EXPIRY (R116): a STARTING pump whose check has not passed trips with NO FLOW. -/
def execStartTimerExpiry (c : Channel) (s : State) : Host.Outcome State Fault Refusal :=
  let p := s.pump.pumps[c]
  .next
    (match p.startTimer with
     | none => s
     | some t => if p.state = .starting then ((s.passTo t).trip c .noFlow).settle else s)

/-- DRIVE_FAULT (R120): PFLT is asserted; a pump that is STARTING, RUNNING or STOPPING trips.  In rehearsal the input is
not examined (R128). -/
def execDriveFault (c : Channel) (s : State) : Host.Outcome State Fault Refusal :=
  let s1 := { s with inputs := { s.inputs with pflt := withBit s.inputs.pflt c.val true } }
  .next
    (if s.operating ∧ s.channelPresent c ∧ s.ctl.rehearsal = false ∧ (s.pump.pumps[c]).state.runs then
      (s1.trip c .driveFault).settle
     else s1)

/-- HOLD_OFF_EXPIRY (R121): the pump enters STOPPED, and starts at once if its goal stands above 0. -/
def execHoldOffExpiry (c : Channel) (pflt : Bool) (s : State) : Host.Outcome State Fault Refusal :=
  let s1 := { s with inputs := { s.inputs with pflt := withBit s.inputs.pflt c.val pflt } }
  let p := s.pump.pumps[c]
  .next
    (match p.holdOff with
     | none => s1
     | some t =>
       if p.state = .tripped ∧ p.latched = false then
         let s2 := (s1.passTo t).setPump c { p with state := .stopped, holdOff := none }
         ((if 0 < p.goal then s2.startPump c else s2).refreshValves).settle
       else s1)

/-- FLOW_EDGE (R122): a rising edge of a present channel's flow meter; in rehearsal the input is not read. -/
def execFlowEdge (c : Channel) (s : State) : Host.Outcome State Fault Refusal :=
  let p := s.pump.pumps[c]
  .next
    (if s.operating ∧ s.channelPresent c ∧ s.ctl.rehearsal = false then
      match p.flowEdge with
      | none => s.setPump c { p with flowEdge := some s.localTimer }
      | some t =>
        s.setPump c
          { p with
            flowEdge := some s.localTimer
            flow := min 65535 ((s.store.config.channels[c]).kf / max 1 (s.localTimer - t)) }
     else s)

/-- FLOW_SILENCE_TIMEOUT (R122): 1,000 ms after the held edge. -/
def execFlowSilenceTimeout (c : Channel) (s : State) : Host.Outcome State Fault Refusal :=
  let p := s.pump.pumps[c]
  .next
    (match p.flowEdge with
     | none => s
     | some t => (s.passTo (t + 1000000)).setPump c { p with flow := 0, flowEdge := none })

/-- VALVE_PULL_IN_END (R124): the drive passes to the hold duty; the first hold period begins at the next rollover. -/
def execValvePullInEnd (z : Nozzle) (s : State) : Host.Outcome State Fault Refusal :=
  let n := s.pump.nozzles[z]
  .next
    (match n.drive with
     | .pullIn t =>
       let s1 := s.passTo t
       s1.setNozzle z { n with drive := .hold s1.localTimer }
     | .off => s
     | .hold _ => s)

/-- When the climb of a RISING nozzle is complete (R125): the flight of its channel's Hd after its rise start, the later
of its valve opening and the channel's settle moment; none while the settle moment is none. -/
def State.climbEnd (s : State) (z : Nozzle) : Option Nat :=
  match (s.pumpOf z).settle with
  | none => none
  | some t => some (max (s.pump.nozzles[z]).openedAt t + flight (s.pumpOf z).hd * 1000)

/-- When the fall of a FALLING nozzle is complete (R125). -/
def State.fallEnd (s : State) (z : Nozzle) : Nat :=
  (s.pump.nozzles[z]).closedAt + flight (s.pump.nozzles[z]).fallHeight * 1000

/-- NOZZLE_CLIMB_COMPLETE (R125): the nozzle becomes WET. -/
def execNozzleClimbComplete (z : Nozzle) (s : State) : Host.Outcome State Fault Refusal :=
  let n := s.pump.nozzles[z]
  .next
    (match s.climbEnd z with
     | none => s
     | some t => if n.state = .rising then ((s.passTo t).setNozzle z { n with state := .wet }).regate else s)

/-- NOZZLE_FALL_COMPLETE (R125): the nozzle becomes DRY. -/
def execNozzleFallComplete (z : Nozzle) (s : State) : Host.Outcome State Fault Refusal :=
  let n := s.pump.nozzles[z]
  .next (if n.state = .falling then ((s.passTo (s.fallEnd z)).setNozzle z { n with state := .dry }).regate else s)

/-- REHEARSAL_STARTING_EXPIRY (R128): 200 ms after STARTING entry the simulated pump enters RUNNING. -/
def execRehearsalStartingExpiry (c : Channel) (s : State) : Host.Outcome State Fault Refusal :=
  let p := s.pump.pumps[c]
  .next
    (match p.rehearsalTimer with
     | none => s
     | some t =>
       if p.state = .starting then
         (s.passTo t).setPump c { p with state := .running, rehearsalTimer := none }
       else s)

end Sys2Proof.Machine
end

