-- ==== Sys2Proof/Machine/StartUp.lean ====
section
/-! DEFINITION. The commands of reset and start-up (R1 to R4), of the ESTOP and LOWLVL inputs (R16, R17), and the arrival of
flash data (R67). -/

namespace Sys2Proof.Machine

/-- HARD_RESET (R1): everything is abandoned at once, and RESET is held; the pins keep their levels. -/
def execHardReset (s : State) : Host.Outcome State Fault Refusal :=
  .next { State.reset with inputs := s.inputs, pending := s.pending }

/-- RESET_RELEASE (R2): the straps are sampled, the local timer runs (R25), and the 10 ms settling wait begins. -/
def execResetRelease (stn : BitVec 5) (rehearse : Bool) (s : State) : Host.Outcome State Fault Refusal :=
  .next
    (if s.ctl.phase = .held then
      { s with
        localTimer := 0
        ctl := { s.ctl with
          phase := .settling, settleTimer := some 10000, station := stn.toNat, rehearsal := rehearse } }
     else s)

/-- What follows the settling wait (R2, R71): CONFIG FAULT for a number out of range, or the request for block 0. -/
def State.afterSettling (s : State) : State :=
  if s.validNumber then
    State.grant (State.makeRequest .config 0 expectHeader { s with ctl := { s.ctl with phase := .loadingConfig } })
  else s.enterConfigFault 0

/-- SETTLING_EXPIRY (R2). -/
def execSettlingExpiry (s : State) : Host.Outcome State Fault Refusal :=
  .next
    (match s.ctl.settleTimer with
     | none => s
     | some t =>
       let s1 := s.passTo t
       State.afterSettling { s1 with ctl := { s1.ctl with settleTimer := none } })

/-- An input is asserted: SAFE and ALERT generation; in CONFIG FAULT with a valid number ALERT generation alone (R3, R17);
before start-up ends nothing yet (R16). -/
def State.inputAsserted (cause : SafeCause) (alert : AlertCause) (s : State) : State :=
  if s.operating then (s.assertInput cause alert).settle
  else if s.ctl.state = .configFault ∧ s.validNumber then s.startAlerts alert
  else s

/-- ESTOP_ASSERTED (R16). -/
def execEstopAsserted (s : State) : Host.Outcome State Fault Refusal :=
  .next (State.inputAsserted .eStop .eStop { s with inputs := { s.inputs with estop := true } })

/-- LOW_LEVEL_ASSERTED (R16, R152). -/
def execLowLevelAsserted (s : State) : Host.Outcome State Fault Refusal :=
  .next (State.regate (State.inputAsserted .lowLevel .lowLevel { s with inputs := { s.inputs with lowlvl := true } }))

/-- What an expiry of the alert timer does (R17): a further ALERT while an input is asserted, or the end of generation. -/
def State.alertExpiry (s : State) : State :=
  if s.inputs.estop then s.startAlerts .eStop
  else if s.inputs.lowlvl then s.startAlerts .lowLevel
  else { s with ctl := { s.ctl with alertTimer := none } }

/-- ALERT_TIMER_EXPIRY (R17). -/
def execAlertTimerExpiry (estop : Bool) (s : State) : Host.Outcome State Fault Refusal :=
  let s0 := { s with inputs := { s.inputs with estop := estop } }
  .next
    (match s.ctl.alertTimer with
     | none => s0
     | some t => (s0.passTo t).alertExpiry)

/-- FLASH_READ_COMPLETE (R67, R70): the data of the attempt in progress arrives, and the next grant is decided. -/
def execFlashReadComplete (data : List Byte) (estop : Bool) (s : State) : Host.Outcome State Fault Refusal :=
  let s0 := { s with inputs := { s.inputs with estop := estop } }
  .next (if s.store.port = none then s0 else (s0.readCompletes data).settle)

end Sys2Proof.Machine
end

