-- ==== Sys2Proof/Machine/Dispatch.lean ====
section
/-! DEFINITION. The one dispatch: every command of the table to its meaning. -/

namespace Sys2Proof.Machine

/-- What a command does to everything but the queue. -/
def exec (i : Instr) (s : State) : Host.Outcome State Fault Refusal :=
  match i with
  | .hardReset => Sys2Proof.Machine.execHardReset s
  | .resetRelease stn rehearse => Sys2Proof.Machine.execResetRelease stn rehearse s
  | .settlingExpiry => Sys2Proof.Machine.execSettlingExpiry s
  | .select n hhom => Sys2Proof.Machine.execSelect n hhom s
  | .start n delay rx => Sys2Proof.Machine.execStart n delay rx s
  | .hold => Sys2Proof.Machine.execHold s
  | .resume pflt => Sys2Proof.Machine.execResume pflt s
  | .stop => Sys2Proof.Machine.execStop s
  | .clear estop => Sys2Proof.Machine.execClear estop s
  | .restart target => Sys2Proof.Machine.execRestart target s
  | .query target clearFlag => Sys2Proof.Machine.execQuery target clearFlag s
  | .paceReceived sender p rx => Sys2Proof.Machine.execPaceReceived sender p rx s
  | .alertReceived sender cause rx => Sys2Proof.Machine.execAlertReceived sender cause rx s
  | .reportReceived sender => Sys2Proof.Machine.execReportReceived sender s
  | .frameError why => Sys2Proof.Machine.execFrameError why s
  | .peerLapse k => Sys2Proof.Machine.execPeerLapse k s
  | .peerLost k => Sys2Proof.Machine.execPeerLost k s
  | .duplicateTimerExpiry => Sys2Proof.Machine.execDuplicateTimerExpiry s
  | .deferGapEnd => Sys2Proof.Machine.execDeferGapEnd s
  | .backoffEnd => Sys2Proof.Machine.execBackoffEnd s
  | .collision => Sys2Proof.Machine.execCollision s
  | .frameSent => Sys2Proof.Machine.execFrameSent s
  | .paceTimerExpiry pflt => Sys2Proof.Machine.execPaceTimerExpiry pflt s
  | .stepRecentTimerExpiry => Sys2Proof.Machine.execStepRecentTimerExpiry s
  | .solitudeTimerExpiry => Sys2Proof.Machine.execSolitudeTimerExpiry s
  | .showTimeZeroCrossing => Sys2Proof.Machine.execShowTimeZeroCrossing s
  | .timeLimit => Sys2Proof.Machine.execTimeLimit s
  | .estopAsserted => Sys2Proof.Machine.execEstopAsserted s
  | .lowLevelAsserted => Sys2Proof.Machine.execLowLevelAsserted s
  | .lowLevelReleased => Sys2Proof.Machine.execLowLevelReleased s
  | .alertTimerExpiry estop => Sys2Proof.Machine.execAlertTimerExpiry estop s
  | .flashReadComplete data estop => Sys2Proof.Machine.execFlashReadComplete data estop s
  | .stagedRecordTaken => Sys2Proof.Machine.execStagedRecordTaken s
  | .cueIssue => Sys2Proof.Machine.execCueIssue s
  | .jetComputationPass pflt => Sys2Proof.Machine.execJetComputationPass pflt s
  | .windEdge => Sys2Proof.Machine.execWindEdge s
  | .windCalmTimeout => Sys2Proof.Machine.execWindCalmTimeout s
  | .windFilterPeriod => Sys2Proof.Machine.execWindFilterPeriod s
  | .pumpControlPeriod => Sys2Proof.Machine.execPumpControlPeriod s
  | .startTimerExpiry c => Sys2Proof.Machine.execStartTimerExpiry c s
  | .driveFault c => Sys2Proof.Machine.execDriveFault c s
  | .holdOffExpiry c pflt => Sys2Proof.Machine.execHoldOffExpiry c pflt s
  | .flowEdge c => Sys2Proof.Machine.execFlowEdge c s
  | .flowSilenceTimeout c => Sys2Proof.Machine.execFlowSilenceTimeout c s
  | .valvePullInEnd z => Sys2Proof.Machine.execValvePullInEnd z s
  | .nozzleClimbComplete z => Sys2Proof.Machine.execNozzleClimbComplete z s
  | .nozzleFallComplete z => Sys2Proof.Machine.execNozzleFallComplete z s
  | .homeIntervalExpiry h hhom => Sys2Proof.Machine.execHomeIntervalExpiry h hhom s
  | .stepIntervalExpiry h => Sys2Proof.Machine.execStepIntervalExpiry h s
  | .reversalPauseEnd h => Sys2Proof.Machine.execReversalPauseEnd h s
  | .settlePauseEnd h hhom => Sys2Proof.Machine.execSettlePauseEnd h hhom s
  | .encoderEdge h a b => Sys2Proof.Machine.execEncoderEdge h a b s
  | .sweepLegBoundary h => Sys2Proof.Machine.execSweepLegBoundary h s
  | .lightStep => Sys2Proof.Machine.execLightStep s
  | .lampPwmRollover => Sys2Proof.Machine.execLampPwmRollover s
  | .audioFrameSlot => Sys2Proof.Machine.execAudioFrameSlot s
  | .syncCheck => Sys2Proof.Machine.execSyncCheck s
  | .gainStep => Sys2Proof.Machine.execGainStep s
  | .rehearsalStartingExpiry c => Sys2Proof.Machine.execRehearsalStartingExpiry c s

end Sys2Proof.Machine
end

