-- ==== Sys2Proof/Machine/Receiver.lean ====
section
/-! DEFINITION. The receiver of the Line Controller, bit time by bit time (R22, R24, R25), and the read-back of the
transmitter (R32): what LRX shows in a bit time becomes a latch, a start mark, a character, a frame or a failure, and
from there the command that the frame stands for. -/

namespace Sys2Proof.Machine

/-- What a bit time brings besides the receiver's new condition: nothing, the end of a frame in reception (R24), or a
complete frame with its latches (R25). -/
inductive RxEvent where
  | nothing
  | failed (why : RxFailure)
  | frame (rx : Rx) (bytes : List Byte)
  deriving DecidableEq, Repr

/-- The edge that a bit time may begin with, and the runs it prolongs (R24, R25, R31).  `now` is show time and the local
timer at its beginning.  While the own driver is on nothing is latched and the line is not idle, and a run of low level
that began then is none that can become a start mark, so it counts as too long from the first.  The pair of a falling
edge inside a frame goes to no frame but the one that a new start mark opens there (R24). -/
def Line.edge (now : Rx) (level : Bool) (l : Line) : Line :=
  if l.receiver = .off then { l with quietSince := none, lowRun := if level then 0 else 21 }
  else
    let l1 := if l.receiver = .waitIdle ∧ l.idleFor 50 now.moment then { l with receiver := .hunting } else l
    if level then { l1 with quietSince := some (l1.quietSince.getD now.moment), lowRun := 0 }
    else { l1 with quietSince := none, lowRun := l1.lowRun + 1, latch := if l1.lowRun = 0 then now else l1.latch }

/-- A character ends with its stop bit sampled high (R24): the length is read from the third, and the frame is complete with
5 + length of them. -/
def RxBuffer.endChar (b : RxBuffer) : RxBuffer × RxEvent :=
  let chars := b.chars ++ [byteOfBits (b.bits.drop 1)]
  let b1 := { b with chars := chars, bits := [], highs := 0 }
  if 3 ≤ chars.length ∧ 80 < byteAt chars 2 then (b1, .failed .lengthOver80)
  else if 3 ≤ chars.length ∧ 5 + byteAt chars 2 ≤ chars.length then (b1, .frame b.rx chars)
  else (b1, .nothing)

/-- One bit time in RECEIVING (R24); `run` is the run of low level with this bit time, `latch` the pair of its falling edge.
A run of 12 inside the frame is a new start mark, though the low stop bit that it holds is sampled before. -/
def RxBuffer.hear (level : Bool) (run : Nat) (latch : Rx) (b : RxBuffer) : RxBuffer × RxEvent :=
  if b.inMark then
    if level then ({ b with inMark := false, highs := 1 }, .nothing)
    else if 20 < run then (b, .failed .markTooLong)
    else (b, .nothing)
  else if b.bits = [] then
    if level = false then ({ b with bits := [false], highs := 0 }, .nothing)
    else if 10 ≤ b.highs then (b, .failed .noStartBit)
    else ({ b with highs := b.highs + 1 }, .nothing)
  else if 9 ≤ b.bits.length then (if level then b.endChar else (b, .failed .stopBitLow))
  else if level = false ∧ 12 ≤ run then (b, .failed (.lowRun latch))
  else ({ b with bits := b.bits ++ [level] }, .nothing)

/-- What the receiver makes of one bit time (R24): in HUNTING the twelfth bit time of a low level is a start mark. -/
def Line.hear (now : Rx) (level : Bool) (l : Line) : Line × RxEvent :=
  let l1 := l.edge now level
  match l1.receiver with
  | .off => (l1, .nothing)
  | .waitIdle => (l1, .nothing)
  | .hunting =>
    (if level = false ∧ l1.lowRun = 12 then { l1 with receiver := .receiving (RxBuffer.start l1.latch) } else l1, .nothing)
  | .receiving b =>
    let (b1, e) := b.hear level l1.lowRun l1.latch
    ({ l1 with receiver := .receiving b1 }, e)

/-- What the receiver makes of some bit times in a row, show time running; the events are one for each bit time. -/
def Line.hearWave (now : Rx) : List Bool → Line → Line × List RxEvent
  | [], l => (l, [])
  | level :: rest, l =>
    let (l1, e) := l.hear now level
    let (l2, es) := l1.hearWave { latch := now.latch + 1, moment := now.moment + 1 } rest
    (l2, e :: es)

/-- The level LRX shows in the coming bit time: what the other parties make of it, and else what this station drives. -/
def State.lrxLevel (s : State) : Bool :=
  match s.inputs.lrx with
  | some level :: _ => level
  | none :: _ => s.drivenLevel
  | [] => s.drivenLevel

/-- The pair of the present reading (R25). -/
def State.nowPair (s : State) : Rx := { latch := s.clock.showTime, moment := s.localTimer }

/-- What stands at the station as a frame of some latches ends. -/
def State.arrival (rx : Rx) (s : State) : Arrival :=
  { rx := rx, hhom := s.inputs.hhom, pflt := s.inputs.pflt, estop := s.inputs.estop }

/-- The command that a bit time ends with, if any: a collision while SENDING (R32), the failure of a frame in reception
(R24), or what a complete frame stands for (R26, R28). -/
def State.bitCommand (s : State) : Option Instr :=
  if s.line.sendingKind.isSome then (if s.lrxLevel = s.drivenLevel then none else some .collision)
  else
    match (s.line.hear s.nowPair s.lrxLevel).2 with
    | .nothing => none
    | .failed why => some (.frameError why)
    | .frame rx bytes => some (decodeFrame (s.arrival rx) bytes)

/-- One bit time passes: LRX is heard, and the oscillator counts one microsecond (R22, R25). -/
def State.passBit (s : State) : State :=
  State.passTime 1
    { s with
      inputs := { s.inputs with lrx := s.inputs.lrx.tail }
      line := (s.line.hear s.nowPair s.lrxLevel).1 }

end Sys2Proof.Machine
end

