-- ==== Sys2Proof/Machine/Schedule.lean ====
section
/-! DEFINITION. The steps the station makes of itself: which of its timers and crossings are due at the present reading of
the local timer.  Several may be due together; the manual then gives the same end for either order, or none, and
`dueSteps` fixes one (notes/assumptions/1.md).  The edges of the input pins and the flash data come from outside and are
never due of themselves; frames and collisions come from the levels of LRX, one bit time at a time (Receiver.lean). -/

namespace Sys2Proof.Machine

/-- A timer is due when its reading has been reached. -/
def State.timeUp (s : State) (t : Option Nat) : Bool :=
  match t with
  | none => false
  | some t => t ≤ s.localTimer

/-- The level of PFLT for a channel as last seen. -/
def State.pfltAt (s : State) (c : Channel) : Bool := s.inputs.pflt.getLsbD c.val

/-- The level of HHOM for a head as last seen. -/
def State.hhomAt (s : State) (h : Head) : Bool := s.inputs.hhom.getLsbD h.val

/-- The frame on the line from this station has reached its end. -/
def State.frameOver (s : State) : Bool :=
  match s.line.tx with
  | .sending _ bytes since => since + frameTime bytes ≤ s.localTimer
  | .quiet => false
  | .deferring => false
  | .backingOff => false

/-- The timers of start-up, of the Line Controller and of Show Control. -/
def State.dueControl (s : State) : List (Bool × Instr) :=
  [(s.timeUp s.ctl.settleTimer, .settlingExpiry), (s.frameOver, .frameSent),
   (s.line.tx == .deferring && s.line.idleFor 50 s.localTimer, .deferGapEnd),
   (s.line.tx == .backingOff && s.line.idleFor (backoffGap s.ctl.station) s.localTimer, .backoffEnd),
   (s.timeUp s.line.dupTimer, .duplicateTimerExpiry), (s.timeUp s.ctl.alertTimer, .alertTimerExpiry s.inputs.estop)]

/-- A peer entry has lapsed or is lost. -/
def State.duePeers (s : State) : List (Bool × Instr) :=
  ((List.finRange 24).map fun k =>
    ((s.peers.entries[k]).fresh == .fresh && s.arrivalOf k + 60000 ≤ s.localTimer, .peerLapse k)) ++
  ((List.finRange 24).map fun k =>
    ((s.peers.entries[k]).fresh == .lapsed && s.arrivalOf k + 2000000 ≤ s.localTimer, .peerLost k))

/-- The timers and crossings of the Show Clock, and the cues that have come due.  An agreement at the instant of a crossing
comes before it, so that the report follows the adjustment (R56); when it takes show time back below the bound, nothing is
reported until the bound is reached again (the model's choice, notes/assumptions/42.md). -/
def State.dueClock (s : State) : List (Bool × Instr) :=
  [(s.timeUp s.clock.stepRecent, .stepRecentTimerExpiry), (s.timeUp s.clock.solitude, .solitudeTimerExpiry),
   (s.timeUp s.clock.paceTimer, .paceTimerExpiry s.inputs.pflt),
   (s.ctl.state == .countdown && 0 ≤ s.clock.showTime, .showTimeZeroCrossing),
   (s.ctl.state == .running && timeLimitUs ≤ s.clock.showTime, .timeLimit), (s.issuing && s.headDue, .cueIssue),
   (s.stagedReady, .stagedRecordTaken)]

/-- The wind and the requested pass of Jet Computation. -/
def State.dueJet (s : State) : List (Bool × Instr) :=
  [(s.timeUp (s.jet.windEdge.map fun t => t + 2000000), .windCalmTimeout),
   (s.timeUp s.jet.windFilter, .windFilterPeriod),
   (s.operating && s.jet.passDue, .jetComputationPass s.inputs.pflt)]

/-- The timers of one pump. -/
def State.duePump (s : State) (c : Channel) : List (Bool × Instr) :=
  let p := s.pump.pumps[c]
  [(p.state == .starting && s.timeUp p.startTimer, .startTimerExpiry c),
   (p.state == .starting && s.timeUp p.rehearsalTimer, .rehearsalStartingExpiry c),
   (p.state == .tripped && !p.latched && s.timeUp p.holdOff, .holdOffExpiry c (s.pfltAt c)),
   (s.timeUp (p.flowEdge.map fun t => t + 1000000), .flowSilenceTimeout c)]

/-- The pull-in of a valve is over. -/
def State.pullInOver (s : State) (z : Nozzle) : Bool :=
  match (s.pump.nozzles[z]).drive with
  | .pullIn t => t ≤ s.localTimer
  | .off => false
  | .hold _ => false

/-- The timers of one nozzle. -/
def State.dueNozzle (s : State) (z : Nozzle) : List (Bool × Instr) :=
  let n := s.pump.nozzles[z]
  [(s.pullInOver z, .valvePullInEnd z), (n.state == .rising && s.timeUp (s.climbEnd z), .nozzleClimbComplete z),
   (n.state == .falling && s.fallEnd z ≤ s.localTimer, .nozzleFallComplete z)]

/-- The timers of one head. -/
def State.dueHead (s : State) (h : Head) : List (Bool × Instr) :=
  let r := s.head.heads[h]
  let up := s.timeUp r.timer
  [(r.state == .homing && up, .homeIntervalExpiry h (s.hhomAt h)),
   (r.state == .moving && up && r.position.isSome && r.target.isSome, .stepIntervalExpiry h),
   (r.state == .reversing && up && r.target.isSome, .reversalPauseEnd h),
   (r.state == .verifying && up, .settlePauseEnd h (s.hhomAt h)), (s.legDue h, .sweepLegBoundary h)]

/-- The free-running timers of the water, the lamps and the music. -/
def State.duePeriods (s : State) : List (Bool × Instr) :=
  [(s.timeUp s.pump.period, .pumpControlPeriod), (s.timeUp s.lights.lightTimer, .lightStep),
   (s.timeUp s.lights.pwmTimer, .lampPwmRollover), (s.timeUp s.music.syncTimer, .syncCheck),
   (s.timeUp s.music.gainTimer, .gainStep),
   (s.timeUp (s.music.slotBase.map fun b => slotAt b (s.music.slots + 1)), .audioFrameSlot)]

/-- Every step the station may make of itself, each with whether it is due, in the order in which the model takes those
that are due together. -/
def State.dueSteps (s : State) : List (Bool × Instr) :=
  s.dueControl ++ s.duePeers ++ s.dueClock ++ s.dueJet ++ (List.finRange 4).flatMap s.duePump ++
    (List.finRange 16).flatMap s.dueNozzle ++ (List.finRange 8).flatMap s.dueHead ++ s.duePeriods

/-- The step that is due first, if any. -/
def State.dueNow (s : State) : Option Instr := (s.dueSteps.find? fun d => d.1).map fun d => d.2

end Sys2Proof.Machine
end

