-- ==== Sys2Proof/Machine/Tick.lean ====
section
/-! DEFINITION. What the station does of itself when no command waits: the step that is due, or one more microsecond of its
oscillator, which is one bit time of the line (notes/assumptions/1.md). -/

namespace Sys2Proof.Machine

/-- A step on an empty queue: the step that is due is made; when none is, one bit time passes, with the command it ends
with.  While RESET is held nothing counts. -/
def tick (s : State) : Host.Outcome State Fault Refusal :=
  match s.dueNow with
  | some i => exec i s
  | none =>
    if s.ctl.phase = .held then .next s
    else
      match s.bitCommand with
      | none => .next s.passBit
      | some i => exec i s.passBit

/-- `s` with a command put at the front of its queue. -/
def State.offer (c : Instr) (s : State) : State := { s with pending := c :: s.pending }

/-- `s` with the command a word spells put at the front of its queue; unchanged where the word spells none. -/
def State.offerWord (s : State) (nbits w : Nat) : State :=
  match decodeTableWord nbits w with
  | some c => s.offer c
  | none => s

end Sys2Proof.Machine
end

