-- ==== Sys2Proof/Machine/Pins.lean ====
section
/-! DEFINITION. The output pins (00_scope, "Pin summary") as the state drives them at the present reading of the local timer.
Every pin is read off the state; the widths of pulses and other timing at the pins are outside the manual. -/

namespace Sys2Proof.Machine

/-- The output pins that the manual describes. -/
structure Pins where
  prun : BitVec 4
  pspd : Vector Nat 4
  vlv : BitVec 16
  hstp : BitVec 8
  hdir : BitVec 8
  lmp : Vector Bool 48
  ltx : Bool
  lde : Bool
  left : Int
  right : Int
  deriving DecidableEq, Repr

/-- The outputs of Pump Control reach the pins: not in rehearsal (R128). -/
def State.waterOn (s : State) : Bool := !s.ctl.rehearsal

/-- PRUN (R114). -/
def State.prunPin (s : State) (c : Channel) : Bool := s.waterOn && (s.pump.pumps[c]).state.runs

/-- PSPD in per-mille (R114). -/
def State.pspdPin (s : State) (c : Channel) : Nat := if s.waterOn then (s.pump.pumps[c]).output else 0

/-- The count of the valve hold counter at a local timer reading (R124): 100 counts at 2 MHz; its phase is free
(notes/assumptions/12.md). -/
def holdCount (t : Nat) : Nat := Config.holdPhase + 2 * t

/-- The drive of a valve on its hold duty since some reading (R124): full on until the first rollover, and then on while
the count is below the duty.  A rollover that falls exactly at the end of the pull-in is the first one (the model's reading,
notes/assumptions/40.md). -/
def holdDrive (duty since now : Nat) : Bool :=
  (holdCount now / 100 = holdCount since / 100 && holdCount since % 100 ≠ 0) || holdCount now % 100 < duty

/-- VLV (R124, R128). -/
def State.valvePin (s : State) (z : Nozzle) : Bool :=
  s.waterOn &&
    (match (s.pump.nozzles[z]).drive with
     | .off => false
     | .pullIn _ => true
     | .hold since => holdDrive s.store.config.holdDuty since s.localTimer)

/-- HDIR (R131): high for a step up, low for a step down and for a head that has not stepped. -/
def State.hdirPin (s : State) (h : Head) : Bool := (s.head.heads[h]).direction == some .up

/-- HSTP (R131, R132): a pulse is shown at the reading at which it began, whatever the head has done since; so a pulse that
has begun is always completed. -/
def State.hstpPin (s : State) (h : Head) : Bool := (s.head.heads[h]).pulse == some s.localTimer

/-- The count of the lamp PWM counters (R145): 4,096 counts in the 1 ms before the next rollover, where it is 0 again. -/
def State.pwmCount (s : State) : Nat :=
  match s.lights.pwmTimer with
  | none => 0
  | some t => (s.localTimer + 1000 - t) * 4096 / 1000 % 4096

/-- The duty of one of the four colours of a fixture, in the order of the pins. -/
def Colour.part (c : Colour) : Nat → Nat
  | 0 => c.r
  | 1 => c.g
  | 2 => c.b
  | _ => c.w

/-- LMP (R145): high while the count is below the holding duty. -/
def State.lampPin (s : State) (i : Fin 48) : Bool :=
  s.pwmCount < ((nthD s.lights.holding (i.val / 4) {}).part (i.val % 4))

/-- LDE (R23): the driver is on exactly while the transmitter is SENDING. -/
def State.ldePin (s : State) : Bool := s.line.sendingKind.isSome

/-- Every output pin of the state. -/
def State.pins (s : State) : Pins where
  prun := bitsOf 4 s.prunPin
  pspd := Vector.ofFn s.pspdPin
  vlv := bitsOf 16 s.valvePin
  hstp := bitsOf 8 s.hstpPin
  hdir := bitsOf 8 s.hdirPin
  lmp := Vector.ofFn s.lampPin
  ltx := s.drivenLevel
  lde := s.ldePin
  left := s.music.lastLeft
  right := s.music.lastRight

end Sys2Proof.Machine
end

