-- ==== Sys2Proof/Safety.lean ====
section
/-! DEFINITION. What a sound state of the station is, block by block, in the terms the statements use.  Each is meant to
hold at reset and to be kept by every step; each names the rule of the spec it comes from. -/

namespace Sys2Proof.Machine

/-- The states that have no selected show (01, R14, R16). -/
def ShowState.unselected : ShowState → Bool
  | .startUp | .idle | .safe | .configFault => true
  | .loading | .armed | .countdown | .running | .hold | .ending => false

/-- Show Control's own items agree with the show state. -/
structure ControlInv (s : State) : Prop where
  /-- R2, R4: no show state stands before start-up ends. -/
  phase : s.ctl.state = .startUp ↔ s.ctl.phase ≠ .done
  /-- R2: the settling wait stands in its own stage alone. -/
  settling : s.ctl.settleTimer.isSome → s.ctl.phase = .settling
  /-- R69: the config loader makes requests only during start-up. -/
  config : s.store.configReq.isSome → s.ctl.phase = .loadingConfig
  /-- R69, R72: the directory reader makes requests only in LOADING, before an entry is held. -/
  directory : s.store.dirReq.isSome → s.ctl.state = .loading ∧ s.store.entry = none
  /-- R16: the cause set is not empty in SAFE and empty outside it. -/
  causes : s.ctl.state = .safe ↔ s.ctl.causes ≠ {}
  /-- R16, R18: the first cause stands in SAFE alone. -/
  first : s.ctl.state = .safe ↔ s.ctl.firstCause.isSome
  /-- R6, R14, R16: the selected show. -/
  selected : s.ctl.state.unselected = true ↔ s.ctl.selected = 0
  /-- R8: a START is held in LOADING alone. -/
  held : s.ctl.held.isSome → s.ctl.state = .loading
  /-- R15: the follow counters are 0 outside COUNTDOWN, RUNNING and HOLD. -/
  follow : s.ctl.state.underWay = false → s.ctl.followHold = 0 ∧ s.ctl.followRunning = 0 ∧ s.ctl.followEnding = 0
  /-- R104: P is 0 outside COUNTDOWN, RUNNING and HOLD. -/
  draw : s.ctl.state.underWay = false → s.jet.planned = 0
  /-- R59: outside them SOLO is clear and the solitude timer stopped. -/
  solo : s.ctl.state.underWay = false → s.clock.solo = false ∧ s.clock.solitude = none

/-- The slots and the transmitter agree (R24, R29, R31, R32). -/
structure LineInv (s : State) : Prop where
  /-- R29: an empty slot has the count 0, and a count of 8 does not stand. -/
  alert : s.line.alertTries < 8 ∧ (s.line.alertSlot = none → s.line.alertTries = 0)
  report : s.line.reportTries < 8 ∧ (s.line.reportSlot = none → s.line.reportTries = 0)
  pace : s.line.paceTries < 8 ∧ (s.line.paceSlot = false → s.line.paceTries = 0)
  /-- R31: QUIET exactly when all three slots are empty. -/
  quiet : s.line.tx = .quiet ↔ s.line.firstFull = none
  /-- R30: the frame on the line is one that its slot still holds. -/
  sending : s.line.sendingKind = some .alert → s.line.alertSlot.isSome
  sendingReport : s.line.sendingKind = some .report → s.line.reportSlot.isSome
  sendingPace : s.line.sendingKind = some .pace → s.line.paceSlot = true
  /-- R24: the receiver does not hunt while the station's own driver is on. -/
  receiver : s.line.receiver = .off ↔ s.line.sendingKind.isSome = true
  /-- R24: the receive buffer holds no more than one frame in reception. -/
  buffer : ∀ b, s.line.receiver = .receiving b → b.bits.length ≤ 9 ∧ b.highs ≤ 10 ∧
    (b.chars.length < 3 ∨ (byteAt b.chars 2 ≤ 80 ∧ b.chars.length < 5 + byteAt b.chars 2))

/-- The Show Monitor's records (R167 to R170), and the bounds of show time (R49). -/
structure RecordInv (s : State) : Prop where
  /-- R167: no monitor counter value exceeds 65,535. -/
  values : ∀ i : Counter, (s.mon.counters[i]).value ≤ 65535
  /-- R168: a crossed flag and its sampled record stand together. -/
  crossed : ∀ i : Counter, (s.mon.counters[i]).crossed = (s.mon.counters[i]).sample.isSome
  /-- R169: a pending clear is present only while its REPORT waits. -/
  pending : s.mon.pendingClear.isSome → s.line.reportSlot.isSome
  /-- R49: show time is held within the signed 32-bit range. -/
  showTime : -2147483648 ≤ s.clock.showTime ∧ s.clock.showTime ≤ 2147483647

/-- The pending queue (R84, R86): at most 64 entries, none before the one ahead of it. -/
structure QueueInv (s : State) : Prop where
  room : s.seq.queue.length ≤ 64
  ordered : s.seq.queue.Pairwise fun a b => b.before a = false

/-- The audio FIFO (R74, R157, R158): at most 4,096 frames, in rising index, none beyond the reader's position; and what
a standing request means for it. -/
structure FifoInv (s : State) : Prop where
  room : s.music.fifo.length ≤ 4096
  rising : s.music.fifo.Pairwise fun a b => a.index < b.index
  asked : ∀ q, s.store.audioReq = some q → s.music.fifo.length ≤ 3080 ∧ s.store.audioPos = some q.expect.seq
  read : ∀ f ∈ s.music.fifo, ∃ k, s.store.audioPos = some k ∧ f.index < 1016 * k
  loading : s.store.dirReq.isSome → s.music.fifo = [] ∧ s.store.entry = none ∧ s.store.audioReq = none

/-- Every valve command is what R123 makes of the state. -/
def ValvesStand (s : State) : Prop := ∀ z : Nozzle, (s.pump.nozzles[z]).command = s.valveCommand z

/-- Before start-up ends, in SAFE and in CONFIG FAULT every pump is STOPPED with output 0 (R1, R3, R16, R127). -/
def WaterOff (s : State) : Prop :=
  s.ctl.state = .startUp ∨ s.ctl.state = .safe ∨ s.ctl.state = .configFault →
    ∀ c : Channel, (s.pump.pumps[c]).state = .stopped ∧ (s.pump.pumps[c]).output = 0

/-- Every working duty is what R150 and R152 make of the state. -/
def LampsStand (s : State) : Prop :=
  s.operating = true → ∀ f : Fixture, s.lights.working[f] = (s.outputLevel f).duties

/-- RESET is held: the state is that of hard reset but for the levels of the pins and the queue (R1). -/
def ResetHeld (s : State) : Prop := s = { State.reset with inputs := s.inputs, pending := s.pending }

/-- Every output pin is inactive (R1). -/
def Pins.inactive (p : Pins) : Prop :=
  p.prun = 0 ∧ p.pspd = Vector.replicate 4 0 ∧ p.vlv = 0 ∧ p.hstp = 0 ∧ p.hdir = 0 ∧ p.lmp = Vector.replicate 48 false ∧
    p.left = 0 ∧ p.right = 0 ∧ p.lde = false

/-- No operation is under way whose completion by this step alone would change the show state: not LOADING, and in ENDING the
light run-out is still to come (R7, R13). -/
def State.steady (s : State) : Prop :=
  s.ctl.state ≠ .loading ∧ (s.ctl.state = .ending → s.ctl.lightRunOut = false)

end Sys2Proof.Machine
end

