-- ==== Sys2Proof/Certificates/Slice0/Obligations.lean ====
section
/-! DEFINITION. The statements for the provers.  Each says what a command does by the rules it names: its conclusion is
that `exec` answers a next state, and what that state holds; the last ones are about the line's encoding and about what
every step keeps.  Where a clause rests on a choice of the model, the docstring names the log entry. -/

open Sys2Proof Sys2Proof.Machine

/-! ### The step -/

/-- The block's step: the command at the front of the queue is executed with the queue's rest. -/
def Obligations.StepTakesFrontCommand : Prop :=
  ∀ (c : Instr) (s : State) (rest : List Instr), s.pending = c :: rest → step s = exec c { s with pending := rest }

/-- On an empty queue the station makes the step that is due, or one bit time of the line passes: its oscillator counts one
microsecond (R25), show time runs in COUNTDOWN, RUNNING and ENDING within the signed 32-bit range and stands in every
other state (R49), LRX is heard, and the command that this bit time ends with is executed: the model's choice
(notes/assumptions/1.md, notes/assumptions/33.md).  While RESET is held nothing counts.  A quiet line brings
no command; while SENDING, a level that differs from the driven one brings a collision (R32). -/
def Obligations.IdleStepMakesWhatIsDue : Prop :=
  ∀ s : State, s.pending = [] →
    (∀ i, s.dueNow = some i → step s = exec i s) ∧
    (s.dueNow = none → s.ctl.phase = .held → step s = .next s) ∧
    (s.dueNow = none → s.ctl.phase ≠ .held →
      ∃ u, u.clock.showTime =
          (if s.ctl.state = .countdown ∨ s.ctl.state = .running ∨ s.ctl.state = .ending then
            max (-2147483648) (min 2147483647 (s.clock.showTime + 1)) else s.clock.showTime) ∧
        u = { s with
          localTimer := s.localTimer + 1
          clock := { s.clock with showTime := u.clock.showTime }
          inputs := { s.inputs with lrx := s.inputs.lrx.tail }
          line := (s.line.hear s.nowPair s.lrxLevel).1 } ∧
        (s.bitCommand = none → step s = .next u) ∧ (∀ i, s.bitCommand = some i → step s = exec i u)) ∧
    (s.inputs.lrx = [] → s.line.receiver = .hunting ∨ s.line.sendingKind.isSome = true → s.bitCommand = none) ∧
    (∀ level rest, s.line.sendingKind.isSome = true → s.inputs.lrx = some level :: rest → level ≠ s.drivenLevel →
      s.bitCommand = some .collision)

/-- Every command completes and leaves the queue as it is. -/
def Obligations.EveryCommandCompletes : Prop :=
  ∀ (c : Instr) (s : State), ∃ t, exec c s = .next t ∧ t.pending = s.pending

/-! ### Reset and start-up (01) -/

/-- R1: HARD_RESET abandons everything, and while RESET is held every output is inactive and no command but RESET_RELEASE
changes anything but the pin levels. -/
def Obligations.ResetHeldIsInactive : Prop :=
  (∀ s : State, ∃ t, exec .hardReset s = .next t ∧ ResetHeld t ∧ t.inputs = s.inputs ∧ t.pins.inactive) ∧
  (∀ (c : Instr) (s : State), ResetHeld s → (∀ stn rh, c ≠ .resetRelease stn rh) →
    ∃ t, exec c s = .next t ∧ ResetHeld t ∧ t.pins.inactive ∧ t.dueNow = none)

/-- R2: RESET_RELEASE samples the straps and starts the settling wait; SETTLING_EXPIRY enters CONFIG FAULT in silence for a
number out of range, and otherwise requests block 0 for the config loader. -/
def Obligations.ReleaseThenSettling : Prop :=
  (∀ (s : State) (stn : BitVec 5) (rh : Bool), s.ctl.phase = .held → ∃ t, exec (.resetRelease stn rh) s = .next t ∧
    t = { s with
      localTimer := 0
      ctl := { s.ctl with phase := .settling, settleTimer := some 10000, station := stn.toNat, rehearsal := rh } }) ∧
  (∀ (s : State) (t0 : Nat), s.ctl.settleTimer = some t0 → ∃ t, exec .settlingExpiry s = .next t ∧
    t.ctl.settleTimer = none ∧
    (¬ (1 ≤ s.ctl.station ∧ s.ctl.station ≤ 24) →
      t.ctl.state = .configFault ∧ t.line = s.line ∧ t.clock.paceTimer = s.clock.paceTimer ∧ t.store = s.store) ∧
    (1 ≤ s.ctl.station ∧ s.ctl.station ≤ 24 →
      t.ctl.state = s.ctl.state ∧ t.ctl.phase = .loadingConfig ∧
      t.store.configReq = some { block := 0, expect := expectHeader, attempts := 0 } ∧
      (s.store.port = none → t.store.port.isSome)))

/-! ### Desk commands (01) -/

/-- R6, R7: a SELECT that is taken enters LOADING for its show, empties what stood loaded, sends every head that must be
homed on its way, and begins the directory read. -/
def Obligations.SelectBeginsLoading : Prop :=
  ∀ (s : State) (n : Byte) (hhom : BitVec 8), s.hears = true →
    s.ctl.state = .idle ∨ s.ctl.state = .loading ∨ s.ctl.state = .armed → n.toNat ≠ 0 → s.dirBlock 0 ≤ 131071 →
    ∃ t, exec (.select n hhom) s = .next t ∧
      t.ctl.state = .loading ∧ t.ctl.selected = n.toNat ∧ t.ctl.held = none ∧
      t.music.fifo = [] ∧ t.music.playIndex = 0 ∧
      t.store.entry = none ∧ t.store.cuePos = none ∧ t.store.audioPos = none ∧ t.store.audioReq = none ∧
      t.store.dirReq = some { block := s.dirBlock 0, expect := expectDirectory 0, attempts := 0 } ∧
      t.lights.fixtures = Vector.replicate 12 {} ∧
      (∀ h : Head, (s.store.config.heads[h]).present →
        (s.head.heads[h]).state = .unhomed ∨ (s.head.heads[h]).state = .fault →
        (t.head.heads[h]).state ≠ .unhomed ∧ (t.head.heads[h]).state ≠ .fault) ∧
      (∀ h : Head, (s.head.heads[h]).state ≠ .unhomed → (s.head.heads[h]).state ≠ .fault →
        t.head.heads[h] = s.head.heads[h]) ∧
      t.clock.showTime = s.clock.showTime ∧ t.peers = s.peers ∧ t.mon = s.mon ∧
      t.store.config = s.store.config ∧ t.store.header = s.store.header

/-- R8, R51: a START is clamped first; taken in ARMED it sets show time from its start moment and enters COUNTDOWN, and in
LOADING it is held.  Its show number is the selected one. -/
def Obligations.StartCountsDownOrIsHeld : Prop :=
  ∀ (s : State) (n : Byte) (delay : BitVec 16) (rx : Rx), s.hears = true → n.toNat ≠ 0 →
    n.toNat = s.ctl.selected →
    (s.ctl.state = .armed → s.seq.catchUp = false →
      ∃ t, exec (.start n delay rx) s = .next t ∧
        t.clock.showTime =
          clampShowTime (-((max 1000 (min delay.toNat 60000) : Nat) * 1000) + ((s.localTimer : Int) - rx.moment)) ∧
        t.peers.lastSetting = some s.localTimer ∧ (∀ k : Peer, (t.peers.entries[k]).offset = none) ∧
        (t.clock.showTime < 0 →
          t.ctl.state = .countdown ∧ t.seq.sectionNo = 0 ∧ t.seq.beatLen = 500 ∧ t.seq.sectionStart = 0 ∧
          t.music.gain = 255 ∧ t.music.playIndex = 0 ∧ t.music.fifo = s.music.fifo ∧
          t.seq.table = s.seq.table ∧ t.seq.queue = s.seq.queue)) ∧
    (s.ctl.state = .loading →
      ∃ t, exec (.start n delay rx) s = .next t ∧
        t = { s with
          ctl := { s.ctl with held := some { delay := max 1000 (min delay.toNat 60000), moment := rx.moment } }
          line := (s.frameDone (.start n delay rx)).line
          mon :=
            if 1000 ≤ delay.toNat ∧ delay.toNat ≤ 60000 then s.mon
            else s.mon.count { kind := .valueClamp, time := s.clock.showTime, cueId := none, object := none } })

/-- R11, R52: HOLD freezes show time and zeroes every goal, keeping queue, table, audio and heads; RESUME goes on from the
frozen value; that the staged record is taken by a step of its own after it, and so the queue stays here, is the model's
reading (notes/assumptions/23.md). -/
def Obligations.HoldThenResume : Prop :=
  (∀ s : State, s.hears = true → s.ctl.state = .running →
    ∃ t, exec .hold s = .next t ∧ t.ctl.state = .hold ∧ t.clock.showTime = s.clock.showTime ∧
      t.seq.queue = s.seq.queue ∧ t.seq.table = s.seq.table ∧ t.seq.staged = s.seq.staged ∧ t.music = s.music ∧
      t.head.heads = s.head.heads ∧ t.jet.planned = s.jet.planned ∧ t.lights.fixtures = s.lights.fixtures ∧
      (∀ c : Channel, (s.store.config.channels[c]).present → (t.pump.pumps[c]).goal = 0)) ∧
  (∀ (s : State) (pflt : BitVec 4), s.hears = true → s.ctl.state = .hold → s.seq.catchUp = false →
    s.headDue = false → s.clock.showTime < 1800000000 →
    ∃ t, exec (.resume pflt) s = .next t ∧ t.ctl.state = .running ∧ t.clock.showTime = s.clock.showTime ∧
      t.seq.queue = s.seq.queue ∧ t.seq.table = s.seq.table ∧ t.head.heads = s.head.heads ∧ t.jet.passDue = true)

/-- R12, R13, R14: STOP ends a show under way through ENDING, and a load or an armed show at once. -/
def Obligations.StopEndsTheShow : Prop :=
  ∀ s : State, s.hears = true →
    (s.ctl.state = .countdown ∨ s.ctl.state = .running ∨ s.ctl.state = .hold →
      ∃ t, exec .stop s = .next t ∧ (t.ctl.state = .ending ∨ t.ctl.state = .idle) ∧
        t.ctl.endingCause = some .stop ∧ t.seq.queue = [] ∧ t.seq.staged = none ∧
        t.seq.table = Vector.replicate 4 none ∧ t.jet.planned = 0 ∧ t.clock.showTime = s.clock.showTime ∧
        (∀ c : Channel, (t.jet.chans[c]).nt = 0)) ∧
    (s.ctl.state = .loading ∨ s.ctl.state = .armed →
      ∃ t, exec .stop s = .next t ∧ t.ctl.state = .idle ∧ t.ctl.selected = 0 ∧ t.ctl.held = none ∧
        t.music.fifo = [] ∧ t.store.entry = none ∧ t.store.dirReq = none ∧ t.store.cueReq = none ∧
        t.store.audioReq = none ∧ t.head.heads = s.head.heads ∧ t.clock.showTime = s.clock.showTime)

/-- R18: CLEAR empties the SAFE record and enters IDLE when no input is asserted and no alert is 500 ms young. -/
def Obligations.ClearLeavesSafe : Prop :=
  ∀ s : State, s.hears = true → s.ctl.state = .safe → s.inputs.lowlvl = false →
    (∀ (k : Peer) (a : Nat), (s.peers.entries[k]).alert = some a → a + 500000 < s.localTimer) →
    ∃ t, exec (.clear false) s = .next t ∧ t.ctl.state = .idle ∧ t.ctl.causes = {} ∧ t.ctl.firstCause = none ∧
      t.ctl.selected = 0 ∧ t.clock.showTime = s.clock.showTime ∧ t.mon = s.mon ∧ t.head.heads = s.head.heads ∧
      (∀ k : Peer, (t.peers.entries[k]).alert = (s.peers.entries[k]).alert)

/-- R19, R143: a RESTART addressed to this station discards the water and motion side and keeps what the station has
learned.  That the fixture records stay is R155's row for a soft restart, which the model follows also from ARMED, where
R155's row for an entry to IDLE would reset them (notes/assumptions/24.md). -/
def Obligations.RestartDiscardsAndKeeps : Prop :=
  ∀ (s : State) (target : Byte), s.hears = true →
    s.ctl.state = .idle ∨ s.ctl.state = .armed ∨ s.ctl.state = .safe →
    target.toNat = s.ctl.station ∨ target.toNat = 255 →
    ∃ t, exec (.restart target) s = .next t ∧
      t.seq.queue = [] ∧ t.seq.table = Vector.replicate 4 none ∧ t.seq.staged = none ∧ t.seq.partialRec = none ∧
      t.music.fifo = [] ∧ t.store.entry = none ∧
      (∀ h : Head, (t.head.heads[h]).state = .unhomed ∧ (t.head.heads[h]).position = none ∧
        (t.head.heads[h]).pending = none ∧ (t.head.heads[h]).marks = (s.head.heads[h]).marks) ∧
      t.store.config = s.store.config ∧ t.peers = s.peers ∧ t.mon = s.mon ∧ t.ctl.station = s.ctl.station ∧
      t.ctl.rehearsal = s.ctl.rehearsal ∧ t.lights.fixtures = s.lights.fixtures ∧
      t.ctl.causes = s.ctl.causes ∧ t.ctl.firstCause = s.ctl.firstCause ∧
      (s.ctl.state = .safe → t.ctl.state = .safe) ∧
      (s.ctl.state ≠ .safe → t.ctl.state = .idle ∧ t.ctl.selected = 0)

/-- R20, R169: a QUERY for this station builds the REPORT into its empty slot, and a set clear flag records the pending
clear. -/
def Obligations.QueryBuildsReport : Prop :=
  ∀ (s : State) (target clearFlag : Byte), s.hears = true → s.operating = true → target.toNat ≠ 255 →
    target.toNat = s.ctl.station → s.line.reportSlot = none →
    ∃ t image, exec (.query target clearFlag) s = .next t ∧ t.line.reportSlot = some image ∧
      t = { s with line := t.line, mon := t.mon } ∧ t.line.tx ≠ .quiet ∧
      t.line.alertSlot = s.line.alertSlot ∧ t.line.paceSlot = s.line.paceSlot ∧
      image.counters = s.mon.counters ∧ image.outNozzles = s.outNozzles ∧ image.faultHeads = s.faultHeads ∧
      image.latchedPumps = s.latchedPumps ∧ image.causes = s.ctl.causes ∧ image.firstCause = s.ctl.firstCause ∧
      image.endingCause = s.ctl.endingCause ∧ (image.clearRequested = true ↔ clearFlag.toNat ≠ 0) ∧
      image.bytes.length = 64 ∧ t.mon.counters = s.mon.counters ∧
      (clearFlag.toNat = 0 → t.mon.pendingClear = s.mon.pendingClear) ∧
      (clearFlag.toNat ≠ 0 → ∃ p, t.mon.pendingClear = some p ∧
        ∀ i : Counter, p.values[i] = (s.mon.counters[i]).value ∧ p.crossed[i] = (s.mon.counters[i]).crossed)

/-- R5: a command that is not taken raises COMMAND IGNORED with its kind code and changes nothing else; of the levels of the
inputs only those that SELECT (HHOM), RESUME (PFLT) and CLEAR (ESTOP) carry follow the command (notes/assumptions/3.md).
That a START's VALUE CLAMP is raised even then is the model's reading (notes/assumptions/9.md). -/
def Obligations.IgnoredCommandsOnlyCount : Prop :=
  ∀ s : State, s.hears = true → s.operating = true →
    let ignored (m : Monitor) (code : Nat) : Monitor :=
      m.count { kind := .commandIgnored, time := s.clock.showTime, cueId := none, object := some code }
    let result (c : Instr) (levels : Inputs) (m : Monitor) : Prop :=
      exec c s = .next { s with inputs := levels, line := (s.frameDone c).line, mon := m }
    (∀ n hhom, n.toNat = 0 ∨ (s.ctl.state ≠ .idle ∧ s.ctl.state ≠ .loading ∧ s.ctl.state ≠ .armed) →
      result (.select n hhom) { s.inputs with hhom := hhom } (ignored s.mon 16)) ∧
    (∀ n delay rx, n.toNat = 0 ∨ n.toNat ≠ s.ctl.selected ∨ (s.ctl.state ≠ .loading ∧ s.ctl.state ≠ .armed) →
      result (.start n delay rx) s.inputs (ignored (s.noteDelay delay.toNat).mon 17)) ∧
    (s.ctl.state ≠ .running → result .hold s.inputs (ignored s.mon 18)) ∧
    (∀ pflt, s.ctl.state ≠ .hold → result (.resume pflt) { s.inputs with pflt := pflt } (ignored s.mon 19)) ∧
    (s.ctl.state = .idle ∨ s.ctl.state = .ending ∨ s.ctl.state = .safe → result .stop s.inputs (ignored s.mon 20)) ∧
    (∀ estop, s.ctl.state ≠ .safe ∨ estop = true ∨ s.inputs.lowlvl = true ∨
        (∃ (k : Peer) (a : Nat), (s.peers.entries[k]).alert = some a ∧ s.localTimer ≤ a + 500000) →
      result (.clear estop) { s.inputs with estop := estop } (ignored s.mon 21)) ∧
    (∀ target, target.toNat = s.ctl.station ∨ target.toNat = 255 →
      s.ctl.state ≠ .idle → s.ctl.state ≠ .armed → s.ctl.state ≠ .safe →
      result (.restart target) s.inputs (ignored s.mon 22)) ∧
    (∀ target clearFlag, target.toNat = 255 ∨ (target.toNat = s.ctl.station ∧ s.line.reportSlot.isSome) →
      result (.query target clearFlag) s.inputs (ignored s.mon 23))

/-! ### Frames of other stations (02, 03, 04) -/

/-- R37, R38: a PACE of a peer makes its entry FRESH with the fields of the frame, and measures an offset when the four
conditions hold and no adjustment overtook the frame.  An adjustment made at the very start moment of the frame counts as
made before it, which is the model's reading (notes/assumptions/11.md). -/
def Obligations.PaceRefreshesItsEntry : Prop :=
  ∀ (s : State) (sender : Byte) (p : PacePayload) (rx : Rx), s.hears = true → s.operating = true →
    1 ≤ sender.toNat → sender.toNat ≤ 24 → sender.toNat ≠ s.ctl.station →
    1 ≤ p.stateCode.toNat → p.stateCode.toNat ≤ 9 →
    ∃ t, exec (.paceReceived sender p rx) s = .next t ∧
      let e := s.peers.entries[peerOf sender]
      let e' := t.peers.entries[peerOf sender]
      (peerOf sender).val = sender.toNat - 1 ∧ e'.fresh = .fresh ∧ e'.alert = e.alert ∧
      e'.pace = some
        { showNo := p.showNo.toNat, stateCode := p.stateCode.toNat, stamp := p.stamp.toInt
          planned := p.planned.toNat, ceiling := p.ceiling.toNat
          wind := if p.flags.getLsbD 4 then some (min p.wind.toNat 600) else none, arrival := rx.moment } ∧
      (s.ctl.state.underWay = true → p.showNo.toNat ≠ 0 → p.showNo.toNat = s.ctl.selected →
        p.stateCode.toNat = 4 ∨ p.stateCode.toNat = 5 ∨ p.stateCode.toNat = 6 →
        (∀ a, s.peers.lastSetting = some a → a < rx.moment) →
        (∀ a, s.peers.lastAdjust = some a → a.time ≤ rx.moment) →
        e'.offset = some { value := p.stamp.toInt + s.store.config.lineDelay - rx.latch, time := rx.moment })

/-- R60, R61: an ARMED station takes the show time and the state of a peer that counts down or runs its show: COUNTDOWN
below 0 and RUNNING from 0 for a peer in COUNTDOWN; for a peer in RUNNING, RUNNING with a catch-up scan that asks for the
first cue block, or the end of the show at the time limit.  (In ARMED nothing of the stream has been read.) -/
def Obligations.LateJoinTakesThePeersTime : Prop :=
  ∀ (s : State) (sender : Byte) (p : PacePayload) (rx : Rx), s.hears = true → s.ctl.state = .armed →
    s.seq.catchUp = false → 1 ≤ sender.toNat → sender.toNat ≤ 24 → sender.toNat ≠ s.ctl.station →
    p.showNo.toNat = s.ctl.selected → p.stateCode.toNat = 4 ∨ p.stateCode.toNat = 5 →
    ∃ t, exec (.paceReceived sender p rx) s = .next t ∧
      t.clock.showTime =
        clampShowTime (p.stamp.toInt + s.store.config.lineDelay + ((s.localTimer : Int) - rx.moment)) ∧
      t.ctl.state ≠ .armed ∧ t.clock.stepped = s.clock.stepped ∧ t.peers.lastSetting = some s.localTimer ∧
      (∀ k : Peer, (t.peers.entries[k]).offset = none) ∧
      (p.stateCode.toNat = 4 → t.clock.showTime < 0 → t.ctl.state = .countdown) ∧
      (p.stateCode.toNat = 4 → 0 ≤ t.clock.showTime → t.clock.showTime < 1800000000 → t.ctl.state = .running) ∧
      (∀ (e : ShowSection) (j : Nat), p.stateCode.toNat = 5 → s.seq.queue = [] → s.seq.staged = none →
        s.seq.current = none → s.seq.endSeen = false → s.store.cueReq = none → s.store.entry = some e →
        s.store.cuePos = some j → j < e.cueCount → e.firstCue + j ≤ 131071 →
        (t.clock.showTime < 1800000000 → t.ctl.state = .running ∧ t.seq.catchUp = true ∧
          t.store.cueReq = some { block := e.firstCue + j, expect := s.expectCue j, attempts := 0 }) ∧
        (1800000000 ≤ t.clock.showTime →
          (t.ctl.state = .ending ∨ t.ctl.state = .idle) ∧ t.ctl.endingCause = some .timeLimit))

/-- R16, R42, R127, R143: an assertion of ESTOP or LOWLVL and an ALERT of a peer bring the station into SAFE: the record, no
show, every pump STOPPED with output 0 and every valve closed, every head UNHOMED, queue, table and FIFO empty, show time
frozen at its value.  In SAFE already the cause joins the set and nothing else of this changes.  An ALERT's start moment
becomes the alert time of its sender's entry, whatever that entry's freshness, which is unchanged. -/
def Obligations.SafeEntryStopsEverything : Prop :=
  ∀ (s : State) (c : Instr) (cause : SafeCause), s.operating = true →
    (c = .estopAsserted ∧ cause = .eStop) ∨ (c = .lowLevelAsserted ∧ cause = .lowLevel) ∨
      (∃ sender code rx, c = .alertReceived sender code rx ∧ cause = .peerAlert ∧ s.hears = true ∧ 1 ≤ sender.toNat ∧
        sender.toNat ≤ 24 ∧ sender.toNat ≠ s.ctl.station) →
    ∃ t, exec c s = .next t ∧ t.ctl.state = .safe ∧ t.clock.showTime = s.clock.showTime ∧
      (s.ctl.state ≠ .safe →
        t.ctl.firstCause = some cause ∧ t.ctl.causes = CauseSet.insert {} cause ∧ t.ctl.selected = 0 ∧
        t.ctl.held = none ∧
        (∀ ch : Channel, (t.pump.pumps[ch]).state = .stopped ∧ (t.pump.pumps[ch]).output = 0 ∧
          (t.pump.pumps[ch]).latched = false) ∧
        (∀ z : Nozzle, (t.pump.nozzles[z]).command = false) ∧
        (∀ h : Head, (t.head.heads[h]).state = .unhomed) ∧
        t.seq.queue = [] ∧ t.seq.table = Vector.replicate 4 none ∧ t.music.fifo = [] ∧
        t.lights.fixtures = Vector.replicate 12 {}) ∧
      (s.ctl.state = .safe →
        t.ctl.firstCause = s.ctl.firstCause ∧ t.ctl.causes = s.ctl.causes.insert cause ∧ t.pump = s.pump ∧
        t.head = s.head ∧ t.seq = s.seq ∧ t.music = s.music ∧ t.lights.fixtures = s.lights.fixtures) ∧
      (∀ sender code rx, c = .alertReceived sender code rx →
        (t.peers.entries[peerOf sender]).alert = some rx.moment ∧
        (t.peers.entries[peerOf sender]).fresh = (s.peers.entries[peerOf sender]).fresh ∧
        (t.peers.entries[peerOf sender]).pace = (s.peers.entries[peerOf sender]).pace ∧
        (∀ k : Peer, k ≠ peerOf sender → (t.peers.entries[k]).alert = (s.peers.entries[k]).alert))

/-- R17: an assertion queues an ALERT of its cause and starts the 100 ms timer; each expiry queues a further one while an
input is asserted, E-STOP before LOW LEVEL, and ends the generation otherwise. -/
def Obligations.AlertsWhileAnInputIsAsserted : Prop :=
  (∀ (s : State) (c : Instr) (alert : AlertCause),
    s.operating = true ∨ (s.ctl.state = .configFault ∧ 1 ≤ s.ctl.station ∧ s.ctl.station ≤ 24) →
    (c = .estopAsserted ∧ alert = .eStop) ∨ (c = .lowLevelAsserted ∧ alert = .lowLevel) →
    ∃ t, exec c s = .next t ∧ t.line.alertSlot = some alert ∧ t.ctl.alertTimer = some (s.localTimer + 100000) ∧
      t.line.tx ≠ .quiet ∧ t.line.alertTries = s.line.alertTries) ∧
  (∀ (s : State) (estop : Bool) (t0 : Nat), s.ctl.alertTimer = some t0 →
    ∃ t, exec (.alertTimerExpiry estop) s = .next t ∧ t.localTimer = (s.passTo t0).localTimer ∧
      (estop = true → t.line.alertSlot = some .eStop ∧ t.ctl.alertTimer = some (t.localTimer + 100000)) ∧
      (estop = false → s.inputs.lowlvl = true →
        t.line.alertSlot = some .lowLevel ∧ t.ctl.alertTimer = some (t.localTimer + 100000)) ∧
      (estop = false → s.inputs.lowlvl = false → t.line = s.line ∧ t.ctl.alertTimer = none) ∧
      t.ctl.state = s.ctl.state ∧ t.ctl.causes = s.ctl.causes)

/-- R31: when a frame has been heard, the line has been idle since its last rising edge, and a frame that comes whole ends with
the stop bit and the 1s before it (notes/assumptions/34.md).
R24, R26 to R28: a frame with the station's own number is a duplicate; a REPORT of another station is discarded without
an event; a frame error is counted; while the receiver does not hear, no frame and no error reaches the station.
R167, R168: what counting an event does to a counter: it rises by one, up to 65,535, and at its threshold the crossed flag
is set and the event sampled, once. -/
def Obligations.DuplicatesReportsAndErrors : Prop :=
  (∀ (s : State) (c : Instr) (sender : Byte), s.hears = true → 1 ≤ sender.toNat → sender.toNat ≤ 24 →
    sender.toNat = s.ctl.station →
    c = .reportReceived sender ∨ (∃ cause rx, c = .alertReceived sender cause rx) ∨
      (∃ p rx, c = .paceReceived sender p rx ∧ 1 ≤ p.stateCode.toNat ∧ p.stateCode.toNat ≤ 9) →
    ∃ t, exec c s = .next t ∧ t.line.duplicate = true ∧ t.line.dupTimer = some (s.localTimer + 2000000) ∧
      t = { s with
        line := { (s.frameDone c).line with duplicate := true, dupTimer := t.line.dupTimer }
        mon :=
          if s.ctl.state = .startUp then s.mon
          else s.mon.count { kind := .duplicateStation, time := s.clock.showTime, cueId := none, object := none } }) ∧
  (∀ (s : State) (sender : Byte), s.hears = true → 1 ≤ sender.toNat → sender.toNat ≤ 24 →
    sender.toNat ≠ s.ctl.station →
    ∃ t, exec (.reportReceived sender) s = .next t ∧ t = { s with line := (s.frameDone (.reportReceived sender)).line }) ∧
  (∀ (s : State) (c : Instr),
    let t := s.frameDone c
    t = { s with line := { s.line with receiver := .hunting, quietSince := t.line.quietSince, lowRun := 0 } } ∧
    (∀ b q, s.line.receiver = .receiving b → s.line.quietSince = some q → t.line.quietSince = some q) ∧
    (∀ f, s.line.receiver = .hunting → commandFrame c = some f → (∀ n, c ≠ .reportReceived n) →
      t.line.quietSince = some (s.localTimer - endHighs f.bytes))) ∧
  (∀ (s : State) (why : RxFailure), s.hears = true →
    ∃ t, exec (.frameError why) s = .next t ∧
      (why = .markTooLong → t.line.receiver = .waitIdle) ∧
      (∀ r, why = .lowRun r → t.line.receiver = .receiving (RxBuffer.start r)) ∧
      (why ≠ .markTooLong → (∀ r, why ≠ .lowRun r) → t.line.receiver = .hunting) ∧
      t = { s with
        line := { s.line with receiver := t.line.receiver, quietSince := quietAfter (s.lastRise (.frameError why)) why }
        mon :=
          if s.ctl.state = .startUp then s.mon
          else s.mon.count { kind := .frameError, time := s.clock.showTime, cueId := none, object := none } }) ∧
  (∀ (s : State) (c : Instr), s.hears = false → (commandFrame c).isSome = true ∨ (∃ why, c = .frameError why) →
    ∃ t, exec c s = .next t ∧ t = { s with inputs := t.inputs } ∧ t.inputs.lowlvl = s.inputs.lowlvl ∧
      t.inputs.lrx = s.inputs.lrx) ∧
  (∀ (m : Monitor) (e : Sample) (i : Counter),
    let c := m.counters[i]
    let c' := (m.count e).counters[i]
    let v := min 65535 (c.value + 1)
    (c.kind ≠ some e.kind → c' = c) ∧
    (c.kind = some e.kind → c'.kind = c.kind ∧ c'.threshold = c.threshold ∧ c'.value = v ∧
      (c.crossed = false → 0 < c.threshold → c.threshold ≤ v → c'.crossed = true ∧ c'.sample = some e) ∧
      (c.crossed = true ∨ c.threshold = 0 ∨ v < c.threshold → c'.crossed = c.crossed ∧ c'.sample = c.sample)) ∧
    (m.count e).pendingClear = m.pendingClear)

/-- R40, R43, R48: a FRESH entry lapses and a LAPSED one is lost; the new draw sum goes to Jet Computation, and the
solitude timer starts when no entry is FRESH any more. -/
def Obligations.SilentPeersAge : Prop :=
  (∀ (s : State) (k : Peer), (s.peers.entries[k]).fresh = .fresh →
    ∃ t, exec (.peerLapse k) s = .next t ∧
      t.peers.entries = s.peers.entries.set k { s.peers.entries[k] with fresh := .lapsed } ∧
      t.jet.other = (t.peers.entries.toList.map fun e => e.drawTerm).sum ∧
      (s.operating = true → t.jet.passDue = true) ∧
      ((∀ j : Peer, (t.peers.entries[j]).fresh ≠ .fresh) → s.ctl.state.underWay = true →
        t.clock.solitude = some (t.localTimer + 2000000))) ∧
  (∀ (s : State) (k : Peer), (s.peers.entries[k]).fresh = .lapsed →
    ∃ t, exec (.peerLost k) s = .next t ∧
      t.peers.entries = s.peers.entries.set k { s.peers.entries[k] with fresh := .lost } ∧
      t.jet.other = (t.peers.entries.toList.map fun e => e.drawTerm).sum ∧
      (s.operating = true → t.jet.passDue = true))

/-! ### The transmitter (02) -/

/-- R31, R33, R171: after 50 µs of idle line (DEFERRING) or 50 + 20 × station number µs (BACKING OFF), any idle time already
passed included, the transmitter begins an attempt for the first full slot, and the frame it sends passes the receive
checks with this station's number and the contents of the moment; with carrier on the line no gap ends.  A PACE holds
R33's fields, with R21's zeros in rehearsal and R3's form in CONFIG FAULT. -/
def Obligations.AttemptSendsAWholeFrame : Prop :=
  ∀ (s : State) (c : Instr) (gap : Nat),
    (c = .deferGapEnd ∧ s.line.tx = .deferring ∧ gap = 50) ∨
      (c = .backoffEnd ∧ s.line.tx = .backingOff ∧ gap = 50 + 20 * s.ctl.station) →
    (s.line.quietSince = none → exec c s = .next s ∧ (true, c) ∉ s.dueControl) ∧
    (∀ (q : Nat) (kind : FrameKind), s.line.quietSince = some q → s.line.firstFull = some kind →
      1 ≤ s.ctl.station → s.ctl.station ≤ 24 → s.ctl.state ≠ .startUp →
      (q + gap ≤ s.localTimer → (true, c) ∈ s.dueSteps) ∧
      (s.localTimer < q + gap → (true, c) ∉ s.dueControl) ∧
      ∃ t bytes f, exec c s = .next t ∧
        (let u := s.passTo (q + gap)
         t = { u with line := { s.line with
           tx := .sending kind bytes u.localTimer, receiver := .off, quietSince := none, replaced := false } } ∧
         checkFrame bytes = .ok f ∧ f.sender.toNat = s.ctl.station ∧ f.kind.toNat = kind.code ∧
         (∀ cause, kind = .alert → s.line.alertSlot = some cause → f.payload = [BitVec.ofNat 8 cause.code]) ∧
         (∀ image, kind = .report → s.line.reportSlot = some image → f.payload = image.bytes) ∧
         (kind = .pace → s.ctl.state ≠ .configFault →
           (let p := readPace f.payload
            p.stamp = BitVec.ofInt 32 u.clock.showTime ∧ p.showNo = BitVec.ofNat 8 s.ctl.selected ∧
            p.stateCode.toNat = s.ctl.state.code ∧ p.sectionNo = BitVec.ofNat 8 s.seq.sectionNo ∧
            p.flags.getLsbD 0 = s.clock.solo ∧
            (p.flags.getLsbD 1 = true ↔ ∃ i : Counter, (s.mon.counters[i]).crossed = true) ∧
            p.flags.getLsbD 2 = s.ctl.rehearsal ∧ p.flags.getLsbD 3 = s.line.duplicate ∧
            p.flags.getLsbD 4 = s.store.config.anemometer ∧ p.flags.getLsbD 5 = s.clock.stepped ∧
            p.flags.getLsbD 6 = false ∧ p.flags.getLsbD 7 = false ∧
            (s.ctl.rehearsal = false → p.planned = BitVec.ofNat 16 s.jet.planned ∧
              p.ceiling = BitVec.ofNat 16 s.store.config.ceiling ∧ p.current = BitVec.ofNat 16 s.currentDraw) ∧
            (s.ctl.rehearsal = true → p.planned = 0 ∧ p.ceiling = 0 ∧ p.current = 0) ∧
            p.wind = (if s.store.config.anemometer then BitVec.ofNat 16 s.jet.rawWind else 0) ∧
            p.outNozzles.toNat = countBits s.outNozzles ∧ p.faultHeads.toNat = countBits s.faultHeads ∧
            p.trippedPumps.toNat = countBits s.latchedPumps ∧ p.causes = BitVec.ofNat 8 s.ctl.causes.byte)) ∧
         (kind = .pace → s.ctl.state = .configFault →
           readPace f.payload =
             { stamp := 0, showNo := 0, stateCode := 9, sectionNo := BitVec.ofNat 8 s.ctl.reason
               flags := (if s.ctl.rehearsal then 4 else 0) + (if s.line.duplicate then 8 else 0)
               planned := 0, ceiling := 0, current := 0, wind := 0, outNozzles := 0, faultHeads := 0
               trippedPumps := 0, causes := 0 })))

/-- R32: a collision turns the driver off and counts; at 8 the frame is dropped with COLLISION LOSS, and a dropped REPORT
clears nothing. -/
def Obligations.CollisionCountsAndDrops : Prop :=
  ∀ (s : State) (kind : FrameKind) (bytes : List Byte) (since : Nat), s.line.tx = .sending kind bytes since → LineInv s →
    ∃ t, exec .collision s = .next t ∧ t.line.receiver = .hunting ∧ t.line.sendingKind = none ∧
      (s.line.tries kind < 7 → t.line.tx = .backingOff ∧ t.line.tries kind = s.line.tries kind + 1 ∧
        t.line.firstFull = s.line.firstFull ∧ t.mon = s.mon) ∧
      (s.line.tries kind = 7 → t.line.tries kind = 0 ∧
        (kind = .alert → t.line.alertSlot = none) ∧ (kind = .report → t.line.reportSlot = none) ∧
        (kind = .pace → t.line.paceSlot = false) ∧
        t.mon.counters = (s.mon.count
          { kind := .collisionLoss, time := s.clock.showTime, cueId := none, object := some kind.code }).counters ∧
        t.mon.pendingClear = (if kind = .report then none else s.mon.pendingClear)) ∧
      (∀ other, other ≠ kind → t.line.tries other = s.line.tries other) ∧
      t = { s with line := t.line, mon := t.mon }

/-- R23, R30, R31, R170: a frame sent empties its slot, or leaves its replacement with the count 0; a REPORT's pending clear
takes effect then. -/
def Obligations.SentFrameEmptiesItsSlot : Prop :=
  ∀ (s : State) (kind : FrameKind) (bytes : List Byte) (since : Nat), s.line.tx = .sending kind bytes since →
    ∃ t, exec .frameSent s = .next t ∧
      t.localTimer = (s.passTo (since + 15 + 10 * bytes.length)).localTimer ∧
      t.line.tries kind = 0 ∧ t.line.receiver = .hunting ∧
      t.line.quietSince = some (since + 15 + 10 * bytes.length - endHighs bytes) ∧
      t.line.tx = (if t.line.firstFull = none then .quiet else .deferring) ∧
      (s.line.replaced = true → t.line.alertSlot = s.line.alertSlot ∧ t.line.paceSlot = s.line.paceSlot) ∧
      (s.line.replaced = false → (kind = .alert → t.line.alertSlot = none) ∧
        (kind = .report → t.line.reportSlot = none) ∧ (kind = .pace → t.line.paceSlot = false)) ∧
      (∀ other, other ≠ kind → t.line.tries other = s.line.tries other) ∧
      (kind ≠ .report ∨ s.mon.pendingClear = none → t.mon = s.mon) ∧
      (∀ p, kind = .report → s.mon.pendingClear = some p → t.mon.pendingClear = none ∧
        ∀ i : Counter,
          (t.mon.counters[i]).value = (s.mon.counters[i]).value - p.values[i] ∧
          (t.mon.counters[i]).kind = (s.mon.counters[i]).kind ∧
          (t.mon.counters[i]).threshold = (s.mon.counters[i]).threshold ∧
          (t.mon.counters[i]).crossed = (if p.crossed[i] then false else (s.mon.counters[i]).crossed) ∧
          (t.mon.counters[i]).sample = (if p.crossed[i] then none else (s.mon.counters[i]).sample))

/-! ### The show clock (04) -/

/-- R53: at an expiry of the pace timer in COUNTDOWN or RUNNING the agreement A is the mean, truncated toward zero, of the
usable offsets and the own 0, without one greatest and one least member when there are four or more; and show time is
adjusted by what A asks for. -/
def Obligations.AgreementIsTheTrimmedMean : Prop :=
  ∀ (s : State) (pflt : BitVec 4) (t0 : Nat), s.clock.paceTimer = some t0 →
    s.ctl.state = .countdown ∨ s.ctl.state = .running →
    ∃ t A, exec (.paceTimerExpiry pflt) s = .next t ∧
      (let u := s.passTo t0
       let all := 0 :: u.usableOffsets
       (all.length < 4 → A = Int.tdiv all.sum all.length) ∧
       (4 ≤ all.length → ∃ hi lo rest, all.Perm (hi :: lo :: rest) ∧ (∀ x ∈ all, lo ≤ x ∧ x ≤ hi) ∧
          A = Int.tdiv rest.sum rest.length) ∧
       t.clock.showTime = adjustedTime s.ctl.state u.clock.showTime (adjustmentOf A))

/-- R50, R54, R57: what an expiry of the pace timer queues and re-arms in every state, and how it moves show time: a step
above 20,000 µs, else a slew of at most 100 µs; not at all outside COUNTDOWN and RUNNING.
R91 to R94: a forward step of more than 4 s makes a catch-up scan: the queue's entries already due by beat time are applied
in the order of their beats, so that each channel's entry is that of the JET whose beat comes last, and the staged record
that lies ahead ends the scan.  (The entries due are JETs here, and that record lies ahead and is not stalled.)  R93 has
that record taken, issued or inserted, at the scan's end; that it stands staged when this step ends, for the command
STAGED_RECORD_TAKEN that is due at the same reading once its window is reached, so that CLOCK STEP is the one event here, is
the model's choice (notes/assumptions/23.md, 38.md). -/
def Obligations.PaceExpirySlewsOrSteps : Prop :=
  ∀ (s : State) (pflt : BitVec 4) (t0 : Nat), s.clock.paceTimer = some t0 →
    ∃ t, exec (.paceTimerExpiry pflt) s = .next t ∧
      t.line.paceSlot = true ∧ t.line.tx ≠ .quiet ∧ t.line.paceTries = s.line.paceTries ∧
      t.clock.paceTimer = some (t0 + 20000) ∧
      (let u := s.passTo t0
       let A := agreementOf u.usableOffsets
       t.localTimer = u.localTimer ∧
       (s.ctl.state ≠ .countdown → s.ctl.state ≠ .running → t.clock.showTime = u.clock.showTime) ∧
       (s.ctl.state = .countdown ∨ s.ctl.state = .running → A.natAbs ≤ 20000 →
         ∃ a : Int, -100 ≤ a ∧ a ≤ 100 ∧ a = max (-100) (min 100 (Int.tdiv A 4)) ∧
           t.clock.showTime = adjustedTime s.ctl.state u.clock.showTime a ∧ t.clock.stepped = s.clock.stepped) ∧
       (s.ctl.state = .countdown ∨ s.ctl.state = .running → 20000 < A.natAbs →
         t.clock.showTime = adjustedTime s.ctl.state u.clock.showTime A ∧ t.clock.stepped = true ∧
         t.clock.stepRecent = some (u.localTimer + 1000000)) ∧
       (∀ st : Staged, s.ctl.state = .running → 4000000 < A → s.seq.catchUp = false → s.seq.staged = some st →
         st.stalled = false → s.ctl.followHold = 0 → s.ctl.followEnding = 0 →
         (let T := adjustedTime .running u.clock.showTime A
          let due (e : QueueEntry) : Prop := (e.cue.beat : Int) * 1000 ≤ T
          T < 1800000000 → T < (st.cue.beat : Int) * 1000 → (∀ e ∈ s.seq.queue, due e → e.cue.isJet = true) →
          t.ctl.state = .running ∧ t.seq.catchUp = false ∧ t.jet.view = none ∧ t.jet.passDue = true ∧
          t.seq.staged = some st ∧
          t.seq.queue = s.seq.queue.filter (fun e => decide (T < (e.cue.beat : Int) * 1000)) ∧
          t.mon = s.mon.count { kind := .clockStep, time := T, cueId := none, object := none } ∧
          ∀ c : Channel,
            ((∀ e ∈ s.seq.queue, due e → ∀ height set, e.cue.body ≠ .jet c height set) →
              t.seq.table[c] = s.seq.table[c]) ∧
            (∀ e ∈ s.seq.queue, ∀ height set, due e → e.cue.body = .jet c height set →
              (∀ d ∈ s.seq.queue, due d → (∃ height set, d.cue.body = .jet c height set) →
                d = e ∨ d.cue.beat < e.cue.beat ∨ (d.cue.beat = e.cue.beat ∧ d.cue.order < e.cue.order)) →
              t.seq.table[c] = some { height := height, openSet := set, cueId := e.cue.id, seen := false }))))

/-- R56, R10: show time's crossing of 0 in COUNTDOWN enters RUNNING, and of the limit in RUNNING ends the show. -/
def Obligations.CrossingsChangeTheState : Prop :=
  (∀ s : State, s.ctl.phase ≠ .held → s.ctl.state = .countdown → s.clock.showTime < 1800000000 →
    ∃ t, exec .showTimeZeroCrossing s = .next t ∧ t.ctl.state = .running ∧
      t.clock.showTime = max 0 s.clock.showTime ∧ t.seq.queue = s.seq.queue ∧ t.seq.table = s.seq.table ∧
      t.ctl.selected = s.ctl.selected) ∧
  (∀ s : State, s.ctl.phase ≠ .held → s.ctl.state = .running →
    ∃ t, exec .timeLimit s = .next t ∧ (t.ctl.state = .ending ∨ t.ctl.state = .idle) ∧
      t.ctl.endingCause = some .timeLimit ∧ t.seq.queue = [])

/-- R15, R55: the third agreement in a row with a majority in RUNNING ends HOLD, with show time untouched: the station is in
RUNNING again (no entry of the queue is due, and show time is below its limit); without a majority in RUNNING or ENDING
the station stays in HOLD and the counter is 0.  The third with a majority in HOLD takes a RUNNING station into HOLD, and
the third with a majority in ENDING ends the show with the cause follow.  At an agreement that is no third of a majority that
the station would follow, the station stays where it is, and each counter rises by one with its majority and is 0
without.  That the queue is kept on the way back into RUNNING, the staged record being taken by a step of its own, is the
model's reading (notes/assumptions/23.md). -/
def Obligations.HoldFollowsTheMajority : Prop :=
  let counted (s t : State) : Prop :=
    let up (majority n : Nat) : Nat := if s.sameShowPeers.length < 2 * majority then n + 1 else 0
    t.ctl.state = s.ctl.state ∧ t.ctl.followHold = up (s.majorityCount 6) s.ctl.followHold ∧
    t.ctl.followRunning = up (s.majorityCount 5) s.ctl.followRunning ∧
    t.ctl.followEnding = up (s.majorityCount 7) s.ctl.followEnding
  (∀ (s : State) (pflt : BitVec 4) (t0 : Nat), s.clock.paceTimer = some t0 → s.ctl.state = .hold →
    ∃ t, exec (.paceTimerExpiry pflt) s = .next t ∧ t.clock.showTime = s.clock.showTime ∧
      (s.sameShowPeers.length < 2 * s.majorityCount 5 → 2 ≤ s.ctl.followRunning → t.ctl.state ≠ .hold ∧
        (s.seq.catchUp = false → s.headDue = false → s.clock.showTime < 1800000000 →
          t.ctl.state = .running ∧ t.ctl.followRunning = 0 ∧ t.seq.queue = s.seq.queue ∧ t.seq.table = s.seq.table)) ∧
      (2 * s.majorityCount 5 ≤ s.sameShowPeers.length → 2 * s.majorityCount 7 ≤ s.sameShowPeers.length →
        t.ctl.state = .hold ∧ t.ctl.followRunning = 0 ∧ t.ctl.followEnding = 0) ∧
      ((s.sameShowPeers.length < 2 * s.majorityCount 5 → s.ctl.followRunning < 2) →
        (s.sameShowPeers.length < 2 * s.majorityCount 7 → s.ctl.followEnding < 2) → counted s t)) ∧
  (∀ (s : State) (pflt : BitVec 4) (t0 : Nat), s.clock.paceTimer = some t0 →
    s.ctl.state = .countdown ∨ s.ctl.state = .running ∨ s.ctl.state = .hold →
    (let u := s.passTo t0
     let A := agreementOf u.usableOffsets
     let T := if s.ctl.state = .hold then s.clock.showTime else adjustedTime s.ctl.state u.clock.showTime (adjustmentOf A)
     (s.ctl.state ≠ .hold → A.natAbs ≤ 20000) → (s.ctl.state = .countdown → T < 0) → T < 1800000000 →
     ∃ t, exec (.paceTimerExpiry pflt) s = .next t ∧ t.clock.showTime = T ∧
      (s.ctl.state = .running → s.sameShowPeers.length < 2 * s.majorityCount 6 → 2 ≤ s.ctl.followHold →
        t.ctl.state = .hold ∧ t.ctl.followHold = 0 ∧ t.seq.queue = s.seq.queue ∧ t.seq.table = s.seq.table ∧
        t.head.heads = s.head.heads) ∧
      (s.sameShowPeers.length < 2 * s.majorityCount 7 → 2 ≤ s.ctl.followEnding →
        (t.ctl.state = .ending ∨ t.ctl.state = .idle) ∧ t.ctl.endingCause = some .follow ∧ t.seq.queue = []) ∧
      (2 * s.majorityCount 7 ≤ s.sameShowPeers.length → 2 * s.majorityCount 6 ≤ s.sameShowPeers.length →
        2 * s.majorityCount 5 ≤ s.sameShowPeers.length →
        t.ctl.state = s.ctl.state ∧ t.ctl.followHold = 0 ∧ t.ctl.followRunning = 0 ∧ t.ctl.followEnding = 0) ∧
      ((s.ctl.state = .running → s.sameShowPeers.length < 2 * s.majorityCount 6 → s.ctl.followHold < 2) →
        (s.ctl.state = .hold → s.sameShowPeers.length < 2 * s.majorityCount 5 → s.ctl.followRunning < 2) →
        (s.sameShowPeers.length < 2 * s.majorityCount 7 → s.ctl.followEnding < 2) → counted s t)))

/-- R27, R57, R59, R128: four timers whose expiry sets or clears one item. -/
def Obligations.FlagTimersExpire : Prop :=
  (∀ (s : State) (t0 : Nat), s.line.dupTimer = some t0 → ∃ t, exec .duplicateTimerExpiry s = .next t ∧
    t = { s.passTo t0 with line := { s.line with duplicate := false, dupTimer := none } }) ∧
  (∀ (s : State) (t0 : Nat), s.clock.stepRecent = some t0 → ∃ t, exec .stepRecentTimerExpiry s = .next t ∧
    t = { s.passTo t0 with clock := { (s.passTo t0).clock with stepped := false, stepRecent := none } }) ∧
  (∀ (s : State) (t0 : Nat), s.clock.solitude = some t0 → ∃ t, exec .solitudeTimerExpiry s = .next t ∧
    t = { s.passTo t0 with clock := { (s.passTo t0).clock with solo := true, solitude := none } }) ∧
  (∀ (s : State) (c : Channel) (t0 : Nat), (s.pump.pumps[c]).rehearsalTimer = some t0 →
    (s.pump.pumps[c]).state = .starting → ∃ t, exec (.rehearsalStartingExpiry c) s = .next t ∧
    t = { s.passTo t0 with pump := { s.pump with
      pumps := s.pump.pumps.set c { s.pump.pumps[c] with state := .running, rehearsalTimer := none } } })

/-! ### The show store (05) -/

/-- R67, R68, R70: a withdrawn attempt takes no effect; a failed one leaves its request standing with one attempt more and
raises BLOCK REREAD; an accepted audio block's frames join the FIFO.  A third failure raises BLOCK LOST, and the reader
acts under its own rule (R71 to R74): CONFIG FAULT, NO SHOW, the next cue block, silent frames.
R72, R7, R9: an accepted directory block leads to the section table, to the next directory block or to NO SHOW; an
accepted section table leaves the entry, and the station enters ARMED once prefill and homing are complete as well,
from which a held START counts down at once or, when its moment has passed, joins RUNNING through a catch-up scan.
R79 to R81: an accepted cue block gives its first whole record, that of a partial record and its carry included, as the
staged record.  That it stands staged when this step ends, also inside the window, is the model's reading
(notes/assumptions/46.md). -/
def Obligations.FlashReadVerdicts : Prop :=
  (∀ (s : State) (data : List Byte) (estop : Bool) (p : PortRead), s.store.port = some p → s.steady →
     (p.withdrawn = true →
       ∃ t, exec (.flashReadComplete data estop) s = .next t ∧
         t = { s with
           inputs := { s.inputs with estop := estop }
           store := { s.store with port := t.store.port } }) ∧
     (∀ q, p.withdrawn = false → s.store.request p.reader = some q → goodRead q.expect data = false → q.attempts < 2 →
       ∃ t, exec (.flashReadComplete data estop) s = .next t ∧
         t.store.request p.reader = some { q with attempts := q.attempts + 1 } ∧ t.store.port.isSome ∧
         t.music = s.music ∧ t.seq = s.seq ∧ t.ctl = s.ctl ∧
         t.mon = s.mon.count
           { kind := .blockReread, time := s.clock.showTime, cueId := none, object := some p.reader.object }) ∧
     (∀ q, p.withdrawn = false → p.reader = .audio → s.store.audioReq = some q → goodRead q.expect data = true →
       ∃ t more, exec (.flashReadComplete data estop) s = .next t ∧
         t.music.fifo = s.music.fifo ++
           ((readFrames (blockPayload data) q.expect.seq (audioBlockFrames s.frameCount q.expect.seq)).filter
             fun f => decide (s.music.playIndex ≤ f.index)) ++ more ∧
         t.seq = s.seq ∧ t.ctl = s.ctl)) ∧
  (∀ (s : State) (data : List Byte) (estop : Bool) (r : Reader) (q : Request),
    s.store.port = some { reader := r, withdrawn := false } → s.store.request r = some q →
    goodRead q.expect data = false → 2 ≤ q.attempts →
    ∃ t, exec (.flashReadComplete data estop) s = .next t ∧
      (let lost := s.mon.count
         { kind := .blockLost, time := s.clock.showTime, cueId := none, object := some r.object }
       (r = .config → t.ctl.state = .configFault ∧ t.ctl.reason = (if s.store.header = none then 1 else 5) ∧
         t.mon = lost) ∧
       (r = .directory → s.ctl.state = .loading → t.ctl.state = .idle ∧ t.ctl.selected = 0 ∧ t.ctl.held = none ∧
         t.store.entry = none ∧ t.store.dirReq = none ∧
         t.mon = lost.count
           { kind := .noShow, time := s.clock.showTime, cueId := none, object := some s.ctl.selected }) ∧
       (∀ e j, r = .cue → s.ctl.state = .countdown ∨ s.ctl.state = .running → s.store.entry = some e →
         s.store.cuePos = some j → j + 1 < e.cueCount → e.firstCue + (j + 1) ≤ 131071 → s.seq.staged = none →
         s.seq.endSeen = false →
         t.seq = { s.seq with current := none, partialRec := none } ∧ t.store.cuePos = some (j + 1) ∧
         t.store.cueReq = some { block := e.firstCue + (j + 1), expect := s.expectCue (j + 1), attempts := 0 } ∧
         t.ctl = s.ctl ∧ t.mon = lost) ∧
       (∀ e k, r = .audio → s.steady → s.store.entry = some e → s.store.audioPos = some k →
         e.firstAudio + (k + 1) ≤ 131071 →
         t.music.fifo = s.music.fifo ++
           (((List.range (audioBlockFrames e.frames q.expect.seq)).map fun m : Nat =>
             ({ index := 1016 * q.expect.seq + m, left := 0, right := 0 } : AudioFrame)).filter
             fun f => decide (s.music.playIndex ≤ f.index)) ∧
         t.store.audioPos = some (k + 1) ∧ t.seq = s.seq ∧ t.ctl = s.ctl ∧ t.mon = lost))) ∧
  (∀ (s : State) (data : List Byte) (estop : Bool) (q : Request),
    s.store.port = some { reader := .directory, withdrawn := false } → s.store.dirReq = some q →
    goodRead q.expect data = true → s.ctl.state = .loading → s.store.entry = none →
    ∃ t, exec (.flashReadComplete data estop) s = .next t ∧
      (let payload := blockPayload data
       let e := readSection payload s.ctl.station
       let audio := 0 < e.frames ∧ s.store.config.zone = true
       let homed := ∀ h : Head, (s.store.config.heads[h]).present = true →
         (s.head.heads[h]).state = .settled ∨ (s.head.heads[h]).state = .fault
       (∀ i table, s.store.dirStep = .block i → findSlot payload s.ctl.selected = some table → table ≤ 131071 →
         t.store.dirStep = .table ∧ t.ctl = s.ctl ∧ t.mon = s.mon ∧
         t.store.dirReq = some { block := table, expect := expectTable s.ctl.selected, attempts := 0 }) ∧
       (∀ i, s.store.dirStep = .block i → findSlot payload s.ctl.selected = none → i + 1 < s.dirCount →
         s.dirBlock (i + 1) ≤ 131071 →
         t.store.dirStep = .block (i + 1) ∧ t.ctl = s.ctl ∧ t.mon = s.mon ∧
         t.store.dirReq = some { block := s.dirBlock (i + 1), expect := expectDirectory (i + 1), attempts := 0 }) ∧
       (∀ i, s.store.dirStep = .block i → findSlot payload s.ctl.selected = none → s.dirCount ≤ i + 1 →
         t.ctl.state = .idle ∧ t.ctl.selected = 0 ∧ t.store.entry = none ∧ t.store.dirReq = none ∧
         t.mon = s.mon.count
           { kind := .noShow, time := s.clock.showTime, cueId := none, object := some s.ctl.selected }) ∧
       (s.store.dirStep = .table → audio → e.firstAudio ≤ 131071 → s.music.fifo = [] → s.store.audioReq = none →
         t.ctl = s.ctl ∧ t.mon = s.mon ∧ t.store.entry = some e ∧ t.store.cuePos = some 0 ∧
         t.store.audioPos = some 0 ∧ t.store.dirReq = none ∧
         t.store.audioReq = some { block := e.firstAudio, expect := s.expectAudio e.frames 0, attempts := 0 }) ∧
       (s.store.dirStep = .table → ¬ audio → ¬ homed → t.ctl = s.ctl ∧ t.store.entry = some e) ∧
       (s.store.dirStep = .table → ¬ audio → homed → s.ctl.held = none →
         t.ctl.state = .armed ∧ t.ctl.selected = s.ctl.selected ∧ t.store.entry = some e ∧ t.store.cuePos = some 0 ∧
         t.seq.lastId = none ∧ t.lights.fixtures = Vector.replicate 12 {} ∧ t.mon = s.mon) ∧
       (∀ hs, s.store.dirStep = .table → ¬ audio → homed → s.ctl.held = some hs →
         (let T : Int := -((hs.delay : Int) * 1000) + ((s.localTimer : Int) - hs.moment)
          (T < 0 → t.ctl.state = .countdown ∧ t.ctl.held = none ∧ t.clock.showTime = clampShowTime T ∧
            t.store.entry = some e) ∧
          (0 ≤ T → T < 1800000000 → s.seq.queue = [] → s.seq.catchUp = false → s.store.cueReq = none →
            0 < e.cueCount → e.firstCue ≤ 131071 →
            t.ctl.state = .running ∧ t.ctl.held = none ∧ t.clock.showTime = T ∧ t.seq.catchUp = true ∧
            t.store.cueReq = some { block := e.firstCue, expect := s.expectCue 0, attempts := 0 }))))) ∧
  (∀ (s : State) (data : List Byte) (estop : Bool) (q : Request) (r rest : List Byte) (form : CueForm) (body : CueBody),
    s.store.port = some { reader := .cue, withdrawn := false } → s.store.cueReq = some q →
    goodRead q.expect data = true → s.ctl.state = .countdown ∨ s.ctl.state = .running → s.seq.staged = none →
    s.seq.catchUp = false → r.length = byteAt r 0 → 8 ≤ r.length → r.length ≤ 40 →
    (s.seq.partialRec = none ∧ blockPayload data = 0 :: (r ++ rest)) ∨
      (∃ held carry, s.seq.partialRec = some held ∧ held ≠ [] ∧ r = held ++ carry ∧
        blockPayload data = BitVec.ofNat 8 carry.length :: (carry ++ rest)) →
    cueForm r = some form → form.resolve s.store.config = .ok body → (∀ l, s.seq.lastId = some l → l < be16 r 2) →
    ∃ t, exec (.flashReadComplete data estop) s = .next t ∧
      t.seq = { s.seq with
        staged := some
          { cue := { id := be16 r 2, beat := be32 r 4, order := s.seq.nextOrder, body := body }, stalled := false }
        current := some rest, partialRec := none, lastId := some (be16 r 2), nextOrder := s.seq.nextOrder + 1 } ∧
      t.store.cuePos = s.store.cuePos.map (fun j => j + 1) ∧ t.store.cueReq = none ∧ t.ctl = s.ctl ∧ t.mon = s.mon)

/-- R3, R4, R71: the configuration block decides the start-up: valid, SAFE with POWER-UP; a failed field, CONFIG FAULT with
the reason code of the first.  That a block with a failed field is not held is the model's choice
(notes/assumptions/45.md).  (Neither input is asserted.) -/
def Obligations.ConfigurationDecidesStartUp : Prop :=
  ∀ (s : State) (data : List Byte) (q : Request), s.ctl.state = .startUp → s.ctl.phase = .loadingConfig →
    s.store.port = some { reader := .config, withdrawn := false } → s.store.configReq = some q →
    s.store.header.isSome → goodRead q.expect data = true → s.inputs.lowlvl = false →
    1 ≤ s.ctl.station → s.ctl.station ≤ 24 →
    ∃ t, exec (.flashReadComplete data false) s = .next t ∧
      (let g := readConfig (blockPayload data)
       t.ctl.phase = .done ∧ t.clock.paceTimer = some (s.localTimer + 20000) ∧ t.store.configReq = none ∧
       (g.reason = none →
         t.ctl.state = .safe ∧ t.ctl.causes = { powerUp := true } ∧ t.ctl.firstCause = some .powerUp ∧
         t.store.config = g ∧ (∀ i : Counter, (t.mon.counters[i]).threshold = g.thresholds[i]) ∧
         (∀ z : Nozzle, (t.pump.nozzles[z]).state = .out ↔
           ((g.nozzles[z]).present = true ∧ (g.nozzles[z]).out = true))) ∧
       (∀ r, g.reason = some r →
         t.ctl.state = .configFault ∧ t.ctl.reason = r ∧ t.line = s.line ∧ t.store.config = s.store.config ∧
         (r ≠ 8 → ∀ i : Counter, (t.mon.counters[i]).threshold = g.thresholds[i]) ∧ (r = 8 → t.mon = s.mon)))

/-- R76: what a configuration that passes guarantees. -/
def Obligations.ValidConfigurationGuarantees : Prop :=
  ∀ g : StationConfig, g.reason = none →
    (∀ z : Nozzle, (g.nozzles[z]).present = true →
      ∃ c : Channel, c.val = (g.nozzles[z]).channel ∧ (g.channels[c]).present = true ∧
        (g.nozzles[z]).hmax ≤ (g.channels[c]).hfull ∧
        ((g.nozzles[z]).kind = 1 → ∃ h : Head, h.val = (g.nozzles[z]).head ∧ (g.heads[h]).present = true ∧
          (g.nozzles[z]).envMin ≤ (g.nozzles[z]).envMax ∧ (g.nozzles[z]).envMax < (g.heads[h]).range)) ∧
    (∀ c : Channel, (g.channels[c]).present = true → 1 ≤ g.nc c) ∧
    (∀ f : Fixture, (g.fixtures[f]).present = true → (g.fixtures[f]).role = 0 →
      ∃ z : Nozzle, z.val = (g.fixtures[f]).nozzle ∧ (g.nozzles[z]).present = true) ∧
    g.wLo < g.wHi ∧ g.ceiling ≤ g.capacity

/-! ### The cue sequencer (06) -/

/-- R84, R85, R86: a staged record inside the window, ahead of its issue time, enters the queue with that time, or stalls
with QUEUE FULL; a JET's lead is its channel's base and the flight of its clamped, derated height.  A JET whose issue time
has come issues at once, beside the queue, and raises LATE CUE when that time has passed.  (The reader waits for its
block, so nothing more is decoded in the same step.)  That a record decoded after the one taken is not taken in the same
step is the model's reading (notes/assumptions/46.md). -/
def Obligations.StagedRecordEntersTheQueue : Prop :=
  (∀ (s : State) (st : Staged), s.seq.staged = some st → st.stalled = false → s.issuing = true →
     let u := s.passShowTo ((st.cue.beat : Int) * 1000 - 4000000)
     let issue : Int := (st.cue.beat : Int) - s.leadOf st.cue
     (st.cue.beat : Int) * 1000 ≤ u.clock.showTime + 4000000 → u.clock.showTime < issue * 1000 →
     ∃ t, exec .stagedRecordTaken s = .next t ∧
       (s.seq.queue.length < 64 →
         t.seq.queue = insertEntry { cue := st.cue, issue := issue } s.seq.queue ∧
         (st.cue.isJet = true → t.jet.passDue = true)) ∧
       (64 ≤ s.seq.queue.length →
         t.seq.queue = s.seq.queue ∧ t.seq.staged = some { st with stalled := true } ∧
         t.mon = s.mon.count
           { kind := .queueFull, time := u.clock.showTime, cueId := some st.cue.id, object := none }) ∧
       t.ctl.state = s.ctl.state ∧ t.seq.table = s.seq.table ∧
       (∀ ch height set, st.cue.body = .jet ch height set → height ≠ 0 →
         s.leadOf st.cue = min 3500 ((s.store.config.channels[ch]).lbase +
           isqrt (min height (s.store.config.leastHmax ch) * s.jet.derate / 1000 * 2039)))) ∧
  (∀ (s : State) (st : Staged) (ch : Channel) (height : Nat) (set : NozzleSet), s.seq.staged = some st →
    st.stalled = false → s.issuing = true → st.cue.body = .jet ch height set → s.seq.current = none →
    s.seq.endSeen = false → s.store.cueReq.isSome = true →
    let u := s.passShowTo ((st.cue.beat : Int) * 1000 - 4000000)
    let issue : Int := (st.cue.beat : Int) - s.leadOf st.cue
    (st.cue.beat : Int) * 1000 ≤ u.clock.showTime + 4000000 → issue * 1000 ≤ u.clock.showTime →
    ∃ t, exec .stagedRecordTaken s = .next t ∧
      t.seq = { s.seq with
        staged := none
        table := s.seq.table.set ch (some { height := height, openSet := set, cueId := st.cue.id, seen := false }) } ∧
      t.jet.passDue = true ∧ t.ctl = s.ctl ∧ t.clock.showTime = u.clock.showTime ∧
      (issue * 1000 < u.clock.showTime → t.mon = s.mon.count
        { kind := .lateCue, time := u.clock.showTime, cueId := some st.cue.id, object := some ch.val }) ∧
      (issue * 1000 = u.clock.showTime → t.mon = s.mon))

/-- R87 to R90: the entry at the head of the queue issues at its time: a JET to the table, a MARK to the section figures, a
LEVEL to the gain, an AIM to its head in each of the head's states (R134), with the sweep it carries (R141), a LIGHT of one
colour or of two to four to its fixture (R148), an END to ENDING.  (A record that waits staged is not stalled.)  R84: a record stalled at a full queue is taken again when an entry has issued, with its issue time worked
afresh.  That a record staged, or decoded after the issue, is not taken in the same step is the model's reading
(notes/assumptions/46.md). -/
def Obligations.DueEntryIssues : Prop :=
  (∀ (s : State) (e : QueueEntry) (rest : List QueueEntry), s.seq.queue = e :: rest → s.issuing = true →
     (∀ st, s.seq.staged = some st → st.stalled = false) →
     e.issue * 1000 ≤ (s.passShowTo (e.issue * 1000)).clock.showTime →
     ∃ t, exec .cueIssue s = .next t ∧
       (∀ ch height set, e.cue.body = .jet ch height set →
         t.seq.queue = rest ∧ t.jet.passDue = true ∧
         t.seq.table = s.seq.table.set ch
           (some { height := height, openSet := set, cueId := e.cue.id, seen := false })) ∧
       (∀ n len, e.cue.body = .mark n len →
         t.seq.queue = rest ∧ t.seq.table = s.seq.table ∧ t.seq.sectionNo = n ∧ t.seq.sectionStart = e.cue.beat ∧
         t.seq.beatLen = max 200 (min len 2000)) ∧
       (∀ gain fade, e.cue.body = .level gain fade →
         t.seq.queue = rest ∧ t.seq.table = s.seq.table ∧ t.music.targetGain = gain ∧
         t.music.fadeLen = min fade 60000 ∧ t.music.startGain = s.music.gain ∧ t.music.elapsed = 0) ∧
       (∀ h target part, e.cue.body = .aim h target part →
         t.seq.queue = rest ∧
         (let r := s.head.heads[h]
          let r' := t.head.heads[h]
          let c := s.store.config.heads[h]
          let g : Target := { step := min target (c.range - 1), cueId := some e.cue.id }
          let leg (beats : Nat) : Int :=
            Int.fdiv (Int.fdiv (s.passShowTo (e.issue * 1000)).clock.showTime 1000 - s.seq.sectionStart)
              (beats * s.seq.beatLen : Nat)
          let stepped (p : Nat) (d : Direction) : Prop :=
            r'.position = some p ∧ r'.direction = some d ∧ r'.target = some g ∧
            (r'.state = if 4 * c.tolerance < (r.encoder - (p * c.ratio : Nat)).natAbs then .verifying else .moving)
          (r.state = .fault → r' = r) ∧
          (r.state ≠ .fault → r'.sweep = part.map fun p =>
            { a := g.step, b := min p.partner (c.range - 1), beats := p.beats, anchor := leg p.beats, anchorPos := g.step
              cueId := e.cue.id, leg := leg p.beats }) ∧
          (∀ p, r.state = .settled → r.position = some p →
            (p = g.step → r'.state = .settled ∧ r'.position = some p ∧ r'.target = r.target) ∧
            (p < g.step → stepped (p + 1) .up) ∧ (g.step < p → stepped (p - 1) .down)) ∧
          (r.state = .moving ∨ r.state = .reversing →
            r'.state = r.state ∧ r'.target = some g ∧ r'.position = r.position ∧ r'.timer = r.timer) ∧
          (r.state = .verifying ∨ r.state = .unhomed ∨ r.state = .homing →
            r'.state = r.state ∧ r'.pending = some g ∧ r'.target = r.target ∧
            r'.homing = if r.state = .homing then g else r.homing))) ∧
       (∀ f colours fade divisor, e.cue.body = .light f colours fade divisor →
         t.seq.queue = rest ∧
         (let r := s.lights.fixtures[f]
          let r' := t.lights.fixtures[f]
          let div := max 1 (min divisor 16)
          let len := min fade 60000
          let beat := Int.fdiv (Int.fdiv (s.passShowTo (e.issue * 1000)).clock.showTime 1000 - s.seq.sectionStart)
            s.seq.beatLen
          r'.target = colours.getD 0 {} ∧ r'.fadeLen = len ∧ r'.elapsed = 0 ∧ r'.start = r.current ∧ r'.ending = false ∧
          r'.current = (if len = 0 then colours.getD 0 {} else r.current) ∧
          (colours.length = 1 → r'.pattern = none) ∧
          (2 ≤ colours.length → r'.pattern = some
            { colours := colours, divisor := div, stepFade := len, index := 0, group := Int.fdiv beat div }))) ∧
       (e.cue.body = .endCue →
         t.seq.queue = [] ∧ t.ctl.endingCause = some .endCue ∧ (t.ctl.state = .ending ∨ t.ctl.state = .idle))) ∧
  (∀ (s : State) (e : QueueEntry) (rest : List QueueEntry) (st : Staged) (ch : Channel) (height : Nat) (set : NozzleSet),
    s.seq.queue = e :: rest → s.issuing = true → e.cue.body = .jet ch height set → s.seq.staged = some st →
    st.stalled = true → rest.length < 64 →
    let u := s.passShowTo (e.issue * 1000)
    let issue : Int := (st.cue.beat : Int) - s.leadOf st.cue
    e.issue * 1000 ≤ u.clock.showTime → u.clock.showTime < issue * 1000 →
    ∃ t, exec .cueIssue s = .next t ∧ t.seq.queue = insertEntry { cue := st.cue, issue := issue } rest ∧
      t.seq.staged ≠ some st ∧ t.jet.passDue = true ∧
      t.seq.table = s.seq.table.set ch
        (some { height := height, openSet := set, cueId := e.cue.id, seen := false }))

/-! ### Jet computation (07) -/

/-- R103, R104: P is the greatest sum of walk flows over the present channels as the JETs of the queue (of the catch-up view
while one is held, R109) replace the table's entries one after another, and 0 outside COUNTDOWN, RUNNING and HOLD.
R105, R106: the share and the scale of a pass with their bounds, BUDGET SCALED when the scale falls below 1000 from
1000, and the one scale for every channel; after hard reset S is 1000 and G is 0. -/
def Obligations.ShareAndScaleOfThePass : Prop :=
  (∀ (s : State) (pflt : BitVec 4), s.operating = true → ∃ t, exec (.jetComputationPass pflt) s = .next t ∧
    (let jets : List (Channel × Nat × NozzleSet) :=
       match s.jet.view with
       | some v => v.jets.map fun j => (j.channel, j.height, j.openSet)
       | none => s.seq.queue.filterMap fun e =>
           match e.cue.body with
           | .jet c height set => some (c, height, set)
           | _ => none
     let table (c : Channel) : Nat × NozzleSet :=
       match (match s.jet.view with | some v => v.table[c] | none => s.seq.table[c]) with
       | some e => (e.height, e.openSet)
       | none => (0, 0)
     let shadow (k : Nat) (c : Channel) : Nat × NozzleSet :=
       (((jets.take k).filter fun j => j.1 = c).getLast?.map fun j => j.2).getD (table c)
     let fw (c : Channel) (height : Nat) (set : NozzleSet) : Nat :=
       let g := s.store.config.channels[c]
       let ew := countBits (set &&& ~~~s.outNozzles)
       let hd := min height (s.store.config.leastHmax c) * s.jet.derate / 1000
       if height = 0 ∨ ew = 0 ∨ s.latchedAt c = true then 0
       else g.qfull * min (isqrt (hd * 1000000 / g.hfull)) g.nmax * ew / (1000 * s.store.config.nc c)
     let sum (k : Nat) : Nat := ((List.finRange 4).map fun c : Channel =>
       if (s.store.config.channels[c]).present = true then fw c (shadow k c).1 (shadow k c).2 else 0).sum
     (s.ctl.state = .countdown ∨ s.ctl.state = .running ∨ s.ctl.state = .hold →
       (∃ k, k ≤ jets.length ∧ t.jet.planned = min 65535 (sum k)) ∧
       ∀ k, k ≤ jets.length → min 65535 (sum k) ≤ t.jet.planned) ∧
     (s.ctl.state ≠ .countdown → s.ctl.state ≠ .running → s.ctl.state ≠ .hold → t.jet.planned = 0))) ∧
  (∀ (s : State) (pflt : BitVec 4), s.operating = true → ∃ t, exec (.jetComputationPass pflt) s = .next t ∧
    (let P := t.jet.planned
     let T := P + s.jet.other
     let C := s.store.config.capacity
     let Cs := s.store.config.ceiling
     t.jet.share = min (if T ≤ C then P else P * C / T) Cs ∧
     t.jet.share ≤ P ∧ t.jet.share ≤ Cs ∧ t.jet.share ≤ C ∧
     t.jet.scale = (if P = 0 then 1000 else t.jet.share * 1000 / P) ∧ t.jet.scale ≤ 1000) ∧
    (∀ i : Counter, (s.mon.counters[i]).kind = some .budgetScaled →
      t.mon.counters[i] =
        if t.jet.scale < 1000 ∧ s.jet.scale = 1000 then
          (s.mon.counters[i]).count
            { kind := .budgetScaled, time := s.clock.showTime, cueId := none, object := none }
        else s.mon.counters[i]) ∧
    (∀ c : Channel, (s.store.config.channels[c]).present = true → (t.jet.chans[c]).starved = false →
      (t.jet.chans[c]).nt = (t.jet.chans[c]).n * t.jet.scale / 1000)) ∧
  State.reset.jet.scale = 1000 ∧ State.reset.jet.share = 0

/-- R100, R101, R102, R107: the figures of a present channel, and their hand-off to its pump. -/
def Obligations.TargetsOfThePass : Prop :=
  ∀ (s : State) (pflt : BitVec 4) (c : Channel), s.operating = true → (s.store.config.channels[c]).present = true →
    ∃ t, exec (.jetComputationPass pflt) s = .next t ∧
      (let g := s.store.config.channels[c]
       let entry := (s.passTable)[c]
       let H := (entry.map fun e => e.height).getD 0
       let E := s.openSetOf ((entry.map fun e => e.openSet).getD 0)
       let j := t.jet.chans[c]
       let idle := H = 0 ∨ countBits E = 0 ∨ s.latchedAt c = true
       let scaled := j.n * t.jet.scale / 1000
       j.openSet = E ∧ j.hd = min H (s.store.config.leastHmax c) * s.jet.derate / 1000 ∧
       (idle → j.n = 0 ∧ j.f = 0 ∧ j.nt = 0) ∧
       (¬ idle → j.n = min (isqrt (j.hd * 1000000 / g.hfull)) g.nmax ∧
         j.f = g.qfull * j.n * countBits E / (1000 * s.store.config.nc c)) ∧
       j.nt = (if 0 < scaled ∧ scaled < g.nmin then 0 else scaled) ∧
       j.fs = (if j.nt = 0 then 0 else j.f * t.jet.scale / 1000) ∧
       (t.pump.pumps[c]).nt = j.nt ∧ (t.pump.pumps[c]).openSet = E ∧ (t.pump.pumps[c]).hd = j.hd ∧
       (t.pump.pumps[c]).fs = j.fs)

/-- R97 to R99: the raw wind of an edge and of calm, the filter, and the derate with its pass. -/
def Obligations.WindBecomesDerate : Prop :=
  (∀ s : State, s.operating = true → s.store.config.anemometer = true → ∃ t, exec .windEdge s = .next t ∧
    t = { s with jet := { s.jet with windEdge := some s.localTimer, rawWind := t.jet.rawWind } } ∧
    (∀ t0, s.jet.windEdge = some t0 → t.jet.rawWind = min 600 (s.store.config.windK / max 1 (s.localTimer - t0))) ∧
    (s.jet.windEdge = none → t.jet.rawWind = s.jet.rawWind)) ∧
  (∀ (s : State) (t0 : Nat), s.jet.windEdge = some t0 → ∃ t, exec .windCalmTimeout s = .next t ∧
    t = { s.passTo (t0 + 2000000) with jet := { s.jet with rawWind := 0, windEdge := none } }) ∧
  (∀ (s : State) (t0 : Nat), s.jet.windFilter = some t0 → s.store.config.wLo < s.store.config.wHi →
    ∃ t, exec .windFilterPeriod s = .next t ∧ t.jet.windFilter = some (t0 + 100000) ∧
      t.jet.wf = (if s.jet.wf ≤ s.effectiveWind then s.effectiveWind else s.jet.wf - 1) ∧
      (let g := s.store.config
       (t.jet.wf ≤ g.wLo → t.jet.derate = 1000) ∧ (g.wHi ≤ t.jet.wf → t.jet.derate = g.dFloor) ∧
       (g.wLo < t.jet.wf → t.jet.wf < g.wHi →
         t.jet.derate = 1000 - (1000 - g.dFloor) * (t.jet.wf - g.wLo) / (g.wHi - g.wLo))) ∧
      t.jet.passDue = (s.jet.passDue || (s.operating && t.jet.derate != s.jet.derate)))

/-! ### Pumps, valves and nozzles (08) -/

/-- R116 to R118: at a pump control period a STARTING pump whose check is passed enters RUNNING, a RUNNING pump ramps toward
its goal and a STOPPING one toward its stop at nmin.
(The pump runs in rehearsal, or has no low-flow run that could end in a trip.) -/
def Obligations.PumpsRamp : Prop :=
  ∀ (s : State) (c : Channel) (t0 : Nat), s.pump.period = some t0 → s.steady →
    (s.store.config.channels[c]).present = true →
    ∃ t, exec .pumpControlPeriod s = .next t ∧ t.pump.period = some (t0 + 20000) ∧
      (let g := s.store.config.channels[c]
       let p := s.pump.pumps[c]
       let p' := t.pump.pumps[c]
       (p.state = .starting → s.ctl.rehearsal = false → p.startTimer.isSome = true →
         g.qfull * g.nmin / 1000 ≤ p.flow * 10 →
         p'.state = .running ∧ p'.output = p.output ∧ p'.startTimer = none) ∧
       (p.state = .running → s.ctl.rehearsal = true ∨ p.lowSince = none →
         p'.state = .running ∧ p'.goal = p.goal ∧
         (p.output ≤ p.goal → p'.output = min p.goal (p.output + g.rampUp)) ∧
         (p.goal ≤ p.output → p'.output = max p.goal (p.output - g.rampDown))) ∧
       (p.state = .stopping → p.output ≤ g.nmin → p'.state = .stopped ∧ p'.output = 0 ∧ p'.valves = 0) ∧
       (p.state = .stopping → g.nmin < p.output →
         p'.state = .stopping ∧ p'.output = max g.nmin (p.output - g.rampDown)) ∧
       (p.state = .stopped ∨ p.state = .tripped → p' = p))

/-- R116, R120, R121: a start timer that runs out and a drive fault trip the pump: output 0, its valves closed, the event
with its cause; the first trip of a show run waits 2,000 ms, a further one latches.
R119: at a pump control period a RUNNING pump with an open valve whose flow is below half the flow expected at its ramped
output begins a low-flow run, and trips with FLOW LOST when the run is 1,000 ms old; any other finding ends the run.  That
the ramp of the period comes first, so that the flow is held against the output after it, is the model's reading
(notes/assumptions/19.md).  (No other pump is RUNNING, so no other can trip in the same step.) -/
def Obligations.TripsStopThePump : Prop :=
  (∀ (s : State) (c : Channel) (i : Instr) (u : State) (cause : TripCause), s.steady →
     (i = .startTimerExpiry c ∧ cause = .noFlow ∧ (s.pump.pumps[c]).state = .starting ∧
       (∃ t0, (s.pump.pumps[c]).startTimer = some t0 ∧ u = s.passTo t0)) ∨
     (i = .driveFault c ∧ cause = .driveFault ∧ u = s ∧ s.operating = true ∧
       (s.store.config.channels[c]).present = true ∧ s.ctl.rehearsal = false ∧
       ((s.pump.pumps[c]).state = .starting ∨ (s.pump.pumps[c]).state = .running ∨
         (s.pump.pumps[c]).state = .stopping)) →
     ∃ t, exec i s = .next t ∧
       (let p := s.pump.pumps[c]
        let p' := t.pump.pumps[c]
        p'.state = .tripped ∧ p'.output = 0 ∧ p'.valves = 0 ∧ p'.trips = p.trips + 1 ∧ p'.startTimer = none ∧
        (p.trips = 0 → p'.latched = false ∧ p'.holdOff = some (u.localTimer + 2000000)) ∧
        (1 ≤ p.trips → p'.latched = true ∧ p'.holdOff = none ∧ p'.goal = 0) ∧
        (∀ z : Nozzle, (s.store.config.nozzles[z]).channel = c.val → (t.pump.nozzles[z]).command = false) ∧
        (∀ d : Channel, d ≠ c → (t.pump.pumps[d]).state = (s.pump.pumps[d]).state ∧
          (t.pump.pumps[d]).output = (s.pump.pumps[d]).output) ∧
        t.mon = s.mon.count
          { kind := .pumpTrip, time := u.clock.showTime, cueId := none, object := some (c.val + 4 * cause.number) })) ∧
  (∀ (s : State) (c : Channel) (t0 : Nat), s.pump.period = some t0 → s.steady →
    (s.store.config.channels[c]).present = true → s.ctl.rehearsal = false →
    (s.pump.pumps[c]).state = .running → (∀ d : Channel, d ≠ c → (s.pump.pumps[d]).state ≠ .running) →
    ∃ t, exec .pumpControlPeriod s = .next t ∧
      (let u := s.passTo t0
       let g := s.store.config.channels[c]
       let p := s.pump.pumps[c]
       let p' := t.pump.pumps[c]
       let output := if p.output ≤ p.goal then min p.goal (p.output + g.rampUp) else max p.goal (p.output - g.rampDown)
       let expected := g.qfull * output * countBits p.openSet / (1000 * s.store.config.nc c)
       let low := (∃ z ∈ s.store.config.nozzlesOf c, (s.pump.nozzles[z]).command = true) ∧ p.flow * 20 < expected
       (¬ low → p'.state = .running ∧ p'.output = output ∧ p'.lowSince = none ∧ t.mon = s.mon) ∧
       (low → p.lowSince = none →
         p'.state = .running ∧ p'.output = output ∧ p'.lowSince = some u.localTimer ∧ t.mon = s.mon) ∧
       (∀ l, low → p.lowSince = some l → u.localTimer < l + 1000000 →
         p'.state = .running ∧ p'.output = output ∧ p'.lowSince = some l ∧ t.mon = s.mon) ∧
       (∀ l, low → p.lowSince = some l → l + 1000000 ≤ u.localTimer →
         p'.state = .tripped ∧ p'.output = 0 ∧ p'.valves = 0 ∧ p'.trips = p.trips + 1 ∧ p'.lowSince = none ∧
         (p.trips = 0 → p'.latched = false ∧ p'.holdOff = some (u.localTimer + 2000000)) ∧
         (1 ≤ p.trips → p'.latched = true ∧ p'.holdOff = none ∧ p'.goal = 0) ∧
         (∀ z : Nozzle, (s.store.config.nozzles[z]).channel = c.val → (t.pump.nozzles[z]).command = false) ∧
         t.mon = s.mon.count
           { kind := .pumpTrip, time := u.clock.showTime, cueId := none, object := some (c.val + 4) })))

/-- R121, R115, R120: after its hold-off a pump stands STOPPED, or starts again at nmin when its goal is above 0; a drive
that still asserts its fault trips it at that entry. -/
def Obligations.HoldOffRestartsThePump : Prop :=
  ∀ (s : State) (c : Channel) (pflt : Bool) (t0 : Nat), s.steady → (s.pump.pumps[c]).holdOff = some t0 →
    (s.pump.pumps[c]).state = .tripped → (s.pump.pumps[c]).latched = false →
    ∃ t, exec (.holdOffExpiry c pflt) s = .next t ∧
      (let p := s.pump.pumps[c]
       let p' := t.pump.pumps[c]
       (p.goal = 0 → p'.state = .stopped ∧ p'.holdOff = none ∧ p'.output = p.output ∧ t.mon = s.mon) ∧
       (0 < p.goal → s.ctl.rehearsal = true ∨ pflt = false →
         p'.state = .starting ∧ p'.holdOff = none ∧ p'.output = (s.store.config.channels[c]).nmin ∧
         p'.valves = p.openSet ∧ t.mon = s.mon) ∧
       (0 < p.goal → s.ctl.rehearsal = false → pflt = true →
         p'.state = .tripped ∧ p'.output = 0 ∧ p'.valves = 0 ∧ p'.trips = p.trips + 1 ∧
         t.mon = s.mon.count
           { kind := .pumpTrip, time := (s.passTo t0).clock.showTime, cueId := none, object := some (c.val + 8) }))

/-- R122, R124, R125: the flow of an edge and of silence; the end of a pull-in, of a climb and of a fall, and the lamps that
hang on the nozzle. -/
def Obligations.FlowAndNozzlesFollowTheWater : Prop :=
  (∀ (s : State) (c : Channel), s.operating = true → (s.store.config.channels[c]).present = true →
    s.ctl.rehearsal = false → ∃ t, exec (.flowEdge c) s = .next t ∧
      (∀ t0, (s.pump.pumps[c]).flowEdge = some t0 →
        t = s.setPump c { s.pump.pumps[c] with
          flowEdge := some s.localTimer
          flow := min 65535 ((s.store.config.channels[c]).kf / max 1 (s.localTimer - t0)) }) ∧
      ((s.pump.pumps[c]).flowEdge = none →
        t = s.setPump c { s.pump.pumps[c] with flowEdge := some s.localTimer })) ∧
  (∀ (s : State) (c : Channel) (t0 : Nat), (s.pump.pumps[c]).flowEdge = some t0 →
    ∃ t, exec (.flowSilenceTimeout c) s = .next t ∧
      t = (s.passTo (t0 + 1000000)).setPump c { s.pump.pumps[c] with flow := 0, flowEdge := none }) ∧
  (∀ (s : State) (z : Nozzle) (t0 : Nat), (s.pump.nozzles[z]).drive = .pullIn t0 →
    ∃ t, exec (.valvePullInEnd z) s = .next t ∧
      t = (s.passTo t0).setNozzle z { s.pump.nozzles[z] with drive := .hold (s.passTo t0).localTimer }) ∧
  (∀ (s : State) (z : Nozzle) (t0 : Nat), (s.pump.nozzles[z]).state = .rising → (s.pumpOf z).settle = some t0 →
    ∃ t, exec (.nozzleClimbComplete z) s = .next t ∧
      t.localTimer =
        (s.passTo (max (s.pump.nozzles[z]).openedAt t0 + isqrt ((s.pumpOf z).hd * 2039) * 1000)).localTimer ∧
      t.pump = { s.pump with nozzles := s.pump.nozzles.set z { s.pump.nozzles[z] with state := .wet } } ∧
      (t.operating = true → ∀ f : Fixture, t.lights.working[f] = (t.outputLevel f).duties)) ∧
  (∀ (s : State) (z : Nozzle), (s.pump.nozzles[z]).state = .falling →
    ∃ t, exec (.nozzleFallComplete z) s = .next t ∧
      t.localTimer = (s.passTo ((s.pump.nozzles[z]).closedAt +
        isqrt ((s.pump.nozzles[z]).fallHeight * 2039) * 1000)).localTimer ∧
      t.pump = { s.pump with nozzles := s.pump.nozzles.set z { s.pump.nozzles[z] with state := .dry } } ∧
      (t.operating = true → ∀ f : Fixture, t.lights.working[f] = (t.outputLevel f).duties))

/-! ### Swivel heads (09) -/

/-- R132, R140: the end of a home interval: home found, another step down, or HOME FAIL with the head's nozzles OUT.  (No
START is held, so no show run begins in the same step.)  That no pending target stands once home is found is the model's
reading (notes/assumptions/14.md). -/
def Obligations.SeekFindsHomeOrFails : Prop :=
  ∀ (s : State) (h : Head) (hhom : Bool) (t0 : Nat), (s.head.heads[h]).state = .homing →
    (s.head.heads[h]).timer = some t0 → s.ctl.held = none →
    ∃ t, exec (.homeIntervalExpiry h hhom) s = .next t ∧
      (let r := s.head.heads[h]
       let r' := t.head.heads[h]
       let g := s.store.config.heads[h]
       (hhom = true → r'.encoder = 0 ∧ r'.target = some r.homing ∧ r'.pending = none ∧
         (r.homing.step = 0 → r'.state = .verifying ∧ r'.position = some 0) ∧
         (0 < r.homing.step → g.ratio ≤ 4 * g.tolerance → r'.state = .moving ∧ r'.position = some 1)) ∧
       (hhom = false → r.seekSteps < g.range + g.range / 8 →
         r'.state = .homing ∧ r'.seekSteps = r.seekSteps + 1 ∧
         r'.timer = some ((s.passTo t0).localTimer + g.homeInterval)) ∧
       (hhom = false → g.range + g.range / 8 ≤ r.seekSteps →
         r'.state = .fault ∧ r'.position = none ∧
         (∀ z ∈ s.store.config.swivelsOf h, (t.pump.nozzles[z]).state = .out ∧ (t.pump.nozzles[z]).faultOut = true) ∧
         t.mon = s.mon.count
           { kind := .headFault, time := (s.passTo t0).clock.showTime, cueId := none, object := some h.val }))

/-- R131, R135, R136: the end of a step interval and of a reversal pause. -/
def Obligations.MovesStepAndReverse : Prop :=
  (∀ (s : State) (h : Head) (t0 p : Nat) (g : Target), (s.head.heads[h]).state = .moving →
    (s.head.heads[h]).timer = some t0 → (s.head.heads[h]).position = some p → (s.head.heads[h]).target = some g →
    ∃ t, exec (.stepIntervalExpiry h) s = .next t ∧
      (let r := s.head.heads[h]
       let r' := t.head.heads[h]
       let now := (s.passTo t0).localTimer
       r'.encoder = r.encoder ∧ r'.target = r.target ∧
       (p = g.step → r'.state = .verifying ∧ r'.position = some p ∧
         r'.timer = some (now + (s.store.config.heads[h]).settle * 1000)) ∧
       (p < g.step → r.direction = some .up → r'.position = some (p + 1)) ∧
       (g.step < p → r.direction = some .down → r'.position = some (p - 1)) ∧
       (p < g.step → r.direction = some .down →
         r'.state = .reversing ∧ r'.position = some p ∧ r'.timer = some (now + 40000)) ∧
       (g.step < p → r.direction = some .up →
         r'.state = .reversing ∧ r'.position = some p ∧ r'.timer = some (now + 40000)))) ∧
  (∀ (s : State) (h : Head) (t0 p : Nat) (g : Target), (s.head.heads[h]).state = .reversing →
    (s.head.heads[h]).timer = some t0 → (s.head.heads[h]).position = some p → (s.head.heads[h]).target = some g →
    ∃ t, exec (.reversalPauseEnd h) s = .next t ∧
      (let r' := t.head.heads[h]
       (p = g.step → r'.state = .verifying ∧ r'.position = some p) ∧
       (p < g.step → r'.direction = some .up ∧ r'.position = some (p + 1)) ∧
       (g.step < p → r'.direction = some .down ∧ r'.position = some (p - 1))))

/-- R133, R137, R138, R140: the verification at the end of a settle pause: SETTLED with the fault marks cleared, which
after a re-home of the ladder is the model's reading of R133 (DEDUCED, notes/assumptions/44.md); a HEAD RETRY from the
position corrected to the encoder step, clamped to the range; at the third failure the re-home toward the retry target,
with home found at once where the switch is asserted; or FAULT after the re-home has failed as well. R142, R123: at the
re-home's HOMING entry the head's swivel nozzles lose their permits, also where home found at once gives them back, so
that their valves close and a pass is asked for. A target that came during the pause is taken after a pass, and is the
retry target after a failure. (No START is held, so no show run begins in the same step.) That a head which seeks home has
no target is the model's choice (notes/assumptions/48.md). -/
def Obligations.VerificationLadder : Prop :=
  (∀ (s : State) (h : Head) (hhom : Bool) (t0 p : Nat) (g : Target), (s.head.heads[h]).state = .verifying →
    (s.head.heads[h]).timer = some t0 → (s.head.heads[h]).position = some p → (s.head.heads[h]).target = some g →
    (s.head.heads[h]).pending = none → s.ctl.held = none →
    ∃ t, exec (.settlePauseEnd h hhom) s = .next t ∧
      (let r := s.head.heads[h]
       let r' := t.head.heads[h]
       let c := s.store.config.heads[h]
       let now := (s.passTo t0).localTimer
       let off := (r.encoder - (p * c.ratio : Nat)).natAbs
       let corrected := (max 0 (min ((c.range : Int) - 1) (Int.fdiv r.encoder c.ratio))).toNat
       let event (kind : EventKind) (id : Option Nat) (object : Nat) : Monitor :=
         s.mon.count { kind := kind, time := (s.passTo t0).clock.showTime, cueId := id, object := some object }
       let stepped (at_ : Nat) (d : Direction) : Prop :=
         r'.position = some at_ ∧ r'.direction = some d ∧ r'.target = some g ∧
         (r'.state = if 4 * c.tolerance < (r'.encoder - (at_ * c.ratio : Nat)).natAbs then .verifying else .moving)
       (off ≤ c.tolerance →
         r'.state = .settled ∧ r'.position = some p ∧ r'.target = none ∧ r'.failures = 0 ∧ r'.rehomed = false ∧
         r'.marks = false ∧ t.mon = s.mon ∧
         (r.marks = true → ∀ z ∈ s.store.config.swivelsOf h, (t.pump.nozzles[z]).faultOut = false)) ∧
       (c.tolerance < off → r.failures < 2 →
         r'.failures = r.failures + 1 ∧ r'.target = some g ∧ r'.rehomed = r.rehomed ∧ r'.encoder = r.encoder ∧
         t.mon = event .headRetry g.cueId h.val ∧
         (corrected = g.step → r'.state = .verifying ∧ r'.position = some corrected ∧
           r'.timer = some (now + c.settle * 1000)) ∧
         (corrected < g.step → stepped (corrected + 1) .up) ∧ (g.step < corrected → stepped (corrected - 1) .down)) ∧
       (c.tolerance < off → 2 ≤ r.failures → r.rehomed = false →
         r'.rehomed = true ∧ r'.failures = 0 ∧ r'.homing = g ∧ t.mon = event .headRetry g.cueId h.val ∧
         (hhom = false → r'.state = .homing ∧ r'.position = none ∧ r'.target = none ∧ r'.encoder = r.encoder ∧
           r'.direction = some .down ∧ r'.seekSteps = 1 ∧ r'.timer = some (now + c.homeInterval)) ∧
         (hhom = true → r'.encoder = 0 ∧ r'.target = some g ∧
           (g.step = 0 → r'.state = .verifying ∧ r'.position = some 0 ∧ r'.timer = some (now + c.settle * 1000)) ∧
           (0 < g.step → stepped 1 .up)) ∧
         ∀ z ∈ s.store.config.swivelsOf h, s.head.permits[z] = true →
           (s.operating = true → t.jet.passDue = true) ∧ (t.pumpOf z).valves.getLsbD z.val = false ∧ (t.pump.nozzles[z]).command = false ∧
           (hhom = false → t.head.permits[z] = false)) ∧
       (c.tolerance < off → 2 ≤ r.failures → r.rehomed = true →
         r'.state = .fault ∧ r'.position = none ∧ r'.target = none ∧ t.mon = event .headFault none (h.val + 8) ∧
         ∀ z ∈ s.store.config.swivelsOf h, (t.pump.nozzles[z]).state = .out ∧ (t.pump.nozzles[z]).faultOut = true))) ∧
  (∀ (s : State) (h : Head) (hhom : Bool) (t0 p : Nat) (g : Target), (s.head.heads[h]).state = .verifying →
    (s.head.heads[h]).timer = some t0 → (s.head.heads[h]).position = some p →
    (s.head.heads[h]).pending = some g → s.ctl.held = none →
    ∃ t, exec (.settlePauseEnd h hhom) s = .next t ∧
      (let r := s.head.heads[h]
       let r' := t.head.heads[h]
       let c := s.store.config.heads[h]
       let off := (r.encoder - (p * c.ratio : Nat)).natAbs
       r'.pending = none ∧
       (off ≤ c.tolerance → r'.failures = 0 ∧ r'.rehomed = false ∧ t.mon = s.mon ∧
         (p = g.step → r'.state = .settled ∧ r'.target = none ∧ r'.position = some p) ∧
         (p < g.step → r'.target = some g ∧ r'.position = some (p + 1) ∧ r'.direction = some .up) ∧
         (g.step < p → r'.target = some g ∧ r'.position = some (p - 1) ∧ r'.direction = some .down)) ∧
       (c.tolerance < off → r.failures < 2 → r'.target = some g ∧ r'.failures = r.failures + 1 ∧
         t.mon = s.mon.count
           { kind := .headRetry, time := (s.passTo t0).clock.showTime, cueId := g.cueId, object := some h.val })))

/-- R131, R142: an encoder edge counts one up or one down round the order of the levels, and the permits stand as their
rule says. -/
def Obligations.EncoderCountsEdges : Prop :=
  ∀ (s : State) (h : Head) (a b : Bool), s.operating = true → (s.store.config.heads[h]).present = true →
    ∃ t, exec (.encoderEdge h a b) s = .next t ∧
      t.inputs.hena.getLsbD h.val = a ∧ t.inputs.henb.getLsbD h.val = b ∧
      (let was := (s.inputs.hena.getLsbD h.val, s.inputs.henb.getLsbD h.val)
       let up := (was = (false, false) ∧ (a, b) = (true, false)) ∨ (was = (true, false) ∧ (a, b) = (true, true)) ∨
         (was = (true, true) ∧ (a, b) = (false, true)) ∨ (was = (false, true) ∧ (a, b) = (false, false))
       let down := (was = (true, false) ∧ (a, b) = (false, false)) ∨ (was = (true, true) ∧ (a, b) = (true, false)) ∨
         (was = (false, true) ∧ (a, b) = (true, true)) ∨ (was = (false, false) ∧ (a, b) = (false, true))
       (up → (t.head.heads[h]).encoder = (s.head.heads[h]).encoder + 1) ∧
       (down → (t.head.heads[h]).encoder = (s.head.heads[h]).encoder - 1) ∧
       (¬ up → ¬ down → t.head = s.head) ∧
       (up ∨ down → ∀ z : Nozzle, t.head.permits[z] = t.permitOf z)) ∧
      (∀ k : Head, k ≠ h → t.head.heads[k] = s.head.heads[k])

/-- R141: at a new leg a sweeping head takes that leg's position as its target. -/
def Obligations.SweepTakesTheNewLeg : Prop :=
  ∀ (s : State) (h : Head) (w : Sweep), (s.head.heads[h]).sweep = some w →
    let u := if s.legIndex w.beats = w.leg then s.passShowTo (s.nextLegAt w) else s
    let leg := u.legIndex w.beats
    let goal : Target :=
      { step := if (leg - w.anchor) % 2 = 0 then w.anchorPos else if w.anchorPos = w.a then w.b else w.a
        cueId := some w.cueId }
    leg ≠ w.leg →
    ∃ t, exec (.sweepLegBoundary h) s = .next t ∧ (t.head.heads[h]).sweep = some { w with leg := leg } ∧
      ((s.head.heads[h]).state = .moving ∨ (s.head.heads[h]).state = .reversing →
        (t.head.heads[h]).target = some goal) ∧
      ((s.head.heads[h]).state = .verifying → (t.head.heads[h]).pending = some goal) ∧
      ((s.head.heads[h]).state = .settled → (s.head.heads[h]).position ≠ some goal.step →
        (t.head.heads[h]).target = some goal) ∧
      (∀ k : Head, k ≠ h → t.head.heads[k] = s.head.heads[k])

/-! ### Lighting (10) -/

/-- R147, R149: a light step advances every fade of a present fixture.  R151: a fixture in a chase whose beat group has
changed begins the fade to its next colour, from the level that the first stage left; one whose group stands only fades.
That a group crossed before the entry to HOLD steps the chase in HOLD is the model's reading (notes/assumptions/49.md).
R154: the run-out is reported when every present fixture in it has a complete fade.  (No load is under way that could
complete, and in ENDING the audio run-out is still to come, so the show state stays.) -/
def Obligations.LightStepAdvancesFades : Prop :=
  ∀ (s : State) (t0 : Nat), s.lights.lightTimer = some t0 → s.ctl.state ≠ .loading →
    (s.ctl.state = .ending → s.ctl.audioRunOut = false) →
    ∃ t, exec .lightStep s = .next t ∧ t.lights.lightTimer = some (t0 + 10000) ∧
      (∀ f : Fixture, (s.store.config.fixtures[f]).present = true →
        (let r := s.lights.fixtures[f]
         let r' := t.lights.fixtures[f]
         let e := min (r.elapsed + 10) r.fadeLen
         let level (a b : Nat) : Nat := ((a : Int) + Int.tdiv (((b : Int) - a) * e) r.fadeLen).toNat
         let advanced : Colour :=
           if r.fadeLen ≤ r.elapsed then r.current
           else if e = r.fadeLen then r.target
           else
             { r := level r.start.r r.target.r, g := level r.start.g r.target.g
               b := level r.start.b r.target.b, w := level r.start.w r.target.w }
         let beat := Int.fdiv (Int.fdiv (s.passTo t0).clock.showTime 1000 - s.seq.sectionStart) s.seq.beatLen
         (r.pattern = none ∨ (∃ p, r.pattern = some p ∧ Int.fdiv beat p.divisor = p.group) →
           r'.current = advanced ∧ r'.elapsed = (if r.fadeLen ≤ r.elapsed then r.elapsed else e) ∧
           r'.start = r.start ∧ r'.target = r.target ∧ r'.fadeLen = r.fadeLen ∧ r'.pattern = r.pattern) ∧
         (∀ p, r.pattern = some p → Int.fdiv beat p.divisor ≠ p.group →
           (let i := if p.index + 1 < p.colours.length then p.index + 1 else 0
            r'.pattern = some { p with index := i, group := Int.fdiv beat p.divisor } ∧
            r'.start = advanced ∧ r'.target = p.colours.getD i {} ∧ r'.fadeLen = p.stepFade ∧ r'.elapsed = 0 ∧
            r'.current = (if p.stepFade = 0 then p.colours.getD i {} else advanced))))) ∧
      (let inRunOut (f : Fixture) : Prop :=
         (s.store.config.fixtures[f]).present = true ∧ (s.lights.fixtures[f]).ending = true
       ((∃ f, inRunOut f) →
         (∀ f, inRunOut f → (s.lights.fixtures[f]).pattern = none ∧
           (s.lights.fixtures[f]).fadeLen ≤ (s.lights.fixtures[f]).elapsed + 10) →
         t.ctl = { s.ctl with lightRunOut := true } ∧ ∀ f : Fixture, (t.lights.fixtures[f]).ending = false) ∧
       ((∃ f, inRunOut f ∧ (s.lights.fixtures[f]).pattern = none ∧
           (s.lights.fixtures[f]).elapsed + 10 < (s.lights.fixtures[f]).fadeLen) ∨ (∀ f, ¬ inRunOut f) →
         t.ctl = s.ctl))

/-- R145, R150, R152: every working duty is floor(L × L × 4,096 ÷ 65,025) of the channel's output level L; a submerged fixture
has duty 0 while LOWLVL is asserted, at its assertion and at every light step; its release works the gating afresh; a PWM
rollover takes the working duties over. -/
def Obligations.DutiesFollowLevelsAndGating : Prop :=
  (∀ (s : State) (t0 : Nat), s.operating = true → s.lights.lightTimer = some t0 → s.ctl.held = none →
    ∃ t, exec .lightStep s = .next t ∧ ∀ f : Fixture,
      (t.lights.working[f]).r = (t.outputLevel f).r * (t.outputLevel f).r * 4096 / 65025 ∧
      (t.lights.working[f]).g = (t.outputLevel f).g * (t.outputLevel f).g * 4096 / 65025 ∧
      (t.lights.working[f]).b = (t.outputLevel f).b * (t.outputLevel f).b * 4096 / 65025 ∧
      (t.lights.working[f]).w = (t.outputLevel f).w * (t.outputLevel f).w * 4096 / 65025 ∧
      ((s.store.config.fixtures[f]).submerged = true → s.inputs.lowlvl = true →
        t.lights.working[f] = { r := 0, g := 0, b := 0, w := 0 })) ∧
  (∀ s : State, s.operating = true → ∃ t, exec .lowLevelAsserted s = .next t ∧ t.inputs.lowlvl = true ∧
    ∀ f : Fixture, (s.store.config.fixtures[f]).submerged = true →
      t.lights.working[f] = { r := 0, g := 0, b := 0, w := 0 }) ∧
  (∀ l : Nat, 1 ≤ l → l ≤ 3 → gamma l = 0) ∧ gamma 255 = 4096 ∧ (∀ l : Nat, l ≤ 255 → gamma l ≤ 4096) ∧
  (∀ s : State, s.operating = true → ∃ t, exec .lowLevelReleased s = .next t ∧ t.inputs.lowlvl = false ∧
    t = { s with inputs := t.inputs, lights := { s.lights with working := t.lights.working } } ∧
    ∀ f : Fixture, t.lights.working[f] = (t.outputLevel f).duties ∧
      ((s.store.config.fixtures[f]).present = true → s.ctl.state = .safe → (s.store.config.fixtures[f]).role = 1 →
        t.outputLevel f = { w := s.store.config.safeWhite }) ∧
      ((s.store.config.fixtures[f]).role = 0 →
        (s.boundNozzle s.store.config.fixtures[f] = .dry ∨ s.boundNozzle s.store.config.fixtures[f] = .out) →
        t.outputLevel f = {})) ∧
  (∀ (s : State) (t0 : Nat), s.lights.pwmTimer = some t0 → ∃ t, exec .lampPwmRollover s = .next t ∧
    t = { s.passTo t0 with lights := { s.lights with holding := s.lights.working, pwmTimer := some (t0 + 1000) } })

/-! ### Music (11) -/

/-- R157, R159, R160: a frame slot sends silence outside emission, which is RUNNING and ENDING until the run-out is complete;
in emission frames below the play index are discarded, and the slot carries the frame that the play index names at the gain,
silence with one UNDERRUN when the FIFO runs dry, silence without an event in a resync or before a later frame, and silence
past the end of the stream or without audio.  In a repeat slot the last frame goes out once more, and nothing else of step 2
is done; and a slot of a section whose zone is absent raises no UNDERRUN, whatever its frame count (both the model's reading,
notes/assumptions/17.md).  (What is said of FIFO and monitor supposes that the filling which follows the slot finds no block
beyond the flash, R67, which would be lost at once.) -/
def Obligations.FrameSlotEmits : Prop :=
  ∀ (s : State) (b : Nat), s.music.slotBase = some b → s.ctl.state ≠ .loading →
    (s.ctl.state = .ending → s.ctl.lightRunOut = false ∨ s.ctl.audioRunOut = false) →
    ∃ t, exec .audioFrameSlot s = .next t ∧ t.music.slots = s.music.slots + 1 ∧
      (let m := s.music
       let m' := t.music
       let emits := s.ctl.state = .running ∨ (s.ctl.state = .ending ∧ m.runOut = true)
       let kept := m.fifo.dropWhile fun f => f.index < m.playIndex
       let sounds := s.hasAudio = true ∧ m.playIndex < s.frameCount
       let noLoss := s.hasAudio = false ∨ s.store.audioReq.isSome = true ∨
         ∀ a k, s.store.entry = some a → s.store.audioPos = some k → (a.frames + 1015) / 1016 ≤ k ∨ a.firstAudio + k ≤ 131071
       let leaves (fifo : List AudioFrame) (mon : Monitor) : Prop := noLoss → m'.fifo = fifo ∧ t.mon = mon
       (¬ emits → m'.lastLeft = 0 ∧ m'.lastRight = 0 ∧ m'.playIndex = m.playIndex ∧
         (s.ctl.state ≠ .armed → s.ctl.state ≠ .countdown → s.ctl.state ≠ .hold → m'.fifo = m.fifo ∧ t.mon = s.mon) ∧
         leaves m.fifo s.mon) ∧
       (emits → m.repeatDue = false → m'.playIndex = m.playIndex + 1 ∧
         (∀ f rest, kept = f :: rest → f.index = m.playIndex → sounds →
           m'.lastLeft = Int.tdiv (f.left * m.gain) 256 ∧ m'.lastRight = Int.tdiv (f.right * m.gain) 256 ∧
           m'.resync = false ∧ m'.underrun = false ∧ leaves rest s.mon) ∧
         (kept = [] → m.resync = false → sounds →
           m'.lastLeft = 0 ∧ m'.lastRight = 0 ∧ m'.resync = false ∧ m'.underrun = true ∧
           leaves [] (if m.underrun = true then s.mon else s.mon.count
             { kind := .underrun, time := (s.passTo (slotAt b (m.slots + 1))).clock.showTime, cueId := none
               object := none })) ∧
         ((kept = [] ∧ m.resync = true) ∨ (∃ f rest, kept = f :: rest ∧ f.index ≠ m.playIndex) → sounds →
           m'.lastLeft = 0 ∧ m'.lastRight = 0 ∧ m'.resync = m.resync ∧ m'.underrun = m.underrun ∧ leaves kept s.mon) ∧
         (¬ sounds →
           m'.lastLeft = 0 ∧ m'.lastRight = 0 ∧ m'.resync = false ∧ m'.underrun = false ∧ leaves kept s.mon)) ∧
       (emits → m.repeatDue = true →
         m'.lastLeft = m.lastLeft ∧ m'.lastRight = m.lastRight ∧ m'.playIndex = m.playIndex ∧
         m'.repeatDue = false ∧ m'.resync = m.resync ∧ m'.underrun = m.underrun ∧ leaves kept s.mon))

/-- R160, R161: a sync check compares the due frame with the play index: nothing, a skip, a repeat, or a resync, which
empties the FIFO, places the reader at the block of the frame 2,048 beyond the due one or at the end of the stream, and
counts AUDIO RESYNC (the blocks of the stream lie within the flash, so that none is lost at once, R67). -/
def Obligations.SyncCheckKeepsStep : Prop :=
  ∀ (s : State) (t0 : Nat), s.music.syncTimer = some t0 → s.ctl.state = .running → s.hasAudio = true →
    0 ≤ (s.passTo t0).clock.showTime →
    ∃ t, exec .syncCheck s = .next t ∧ t.music.syncTimer = some (t0 + 5000) ∧
      (let u := s.passTo t0
       let due := u.clock.showTime.toNat * 4 / 125
       let e : Int := (due : Int) - s.music.playIndex
       let slip (object : Nat) : Monitor :=
         s.mon.count { kind := .audioSlip, time := u.clock.showTime, cueId := none, object := some object }
       (-1 ≤ e → e ≤ 1 → t.music.playIndex = s.music.playIndex ∧ t.music.fifo = s.music.fifo ∧ t.mon = s.mon) ∧
       (2 ≤ e → e ≤ 320 → t.music.playIndex = s.music.playIndex + 1 ∧ t.mon = slip 0) ∧
       (-320 ≤ e → e ≤ -2 → t.music.playIndex = s.music.playIndex ∧ t.music.repeatDue = true ∧ t.mon = slip 1) ∧
       (e < -320 ∨ 320 < e → t.music.playIndex = due ∧ t.music.resync = true ∧ t.music.underrun = false ∧
         ∀ a : ShowSection, s.store.entry = some a → a.firstAudio + (a.frames + 1015) / 1016 ≤ 131072 →
           t.music.fifo = [] ∧
           t.store.audioPos = some (if due + 2048 < a.frames then (due + 2048) / 1016 else (a.frames + 1015) / 1016) ∧
           (t.store.audioReq.map fun q => q.block) =
             (if due + 2048 < a.frames then some (a.firstAudio + (due + 2048) / 1016) else none) ∧
           t.mon = s.mon.count { kind := .audioResync, time := u.clock.showTime, cueId := none, object := none }))

/-- R162, R164: a gain step advances a fade; one that completes with the run-out mark, which stands in ENDING alone, reports
the run-out.  That the fade of a run-out goes on in SAFE is the model's reading (notes/assumptions/50.md).  R13, R14, R41: where that report was the last that ENDING waited for, the station enters IDLE: no show is
selected, queue, table and FIFO are empty, and every LOST peer is ABSENT. -/
def Obligations.GainStepAdvancesTheFade : Prop :=
  (∀ (s : State) (t0 : Nat), s.music.gainTimer = some t0 → s.steady →
     ∃ t, exec .gainStep s = .next t ∧ t.music.gainTimer = some (t0 + 10000) ∧
       (let m := s.music
        let e := min (m.elapsed + 10) m.fadeLen
        (m.fadeLen ≤ m.elapsed → t.music.gain = m.gain ∧ t.ctl = s.ctl) ∧
        (m.elapsed < m.fadeLen → t.music.elapsed = e ∧
          (e < m.fadeLen → t.ctl = s.ctl ∧
            t.music.gain = ((m.startGain : Int) + Int.tdiv (((m.targetGain : Int) - m.startGain) * e) m.fadeLen).toNat) ∧
          (e = m.fadeLen → t.music.gain = m.targetGain ∧ t.music.runOut = false ∧
            t.ctl = { s.ctl with audioRunOut := s.ctl.audioRunOut || m.runOut })))) ∧
  (∀ (s : State) (t0 : Nat), s.music.gainTimer = some t0 → s.ctl.state = .ending → s.ctl.lightRunOut = true →
    s.music.runOut = true → s.music.elapsed < s.music.fadeLen → s.music.fadeLen ≤ s.music.elapsed + 10 →
    (∀ c : Channel, (s.pump.pumps[c]).state = .stopped ∨ (s.pump.pumps[c]).state = .tripped) →
    (∀ h : Head, (s.head.heads[h]).state ≠ .moving ∧ (s.head.heads[h]).state ≠ .reversing ∧
      (s.head.heads[h]).state ≠ .verifying) →
    ∃ t, exec .gainStep s = .next t ∧ t.ctl.state = .idle ∧ t.ctl.selected = 0 ∧
      t.ctl.endingCause = s.ctl.endingCause ∧ t.seq.queue = [] ∧ t.seq.table = Vector.replicate 4 none ∧
      t.music.fifo = [] ∧ t.music.playIndex = 0 ∧ t.music.runOut = false ∧ t.store.entry = none ∧
      t.lights.fixtures = Vector.replicate 12 {} ∧ t.head.heads = s.head.heads ∧ t.mon = s.mon ∧
      t.clock.showTime = (s.passTo t0).clock.showTime ∧
      (∀ c : Channel, (t.pump.pumps[c]).state = .stopped ∧ (t.pump.pumps[c]).trips = 0 ∧
        (t.pump.pumps[c]).latched = false) ∧
      (∀ k : Peer, (t.peers.entries[k]).offset = none ∧ (t.peers.entries[k]).alert = (s.peers.entries[k]).alert ∧
        (t.peers.entries[k]).fresh =
          (if (s.peers.entries[k]).fresh = .lost then .absent else (s.peers.entries[k]).fresh)))

/-! ### The line's encoding (02, 13) -/

/-- Every command that has a spelling on the line is read back from its frame, with every operand, by the receive checks of
R26 and the layouts of R171. -/
def Obligations.FrameDecodesToItsCommand : Prop :=
  ∀ (c : Instr) (a : Arrival) (f : LineFrame), c.wf = true → commandFrame c = some f →
    decodeFrame a f.bytes =
      match c with
      | .paceReceived sender p _ => .paceReceived sender p a.rx
      | .alertReceived sender cause _ => .alertReceived sender cause a.rx
      | .start n delay _ => .start n delay a.rx
      | .select n _ => .select n a.hhom
      | .resume _ => .resume a.pflt
      | .clear _ => .clear a.estop
      | other => other

/-- R22 to R25: the receiver takes from the line the very bytes that a transmitter put on it, at the end of their last stop
bit, with the pair latched at the falling edge that began the frame; the line has then been idle since the last rising edge, where
the 1s before the frame's end begin (R31); and the edges it hears: a falling edge latches show
time and local timer and ends the idle line, a rise begins it, the twelfth bit time of a low level is a start mark, and
while the own driver is on nothing is latched.  After a mark that was too long the receiver hunts again once the line has
been idle for 50 µs. -/
def Obligations.WaveCarriesTheFrame : Prop :=
  (∀ (f : LineFrame) (l : Line) (now : Rx), f.payload.length ≤ 80 → l.receiver = .hunting → l.lowRun = 0 →
    (l.hearWave now (frameWave f.bytes)).2 =
      List.replicate (14 + 10 * f.bytes.length) RxEvent.nothing ++ [RxEvent.frame now f.bytes] ∧
    (l.hearWave now (frameWave f.bytes)).1.quietSince =
      some (now.moment + (15 + 10 * f.bytes.length - endHighs f.bytes))) ∧
  (∀ (bytes : List Byte) (last : Byte),
    (∀ i, i < endHighs (bytes ++ [last]) → (frameWave (bytes ++ [last])).reverse[i]? = some true) ∧
    (frameWave (bytes ++ [last])).reverse[endHighs (bytes ++ [last])]? = some false) ∧
  (∀ (l : Line) (now : Rx), l.receiver ≠ .off →
    (let low := l.edge now false
     let high := l.edge now true
     low.quietSince = none ∧ low.lowRun = l.lowRun + 1 ∧ (l.lowRun = 0 → low.latch = now) ∧
     (0 < l.lowRun → low.latch = l.latch) ∧ high.lowRun = 0 ∧ high.latch = l.latch ∧
     (l.quietSince = none → high.quietSince = some now.moment) ∧
     (∀ q, l.quietSince = some q → high.quietSince = some q))) ∧
  (∀ (l : Line) (now : Rx) (level : Bool), l.receiver = .off →
    (let t := (l.hear now level).1
     t.receiver = .off ∧ t.quietSince = none ∧ t.latch = l.latch ∧ (l.hear now level).2 = .nothing)) ∧
  (∀ (l : Line) (now : Rx), l.receiver = .hunting →
    (l.lowRun = 11 → (l.hear now false).1.receiver = .receiving (RxBuffer.start l.latch)) ∧
    (l.lowRun ≠ 11 → (l.hear now false).1.receiver = .hunting) ∧ (l.hear now true).1.receiver = .hunting) ∧
  (∀ (l : Line) (now : Rx), l.receiver = .waitIdle →
    (∀ q, l.quietSince = some q → q + 50 ≤ now.moment → (l.hear now true).1.receiver = .hunting) ∧
    (∀ q, l.quietSince = some q → now.moment < q + 50 → (l.hear now true).1.receiver = .waitIdle) ∧
    (l.quietSince = none → ∀ level, (l.hear now level).1.receiver = .waitIdle))

/-! ### What every step keeps -/

/-- Show Control's items agree with the show state after every step. -/
def Obligations.StepKeepsControl : Prop :=
  ∀ s t : State, ControlInv s → step s = .next t → ControlInv t

/-- The slots and the transmitter agree, and the monitor's records and show time stay in their bounds, after every step. -/
def Obligations.StepKeepsLineAndRecords : Prop :=
  ∀ s t : State, LineInv s → RecordInv s → step s = .next t → LineInv t ∧ RecordInv t

/-- The pending queue stays within 64 entries and in order. -/
def Obligations.StepKeepsQueue : Prop :=
  ∀ s t : State, QueueInv s → step s = .next t → QueueInv t

/-- The audio FIFO stays within 4,096 frames, in rising index. -/
def Obligations.StepKeepsFifo : Prop :=
  ∀ s t : State, FifoInv s → step s = .next t → FifoInv t

/-- R123: after every step each valve command is what the rule makes of the state. -/
def Obligations.StepKeepsValves : Prop :=
  ∀ s t : State, ControlInv s → ValvesStand s → step s = .next t → ValvesStand t

/-- R1, R3, R16: no pump leaves STOPPED in SAFE, in CONFIG FAULT or before start-up ends. -/
def Obligations.StepKeepsWaterOff : Prop :=
  ∀ s t : State, ControlInv s → WaterOff s → step s = .next t → WaterOff t

/-- R150, R152: after every step each working duty is what the rules make of the state. -/
def Obligations.StepKeepsLamps : Prop :=
  ∀ s t : State, LampsStand s → step s = .next t → LampsStand t

/-- Every one of these holds at hard reset. -/
def Obligations.ResetIsSound : Prop :=
  ControlInv State.reset ∧ LineInv State.reset ∧ RecordInv State.reset ∧ QueueInv State.reset ∧ FifoInv State.reset ∧
    ValvesStand State.reset ∧ WaterOff State.reset ∧ LampsStand State.reset

/-- R2, R52, R71, R77: once start-up is done, nothing but a hard reset changes the configuration, the volume header, the
station number or the rehearsal flag, and nothing but a hard reset changes show time in HOLD. -/
def Obligations.OnlyHardResetChangesTheseItems : Prop :=
  (∀ (c : Instr) (s : State), ControlInv s → s.ctl.phase = .done → c ≠ .hardReset →
    ∃ t, exec c s = .next t ∧ t.store.config = s.store.config ∧ t.store.header = s.store.header ∧
      t.ctl.station = s.ctl.station ∧ t.ctl.rehearsal = s.ctl.rehearsal ∧ t.ctl.phase = .done) ∧
  (∀ (c : Instr) (s : State), s.ctl.state = .hold → s.ctl.phase = .done → c ≠ .hardReset →
    ∃ t, exec c s = .next t ∧ t.clock.showTime = s.clock.showTime)
end

