-- ==== Sys2Proof/Laws/Arith.lean ====
section
/-! SUPPORT. What the arithmetic and the sets of 00_scope.md amount to. -/

namespace Sys2Proof.Machine

theorem clampNat_eq (lo hi x : Nat) (h : lo ≤ hi) : clampNat lo hi x = max lo (min x hi) := by
  unfold clampNat
  split
  · omega
  · split <;> omega

theorem clampInt_eq (lo hi x : Int) (h : lo ≤ hi) : clampInt lo hi x = max lo (min x hi) := by
  unfold clampInt
  split
  · omega
  · split <;> omega

theorem clampInt_bounds (lo hi x : Int) (h : lo ≤ hi) : lo ≤ clampInt lo hi x ∧ clampInt lo hi x ≤ hi := by
  rw [clampInt_eq lo hi x h]
  omega

/-- Show time never leaves the signed 32-bit range (R49). -/
theorem clampShowTime_bounds (t : Int) : -2147483648 ≤ clampShowTime t ∧ clampShowTime t ≤ 2147483647 :=
  clampInt_bounds _ _ t (by decide)

/-- One digit of the root keeps the bounds it started from. -/
theorem isqrtFrom_spec (k r x : Nat) (hr : r * r ≤ x) (hx : x < (r + 2 ^ k) * (r + 2 ^ k)) :
    isqrtFrom k r x * isqrtFrom k r x ≤ x ∧ x < (isqrtFrom k r x + 1) * (isqrtFrom k r x + 1) := by
  induction k generalizing r with
  | zero => exact ⟨hr, by simpa [isqrtFrom] using hx⟩
  | succ k ih =>
    unfold isqrtFrom
    have e : r + 2 ^ k + 2 ^ k = r + 2 ^ (k + 1) := by rw [Nat.pow_succ]; omega
    split
    · next h => exact ih _ h (by rw [e]; exact hx)
    · next h => exact ih _ hr (by omega)

/-- isqrt is the largest integer whose square does not exceed its argument (00_scope.md). -/
theorem isqrt_spec (x : Nat) : isqrt x * isqrt x ≤ x ∧ x < (isqrt x + 1) * (isqrt x + 1) := by
  refine isqrtFrom_spec _ 0 x (Nat.zero_le _) ?_
  rw [Nat.zero_add, ← Nat.pow_add]
  refine Nat.lt_of_lt_of_le (Nat.lt_log2_self (n := x)) (Nat.pow_le_pow_right (by decide) ?_)
  omega

theorem withBit_getLsbD {w : Nat} (b : BitVec w) (i j : Nat) (v : Bool) (h : i < w) :
    (withBit b i v).getLsbD j = if j = i then v else b.getLsbD j := by
  have bit : ((1#w) <<< i).getLsbD j = decide (j = i) := by
    rw [BitVec.getLsbD_shiftLeft, BitVec.getLsbD_one]
    by_cases hj : j = i
    · subst hj; simp [h]; omega
    · by_cases hl : j < i <;> simp [hj, hl]; omega
  by_cases hw : j < w
  · by_cases hj : j = i
    · subst hj
      cases v
      · rw [withBit, if_neg (by decide), BitVec.getLsbD_and, BitVec.getLsbD_not, bit]; simp
      · rw [withBit, if_pos rfl, BitVec.getLsbD_or, bit]; simp
    · cases v
      · rw [withBit, if_neg (by decide), BitVec.getLsbD_and, BitVec.getLsbD_not, bit]; simp [hj, hw]
      · rw [withBit, if_pos rfl, BitVec.getLsbD_or, bit]; simp [hj]
  · have hj : j ≠ i := by omega
    have hb : b.getLsbD j = false := BitVec.getLsbD_of_ge _ _ (by omega)
    rw [if_neg hj, hb]
    exact BitVec.getLsbD_of_ge _ _ (by omega)

end Sys2Proof.Machine
end

