-- ==== Sys2Proof/Laws/State.lean ====
section
/-! SUPPORT. The updates of one item of the state: one lemma per field per update. -/

namespace Sys2Proof.Machine

@[simp] theorem State.setPump_localTimer (c : Channel) (p : PumpRec) (s : State) : (State.setPump c p s).localTimer = s.localTimer := rfl
@[simp] theorem State.setPump_inputs (c : Channel) (p : PumpRec) (s : State) : (State.setPump c p s).inputs = s.inputs := rfl
@[simp] theorem State.setPump_ctl (c : Channel) (p : PumpRec) (s : State) : (State.setPump c p s).ctl = s.ctl := rfl
@[simp] theorem State.setPump_line (c : Channel) (p : PumpRec) (s : State) : (State.setPump c p s).line = s.line := rfl
@[simp] theorem State.setPump_peers (c : Channel) (p : PumpRec) (s : State) : (State.setPump c p s).peers = s.peers := rfl
@[simp] theorem State.setPump_clock (c : Channel) (p : PumpRec) (s : State) : (State.setPump c p s).clock = s.clock := rfl
@[simp] theorem State.setPump_store (c : Channel) (p : PumpRec) (s : State) : (State.setPump c p s).store = s.store := rfl
@[simp] theorem State.setPump_seq (c : Channel) (p : PumpRec) (s : State) : (State.setPump c p s).seq = s.seq := rfl
@[simp] theorem State.setPump_jet (c : Channel) (p : PumpRec) (s : State) : (State.setPump c p s).jet = s.jet := rfl
@[simp] theorem State.setPump_head (c : Channel) (p : PumpRec) (s : State) : (State.setPump c p s).head = s.head := rfl
@[simp] theorem State.setPump_lights (c : Channel) (p : PumpRec) (s : State) : (State.setPump c p s).lights = s.lights := rfl
@[simp] theorem State.setPump_music (c : Channel) (p : PumpRec) (s : State) : (State.setPump c p s).music = s.music := rfl
@[simp] theorem State.setPump_mon (c : Channel) (p : PumpRec) (s : State) : (State.setPump c p s).mon = s.mon := rfl
@[simp] theorem State.setPump_pending (c : Channel) (p : PumpRec) (s : State) : (State.setPump c p s).pending = s.pending := rfl
@[simp] theorem State.setPump_period (c : Channel) (p : PumpRec) (s : State) : (State.setPump c p s).pump.period = s.pump.period := rfl
@[simp] theorem State.setPump_pumps (c : Channel) (p : PumpRec) (s : State) : (State.setPump c p s).pump.pumps = s.pump.pumps.set c p := rfl
@[simp] theorem State.setPump_nozzles (c : Channel) (p : PumpRec) (s : State) : (State.setPump c p s).pump.nozzles = s.pump.nozzles := rfl
@[simp] theorem State.setPump_wetEnding (c : Channel) (p : PumpRec) (s : State) : (State.setPump c p s).pump.wetEnding = s.pump.wetEnding := rfl

@[simp] theorem State.setNozzle_localTimer (z : Nozzle) (n : NozzleRec) (s : State) : (State.setNozzle z n s).localTimer = s.localTimer := rfl
@[simp] theorem State.setNozzle_inputs (z : Nozzle) (n : NozzleRec) (s : State) : (State.setNozzle z n s).inputs = s.inputs := rfl
@[simp] theorem State.setNozzle_ctl (z : Nozzle) (n : NozzleRec) (s : State) : (State.setNozzle z n s).ctl = s.ctl := rfl
@[simp] theorem State.setNozzle_line (z : Nozzle) (n : NozzleRec) (s : State) : (State.setNozzle z n s).line = s.line := rfl
@[simp] theorem State.setNozzle_peers (z : Nozzle) (n : NozzleRec) (s : State) : (State.setNozzle z n s).peers = s.peers := rfl
@[simp] theorem State.setNozzle_clock (z : Nozzle) (n : NozzleRec) (s : State) : (State.setNozzle z n s).clock = s.clock := rfl
@[simp] theorem State.setNozzle_store (z : Nozzle) (n : NozzleRec) (s : State) : (State.setNozzle z n s).store = s.store := rfl
@[simp] theorem State.setNozzle_seq (z : Nozzle) (n : NozzleRec) (s : State) : (State.setNozzle z n s).seq = s.seq := rfl
@[simp] theorem State.setNozzle_jet (z : Nozzle) (n : NozzleRec) (s : State) : (State.setNozzle z n s).jet = s.jet := rfl
@[simp] theorem State.setNozzle_head (z : Nozzle) (n : NozzleRec) (s : State) : (State.setNozzle z n s).head = s.head := rfl
@[simp] theorem State.setNozzle_lights (z : Nozzle) (n : NozzleRec) (s : State) : (State.setNozzle z n s).lights = s.lights := rfl
@[simp] theorem State.setNozzle_music (z : Nozzle) (n : NozzleRec) (s : State) : (State.setNozzle z n s).music = s.music := rfl
@[simp] theorem State.setNozzle_mon (z : Nozzle) (n : NozzleRec) (s : State) : (State.setNozzle z n s).mon = s.mon := rfl
@[simp] theorem State.setNozzle_pending (z : Nozzle) (n : NozzleRec) (s : State) : (State.setNozzle z n s).pending = s.pending := rfl
@[simp] theorem State.setNozzle_period (z : Nozzle) (n : NozzleRec) (s : State) : (State.setNozzle z n s).pump.period = s.pump.period := rfl
@[simp] theorem State.setNozzle_pumps (z : Nozzle) (n : NozzleRec) (s : State) : (State.setNozzle z n s).pump.pumps = s.pump.pumps := rfl
@[simp] theorem State.setNozzle_nozzles (z : Nozzle) (n : NozzleRec) (s : State) : (State.setNozzle z n s).pump.nozzles = s.pump.nozzles.set z n := rfl
@[simp] theorem State.setNozzle_wetEnding (z : Nozzle) (n : NozzleRec) (s : State) : (State.setNozzle z n s).pump.wetEnding = s.pump.wetEnding := rfl

@[simp] theorem State.setHead_localTimer (h : Head) (r : HeadRec) (s : State) : (State.setHead h r s).localTimer = s.localTimer := rfl
@[simp] theorem State.setHead_inputs (h : Head) (r : HeadRec) (s : State) : (State.setHead h r s).inputs = s.inputs := rfl
@[simp] theorem State.setHead_ctl (h : Head) (r : HeadRec) (s : State) : (State.setHead h r s).ctl = s.ctl := rfl
@[simp] theorem State.setHead_line (h : Head) (r : HeadRec) (s : State) : (State.setHead h r s).line = s.line := rfl
@[simp] theorem State.setHead_peers (h : Head) (r : HeadRec) (s : State) : (State.setHead h r s).peers = s.peers := rfl
@[simp] theorem State.setHead_clock (h : Head) (r : HeadRec) (s : State) : (State.setHead h r s).clock = s.clock := rfl
@[simp] theorem State.setHead_store (h : Head) (r : HeadRec) (s : State) : (State.setHead h r s).store = s.store := rfl
@[simp] theorem State.setHead_seq (h : Head) (r : HeadRec) (s : State) : (State.setHead h r s).seq = s.seq := rfl
@[simp] theorem State.setHead_jet (h : Head) (r : HeadRec) (s : State) : (State.setHead h r s).jet = s.jet := rfl
@[simp] theorem State.setHead_pump (h : Head) (r : HeadRec) (s : State) : (State.setHead h r s).pump = s.pump := rfl
@[simp] theorem State.setHead_lights (h : Head) (r : HeadRec) (s : State) : (State.setHead h r s).lights = s.lights := rfl
@[simp] theorem State.setHead_music (h : Head) (r : HeadRec) (s : State) : (State.setHead h r s).music = s.music := rfl
@[simp] theorem State.setHead_mon (h : Head) (r : HeadRec) (s : State) : (State.setHead h r s).mon = s.mon := rfl
@[simp] theorem State.setHead_pending (h : Head) (r : HeadRec) (s : State) : (State.setHead h r s).pending = s.pending := rfl
@[simp] theorem State.setHead_heads (h : Head) (r : HeadRec) (s : State) : (State.setHead h r s).head.heads = s.head.heads.set h r := rfl
@[simp] theorem State.setHead_permits (h : Head) (r : HeadRec) (s : State) : (State.setHead h r s).head.permits = s.head.permits := rfl

@[simp] theorem State.setFixture_localTimer (f : Fixture) (r : FixtureRec) (s : State) : (State.setFixture f r s).localTimer = s.localTimer := rfl
@[simp] theorem State.setFixture_inputs (f : Fixture) (r : FixtureRec) (s : State) : (State.setFixture f r s).inputs = s.inputs := rfl
@[simp] theorem State.setFixture_ctl (f : Fixture) (r : FixtureRec) (s : State) : (State.setFixture f r s).ctl = s.ctl := rfl
@[simp] theorem State.setFixture_line (f : Fixture) (r : FixtureRec) (s : State) : (State.setFixture f r s).line = s.line := rfl
@[simp] theorem State.setFixture_peers (f : Fixture) (r : FixtureRec) (s : State) : (State.setFixture f r s).peers = s.peers := rfl
@[simp] theorem State.setFixture_clock (f : Fixture) (r : FixtureRec) (s : State) : (State.setFixture f r s).clock = s.clock := rfl
@[simp] theorem State.setFixture_store (f : Fixture) (r : FixtureRec) (s : State) : (State.setFixture f r s).store = s.store := rfl
@[simp] theorem State.setFixture_seq (f : Fixture) (r : FixtureRec) (s : State) : (State.setFixture f r s).seq = s.seq := rfl
@[simp] theorem State.setFixture_jet (f : Fixture) (r : FixtureRec) (s : State) : (State.setFixture f r s).jet = s.jet := rfl
@[simp] theorem State.setFixture_pump (f : Fixture) (r : FixtureRec) (s : State) : (State.setFixture f r s).pump = s.pump := rfl
@[simp] theorem State.setFixture_head (f : Fixture) (r : FixtureRec) (s : State) : (State.setFixture f r s).head = s.head := rfl
@[simp] theorem State.setFixture_music (f : Fixture) (r : FixtureRec) (s : State) : (State.setFixture f r s).music = s.music := rfl
@[simp] theorem State.setFixture_mon (f : Fixture) (r : FixtureRec) (s : State) : (State.setFixture f r s).mon = s.mon := rfl
@[simp] theorem State.setFixture_pending (f : Fixture) (r : FixtureRec) (s : State) : (State.setFixture f r s).pending = s.pending := rfl
@[simp] theorem State.setFixture_fixtures (f : Fixture) (r : FixtureRec) (s : State) : (State.setFixture f r s).lights.fixtures = s.lights.fixtures.set f r := rfl
@[simp] theorem State.setFixture_lightTimer (f : Fixture) (r : FixtureRec) (s : State) : (State.setFixture f r s).lights.lightTimer = s.lights.lightTimer := rfl
@[simp] theorem State.setFixture_working (f : Fixture) (r : FixtureRec) (s : State) : (State.setFixture f r s).lights.working = s.lights.working := rfl
@[simp] theorem State.setFixture_holding (f : Fixture) (r : FixtureRec) (s : State) : (State.setFixture f r s).lights.holding = s.lights.holding := rfl
@[simp] theorem State.setFixture_pwmTimer (f : Fixture) (r : FixtureRec) (s : State) : (State.setFixture f r s).lights.pwmTimer = s.lights.pwmTimer := rfl

@[simp] theorem State.setPeer_localTimer (k : Peer) (e : PeerEntry) (s : State) : (State.setPeer k e s).localTimer = s.localTimer := rfl
@[simp] theorem State.setPeer_inputs (k : Peer) (e : PeerEntry) (s : State) : (State.setPeer k e s).inputs = s.inputs := rfl
@[simp] theorem State.setPeer_ctl (k : Peer) (e : PeerEntry) (s : State) : (State.setPeer k e s).ctl = s.ctl := rfl
@[simp] theorem State.setPeer_line (k : Peer) (e : PeerEntry) (s : State) : (State.setPeer k e s).line = s.line := rfl
@[simp] theorem State.setPeer_clock (k : Peer) (e : PeerEntry) (s : State) : (State.setPeer k e s).clock = s.clock := rfl
@[simp] theorem State.setPeer_store (k : Peer) (e : PeerEntry) (s : State) : (State.setPeer k e s).store = s.store := rfl
@[simp] theorem State.setPeer_seq (k : Peer) (e : PeerEntry) (s : State) : (State.setPeer k e s).seq = s.seq := rfl
@[simp] theorem State.setPeer_jet (k : Peer) (e : PeerEntry) (s : State) : (State.setPeer k e s).jet = s.jet := rfl
@[simp] theorem State.setPeer_pump (k : Peer) (e : PeerEntry) (s : State) : (State.setPeer k e s).pump = s.pump := rfl
@[simp] theorem State.setPeer_head (k : Peer) (e : PeerEntry) (s : State) : (State.setPeer k e s).head = s.head := rfl
@[simp] theorem State.setPeer_lights (k : Peer) (e : PeerEntry) (s : State) : (State.setPeer k e s).lights = s.lights := rfl
@[simp] theorem State.setPeer_music (k : Peer) (e : PeerEntry) (s : State) : (State.setPeer k e s).music = s.music := rfl
@[simp] theorem State.setPeer_mon (k : Peer) (e : PeerEntry) (s : State) : (State.setPeer k e s).mon = s.mon := rfl
@[simp] theorem State.setPeer_pending (k : Peer) (e : PeerEntry) (s : State) : (State.setPeer k e s).pending = s.pending := rfl
@[simp] theorem State.setPeer_entries (k : Peer) (e : PeerEntry) (s : State) : (State.setPeer k e s).peers.entries = s.peers.entries.set k e := rfl
@[simp] theorem State.setPeer_lastSetting (k : Peer) (e : PeerEntry) (s : State) : (State.setPeer k e s).peers.lastSetting = s.peers.lastSetting := rfl
@[simp] theorem State.setPeer_lastAdjust (k : Peer) (e : PeerEntry) (s : State) : (State.setPeer k e s).peers.lastAdjust = s.peers.lastAdjust := rfl

@[simp] theorem State.offer_localTimer (c : Instr) (s : State) : (State.offer c s).localTimer = s.localTimer := rfl
@[simp] theorem State.offer_inputs (c : Instr) (s : State) : (State.offer c s).inputs = s.inputs := rfl
@[simp] theorem State.offer_ctl (c : Instr) (s : State) : (State.offer c s).ctl = s.ctl := rfl
@[simp] theorem State.offer_line (c : Instr) (s : State) : (State.offer c s).line = s.line := rfl
@[simp] theorem State.offer_peers (c : Instr) (s : State) : (State.offer c s).peers = s.peers := rfl
@[simp] theorem State.offer_clock (c : Instr) (s : State) : (State.offer c s).clock = s.clock := rfl
@[simp] theorem State.offer_store (c : Instr) (s : State) : (State.offer c s).store = s.store := rfl
@[simp] theorem State.offer_seq (c : Instr) (s : State) : (State.offer c s).seq = s.seq := rfl
@[simp] theorem State.offer_jet (c : Instr) (s : State) : (State.offer c s).jet = s.jet := rfl
@[simp] theorem State.offer_pump (c : Instr) (s : State) : (State.offer c s).pump = s.pump := rfl
@[simp] theorem State.offer_head (c : Instr) (s : State) : (State.offer c s).head = s.head := rfl
@[simp] theorem State.offer_lights (c : Instr) (s : State) : (State.offer c s).lights = s.lights := rfl
@[simp] theorem State.offer_music (c : Instr) (s : State) : (State.offer c s).music = s.music := rfl
@[simp] theorem State.offer_mon (c : Instr) (s : State) : (State.offer c s).mon = s.mon := rfl
@[simp] theorem State.offer_pending (c : Instr) (s : State) : (State.offer c s).pending = c :: s.pending := rfl

end Sys2Proof.Machine
end

