-- ==== Sys2Proof/Laws/KeepsBlocks.lean ====
section
/-! SUPPORT. What the operations of the blocks (05, 07 to 11, 03) leave as it stands: for each, every part of the state it does not touch. -/

set_option linter.all false

namespace Sys2Proof.Machine

/-! ### A part that each step of a fold keeps, the fold keeps -/

@[simp] theorem foldl_localTimer {α : Type} (f : State → α → State) (h : ∀ s a, (f s a).localTimer = s.localTimer) (l : List α)
    (s : State) : (l.foldl f s).localTimer = s.localTimer := by
  induction l generalizing s with
  | nil => rfl
  | cons a l ih => rw [List.foldl_cons, ih, h]

@[simp] theorem foldl_inputs {α : Type} (f : State → α → State) (h : ∀ s a, (f s a).inputs = s.inputs) (l : List α)
    (s : State) : (l.foldl f s).inputs = s.inputs := by
  induction l generalizing s with
  | nil => rfl
  | cons a l ih => rw [List.foldl_cons, ih, h]

@[simp] theorem foldl_ctl {α : Type} (f : State → α → State) (h : ∀ s a, (f s a).ctl = s.ctl) (l : List α)
    (s : State) : (l.foldl f s).ctl = s.ctl := by
  induction l generalizing s with
  | nil => rfl
  | cons a l ih => rw [List.foldl_cons, ih, h]

@[simp] theorem foldl_line {α : Type} (f : State → α → State) (h : ∀ s a, (f s a).line = s.line) (l : List α)
    (s : State) : (l.foldl f s).line = s.line := by
  induction l generalizing s with
  | nil => rfl
  | cons a l ih => rw [List.foldl_cons, ih, h]

@[simp] theorem foldl_peers {α : Type} (f : State → α → State) (h : ∀ s a, (f s a).peers = s.peers) (l : List α)
    (s : State) : (l.foldl f s).peers = s.peers := by
  induction l generalizing s with
  | nil => rfl
  | cons a l ih => rw [List.foldl_cons, ih, h]

@[simp] theorem foldl_clock {α : Type} (f : State → α → State) (h : ∀ s a, (f s a).clock = s.clock) (l : List α)
    (s : State) : (l.foldl f s).clock = s.clock := by
  induction l generalizing s with
  | nil => rfl
  | cons a l ih => rw [List.foldl_cons, ih, h]

@[simp] theorem foldl_store {α : Type} (f : State → α → State) (h : ∀ s a, (f s a).store = s.store) (l : List α)
    (s : State) : (l.foldl f s).store = s.store := by
  induction l generalizing s with
  | nil => rfl
  | cons a l ih => rw [List.foldl_cons, ih, h]

@[simp] theorem foldl_seq {α : Type} (f : State → α → State) (h : ∀ s a, (f s a).seq = s.seq) (l : List α)
    (s : State) : (l.foldl f s).seq = s.seq := by
  induction l generalizing s with
  | nil => rfl
  | cons a l ih => rw [List.foldl_cons, ih, h]

@[simp] theorem foldl_jet {α : Type} (f : State → α → State) (h : ∀ s a, (f s a).jet = s.jet) (l : List α)
    (s : State) : (l.foldl f s).jet = s.jet := by
  induction l generalizing s with
  | nil => rfl
  | cons a l ih => rw [List.foldl_cons, ih, h]

@[simp] theorem foldl_pump {α : Type} (f : State → α → State) (h : ∀ s a, (f s a).pump = s.pump) (l : List α)
    (s : State) : (l.foldl f s).pump = s.pump := by
  induction l generalizing s with
  | nil => rfl
  | cons a l ih => rw [List.foldl_cons, ih, h]

@[simp] theorem foldl_head {α : Type} (f : State → α → State) (h : ∀ s a, (f s a).head = s.head) (l : List α)
    (s : State) : (l.foldl f s).head = s.head := by
  induction l generalizing s with
  | nil => rfl
  | cons a l ih => rw [List.foldl_cons, ih, h]

@[simp] theorem foldl_lights {α : Type} (f : State → α → State) (h : ∀ s a, (f s a).lights = s.lights) (l : List α)
    (s : State) : (l.foldl f s).lights = s.lights := by
  induction l generalizing s with
  | nil => rfl
  | cons a l ih => rw [List.foldl_cons, ih, h]

@[simp] theorem foldl_music {α : Type} (f : State → α → State) (h : ∀ s a, (f s a).music = s.music) (l : List α)
    (s : State) : (l.foldl f s).music = s.music := by
  induction l generalizing s with
  | nil => rfl
  | cons a l ih => rw [List.foldl_cons, ih, h]

@[simp] theorem foldl_mon {α : Type} (f : State → α → State) (h : ∀ s a, (f s a).mon = s.mon) (l : List α)
    (s : State) : (l.foldl f s).mon = s.mon := by
  induction l generalizing s with
  | nil => rfl
  | cons a l ih => rw [List.foldl_cons, ih, h]

@[simp] theorem foldl_pending {α : Type} (f : State → α → State) (h : ∀ s a, (f s a).pending = s.pending) (l : List α)
    (s : State) : (l.foldl f s).pending = s.pending := by
  induction l generalizing s with
  | nil => rfl
  | cons a l ih => rw [List.foldl_cons, ih, h]

@[simp] theorem foldl_ctl_phase {α : Type} (f : State → α → State) (h : ∀ s a, (f s a).ctl.phase = s.ctl.phase) (l : List α)
    (s : State) : (l.foldl f s).ctl.phase = s.ctl.phase := by
  induction l generalizing s with
  | nil => rfl
  | cons a l ih => rw [List.foldl_cons, ih, h]

@[simp] theorem foldl_ctl_station {α : Type} (f : State → α → State) (h : ∀ s a, (f s a).ctl.station = s.ctl.station) (l : List α)
    (s : State) : (l.foldl f s).ctl.station = s.ctl.station := by
  induction l generalizing s with
  | nil => rfl
  | cons a l ih => rw [List.foldl_cons, ih, h]

@[simp] theorem foldl_ctl_rehearsal {α : Type} (f : State → α → State) (h : ∀ s a, (f s a).ctl.rehearsal = s.ctl.rehearsal) (l : List α)
    (s : State) : (l.foldl f s).ctl.rehearsal = s.ctl.rehearsal := by
  induction l generalizing s with
  | nil => rfl
  | cons a l ih => rw [List.foldl_cons, ih, h]

@[simp] theorem foldl_store_config {α : Type} (f : State → α → State) (h : ∀ s a, (f s a).store.config = s.store.config) (l : List α)
    (s : State) : (l.foldl f s).store.config = s.store.config := by
  induction l generalizing s with
  | nil => rfl
  | cons a l ih => rw [List.foldl_cons, ih, h]

@[simp] theorem foldl_store_header {α : Type} (f : State → α → State) (h : ∀ s a, (f s a).store.header = s.store.header) (l : List α)
    (s : State) : (l.foldl f s).store.header = s.store.header := by
  induction l generalizing s with
  | nil => rfl
  | cons a l ih => rw [List.foldl_cons, ih, h]

@[simp] theorem foldl_clock_showTime {α : Type} (f : State → α → State) (h : ∀ s a, (f s a).clock.showTime = s.clock.showTime) (l : List α)
    (s : State) : (l.foldl f s).clock.showTime = s.clock.showTime := by
  induction l generalizing s with
  | nil => rfl
  | cons a l ih => rw [List.foldl_cons, ih, h]

@[simp] theorem foldl_clock_paceTimer {α : Type} (f : State → α → State) (h : ∀ s a, (f s a).clock.paceTimer = s.clock.paceTimer) (l : List α)
    (s : State) : (l.foldl f s).clock.paceTimer = s.clock.paceTimer := by
  induction l generalizing s with
  | nil => rfl
  | cons a l ih => rw [List.foldl_cons, ih, h]

/-! ### Operation by operation -/

@[simp] theorem State.passTime_keeps (dt : Nat) (s : State) :
    (State.passTime dt s).inputs = s.inputs ∧
    (State.passTime dt s).ctl = s.ctl ∧
    (State.passTime dt s).line = s.line ∧
    (State.passTime dt s).peers = s.peers ∧
    (State.passTime dt s).store = s.store ∧
    (State.passTime dt s).seq = s.seq ∧
    (State.passTime dt s).jet = s.jet ∧
    (State.passTime dt s).pump = s.pump ∧
    (State.passTime dt s).head = s.head ∧
    (State.passTime dt s).lights = s.lights ∧
    (State.passTime dt s).music = s.music ∧
    (State.passTime dt s).mon = s.mon ∧
    (State.passTime dt s).pending = s.pending ∧
    (State.passTime dt s).clock.paceTimer = s.clock.paceTimer := by
  unfold State.passTime; (try dsimp only); (repeat' split) <;> simp

@[simp] theorem State.passTo_keeps (t : Nat) (s : State) :
    (State.passTo t s).inputs = s.inputs ∧
    (State.passTo t s).ctl = s.ctl ∧
    (State.passTo t s).line = s.line ∧
    (State.passTo t s).peers = s.peers ∧
    (State.passTo t s).store = s.store ∧
    (State.passTo t s).seq = s.seq ∧
    (State.passTo t s).jet = s.jet ∧
    (State.passTo t s).pump = s.pump ∧
    (State.passTo t s).head = s.head ∧
    (State.passTo t s).lights = s.lights ∧
    (State.passTo t s).music = s.music ∧
    (State.passTo t s).mon = s.mon ∧
    (State.passTo t s).pending = s.pending ∧
    (State.passTo t s).clock.paceTimer = s.clock.paceTimer := by
  unfold State.passTo; (try dsimp only); (repeat' split) <;> simp

@[simp] theorem State.passShowTo_keeps (t : Int) (s : State) :
    (State.passShowTo t s).inputs = s.inputs ∧
    (State.passShowTo t s).ctl = s.ctl ∧
    (State.passShowTo t s).line = s.line ∧
    (State.passShowTo t s).peers = s.peers ∧
    (State.passShowTo t s).store = s.store ∧
    (State.passShowTo t s).seq = s.seq ∧
    (State.passShowTo t s).jet = s.jet ∧
    (State.passShowTo t s).pump = s.pump ∧
    (State.passShowTo t s).head = s.head ∧
    (State.passShowTo t s).lights = s.lights ∧
    (State.passShowTo t s).music = s.music ∧
    (State.passShowTo t s).mon = s.mon ∧
    (State.passShowTo t s).pending = s.pending ∧
    (State.passShowTo t s).clock.paceTimer = s.clock.paceTimer := by
  unfold State.passShowTo; (try dsimp only); (repeat' split) <;> simp

@[simp] theorem State.raise_keeps (kind : EventKind) (cueId object : Option Nat) (s : State) :
    (State.raise kind cueId object s).localTimer = s.localTimer ∧
    (State.raise kind cueId object s).inputs = s.inputs ∧
    (State.raise kind cueId object s).ctl = s.ctl ∧
    (State.raise kind cueId object s).line = s.line ∧
    (State.raise kind cueId object s).peers = s.peers ∧
    (State.raise kind cueId object s).clock = s.clock ∧
    (State.raise kind cueId object s).store = s.store ∧
    (State.raise kind cueId object s).seq = s.seq ∧
    (State.raise kind cueId object s).jet = s.jet ∧
    (State.raise kind cueId object s).pump = s.pump ∧
    (State.raise kind cueId object s).head = s.head ∧
    (State.raise kind cueId object s).lights = s.lights ∧
    (State.raise kind cueId object s).music = s.music ∧
    (State.raise kind cueId object s).pending = s.pending := by
  unfold State.raise; (try dsimp only); (repeat' split) <;> simp

@[simp] theorem State.askPass_keeps (s : State) :
    (State.askPass s).localTimer = s.localTimer ∧
    (State.askPass s).inputs = s.inputs ∧
    (State.askPass s).ctl = s.ctl ∧
    (State.askPass s).line = s.line ∧
    (State.askPass s).peers = s.peers ∧
    (State.askPass s).clock = s.clock ∧
    (State.askPass s).store = s.store ∧
    (State.askPass s).seq = s.seq ∧
    (State.askPass s).pump = s.pump ∧
    (State.askPass s).head = s.head ∧
    (State.askPass s).lights = s.lights ∧
    (State.askPass s).music = s.music ∧
    (State.askPass s).mon = s.mon ∧
    (State.askPass s).pending = s.pending := by
  unfold State.askPass; (try dsimp only); (repeat' split) <;> simp

@[simp] theorem State.regate_keeps (s : State) :
    (State.regate s).localTimer = s.localTimer ∧
    (State.regate s).inputs = s.inputs ∧
    (State.regate s).ctl = s.ctl ∧
    (State.regate s).line = s.line ∧
    (State.regate s).peers = s.peers ∧
    (State.regate s).clock = s.clock ∧
    (State.regate s).store = s.store ∧
    (State.regate s).seq = s.seq ∧
    (State.regate s).jet = s.jet ∧
    (State.regate s).pump = s.pump ∧
    (State.regate s).head = s.head ∧
    (State.regate s).music = s.music ∧
    (State.regate s).mon = s.mon ∧
    (State.regate s).pending = s.pending := by
  unfold State.regate; (try dsimp only); (repeat' split) <;> simp

@[simp] theorem State.markChases_keeps (s : State) :
    (State.markChases s).localTimer = s.localTimer ∧
    (State.markChases s).inputs = s.inputs ∧
    (State.markChases s).ctl = s.ctl ∧
    (State.markChases s).line = s.line ∧
    (State.markChases s).peers = s.peers ∧
    (State.markChases s).clock = s.clock ∧
    (State.markChases s).store = s.store ∧
    (State.markChases s).seq = s.seq ∧
    (State.markChases s).jet = s.jet ∧
    (State.markChases s).pump = s.pump ∧
    (State.markChases s).head = s.head ∧
    (State.markChases s).music = s.music ∧
    (State.markChases s).mon = s.mon ∧
    (State.markChases s).pending = s.pending := by
  unfold State.markChases; (try dsimp only); (repeat' split) <;> simp

@[simp] theorem State.takeLight_keeps (f : Fixture) (colours : List Colour) (fade divisor id : Nat) (instant : Bool) (s : State) :
    (State.takeLight f colours fade divisor id instant s).localTimer = s.localTimer ∧
    (State.takeLight f colours fade divisor id instant s).inputs = s.inputs ∧
    (State.takeLight f colours fade divisor id instant s).ctl = s.ctl ∧
    (State.takeLight f colours fade divisor id instant s).line = s.line ∧
    (State.takeLight f colours fade divisor id instant s).peers = s.peers ∧
    (State.takeLight f colours fade divisor id instant s).clock = s.clock ∧
    (State.takeLight f colours fade divisor id instant s).store = s.store ∧
    (State.takeLight f colours fade divisor id instant s).seq = s.seq ∧
    (State.takeLight f colours fade divisor id instant s).jet = s.jet ∧
    (State.takeLight f colours fade divisor id instant s).pump = s.pump ∧
    (State.takeLight f colours fade divisor id instant s).head = s.head ∧
    (State.takeLight f colours fade divisor id instant s).music = s.music ∧
    (State.takeLight f colours fade divisor id instant s).pending = s.pending := by
  unfold State.takeLight; (try dsimp only); (repeat' split) <;> simp

@[simp] theorem State.resetFixtures_keeps (s : State) :
    (State.resetFixtures s).localTimer = s.localTimer ∧
    (State.resetFixtures s).inputs = s.inputs ∧
    (State.resetFixtures s).ctl = s.ctl ∧
    (State.resetFixtures s).line = s.line ∧
    (State.resetFixtures s).peers = s.peers ∧
    (State.resetFixtures s).clock = s.clock ∧
    (State.resetFixtures s).store = s.store ∧
    (State.resetFixtures s).seq = s.seq ∧
    (State.resetFixtures s).jet = s.jet ∧
    (State.resetFixtures s).pump = s.pump ∧
    (State.resetFixtures s).head = s.head ∧
    (State.resetFixtures s).music = s.music ∧
    (State.resetFixtures s).mon = s.mon ∧
    (State.resetFixtures s).pending = s.pending := by
  unfold State.resetFixtures; (try dsimp only); (repeat' split) <;> simp

@[simp] theorem State.beginLightRunOut_keeps (s : State) :
    (State.beginLightRunOut s).localTimer = s.localTimer ∧
    (State.beginLightRunOut s).inputs = s.inputs ∧
    (State.beginLightRunOut s).line = s.line ∧
    (State.beginLightRunOut s).peers = s.peers ∧
    (State.beginLightRunOut s).clock = s.clock ∧
    (State.beginLightRunOut s).store = s.store ∧
    (State.beginLightRunOut s).seq = s.seq ∧
    (State.beginLightRunOut s).jet = s.jet ∧
    (State.beginLightRunOut s).pump = s.pump ∧
    (State.beginLightRunOut s).head = s.head ∧
    (State.beginLightRunOut s).music = s.music ∧
    (State.beginLightRunOut s).mon = s.mon ∧
    (State.beginLightRunOut s).pending = s.pending ∧
    (State.beginLightRunOut s).ctl.phase = s.ctl.phase ∧
    (State.beginLightRunOut s).ctl.station = s.ctl.station ∧
    (State.beginLightRunOut s).ctl.rehearsal = s.ctl.rehearsal := by
  unfold State.beginLightRunOut; (try dsimp only); (repeat' split) <;> simp

@[simp] theorem State.checkLightRunOut_keeps (s : State) :
    (State.checkLightRunOut s).localTimer = s.localTimer ∧
    (State.checkLightRunOut s).inputs = s.inputs ∧
    (State.checkLightRunOut s).line = s.line ∧
    (State.checkLightRunOut s).peers = s.peers ∧
    (State.checkLightRunOut s).clock = s.clock ∧
    (State.checkLightRunOut s).store = s.store ∧
    (State.checkLightRunOut s).seq = s.seq ∧
    (State.checkLightRunOut s).jet = s.jet ∧
    (State.checkLightRunOut s).pump = s.pump ∧
    (State.checkLightRunOut s).head = s.head ∧
    (State.checkLightRunOut s).music = s.music ∧
    (State.checkLightRunOut s).mon = s.mon ∧
    (State.checkLightRunOut s).pending = s.pending ∧
    (State.checkLightRunOut s).ctl.phase = s.ctl.phase ∧
    (State.checkLightRunOut s).ctl.station = s.ctl.station ∧
    (State.checkLightRunOut s).ctl.rehearsal = s.ctl.rehearsal := by
  unfold State.checkLightRunOut; (try dsimp only); (repeat' split) <;> simp

@[simp] theorem State.advanceFixtures_keeps (s : State) :
    (State.advanceFixtures s).localTimer = s.localTimer ∧
    (State.advanceFixtures s).inputs = s.inputs ∧
    (State.advanceFixtures s).ctl = s.ctl ∧
    (State.advanceFixtures s).line = s.line ∧
    (State.advanceFixtures s).peers = s.peers ∧
    (State.advanceFixtures s).clock = s.clock ∧
    (State.advanceFixtures s).store = s.store ∧
    (State.advanceFixtures s).seq = s.seq ∧
    (State.advanceFixtures s).jet = s.jet ∧
    (State.advanceFixtures s).pump = s.pump ∧
    (State.advanceFixtures s).head = s.head ∧
    (State.advanceFixtures s).music = s.music ∧
    (State.advanceFixtures s).mon = s.mon ∧
    (State.advanceFixtures s).pending = s.pending := by
  unfold State.advanceFixtures; (try dsimp only); (repeat' split) <;> simp

@[simp] theorem State.lightStep_keeps (s : State) :
    (State.lightStep s).localTimer = s.localTimer ∧
    (State.lightStep s).inputs = s.inputs ∧
    (State.lightStep s).line = s.line ∧
    (State.lightStep s).peers = s.peers ∧
    (State.lightStep s).clock = s.clock ∧
    (State.lightStep s).store = s.store ∧
    (State.lightStep s).seq = s.seq ∧
    (State.lightStep s).jet = s.jet ∧
    (State.lightStep s).pump = s.pump ∧
    (State.lightStep s).head = s.head ∧
    (State.lightStep s).music = s.music ∧
    (State.lightStep s).mon = s.mon ∧
    (State.lightStep s).pending = s.pending ∧
    (State.lightStep s).ctl.phase = s.ctl.phase ∧
    (State.lightStep s).ctl.station = s.ctl.station ∧
    (State.lightStep s).ctl.rehearsal = s.ctl.rehearsal := by
  unfold State.lightStep; (try dsimp only); (repeat' split) <;> simp

@[simp] theorem State.pwmRollover_keeps (s : State) :
    (State.pwmRollover s).localTimer = s.localTimer ∧
    (State.pwmRollover s).inputs = s.inputs ∧
    (State.pwmRollover s).ctl = s.ctl ∧
    (State.pwmRollover s).line = s.line ∧
    (State.pwmRollover s).peers = s.peers ∧
    (State.pwmRollover s).clock = s.clock ∧
    (State.pwmRollover s).store = s.store ∧
    (State.pwmRollover s).seq = s.seq ∧
    (State.pwmRollover s).jet = s.jet ∧
    (State.pwmRollover s).pump = s.pump ∧
    (State.pwmRollover s).head = s.head ∧
    (State.pwmRollover s).music = s.music ∧
    (State.pwmRollover s).mon = s.mon ∧
    (State.pwmRollover s).pending = s.pending := by
  unfold State.pwmRollover; (try dsimp only); (repeat' split) <;> simp

@[simp] theorem State.armStartTimers_keeps (s : State) :
    (State.armStartTimers s).localTimer = s.localTimer ∧
    (State.armStartTimers s).inputs = s.inputs ∧
    (State.armStartTimers s).ctl = s.ctl ∧
    (State.armStartTimers s).line = s.line ∧
    (State.armStartTimers s).peers = s.peers ∧
    (State.armStartTimers s).clock = s.clock ∧
    (State.armStartTimers s).store = s.store ∧
    (State.armStartTimers s).seq = s.seq ∧
    (State.armStartTimers s).jet = s.jet ∧
    (State.armStartTimers s).head = s.head ∧
    (State.armStartTimers s).lights = s.lights ∧
    (State.armStartTimers s).music = s.music ∧
    (State.armStartTimers s).mon = s.mon ∧
    (State.armStartTimers s).pending = s.pending := by
  unfold State.armStartTimers; (try dsimp only); (repeat' split) <;> simp

@[simp] theorem State.refreshValves_keeps (s : State) :
    (State.refreshValves s).localTimer = s.localTimer ∧
    (State.refreshValves s).inputs = s.inputs ∧
    (State.refreshValves s).ctl = s.ctl ∧
    (State.refreshValves s).line = s.line ∧
    (State.refreshValves s).peers = s.peers ∧
    (State.refreshValves s).clock = s.clock ∧
    (State.refreshValves s).store = s.store ∧
    (State.refreshValves s).seq = s.seq ∧
    (State.refreshValves s).jet = s.jet ∧
    (State.refreshValves s).head = s.head ∧
    (State.refreshValves s).music = s.music ∧
    (State.refreshValves s).mon = s.mon ∧
    (State.refreshValves s).pending = s.pending := by
  unfold State.refreshValves; (try dsimp only); (repeat' split) <;> simp

@[simp] theorem State.dropValves_keeps (set : NozzleSet) (s : State) :
    (State.dropValves set s).localTimer = s.localTimer ∧
    (State.dropValves set s).inputs = s.inputs ∧
    (State.dropValves set s).ctl = s.ctl ∧
    (State.dropValves set s).line = s.line ∧
    (State.dropValves set s).peers = s.peers ∧
    (State.dropValves set s).clock = s.clock ∧
    (State.dropValves set s).store = s.store ∧
    (State.dropValves set s).seq = s.seq ∧
    (State.dropValves set s).jet = s.jet ∧
    (State.dropValves set s).head = s.head ∧
    (State.dropValves set s).lights = s.lights ∧
    (State.dropValves set s).music = s.music ∧
    (State.dropValves set s).mon = s.mon ∧
    (State.dropValves set s).pending = s.pending := by
  unfold State.dropValves; (try dsimp only); (repeat' split) <;> simp

@[simp] theorem State.trip_keeps (c : Channel) (cause : TripCause) (s : State) :
    (State.trip c cause s).localTimer = s.localTimer ∧
    (State.trip c cause s).inputs = s.inputs ∧
    (State.trip c cause s).ctl = s.ctl ∧
    (State.trip c cause s).line = s.line ∧
    (State.trip c cause s).peers = s.peers ∧
    (State.trip c cause s).clock = s.clock ∧
    (State.trip c cause s).store = s.store ∧
    (State.trip c cause s).seq = s.seq ∧
    (State.trip c cause s).head = s.head ∧
    (State.trip c cause s).music = s.music ∧
    (State.trip c cause s).pending = s.pending := by
  unfold State.trip; (try dsimp only); (repeat' split) <;> simp

@[simp] theorem State.startPump_keeps (c : Channel) (s : State) :
    (State.startPump c s).localTimer = s.localTimer ∧
    (State.startPump c s).inputs = s.inputs ∧
    (State.startPump c s).ctl = s.ctl ∧
    (State.startPump c s).line = s.line ∧
    (State.startPump c s).peers = s.peers ∧
    (State.startPump c s).clock = s.clock ∧
    (State.startPump c s).store = s.store ∧
    (State.startPump c s).seq = s.seq ∧
    (State.startPump c s).head = s.head ∧
    (State.startPump c s).music = s.music ∧
    (State.startPump c s).pending = s.pending := by
  unfold State.startPump; (try dsimp only); (repeat' split) <;> simp

@[simp] theorem State.actGoal_keeps (handOff : Bool) (c : Channel) (s : State) :
    (State.actGoal handOff c s).localTimer = s.localTimer ∧
    (State.actGoal handOff c s).inputs = s.inputs ∧
    (State.actGoal handOff c s).ctl = s.ctl ∧
    (State.actGoal handOff c s).line = s.line ∧
    (State.actGoal handOff c s).peers = s.peers ∧
    (State.actGoal handOff c s).clock = s.clock ∧
    (State.actGoal handOff c s).store = s.store ∧
    (State.actGoal handOff c s).seq = s.seq ∧
    (State.actGoal handOff c s).head = s.head ∧
    (State.actGoal handOff c s).music = s.music ∧
    (State.actGoal handOff c s).pending = s.pending := by
  unfold State.actGoal; (try dsimp only); (repeat' split) <;> simp

@[simp] theorem State.workGoals_keeps (s : State) :
    (State.workGoals s).localTimer = s.localTimer ∧
    (State.workGoals s).inputs = s.inputs ∧
    (State.workGoals s).ctl = s.ctl ∧
    (State.workGoals s).line = s.line ∧
    (State.workGoals s).peers = s.peers ∧
    (State.workGoals s).clock = s.clock ∧
    (State.workGoals s).store = s.store ∧
    (State.workGoals s).seq = s.seq ∧
    (State.workGoals s).head = s.head ∧
    (State.workGoals s).music = s.music ∧
    (State.workGoals s).pending = s.pending := by
  unfold State.workGoals; (try dsimp only); (repeat' split) <;> simp

@[simp] theorem State.checkLostFlow_keeps (c : Channel) (s : State) :
    (State.checkLostFlow c s).localTimer = s.localTimer ∧
    (State.checkLostFlow c s).inputs = s.inputs ∧
    (State.checkLostFlow c s).ctl = s.ctl ∧
    (State.checkLostFlow c s).line = s.line ∧
    (State.checkLostFlow c s).peers = s.peers ∧
    (State.checkLostFlow c s).clock = s.clock ∧
    (State.checkLostFlow c s).store = s.store ∧
    (State.checkLostFlow c s).seq = s.seq ∧
    (State.checkLostFlow c s).head = s.head ∧
    (State.checkLostFlow c s).music = s.music ∧
    (State.checkLostFlow c s).pending = s.pending := by
  unfold State.checkLostFlow; (try dsimp only); (repeat' split) <;> simp

@[simp] theorem State.periodPump_keeps (c : Channel) (s : State) :
    (State.periodPump c s).localTimer = s.localTimer ∧
    (State.periodPump c s).inputs = s.inputs ∧
    (State.periodPump c s).ctl = s.ctl ∧
    (State.periodPump c s).line = s.line ∧
    (State.periodPump c s).peers = s.peers ∧
    (State.periodPump c s).clock = s.clock ∧
    (State.periodPump c s).store = s.store ∧
    (State.periodPump c s).seq = s.seq ∧
    (State.periodPump c s).head = s.head ∧
    (State.periodPump c s).music = s.music ∧
    (State.periodPump c s).pending = s.pending := by
  unfold State.periodPump; (try dsimp only); (repeat' split) <;> simp

@[simp] theorem State.pumpPeriod_keeps (s : State) :
    (State.pumpPeriod s).localTimer = s.localTimer ∧
    (State.pumpPeriod s).inputs = s.inputs ∧
    (State.pumpPeriod s).ctl = s.ctl ∧
    (State.pumpPeriod s).line = s.line ∧
    (State.pumpPeriod s).peers = s.peers ∧
    (State.pumpPeriod s).clock = s.clock ∧
    (State.pumpPeriod s).store = s.store ∧
    (State.pumpPeriod s).seq = s.seq ∧
    (State.pumpPeriod s).head = s.head ∧
    (State.pumpPeriod s).music = s.music ∧
    (State.pumpPeriod s).pending = s.pending := by
  unfold State.pumpPeriod; (try dsimp only); (repeat' split) <;> simp

@[simp] theorem State.setFaultMark_keeps (z : Nozzle) (s : State) :
    (State.setFaultMark z s).localTimer = s.localTimer ∧
    (State.setFaultMark z s).inputs = s.inputs ∧
    (State.setFaultMark z s).ctl = s.ctl ∧
    (State.setFaultMark z s).line = s.line ∧
    (State.setFaultMark z s).peers = s.peers ∧
    (State.setFaultMark z s).clock = s.clock ∧
    (State.setFaultMark z s).store = s.store ∧
    (State.setFaultMark z s).seq = s.seq ∧
    (State.setFaultMark z s).head = s.head ∧
    (State.setFaultMark z s).lights = s.lights ∧
    (State.setFaultMark z s).music = s.music ∧
    (State.setFaultMark z s).mon = s.mon ∧
    (State.setFaultMark z s).pending = s.pending := by
  unfold State.setFaultMark; (try dsimp only); (repeat' split) <;> simp

@[simp] theorem State.clearFaultMark_keeps (z : Nozzle) (s : State) :
    (State.clearFaultMark z s).localTimer = s.localTimer ∧
    (State.clearFaultMark z s).inputs = s.inputs ∧
    (State.clearFaultMark z s).ctl = s.ctl ∧
    (State.clearFaultMark z s).line = s.line ∧
    (State.clearFaultMark z s).peers = s.peers ∧
    (State.clearFaultMark z s).clock = s.clock ∧
    (State.clearFaultMark z s).store = s.store ∧
    (State.clearFaultMark z s).seq = s.seq ∧
    (State.clearFaultMark z s).head = s.head ∧
    (State.clearFaultMark z s).lights = s.lights ∧
    (State.clearFaultMark z s).music = s.music ∧
    (State.clearFaultMark z s).mon = s.mon ∧
    (State.clearFaultMark z s).pending = s.pending := by
  unfold State.clearFaultMark; (try dsimp only); (repeat' split) <;> simp

@[simp] theorem State.mapPumps_keeps (f : PumpRec → PumpRec) (s : State) :
    (State.mapPumps f s).localTimer = s.localTimer ∧
    (State.mapPumps f s).inputs = s.inputs ∧
    (State.mapPumps f s).ctl = s.ctl ∧
    (State.mapPumps f s).line = s.line ∧
    (State.mapPumps f s).peers = s.peers ∧
    (State.mapPumps f s).clock = s.clock ∧
    (State.mapPumps f s).store = s.store ∧
    (State.mapPumps f s).seq = s.seq ∧
    (State.mapPumps f s).jet = s.jet ∧
    (State.mapPumps f s).head = s.head ∧
    (State.mapPumps f s).lights = s.lights ∧
    (State.mapPumps f s).music = s.music ∧
    (State.mapPumps f s).mon = s.mon ∧
    (State.mapPumps f s).pending = s.pending := by
  unfold State.mapPumps; (try dsimp only); (repeat' split) <;> simp

@[simp] theorem State.refreshPermits_keeps (s : State) :
    (State.refreshPermits s).localTimer = s.localTimer ∧
    (State.refreshPermits s).inputs = s.inputs ∧
    (State.refreshPermits s).ctl = s.ctl ∧
    (State.refreshPermits s).line = s.line ∧
    (State.refreshPermits s).peers = s.peers ∧
    (State.refreshPermits s).clock = s.clock ∧
    (State.refreshPermits s).store = s.store ∧
    (State.refreshPermits s).seq = s.seq ∧
    (State.refreshPermits s).music = s.music ∧
    (State.refreshPermits s).mon = s.mon ∧
    (State.refreshPermits s).pending = s.pending := by
  unfold State.refreshPermits; (try dsimp only); (repeat' split) <;> simp

@[simp] theorem State.enterVerifying_keeps (h : Head) (s : State) :
    (State.enterVerifying h s).localTimer = s.localTimer ∧
    (State.enterVerifying h s).inputs = s.inputs ∧
    (State.enterVerifying h s).ctl = s.ctl ∧
    (State.enterVerifying h s).line = s.line ∧
    (State.enterVerifying h s).peers = s.peers ∧
    (State.enterVerifying h s).clock = s.clock ∧
    (State.enterVerifying h s).store = s.store ∧
    (State.enterVerifying h s).seq = s.seq ∧
    (State.enterVerifying h s).jet = s.jet ∧
    (State.enterVerifying h s).pump = s.pump ∧
    (State.enterVerifying h s).lights = s.lights ∧
    (State.enterVerifying h s).music = s.music ∧
    (State.enterVerifying h s).mon = s.mon ∧
    (State.enterVerifying h s).pending = s.pending := by
  unfold State.enterVerifying; (try dsimp only); (repeat' split) <;> simp

@[simp] theorem State.stallCheck_keeps (h : Head) (s : State) :
    (State.stallCheck h s).localTimer = s.localTimer ∧
    (State.stallCheck h s).inputs = s.inputs ∧
    (State.stallCheck h s).ctl = s.ctl ∧
    (State.stallCheck h s).line = s.line ∧
    (State.stallCheck h s).peers = s.peers ∧
    (State.stallCheck h s).clock = s.clock ∧
    (State.stallCheck h s).store = s.store ∧
    (State.stallCheck h s).seq = s.seq ∧
    (State.stallCheck h s).jet = s.jet ∧
    (State.stallCheck h s).pump = s.pump ∧
    (State.stallCheck h s).lights = s.lights ∧
    (State.stallCheck h s).music = s.music ∧
    (State.stallCheck h s).mon = s.mon ∧
    (State.stallCheck h s).pending = s.pending := by
  unfold State.stallCheck; (try dsimp only); (repeat' split) <;> simp

@[simp] theorem State.issueStep_keeps (h : Head) (d : Direction) (s : State) :
    (State.issueStep h d s).localTimer = s.localTimer ∧
    (State.issueStep h d s).inputs = s.inputs ∧
    (State.issueStep h d s).ctl = s.ctl ∧
    (State.issueStep h d s).line = s.line ∧
    (State.issueStep h d s).peers = s.peers ∧
    (State.issueStep h d s).clock = s.clock ∧
    (State.issueStep h d s).store = s.store ∧
    (State.issueStep h d s).seq = s.seq ∧
    (State.issueStep h d s).jet = s.jet ∧
    (State.issueStep h d s).pump = s.pump ∧
    (State.issueStep h d s).lights = s.lights ∧
    (State.issueStep h d s).music = s.music ∧
    (State.issueStep h d s).mon = s.mon ∧
    (State.issueStep h d s).pending = s.pending := by
  unfold State.issueStep; (try dsimp only); (repeat' split) <;> simp

@[simp] theorem State.goTo_keeps (h : Head) (t : Target) (s : State) :
    (State.goTo h t s).localTimer = s.localTimer ∧
    (State.goTo h t s).inputs = s.inputs ∧
    (State.goTo h t s).ctl = s.ctl ∧
    (State.goTo h t s).line = s.line ∧
    (State.goTo h t s).peers = s.peers ∧
    (State.goTo h t s).clock = s.clock ∧
    (State.goTo h t s).store = s.store ∧
    (State.goTo h t s).seq = s.seq ∧
    (State.goTo h t s).jet = s.jet ∧
    (State.goTo h t s).pump = s.pump ∧
    (State.goTo h t s).lights = s.lights ∧
    (State.goTo h t s).music = s.music ∧
    (State.goTo h t s).mon = s.mon ∧
    (State.goTo h t s).pending = s.pending := by
  unfold State.goTo; (try dsimp only); (repeat' split) <;> simp

@[simp] theorem State.homeFound_keeps (h : Head) (s : State) :
    (State.homeFound h s).localTimer = s.localTimer ∧
    (State.homeFound h s).inputs = s.inputs ∧
    (State.homeFound h s).ctl = s.ctl ∧
    (State.homeFound h s).line = s.line ∧
    (State.homeFound h s).peers = s.peers ∧
    (State.homeFound h s).clock = s.clock ∧
    (State.homeFound h s).store = s.store ∧
    (State.homeFound h s).seq = s.seq ∧
    (State.homeFound h s).jet = s.jet ∧
    (State.homeFound h s).pump = s.pump ∧
    (State.homeFound h s).lights = s.lights ∧
    (State.homeFound h s).music = s.music ∧
    (State.homeFound h s).mon = s.mon ∧
    (State.homeFound h s).pending = s.pending := by
  unfold State.homeFound; (try dsimp only); (repeat' split) <;> simp

@[simp] theorem State.enterHoming_keeps (h : Head) (homing : Target) (asserted : Bool) (s : State) :
    (State.enterHoming h homing asserted s).localTimer = s.localTimer ∧
    (State.enterHoming h homing asserted s).inputs = s.inputs ∧
    (State.enterHoming h homing asserted s).ctl = s.ctl ∧
    (State.enterHoming h homing asserted s).line = s.line ∧
    (State.enterHoming h homing asserted s).peers = s.peers ∧
    (State.enterHoming h homing asserted s).clock = s.clock ∧
    (State.enterHoming h homing asserted s).store = s.store ∧
    (State.enterHoming h homing asserted s).seq = s.seq ∧
    (State.enterHoming h homing asserted s).music = s.music ∧
    (State.enterHoming h homing asserted s).mon = s.mon ∧
    (State.enterHoming h homing asserted s).pending = s.pending := by
  unfold State.enterHoming; (try dsimp only); (repeat' split) <;> simp

@[simp] theorem State.headFault_keeps (h : Head) (cause : HeadCause) (s : State) :
    (State.headFault h cause s).localTimer = s.localTimer ∧
    (State.headFault h cause s).inputs = s.inputs ∧
    (State.headFault h cause s).ctl = s.ctl ∧
    (State.headFault h cause s).line = s.line ∧
    (State.headFault h cause s).peers = s.peers ∧
    (State.headFault h cause s).clock = s.clock ∧
    (State.headFault h cause s).store = s.store ∧
    (State.headFault h cause s).seq = s.seq ∧
    (State.headFault h cause s).music = s.music ∧
    (State.headFault h cause s).pending = s.pending := by
  unfold State.headFault; (try dsimp only); (repeat' split) <;> simp

@[simp] theorem State.settleHead_keeps (h : Head) (s : State) :
    (State.settleHead h s).localTimer = s.localTimer ∧
    (State.settleHead h s).inputs = s.inputs ∧
    (State.settleHead h s).ctl = s.ctl ∧
    (State.settleHead h s).line = s.line ∧
    (State.settleHead h s).peers = s.peers ∧
    (State.settleHead h s).clock = s.clock ∧
    (State.settleHead h s).store = s.store ∧
    (State.settleHead h s).seq = s.seq ∧
    (State.settleHead h s).music = s.music ∧
    (State.settleHead h s).mon = s.mon ∧
    (State.settleHead h s).pending = s.pending := by
  unfold State.settleHead; (try dsimp only); (repeat' split) <;> simp

@[simp] theorem State.verifyPass_keeps (h : Head) (s : State) :
    (State.verifyPass h s).localTimer = s.localTimer ∧
    (State.verifyPass h s).inputs = s.inputs ∧
    (State.verifyPass h s).ctl = s.ctl ∧
    (State.verifyPass h s).line = s.line ∧
    (State.verifyPass h s).peers = s.peers ∧
    (State.verifyPass h s).clock = s.clock ∧
    (State.verifyPass h s).store = s.store ∧
    (State.verifyPass h s).seq = s.seq ∧
    (State.verifyPass h s).music = s.music ∧
    (State.verifyPass h s).mon = s.mon ∧
    (State.verifyPass h s).pending = s.pending := by
  unfold State.verifyPass; (try dsimp only); (repeat' split) <;> simp

@[simp] theorem State.verifyFail_keeps (h : Head) (asserted : Bool) (s : State) :
    (State.verifyFail h asserted s).localTimer = s.localTimer ∧
    (State.verifyFail h asserted s).inputs = s.inputs ∧
    (State.verifyFail h asserted s).ctl = s.ctl ∧
    (State.verifyFail h asserted s).line = s.line ∧
    (State.verifyFail h asserted s).peers = s.peers ∧
    (State.verifyFail h asserted s).clock = s.clock ∧
    (State.verifyFail h asserted s).store = s.store ∧
    (State.verifyFail h asserted s).seq = s.seq ∧
    (State.verifyFail h asserted s).music = s.music ∧
    (State.verifyFail h asserted s).pending = s.pending := by
  unfold State.verifyFail; (try dsimp only); (repeat' split) <;> simp

@[simp] theorem State.takeTarget_keeps (h : Head) (t : Target) (s : State) :
    (State.takeTarget h t s).localTimer = s.localTimer ∧
    (State.takeTarget h t s).inputs = s.inputs ∧
    (State.takeTarget h t s).ctl = s.ctl ∧
    (State.takeTarget h t s).line = s.line ∧
    (State.takeTarget h t s).peers = s.peers ∧
    (State.takeTarget h t s).clock = s.clock ∧
    (State.takeTarget h t s).store = s.store ∧
    (State.takeTarget h t s).seq = s.seq ∧
    (State.takeTarget h t s).jet = s.jet ∧
    (State.takeTarget h t s).pump = s.pump ∧
    (State.takeTarget h t s).lights = s.lights ∧
    (State.takeTarget h t s).music = s.music ∧
    (State.takeTarget h t s).mon = s.mon ∧
    (State.takeTarget h t s).pending = s.pending := by
  unfold State.takeTarget; (try dsimp only); (repeat' split) <;> simp

@[simp] theorem State.takeLeg_keeps (h : Head) (s : State) :
    (State.takeLeg h s).localTimer = s.localTimer ∧
    (State.takeLeg h s).inputs = s.inputs ∧
    (State.takeLeg h s).ctl = s.ctl ∧
    (State.takeLeg h s).line = s.line ∧
    (State.takeLeg h s).peers = s.peers ∧
    (State.takeLeg h s).clock = s.clock ∧
    (State.takeLeg h s).store = s.store ∧
    (State.takeLeg h s).seq = s.seq ∧
    (State.takeLeg h s).jet = s.jet ∧
    (State.takeLeg h s).pump = s.pump ∧
    (State.takeLeg h s).lights = s.lights ∧
    (State.takeLeg h s).music = s.music ∧
    (State.takeLeg h s).mon = s.mon ∧
    (State.takeLeg h s).pending = s.pending := by
  unfold State.takeLeg; (try dsimp only); (repeat' split) <;> simp

@[simp] theorem State.takeDueLeg_keeps (h : Head) (s : State) :
    (State.takeDueLeg h s).localTimer = s.localTimer ∧
    (State.takeDueLeg h s).inputs = s.inputs ∧
    (State.takeDueLeg h s).ctl = s.ctl ∧
    (State.takeDueLeg h s).line = s.line ∧
    (State.takeDueLeg h s).peers = s.peers ∧
    (State.takeDueLeg h s).clock = s.clock ∧
    (State.takeDueLeg h s).store = s.store ∧
    (State.takeDueLeg h s).seq = s.seq ∧
    (State.takeDueLeg h s).jet = s.jet ∧
    (State.takeDueLeg h s).pump = s.pump ∧
    (State.takeDueLeg h s).lights = s.lights ∧
    (State.takeDueLeg h s).music = s.music ∧
    (State.takeDueLeg h s).mon = s.mon ∧
    (State.takeDueLeg h s).pending = s.pending := by
  unfold State.takeDueLeg; (try dsimp only); (repeat' split) <;> simp

@[simp] theorem State.takeDueLegs_keeps (s : State) :
    (State.takeDueLegs s).localTimer = s.localTimer ∧
    (State.takeDueLegs s).inputs = s.inputs ∧
    (State.takeDueLegs s).ctl = s.ctl ∧
    (State.takeDueLegs s).line = s.line ∧
    (State.takeDueLegs s).peers = s.peers ∧
    (State.takeDueLegs s).clock = s.clock ∧
    (State.takeDueLegs s).store = s.store ∧
    (State.takeDueLegs s).seq = s.seq ∧
    (State.takeDueLegs s).music = s.music ∧
    (State.takeDueLegs s).mon = s.mon ∧
    (State.takeDueLegs s).pending = s.pending := by
  unfold State.takeDueLegs; (try dsimp only); (repeat' split) <;> simp

@[simp] theorem State.markSweeps_keeps (s : State) :
    (State.markSweeps s).localTimer = s.localTimer ∧
    (State.markSweeps s).inputs = s.inputs ∧
    (State.markSweeps s).ctl = s.ctl ∧
    (State.markSweeps s).line = s.line ∧
    (State.markSweeps s).peers = s.peers ∧
    (State.markSweeps s).clock = s.clock ∧
    (State.markSweeps s).store = s.store ∧
    (State.markSweeps s).seq = s.seq ∧
    (State.markSweeps s).jet = s.jet ∧
    (State.markSweeps s).pump = s.pump ∧
    (State.markSweeps s).lights = s.lights ∧
    (State.markSweeps s).music = s.music ∧
    (State.markSweeps s).mon = s.mon ∧
    (State.markSweeps s).pending = s.pending := by
  unfold State.markSweeps; (try dsimp only); (repeat' split) <;> simp

@[simp] theorem State.takeAim_keeps (h : Head) (target : Nat) (part : Option SweepPart) (id : Nat) (s : State) :
    (State.takeAim h target part id s).localTimer = s.localTimer ∧
    (State.takeAim h target part id s).inputs = s.inputs ∧
    (State.takeAim h target part id s).ctl = s.ctl ∧
    (State.takeAim h target part id s).line = s.line ∧
    (State.takeAim h target part id s).peers = s.peers ∧
    (State.takeAim h target part id s).clock = s.clock ∧
    (State.takeAim h target part id s).store = s.store ∧
    (State.takeAim h target part id s).seq = s.seq ∧
    (State.takeAim h target part id s).music = s.music ∧
    (State.takeAim h target part id s).pending = s.pending := by
  unfold State.takeAim; (try dsimp only); (repeat' split) <;> simp

@[simp] theorem State.homeForLoading_keeps (h : Head) (s : State) :
    (State.homeForLoading h s).localTimer = s.localTimer ∧
    (State.homeForLoading h s).inputs = s.inputs ∧
    (State.homeForLoading h s).ctl = s.ctl ∧
    (State.homeForLoading h s).line = s.line ∧
    (State.homeForLoading h s).peers = s.peers ∧
    (State.homeForLoading h s).clock = s.clock ∧
    (State.homeForLoading h s).store = s.store ∧
    (State.homeForLoading h s).seq = s.seq ∧
    (State.homeForLoading h s).music = s.music ∧
    (State.homeForLoading h s).mon = s.mon ∧
    (State.homeForLoading h s).pending = s.pending := by
  unfold State.homeForLoading; (try dsimp only); (repeat' split) <;> simp

@[simp] theorem State.homeHeads_keeps (s : State) :
    (State.homeHeads s).localTimer = s.localTimer ∧
    (State.homeHeads s).inputs = s.inputs ∧
    (State.homeHeads s).ctl = s.ctl ∧
    (State.homeHeads s).line = s.line ∧
    (State.homeHeads s).peers = s.peers ∧
    (State.homeHeads s).clock = s.clock ∧
    (State.homeHeads s).store = s.store ∧
    (State.homeHeads s).seq = s.seq ∧
    (State.homeHeads s).music = s.music ∧
    (State.homeHeads s).mon = s.mon ∧
    (State.homeHeads s).pending = s.pending := by
  unfold State.homeHeads; (try dsimp only); (repeat' split) <;> simp

@[simp] theorem State.parkHead_keeps (h : Head) (s : State) :
    (State.parkHead h s).localTimer = s.localTimer ∧
    (State.parkHead h s).inputs = s.inputs ∧
    (State.parkHead h s).ctl = s.ctl ∧
    (State.parkHead h s).line = s.line ∧
    (State.parkHead h s).peers = s.peers ∧
    (State.parkHead h s).clock = s.clock ∧
    (State.parkHead h s).store = s.store ∧
    (State.parkHead h s).seq = s.seq ∧
    (State.parkHead h s).jet = s.jet ∧
    (State.parkHead h s).pump = s.pump ∧
    (State.parkHead h s).lights = s.lights ∧
    (State.parkHead h s).music = s.music ∧
    (State.parkHead h s).mon = s.mon ∧
    (State.parkHead h s).pending = s.pending := by
  unfold State.parkHead; (try dsimp only); (repeat' split) <;> simp

@[simp] theorem State.parkHeads_keeps (s : State) :
    (State.parkHeads s).localTimer = s.localTimer ∧
    (State.parkHeads s).inputs = s.inputs ∧
    (State.parkHeads s).ctl = s.ctl ∧
    (State.parkHeads s).line = s.line ∧
    (State.parkHeads s).peers = s.peers ∧
    (State.parkHeads s).clock = s.clock ∧
    (State.parkHeads s).store = s.store ∧
    (State.parkHeads s).seq = s.seq ∧
    (State.parkHeads s).music = s.music ∧
    (State.parkHeads s).mon = s.mon ∧
    (State.parkHeads s).pending = s.pending := by
  unfold State.parkHeads; (try dsimp only); (repeat' split) <;> simp

@[simp] theorem State.unhomeHeads_keeps (s : State) :
    (State.unhomeHeads s).localTimer = s.localTimer ∧
    (State.unhomeHeads s).inputs = s.inputs ∧
    (State.unhomeHeads s).ctl = s.ctl ∧
    (State.unhomeHeads s).line = s.line ∧
    (State.unhomeHeads s).peers = s.peers ∧
    (State.unhomeHeads s).clock = s.clock ∧
    (State.unhomeHeads s).store = s.store ∧
    (State.unhomeHeads s).seq = s.seq ∧
    (State.unhomeHeads s).music = s.music ∧
    (State.unhomeHeads s).mon = s.mon ∧
    (State.unhomeHeads s).pending = s.pending := by
  unfold State.unhomeHeads; (try dsimp only); (repeat' split) <;> simp

@[simp] theorem Store.setRequest_keeps (st : Store) (q : Option Request) (r : Reader) :
    (st.setRequest q r).config = st.config ∧ (st.setRequest q r).header = st.header ∧
    (st.setRequest q r).entry = st.entry ∧ (st.setRequest q r).port = st.port ∧
    (st.setRequest q r).cuePos = st.cuePos ∧ (st.setRequest q r).audioPos = st.audioPos ∧
    (st.setRequest q r).dirStep = st.dirStep := by
  cases r <;> simp [Store.setRequest]

@[simp] theorem Store.withdraw_keeps (r : Reader) (st : Store) :
    (st.withdraw r).config = st.config ∧ (st.withdraw r).header = st.header ∧
    (st.withdraw r).entry = st.entry ∧ (st.withdraw r).cuePos = st.cuePos ∧
    (st.withdraw r).audioPos = st.audioPos ∧ (st.withdraw r).dirStep = st.dirStep := by
  unfold Store.withdraw; dsimp only; (repeat' split) <;> simp

@[simp] theorem State.makeRequest_keeps (r : Reader) (block : Nat) (e : Expect) (s : State) :
    (State.makeRequest r block e s).localTimer = s.localTimer ∧
    (State.makeRequest r block e s).inputs = s.inputs ∧
    (State.makeRequest r block e s).ctl = s.ctl ∧
    (State.makeRequest r block e s).line = s.line ∧
    (State.makeRequest r block e s).peers = s.peers ∧
    (State.makeRequest r block e s).clock = s.clock ∧
    (State.makeRequest r block e s).seq = s.seq ∧
    (State.makeRequest r block e s).jet = s.jet ∧
    (State.makeRequest r block e s).pump = s.pump ∧
    (State.makeRequest r block e s).head = s.head ∧
    (State.makeRequest r block e s).lights = s.lights ∧
    (State.makeRequest r block e s).music = s.music ∧
    (State.makeRequest r block e s).mon = s.mon ∧
    (State.makeRequest r block e s).pending = s.pending ∧
    (State.makeRequest r block e s).store.config = s.store.config ∧
    (State.makeRequest r block e s).store.header = s.store.header := by
  unfold State.makeRequest; (try dsimp only); (repeat' split) <;> simp

@[simp] theorem State.grant_keeps (s : State) :
    (State.grant s).localTimer = s.localTimer ∧
    (State.grant s).inputs = s.inputs ∧
    (State.grant s).ctl = s.ctl ∧
    (State.grant s).line = s.line ∧
    (State.grant s).peers = s.peers ∧
    (State.grant s).clock = s.clock ∧
    (State.grant s).seq = s.seq ∧
    (State.grant s).jet = s.jet ∧
    (State.grant s).pump = s.pump ∧
    (State.grant s).head = s.head ∧
    (State.grant s).lights = s.lights ∧
    (State.grant s).music = s.music ∧
    (State.grant s).mon = s.mon ∧
    (State.grant s).pending = s.pending ∧
    (State.grant s).store.config = s.store.config ∧
    (State.grant s).store.header = s.store.header := by
  unfold State.grant; (try dsimp only); (repeat' split) <;> simp

@[simp] theorem State.dropEntry_keeps (s : State) :
    (State.dropEntry s).localTimer = s.localTimer ∧
    (State.dropEntry s).inputs = s.inputs ∧
    (State.dropEntry s).ctl = s.ctl ∧
    (State.dropEntry s).line = s.line ∧
    (State.dropEntry s).peers = s.peers ∧
    (State.dropEntry s).clock = s.clock ∧
    (State.dropEntry s).seq = s.seq ∧
    (State.dropEntry s).jet = s.jet ∧
    (State.dropEntry s).pump = s.pump ∧
    (State.dropEntry s).head = s.head ∧
    (State.dropEntry s).lights = s.lights ∧
    (State.dropEntry s).music = s.music ∧
    (State.dropEntry s).mon = s.mon ∧
    (State.dropEntry s).pending = s.pending ∧
    (State.dropEntry s).store.config = s.store.config ∧
    (State.dropEntry s).store.header = s.store.header := by
  unfold State.dropEntry; (try dsimp only); (repeat' split) <;> simp

@[simp] theorem State.stopCueReader_keeps (s : State) :
    (State.stopCueReader s).localTimer = s.localTimer ∧
    (State.stopCueReader s).inputs = s.inputs ∧
    (State.stopCueReader s).ctl = s.ctl ∧
    (State.stopCueReader s).line = s.line ∧
    (State.stopCueReader s).peers = s.peers ∧
    (State.stopCueReader s).clock = s.clock ∧
    (State.stopCueReader s).seq = s.seq ∧
    (State.stopCueReader s).jet = s.jet ∧
    (State.stopCueReader s).pump = s.pump ∧
    (State.stopCueReader s).head = s.head ∧
    (State.stopCueReader s).lights = s.lights ∧
    (State.stopCueReader s).music = s.music ∧
    (State.stopCueReader s).mon = s.mon ∧
    (State.stopCueReader s).pending = s.pending ∧
    (State.stopCueReader s).store.config = s.store.config ∧
    (State.stopCueReader s).store.header = s.store.header := by
  unfold State.stopCueReader; (try dsimp only); (repeat' split) <;> simp

@[simp] theorem State.flushMusic_keeps (s : State) :
    (State.flushMusic s).localTimer = s.localTimer ∧
    (State.flushMusic s).inputs = s.inputs ∧
    (State.flushMusic s).ctl = s.ctl ∧
    (State.flushMusic s).line = s.line ∧
    (State.flushMusic s).peers = s.peers ∧
    (State.flushMusic s).clock = s.clock ∧
    (State.flushMusic s).store = s.store ∧
    (State.flushMusic s).seq = s.seq ∧
    (State.flushMusic s).jet = s.jet ∧
    (State.flushMusic s).pump = s.pump ∧
    (State.flushMusic s).head = s.head ∧
    (State.flushMusic s).lights = s.lights ∧
    (State.flushMusic s).mon = s.mon ∧
    (State.flushMusic s).pending = s.pending := by
  unfold State.flushMusic; (try dsimp only); (repeat' split) <;> simp

@[simp] theorem State.deliverAudio_keeps (frames : List AudioFrame) (s : State) :
    (State.deliverAudio frames s).localTimer = s.localTimer ∧
    (State.deliverAudio frames s).inputs = s.inputs ∧
    (State.deliverAudio frames s).ctl = s.ctl ∧
    (State.deliverAudio frames s).line = s.line ∧
    (State.deliverAudio frames s).peers = s.peers ∧
    (State.deliverAudio frames s).clock = s.clock ∧
    (State.deliverAudio frames s).seq = s.seq ∧
    (State.deliverAudio frames s).jet = s.jet ∧
    (State.deliverAudio frames s).pump = s.pump ∧
    (State.deliverAudio frames s).head = s.head ∧
    (State.deliverAudio frames s).lights = s.lights ∧
    (State.deliverAudio frames s).mon = s.mon ∧
    (State.deliverAudio frames s).pending = s.pending ∧
    (State.deliverAudio frames s).store.config = s.store.config ∧
    (State.deliverAudio frames s).store.header = s.store.header := by
  unfold State.deliverAudio; (try dsimp only); (repeat' split) <;> simp

@[simp] theorem askAudio_keeps (n : Nat) (s : State) :
    (askAudio n s).localTimer = s.localTimer ∧
    (askAudio n s).inputs = s.inputs ∧
    (askAudio n s).ctl = s.ctl ∧
    (askAudio n s).line = s.line ∧
    (askAudio n s).peers = s.peers ∧
    (askAudio n s).clock = s.clock ∧
    (askAudio n s).seq = s.seq ∧
    (askAudio n s).jet = s.jet ∧
    (askAudio n s).pump = s.pump ∧
    (askAudio n s).head = s.head ∧
    (askAudio n s).lights = s.lights ∧
    (askAudio n s).pending = s.pending ∧
    (askAudio n s).store.config = s.store.config ∧
    (askAudio n s).store.header = s.store.header := by
  induction n generalizing s with
  | zero => simp [askAudio]
  | succ n ih => unfold askAudio; (repeat' split) <;> simp [ih]

@[simp] theorem State.fillAudio_keeps (s : State) :
    (State.fillAudio s).localTimer = s.localTimer ∧
    (State.fillAudio s).inputs = s.inputs ∧
    (State.fillAudio s).ctl = s.ctl ∧
    (State.fillAudio s).line = s.line ∧
    (State.fillAudio s).peers = s.peers ∧
    (State.fillAudio s).clock = s.clock ∧
    (State.fillAudio s).seq = s.seq ∧
    (State.fillAudio s).jet = s.jet ∧
    (State.fillAudio s).pump = s.pump ∧
    (State.fillAudio s).head = s.head ∧
    (State.fillAudio s).lights = s.lights ∧
    (State.fillAudio s).pending = s.pending ∧
    (State.fillAudio s).store.config = s.store.config ∧
    (State.fillAudio s).store.header = s.store.header := by
  unfold State.fillAudio; (try dsimp only); (repeat' split) <;> simp

@[simp] theorem State.audioSlot_keeps (s : State) :
    (State.audioSlot s).localTimer = s.localTimer ∧
    (State.audioSlot s).inputs = s.inputs ∧
    (State.audioSlot s).ctl = s.ctl ∧
    (State.audioSlot s).line = s.line ∧
    (State.audioSlot s).peers = s.peers ∧
    (State.audioSlot s).clock = s.clock ∧
    (State.audioSlot s).store = s.store ∧
    (State.audioSlot s).seq = s.seq ∧
    (State.audioSlot s).jet = s.jet ∧
    (State.audioSlot s).pump = s.pump ∧
    (State.audioSlot s).head = s.head ∧
    (State.audioSlot s).lights = s.lights ∧
    (State.audioSlot s).pending = s.pending := by
  unfold State.audioSlot; (try dsimp only); (repeat' split) <;> simp

@[simp] theorem State.resyncAudio_keeps (due : Nat) (s : State) :
    (State.resyncAudio due s).localTimer = s.localTimer ∧
    (State.resyncAudio due s).inputs = s.inputs ∧
    (State.resyncAudio due s).ctl = s.ctl ∧
    (State.resyncAudio due s).line = s.line ∧
    (State.resyncAudio due s).peers = s.peers ∧
    (State.resyncAudio due s).clock = s.clock ∧
    (State.resyncAudio due s).seq = s.seq ∧
    (State.resyncAudio due s).jet = s.jet ∧
    (State.resyncAudio due s).pump = s.pump ∧
    (State.resyncAudio due s).head = s.head ∧
    (State.resyncAudio due s).lights = s.lights ∧
    (State.resyncAudio due s).pending = s.pending ∧
    (State.resyncAudio due s).store.config = s.store.config ∧
    (State.resyncAudio due s).store.header = s.store.header := by
  unfold State.resyncAudio; (try dsimp only); (repeat' split) <;> simp

@[simp] theorem State.checkSync_keeps (s : State) :
    (State.checkSync s).localTimer = s.localTimer ∧
    (State.checkSync s).inputs = s.inputs ∧
    (State.checkSync s).ctl = s.ctl ∧
    (State.checkSync s).line = s.line ∧
    (State.checkSync s).peers = s.peers ∧
    (State.checkSync s).clock = s.clock ∧
    (State.checkSync s).seq = s.seq ∧
    (State.checkSync s).jet = s.jet ∧
    (State.checkSync s).pump = s.pump ∧
    (State.checkSync s).head = s.head ∧
    (State.checkSync s).lights = s.lights ∧
    (State.checkSync s).pending = s.pending ∧
    (State.checkSync s).store.config = s.store.config ∧
    (State.checkSync s).store.header = s.store.header := by
  unfold State.checkSync; (try dsimp only); (repeat' split) <;> simp

@[simp] theorem State.takeLevel_keeps (gain fade id : Nat) (instant : Bool) (s : State) :
    (State.takeLevel gain fade id instant s).localTimer = s.localTimer ∧
    (State.takeLevel gain fade id instant s).inputs = s.inputs ∧
    (State.takeLevel gain fade id instant s).ctl = s.ctl ∧
    (State.takeLevel gain fade id instant s).line = s.line ∧
    (State.takeLevel gain fade id instant s).peers = s.peers ∧
    (State.takeLevel gain fade id instant s).clock = s.clock ∧
    (State.takeLevel gain fade id instant s).store = s.store ∧
    (State.takeLevel gain fade id instant s).seq = s.seq ∧
    (State.takeLevel gain fade id instant s).jet = s.jet ∧
    (State.takeLevel gain fade id instant s).pump = s.pump ∧
    (State.takeLevel gain fade id instant s).head = s.head ∧
    (State.takeLevel gain fade id instant s).lights = s.lights ∧
    (State.takeLevel gain fade id instant s).pending = s.pending := by
  unfold State.takeLevel; (try dsimp only); (repeat' split) <;> simp

@[simp] theorem State.gainStep_keeps (s : State) :
    (State.gainStep s).localTimer = s.localTimer ∧
    (State.gainStep s).inputs = s.inputs ∧
    (State.gainStep s).line = s.line ∧
    (State.gainStep s).peers = s.peers ∧
    (State.gainStep s).clock = s.clock ∧
    (State.gainStep s).store = s.store ∧
    (State.gainStep s).seq = s.seq ∧
    (State.gainStep s).jet = s.jet ∧
    (State.gainStep s).pump = s.pump ∧
    (State.gainStep s).head = s.head ∧
    (State.gainStep s).lights = s.lights ∧
    (State.gainStep s).mon = s.mon ∧
    (State.gainStep s).pending = s.pending ∧
    (State.gainStep s).ctl.phase = s.ctl.phase ∧
    (State.gainStep s).ctl.station = s.ctl.station ∧
    (State.gainStep s).ctl.rehearsal = s.ctl.rehearsal := by
  unfold State.gainStep; (try dsimp only); (repeat' split) <;> simp

@[simp] theorem State.beginAudioRunOut_keeps (fromRunning : Bool) (s : State) :
    (State.beginAudioRunOut fromRunning s).localTimer = s.localTimer ∧
    (State.beginAudioRunOut fromRunning s).inputs = s.inputs ∧
    (State.beginAudioRunOut fromRunning s).line = s.line ∧
    (State.beginAudioRunOut fromRunning s).peers = s.peers ∧
    (State.beginAudioRunOut fromRunning s).clock = s.clock ∧
    (State.beginAudioRunOut fromRunning s).store = s.store ∧
    (State.beginAudioRunOut fromRunning s).seq = s.seq ∧
    (State.beginAudioRunOut fromRunning s).jet = s.jet ∧
    (State.beginAudioRunOut fromRunning s).pump = s.pump ∧
    (State.beginAudioRunOut fromRunning s).head = s.head ∧
    (State.beginAudioRunOut fromRunning s).lights = s.lights ∧
    (State.beginAudioRunOut fromRunning s).mon = s.mon ∧
    (State.beginAudioRunOut fromRunning s).pending = s.pending ∧
    (State.beginAudioRunOut fromRunning s).ctl.phase = s.ctl.phase ∧
    (State.beginAudioRunOut fromRunning s).ctl.station = s.ctl.station ∧
    (State.beginAudioRunOut fromRunning s).ctl.rehearsal = s.ctl.rehearsal := by
  unfold State.beginAudioRunOut; (try dsimp only); (repeat' split) <;> simp

@[simp] theorem State.reportPeers_keeps (s : State) :
    (State.reportPeers s).localTimer = s.localTimer ∧
    (State.reportPeers s).inputs = s.inputs ∧
    (State.reportPeers s).ctl = s.ctl ∧
    (State.reportPeers s).line = s.line ∧
    (State.reportPeers s).peers = s.peers ∧
    (State.reportPeers s).clock = s.clock ∧
    (State.reportPeers s).store = s.store ∧
    (State.reportPeers s).seq = s.seq ∧
    (State.reportPeers s).pump = s.pump ∧
    (State.reportPeers s).head = s.head ∧
    (State.reportPeers s).lights = s.lights ∧
    (State.reportPeers s).music = s.music ∧
    (State.reportPeers s).mon = s.mon ∧
    (State.reportPeers s).pending = s.pending := by
  unfold State.reportPeers; (try dsimp only); (repeat' split) <;> simp

@[simp] theorem State.dropOffsets_keeps (s : State) :
    (State.dropOffsets s).localTimer = s.localTimer ∧
    (State.dropOffsets s).inputs = s.inputs ∧
    (State.dropOffsets s).ctl = s.ctl ∧
    (State.dropOffsets s).line = s.line ∧
    (State.dropOffsets s).clock = s.clock ∧
    (State.dropOffsets s).store = s.store ∧
    (State.dropOffsets s).seq = s.seq ∧
    (State.dropOffsets s).jet = s.jet ∧
    (State.dropOffsets s).pump = s.pump ∧
    (State.dropOffsets s).head = s.head ∧
    (State.dropOffsets s).lights = s.lights ∧
    (State.dropOffsets s).music = s.music ∧
    (State.dropOffsets s).mon = s.mon ∧
    (State.dropOffsets s).pending = s.pending := by
  unfold State.dropOffsets; (try dsimp only); (repeat' split) <;> simp

@[simp] theorem State.recordSetting_keeps (s : State) :
    (State.recordSetting s).localTimer = s.localTimer ∧
    (State.recordSetting s).inputs = s.inputs ∧
    (State.recordSetting s).ctl = s.ctl ∧
    (State.recordSetting s).line = s.line ∧
    (State.recordSetting s).clock = s.clock ∧
    (State.recordSetting s).store = s.store ∧
    (State.recordSetting s).seq = s.seq ∧
    (State.recordSetting s).jet = s.jet ∧
    (State.recordSetting s).pump = s.pump ∧
    (State.recordSetting s).head = s.head ∧
    (State.recordSetting s).lights = s.lights ∧
    (State.recordSetting s).music = s.music ∧
    (State.recordSetting s).mon = s.mon ∧
    (State.recordSetting s).pending = s.pending := by
  unfold State.recordSetting; (try dsimp only); (repeat' split) <;> simp

@[simp] theorem State.shiftOffsets_keeps (a : Int) (s : State) :
    (State.shiftOffsets a s).localTimer = s.localTimer ∧
    (State.shiftOffsets a s).inputs = s.inputs ∧
    (State.shiftOffsets a s).ctl = s.ctl ∧
    (State.shiftOffsets a s).line = s.line ∧
    (State.shiftOffsets a s).clock = s.clock ∧
    (State.shiftOffsets a s).store = s.store ∧
    (State.shiftOffsets a s).seq = s.seq ∧
    (State.shiftOffsets a s).jet = s.jet ∧
    (State.shiftOffsets a s).pump = s.pump ∧
    (State.shiftOffsets a s).head = s.head ∧
    (State.shiftOffsets a s).lights = s.lights ∧
    (State.shiftOffsets a s).music = s.music ∧
    (State.shiftOffsets a s).mon = s.mon ∧
    (State.shiftOffsets a s).pending = s.pending := by
  unfold State.shiftOffsets; (try dsimp only); (repeat' split) <;> simp

@[simp] theorem State.idlePeers_keeps (s : State) :
    (State.idlePeers s).localTimer = s.localTimer ∧
    (State.idlePeers s).inputs = s.inputs ∧
    (State.idlePeers s).ctl = s.ctl ∧
    (State.idlePeers s).line = s.line ∧
    (State.idlePeers s).clock = s.clock ∧
    (State.idlePeers s).store = s.store ∧
    (State.idlePeers s).seq = s.seq ∧
    (State.idlePeers s).pump = s.pump ∧
    (State.idlePeers s).head = s.head ∧
    (State.idlePeers s).lights = s.lights ∧
    (State.idlePeers s).music = s.music ∧
    (State.idlePeers s).mon = s.mon ∧
    (State.idlePeers s).pending = s.pending := by
  unfold State.idlePeers; (try dsimp only); (repeat' split) <;> simp

@[simp] theorem State.hearPace_keeps (k : Peer) (p : PacePayload) (rx : Rx) (s : State) :
    (State.hearPace k p rx s).localTimer = s.localTimer ∧
    (State.hearPace k p rx s).inputs = s.inputs ∧
    (State.hearPace k p rx s).ctl = s.ctl ∧
    (State.hearPace k p rx s).line = s.line ∧
    (State.hearPace k p rx s).store = s.store ∧
    (State.hearPace k p rx s).seq = s.seq ∧
    (State.hearPace k p rx s).pump = s.pump ∧
    (State.hearPace k p rx s).head = s.head ∧
    (State.hearPace k p rx s).lights = s.lights ∧
    (State.hearPace k p rx s).music = s.music ∧
    (State.hearPace k p rx s).mon = s.mon ∧
    (State.hearPace k p rx s).pending = s.pending ∧
    (State.hearPace k p rx s).clock.showTime = s.clock.showTime ∧
    (State.hearPace k p rx s).clock.paceTimer = s.clock.paceTimer := by
  unfold State.hearPace; (try dsimp only); (repeat' split) <;> simp

@[simp] theorem State.lapsePeer_keeps (k : Peer) (s : State) :
    (State.lapsePeer k s).localTimer = s.localTimer ∧
    (State.lapsePeer k s).inputs = s.inputs ∧
    (State.lapsePeer k s).ctl = s.ctl ∧
    (State.lapsePeer k s).line = s.line ∧
    (State.lapsePeer k s).store = s.store ∧
    (State.lapsePeer k s).seq = s.seq ∧
    (State.lapsePeer k s).pump = s.pump ∧
    (State.lapsePeer k s).head = s.head ∧
    (State.lapsePeer k s).lights = s.lights ∧
    (State.lapsePeer k s).music = s.music ∧
    (State.lapsePeer k s).mon = s.mon ∧
    (State.lapsePeer k s).pending = s.pending ∧
    (State.lapsePeer k s).clock.showTime = s.clock.showTime ∧
    (State.lapsePeer k s).clock.paceTimer = s.clock.paceTimer := by
  unfold State.lapsePeer; (try dsimp only); (repeat' split) <;> simp

@[simp] theorem State.losePeer_keeps (k : Peer) (s : State) :
    (State.losePeer k s).localTimer = s.localTimer ∧
    (State.losePeer k s).inputs = s.inputs ∧
    (State.losePeer k s).ctl = s.ctl ∧
    (State.losePeer k s).line = s.line ∧
    (State.losePeer k s).clock = s.clock ∧
    (State.losePeer k s).store = s.store ∧
    (State.losePeer k s).seq = s.seq ∧
    (State.losePeer k s).pump = s.pump ∧
    (State.losePeer k s).head = s.head ∧
    (State.losePeer k s).lights = s.lights ∧
    (State.losePeer k s).music = s.music ∧
    (State.losePeer k s).mon = s.mon ∧
    (State.losePeer k s).pending = s.pending := by
  unfold State.losePeer; (try dsimp only); (repeat' split) <;> simp

end Sys2Proof.Machine
end

