-- ==== Sys2Proof/Laws/KeepsShow.lean ====
section
/-! SUPPORT. What the changes of the show state, the Cue Sequencer, Jet Computation and the Line Controller leave as it stands. -/

set_option linter.all false

namespace Sys2Proof.Machine

@[simp] theorem State.changeState_keeps (new : ShowState) (s : State) :
    (State.changeState new s).localTimer = s.localTimer ∧
    (State.changeState new s).inputs = s.inputs ∧
    (State.changeState new s).line = s.line ∧
    (State.changeState new s).peers = s.peers ∧
    (State.changeState new s).store = s.store ∧
    (State.changeState new s).seq = s.seq ∧
    (State.changeState new s).pump = s.pump ∧
    (State.changeState new s).head = s.head ∧
    (State.changeState new s).lights = s.lights ∧
    (State.changeState new s).music = s.music ∧
    (State.changeState new s).mon = s.mon ∧
    (State.changeState new s).pending = s.pending ∧
    (State.changeState new s).ctl.phase = s.ctl.phase ∧
    (State.changeState new s).ctl.station = s.ctl.station ∧
    (State.changeState new s).ctl.rehearsal = s.ctl.rehearsal ∧
    (State.changeState new s).clock.showTime = s.clock.showTime ∧
    (State.changeState new s).clock.paceTimer = s.clock.paceTimer := by
  unfold State.changeState; (try dsimp only); (repeat' split) <;> simp

@[simp] theorem State.clearSequencer_keeps (s : State) :
    (State.clearSequencer s).localTimer = s.localTimer ∧
    (State.clearSequencer s).inputs = s.inputs ∧
    (State.clearSequencer s).ctl = s.ctl ∧
    (State.clearSequencer s).line = s.line ∧
    (State.clearSequencer s).peers = s.peers ∧
    (State.clearSequencer s).clock = s.clock ∧
    (State.clearSequencer s).pump = s.pump ∧
    (State.clearSequencer s).head = s.head ∧
    (State.clearSequencer s).lights = s.lights ∧
    (State.clearSequencer s).music = s.music ∧
    (State.clearSequencer s).mon = s.mon ∧
    (State.clearSequencer s).pending = s.pending ∧
    (State.clearSequencer s).store.config = s.store.config ∧
    (State.clearSequencer s).store.header = s.store.header := by
  unfold State.clearSequencer; (try dsimp only); (repeat' split) <;> simp

@[simp] theorem State.resetSection_keeps (s : State) :
    (State.resetSection s).localTimer = s.localTimer ∧
    (State.resetSection s).inputs = s.inputs ∧
    (State.resetSection s).ctl = s.ctl ∧
    (State.resetSection s).line = s.line ∧
    (State.resetSection s).peers = s.peers ∧
    (State.resetSection s).clock = s.clock ∧
    (State.resetSection s).store = s.store ∧
    (State.resetSection s).jet = s.jet ∧
    (State.resetSection s).pump = s.pump ∧
    (State.resetSection s).head = s.head ∧
    (State.resetSection s).lights = s.lights ∧
    (State.resetSection s).music = s.music ∧
    (State.resetSection s).mon = s.mon ∧
    (State.resetSection s).pending = s.pending := by
  unfold State.resetSection; (try dsimp only); (repeat' split) <;> simp

@[simp] theorem State.enterIdle_keeps (soft : Bool) (s : State) :
    (State.enterIdle soft s).localTimer = s.localTimer ∧
    (State.enterIdle soft s).inputs = s.inputs ∧
    (State.enterIdle soft s).line = s.line ∧
    (State.enterIdle soft s).head = s.head ∧
    (State.enterIdle soft s).pending = s.pending ∧
    (State.enterIdle soft s).clock.showTime = s.clock.showTime ∧
    (State.enterIdle soft s).clock.paceTimer = s.clock.paceTimer ∧
    (State.enterIdle soft s).ctl.phase = s.ctl.phase ∧
    (State.enterIdle soft s).ctl.station = s.ctl.station ∧
    (State.enterIdle soft s).ctl.rehearsal = s.ctl.rehearsal ∧
    (State.enterIdle soft s).store.config = s.store.config ∧
    (State.enterIdle soft s).store.header = s.store.header := by
  unfold State.enterIdle; (try dsimp only); (repeat' split) <;> simp

@[simp] theorem State.checkEnding_keeps (s : State) :
    (State.checkEnding s).localTimer = s.localTimer ∧
    (State.checkEnding s).inputs = s.inputs ∧
    (State.checkEnding s).line = s.line ∧
    (State.checkEnding s).head = s.head ∧
    (State.checkEnding s).pending = s.pending ∧
    (State.checkEnding s).clock.showTime = s.clock.showTime ∧
    (State.checkEnding s).clock.paceTimer = s.clock.paceTimer ∧
    (State.checkEnding s).ctl.phase = s.ctl.phase ∧
    (State.checkEnding s).ctl.station = s.ctl.station ∧
    (State.checkEnding s).ctl.rehearsal = s.ctl.rehearsal ∧
    (State.checkEnding s).store.config = s.store.config ∧
    (State.checkEnding s).store.header = s.store.header := by
  unfold State.checkEnding; (try dsimp only); (repeat' split) <;> simp

@[simp] theorem State.zeroTargets_keeps (s : State) :
    (State.zeroTargets s).localTimer = s.localTimer ∧
    (State.zeroTargets s).inputs = s.inputs ∧
    (State.zeroTargets s).ctl = s.ctl ∧
    (State.zeroTargets s).line = s.line ∧
    (State.zeroTargets s).peers = s.peers ∧
    (State.zeroTargets s).clock = s.clock ∧
    (State.zeroTargets s).store = s.store ∧
    (State.zeroTargets s).seq = s.seq ∧
    (State.zeroTargets s).pump = s.pump ∧
    (State.zeroTargets s).head = s.head ∧
    (State.zeroTargets s).lights = s.lights ∧
    (State.zeroTargets s).music = s.music ∧
    (State.zeroTargets s).mon = s.mon ∧
    (State.zeroTargets s).pending = s.pending := by
  unfold State.zeroTargets; (try dsimp only); (repeat' split) <;> simp

@[simp] theorem State.enterEnding_keeps (cause : EndingCause) (s : State) :
    (State.enterEnding cause s).localTimer = s.localTimer ∧
    (State.enterEnding cause s).inputs = s.inputs ∧
    (State.enterEnding cause s).line = s.line ∧
    (State.enterEnding cause s).pending = s.pending ∧
    (State.enterEnding cause s).clock.showTime = s.clock.showTime ∧
    (State.enterEnding cause s).clock.paceTimer = s.clock.paceTimer ∧
    (State.enterEnding cause s).ctl.phase = s.ctl.phase ∧
    (State.enterEnding cause s).ctl.station = s.ctl.station ∧
    (State.enterEnding cause s).ctl.rehearsal = s.ctl.rehearsal ∧
    (State.enterEnding cause s).store.config = s.store.config ∧
    (State.enterEnding cause s).store.header = s.store.header := by
  unfold State.enterEnding; (try dsimp only); (repeat' split) <;> simp

@[simp] theorem State.enterSafe_keeps (cause : SafeCause) (s : State) :
    (State.enterSafe cause s).localTimer = s.localTimer ∧
    (State.enterSafe cause s).inputs = s.inputs ∧
    (State.enterSafe cause s).line = s.line ∧
    (State.enterSafe cause s).pending = s.pending ∧
    (State.enterSafe cause s).clock.showTime = s.clock.showTime ∧
    (State.enterSafe cause s).clock.paceTimer = s.clock.paceTimer ∧
    (State.enterSafe cause s).ctl.phase = s.ctl.phase ∧
    (State.enterSafe cause s).ctl.station = s.ctl.station ∧
    (State.enterSafe cause s).ctl.rehearsal = s.ctl.rehearsal ∧
    (State.enterSafe cause s).store.config = s.store.config ∧
    (State.enterSafe cause s).store.header = s.store.header := by
  unfold State.enterSafe; (try dsimp only); (repeat' split) <;> simp

@[simp] theorem State.emptySafe_keeps (s : State) :
    (State.emptySafe s).localTimer = s.localTimer ∧
    (State.emptySafe s).inputs = s.inputs ∧
    (State.emptySafe s).line = s.line ∧
    (State.emptySafe s).peers = s.peers ∧
    (State.emptySafe s).clock = s.clock ∧
    (State.emptySafe s).store = s.store ∧
    (State.emptySafe s).seq = s.seq ∧
    (State.emptySafe s).jet = s.jet ∧
    (State.emptySafe s).pump = s.pump ∧
    (State.emptySafe s).head = s.head ∧
    (State.emptySafe s).lights = s.lights ∧
    (State.emptySafe s).music = s.music ∧
    (State.emptySafe s).mon = s.mon ∧
    (State.emptySafe s).pending = s.pending ∧
    (State.emptySafe s).ctl.phase = s.ctl.phase ∧
    (State.emptySafe s).ctl.station = s.ctl.station ∧
    (State.emptySafe s).ctl.rehearsal = s.ctl.rehearsal := by
  unfold State.emptySafe; (try dsimp only); (repeat' split) <;> simp

@[simp] theorem State.checkTimeLimit_keeps (s : State) :
    (State.checkTimeLimit s).localTimer = s.localTimer ∧
    (State.checkTimeLimit s).inputs = s.inputs ∧
    (State.checkTimeLimit s).line = s.line ∧
    (State.checkTimeLimit s).pending = s.pending ∧
    (State.checkTimeLimit s).clock.showTime = s.clock.showTime ∧
    (State.checkTimeLimit s).clock.paceTimer = s.clock.paceTimer ∧
    (State.checkTimeLimit s).ctl.phase = s.ctl.phase ∧
    (State.checkTimeLimit s).ctl.station = s.ctl.station ∧
    (State.checkTimeLimit s).ctl.rehearsal = s.ctl.rehearsal ∧
    (State.checkTimeLimit s).store.config = s.store.config ∧
    (State.checkTimeLimit s).store.header = s.store.header := by
  unfold State.checkTimeLimit; (try dsimp only); (repeat' split) <;> simp

@[simp] theorem State.enterRunning_keeps (s : State) :
    (State.enterRunning s).localTimer = s.localTimer ∧
    (State.enterRunning s).inputs = s.inputs ∧
    (State.enterRunning s).line = s.line ∧
    (State.enterRunning s).pending = s.pending ∧
    (State.enterRunning s).clock.showTime = s.clock.showTime ∧
    (State.enterRunning s).clock.paceTimer = s.clock.paceTimer ∧
    (State.enterRunning s).store.config = s.store.config ∧
    (State.enterRunning s).store.header = s.store.header ∧
    (State.enterRunning s).ctl.phase = s.ctl.phase ∧
    (State.enterRunning s).ctl.station = s.ctl.station ∧
    (State.enterRunning s).ctl.rehearsal = s.ctl.rehearsal := by
  unfold State.enterRunning; (try dsimp only); (repeat' split) <;> simp

@[simp] theorem State.checkZero_keeps (s : State) :
    (State.checkZero s).localTimer = s.localTimer ∧
    (State.checkZero s).inputs = s.inputs ∧
    (State.checkZero s).line = s.line ∧
    (State.checkZero s).pending = s.pending ∧
    (State.checkZero s).clock.showTime = s.clock.showTime ∧
    (State.checkZero s).clock.paceTimer = s.clock.paceTimer ∧
    (State.checkZero s).store.config = s.store.config ∧
    (State.checkZero s).store.header = s.store.header ∧
    (State.checkZero s).ctl.phase = s.ctl.phase ∧
    (State.checkZero s).ctl.station = s.ctl.station ∧
    (State.checkZero s).ctl.rehearsal = s.ctl.rehearsal := by
  unfold State.checkZero; (try dsimp only); (repeat' split) <;> simp

@[simp] theorem State.enterHold_keeps (s : State) :
    (State.enterHold s).localTimer = s.localTimer ∧
    (State.enterHold s).inputs = s.inputs ∧
    (State.enterHold s).line = s.line ∧
    (State.enterHold s).peers = s.peers ∧
    (State.enterHold s).store = s.store ∧
    (State.enterHold s).head = s.head ∧
    (State.enterHold s).music = s.music ∧
    (State.enterHold s).pending = s.pending ∧
    (State.enterHold s).clock.showTime = s.clock.showTime ∧
    (State.enterHold s).clock.paceTimer = s.clock.paceTimer ∧
    (State.enterHold s).ctl.phase = s.ctl.phase ∧
    (State.enterHold s).ctl.station = s.ctl.station ∧
    (State.enterHold s).ctl.rehearsal = s.ctl.rehearsal := by
  unfold State.enterHold; (try dsimp only); (repeat' split) <;> simp

@[simp] theorem State.applyMark_keeps (sectionNo beatLen beat id : Nat) (s : State) :
    (State.applyMark sectionNo beatLen beat id s).localTimer = s.localTimer ∧
    (State.applyMark sectionNo beatLen beat id s).inputs = s.inputs ∧
    (State.applyMark sectionNo beatLen beat id s).ctl = s.ctl ∧
    (State.applyMark sectionNo beatLen beat id s).line = s.line ∧
    (State.applyMark sectionNo beatLen beat id s).peers = s.peers ∧
    (State.applyMark sectionNo beatLen beat id s).clock = s.clock ∧
    (State.applyMark sectionNo beatLen beat id s).store = s.store ∧
    (State.applyMark sectionNo beatLen beat id s).music = s.music ∧
    (State.applyMark sectionNo beatLen beat id s).pending = s.pending := by
  unfold State.applyMark; (try dsimp only); (repeat' split) <;> simp

@[simp] theorem State.applyJet_keeps (c : Channel) (height : Nat) (openSet : NozzleSet) (id : Nat) (s : State) :
    (State.applyJet c height openSet id s).localTimer = s.localTimer ∧
    (State.applyJet c height openSet id s).inputs = s.inputs ∧
    (State.applyJet c height openSet id s).ctl = s.ctl ∧
    (State.applyJet c height openSet id s).line = s.line ∧
    (State.applyJet c height openSet id s).peers = s.peers ∧
    (State.applyJet c height openSet id s).clock = s.clock ∧
    (State.applyJet c height openSet id s).store = s.store ∧
    (State.applyJet c height openSet id s).jet = s.jet ∧
    (State.applyJet c height openSet id s).pump = s.pump ∧
    (State.applyJet c height openSet id s).head = s.head ∧
    (State.applyJet c height openSet id s).lights = s.lights ∧
    (State.applyJet c height openSet id s).music = s.music ∧
    (State.applyJet c height openSet id s).mon = s.mon ∧
    (State.applyJet c height openSet id s).pending = s.pending := by
  unfold State.applyJet; (try dsimp only); (repeat' split) <;> simp

@[simp] theorem State.handOn_keeps (c : CueRec) (scan : Bool) (s : State) :
    (State.handOn c scan s).localTimer = s.localTimer ∧
    (State.handOn c scan s).inputs = s.inputs ∧
    (State.handOn c scan s).line = s.line ∧
    (State.handOn c scan s).pending = s.pending ∧
    (State.handOn c scan s).clock.showTime = s.clock.showTime ∧
    (State.handOn c scan s).clock.paceTimer = s.clock.paceTimer ∧
    (State.handOn c scan s).ctl.phase = s.ctl.phase ∧
    (State.handOn c scan s).ctl.station = s.ctl.station ∧
    (State.handOn c scan s).ctl.rehearsal = s.ctl.rehearsal ∧
    (State.handOn c scan s).store.config = s.store.config ∧
    (State.handOn c scan s).store.header = s.store.header := by
  unfold State.handOn; (try dsimp only); (repeat' split) <;> simp

@[simp] theorem State.predict_keeps (c : CueRec) (s : State) :
    (State.predict c s).localTimer = s.localTimer ∧
    (State.predict c s).inputs = s.inputs ∧
    (State.predict c s).ctl = s.ctl ∧
    (State.predict c s).line = s.line ∧
    (State.predict c s).peers = s.peers ∧
    (State.predict c s).clock = s.clock ∧
    (State.predict c s).store = s.store ∧
    (State.predict c s).jet = s.jet ∧
    (State.predict c s).pump = s.pump ∧
    (State.predict c s).head = s.head ∧
    (State.predict c s).lights = s.lights ∧
    (State.predict c s).music = s.music ∧
    (State.predict c s).mon = s.mon ∧
    (State.predict c s).pending = s.pending := by
  unfold State.predict; (try dsimp only); (repeat' split) <;> simp

@[simp] theorem State.unstage_keeps (s : State) :
    (State.unstage s).localTimer = s.localTimer ∧
    (State.unstage s).inputs = s.inputs ∧
    (State.unstage s).ctl = s.ctl ∧
    (State.unstage s).line = s.line ∧
    (State.unstage s).peers = s.peers ∧
    (State.unstage s).clock = s.clock ∧
    (State.unstage s).store = s.store ∧
    (State.unstage s).jet = s.jet ∧
    (State.unstage s).pump = s.pump ∧
    (State.unstage s).head = s.head ∧
    (State.unstage s).lights = s.lights ∧
    (State.unstage s).music = s.music ∧
    (State.unstage s).mon = s.mon ∧
    (State.unstage s).pending = s.pending := by
  unfold State.unstage; (try dsimp only); (repeat' split) <;> simp

@[simp] theorem State.takeStaged_keeps (s : State) :
    (State.takeStaged s).localTimer = s.localTimer ∧
    (State.takeStaged s).inputs = s.inputs ∧
    (State.takeStaged s).line = s.line ∧
    (State.takeStaged s).pending = s.pending ∧
    (State.takeStaged s).clock.showTime = s.clock.showTime ∧
    (State.takeStaged s).clock.paceTimer = s.clock.paceTimer ∧
    (State.takeStaged s).ctl.phase = s.ctl.phase ∧
    (State.takeStaged s).ctl.station = s.ctl.station ∧
    (State.takeStaged s).ctl.rehearsal = s.ctl.rehearsal ∧
    (State.takeStaged s).store.config = s.store.config ∧
    (State.takeStaged s).store.header = s.store.header := by
  unfold State.takeStaged; (try dsimp only); (repeat' split) <;> simp

@[simp] theorem State.retake_keeps (s : State) :
    (State.retake s).localTimer = s.localTimer ∧
    (State.retake s).inputs = s.inputs ∧
    (State.retake s).line = s.line ∧
    (State.retake s).pending = s.pending ∧
    (State.retake s).clock.showTime = s.clock.showTime ∧
    (State.retake s).clock.paceTimer = s.clock.paceTimer ∧
    (State.retake s).ctl.phase = s.ctl.phase ∧
    (State.retake s).ctl.station = s.ctl.station ∧
    (State.retake s).ctl.rehearsal = s.ctl.rehearsal ∧
    (State.retake s).store.config = s.store.config ∧
    (State.retake s).store.header = s.store.header := by
  unfold State.retake; (try dsimp only); (repeat' split) <;> simp

@[simp] theorem State.issueHead_keeps (s : State) :
    (State.issueHead s).localTimer = s.localTimer ∧
    (State.issueHead s).inputs = s.inputs ∧
    (State.issueHead s).line = s.line ∧
    (State.issueHead s).pending = s.pending ∧
    (State.issueHead s).clock.showTime = s.clock.showTime ∧
    (State.issueHead s).clock.paceTimer = s.clock.paceTimer ∧
    (State.issueHead s).ctl.phase = s.ctl.phase ∧
    (State.issueHead s).ctl.station = s.ctl.station ∧
    (State.issueHead s).ctl.rehearsal = s.ctl.rehearsal ∧
    (State.issueHead s).store.config = s.store.config ∧
    (State.issueHead s).store.header = s.store.header := by
  unfold State.issueHead; (try dsimp only); (repeat' split) <;> simp

@[simp] theorem issueDueN_keeps (n : Nat) (s : State) :
    (issueDueN n s).localTimer = s.localTimer ∧
    (issueDueN n s).inputs = s.inputs ∧
    (issueDueN n s).line = s.line ∧
    (issueDueN n s).pending = s.pending ∧
    (issueDueN n s).clock.showTime = s.clock.showTime ∧
    (issueDueN n s).clock.paceTimer = s.clock.paceTimer ∧
    (issueDueN n s).ctl.phase = s.ctl.phase ∧
    (issueDueN n s).ctl.station = s.ctl.station ∧
    (issueDueN n s).ctl.rehearsal = s.ctl.rehearsal ∧
    (issueDueN n s).store.config = s.store.config ∧
    (issueDueN n s).store.header = s.store.header := by
  induction n generalizing s with
  | zero => simp [issueDueN]
  | succ n ih => unfold issueDueN; (repeat' split) <;> simp [ih]

@[simp] theorem State.issueDue_keeps (s : State) :
    (State.issueDue s).localTimer = s.localTimer ∧
    (State.issueDue s).inputs = s.inputs ∧
    (State.issueDue s).line = s.line ∧
    (State.issueDue s).pending = s.pending ∧
    (State.issueDue s).clock.showTime = s.clock.showTime ∧
    (State.issueDue s).clock.paceTimer = s.clock.paceTimer ∧
    (State.issueDue s).ctl.phase = s.ctl.phase ∧
    (State.issueDue s).ctl.station = s.ctl.station ∧
    (State.issueDue s).ctl.rehearsal = s.ctl.rehearsal ∧
    (State.issueDue s).store.config = s.store.config ∧
    (State.issueDue s).store.header = s.store.header := by
  unfold State.issueDue; (try dsimp only); (repeat' split) <;> simp

@[simp] theorem State.checkRecord_keeps (r : List Byte) (s : State) :
    (State.checkRecord r s).localTimer = s.localTimer ∧
    (State.checkRecord r s).inputs = s.inputs ∧
    (State.checkRecord r s).ctl = s.ctl ∧
    (State.checkRecord r s).line = s.line ∧
    (State.checkRecord r s).peers = s.peers ∧
    (State.checkRecord r s).clock = s.clock ∧
    (State.checkRecord r s).store = s.store ∧
    (State.checkRecord r s).jet = s.jet ∧
    (State.checkRecord r s).pump = s.pump ∧
    (State.checkRecord r s).head = s.head ∧
    (State.checkRecord r s).lights = s.lights ∧
    (State.checkRecord r s).music = s.music ∧
    (State.checkRecord r s).pending = s.pending := by
  unfold State.checkRecord; (try dsimp only); (repeat' split) <;> simp

@[simp] theorem State.discardPartial_keeps (s : State) :
    (State.discardPartial s).localTimer = s.localTimer ∧
    (State.discardPartial s).inputs = s.inputs ∧
    (State.discardPartial s).ctl = s.ctl ∧
    (State.discardPartial s).line = s.line ∧
    (State.discardPartial s).peers = s.peers ∧
    (State.discardPartial s).clock = s.clock ∧
    (State.discardPartial s).store = s.store ∧
    (State.discardPartial s).jet = s.jet ∧
    (State.discardPartial s).pump = s.pump ∧
    (State.discardPartial s).head = s.head ∧
    (State.discardPartial s).lights = s.lights ∧
    (State.discardPartial s).music = s.music ∧
    (State.discardPartial s).pending = s.pending := by
  unfold State.discardPartial; (try dsimp only); (repeat' split) <;> simp

@[simp] theorem State.blockUnreadable_keeps (s : State) :
    (State.blockUnreadable s).localTimer = s.localTimer ∧
    (State.blockUnreadable s).inputs = s.inputs ∧
    (State.blockUnreadable s).ctl = s.ctl ∧
    (State.blockUnreadable s).line = s.line ∧
    (State.blockUnreadable s).peers = s.peers ∧
    (State.blockUnreadable s).clock = s.clock ∧
    (State.blockUnreadable s).store = s.store ∧
    (State.blockUnreadable s).jet = s.jet ∧
    (State.blockUnreadable s).pump = s.pump ∧
    (State.blockUnreadable s).head = s.head ∧
    (State.blockUnreadable s).lights = s.lights ∧
    (State.blockUnreadable s).music = s.music ∧
    (State.blockUnreadable s).pending = s.pending := by
  unfold State.blockUnreadable; (try dsimp only); (repeat' split) <;> simp

@[simp] theorem State.decodeOne_keeps (s : State) :
    (State.decodeOne s).localTimer = s.localTimer ∧
    (State.decodeOne s).inputs = s.inputs ∧
    (State.decodeOne s).ctl = s.ctl ∧
    (State.decodeOne s).line = s.line ∧
    (State.decodeOne s).peers = s.peers ∧
    (State.decodeOne s).clock = s.clock ∧
    (State.decodeOne s).store = s.store ∧
    (State.decodeOne s).jet = s.jet ∧
    (State.decodeOne s).pump = s.pump ∧
    (State.decodeOne s).head = s.head ∧
    (State.decodeOne s).lights = s.lights ∧
    (State.decodeOne s).music = s.music ∧
    (State.decodeOne s).pending = s.pending := by
  unfold State.decodeOne; (try dsimp only); (repeat' split) <;> simp

@[simp] theorem State.takeCueBlock_keeps (payload : List Byte) (s : State) :
    (State.takeCueBlock payload s).localTimer = s.localTimer ∧
    (State.takeCueBlock payload s).inputs = s.inputs ∧
    (State.takeCueBlock payload s).ctl = s.ctl ∧
    (State.takeCueBlock payload s).line = s.line ∧
    (State.takeCueBlock payload s).peers = s.peers ∧
    (State.takeCueBlock payload s).clock = s.clock ∧
    (State.takeCueBlock payload s).store = s.store ∧
    (State.takeCueBlock payload s).jet = s.jet ∧
    (State.takeCueBlock payload s).pump = s.pump ∧
    (State.takeCueBlock payload s).head = s.head ∧
    (State.takeCueBlock payload s).lights = s.lights ∧
    (State.takeCueBlock payload s).music = s.music ∧
    (State.takeCueBlock payload s).pending = s.pending := by
  unfold State.takeCueBlock; (try dsimp only); (repeat' split) <;> simp

@[simp] theorem State.cueBlockLost_keeps (s : State) :
    (State.cueBlockLost s).localTimer = s.localTimer ∧
    (State.cueBlockLost s).inputs = s.inputs ∧
    (State.cueBlockLost s).ctl = s.ctl ∧
    (State.cueBlockLost s).line = s.line ∧
    (State.cueBlockLost s).peers = s.peers ∧
    (State.cueBlockLost s).clock = s.clock ∧
    (State.cueBlockLost s).store = s.store ∧
    (State.cueBlockLost s).jet = s.jet ∧
    (State.cueBlockLost s).pump = s.pump ∧
    (State.cueBlockLost s).head = s.head ∧
    (State.cueBlockLost s).lights = s.lights ∧
    (State.cueBlockLost s).music = s.music ∧
    (State.cueBlockLost s).mon = s.mon ∧
    (State.cueBlockLost s).pending = s.pending := by
  unfold State.cueBlockLost; (try dsimp only); (repeat' split) <;> simp

@[simp] theorem State.cueReaderOn_keeps (s : State) :
    (State.cueReaderOn s).localTimer = s.localTimer ∧
    (State.cueReaderOn s).inputs = s.inputs ∧
    (State.cueReaderOn s).ctl = s.ctl ∧
    (State.cueReaderOn s).line = s.line ∧
    (State.cueReaderOn s).peers = s.peers ∧
    (State.cueReaderOn s).clock = s.clock ∧
    (State.cueReaderOn s).seq = s.seq ∧
    (State.cueReaderOn s).jet = s.jet ∧
    (State.cueReaderOn s).pump = s.pump ∧
    (State.cueReaderOn s).head = s.head ∧
    (State.cueReaderOn s).lights = s.lights ∧
    (State.cueReaderOn s).music = s.music ∧
    (State.cueReaderOn s).mon = s.mon ∧
    (State.cueReaderOn s).pending = s.pending ∧
    (State.cueReaderOn s).store.config = s.store.config ∧
    (State.cueReaderOn s).store.header = s.store.header := by
  unfold State.cueReaderOn; (try dsimp only); (repeat' split) <;> simp

@[simp] theorem State.endOfStream_keeps (s : State) :
    (State.endOfStream s).localTimer = s.localTimer ∧
    (State.endOfStream s).inputs = s.inputs ∧
    (State.endOfStream s).ctl = s.ctl ∧
    (State.endOfStream s).line = s.line ∧
    (State.endOfStream s).peers = s.peers ∧
    (State.endOfStream s).clock = s.clock ∧
    (State.endOfStream s).store = s.store ∧
    (State.endOfStream s).jet = s.jet ∧
    (State.endOfStream s).pump = s.pump ∧
    (State.endOfStream s).head = s.head ∧
    (State.endOfStream s).lights = s.lights ∧
    (State.endOfStream s).music = s.music ∧
    (State.endOfStream s).pending = s.pending := by
  unfold State.endOfStream; (try dsimp only); (repeat' split) <;> simp

@[simp] theorem State.endScan_keeps (s : State) :
    (State.endScan s).localTimer = s.localTimer ∧
    (State.endScan s).inputs = s.inputs ∧
    (State.endScan s).line = s.line ∧
    (State.endScan s).pending = s.pending ∧
    (State.endScan s).clock.showTime = s.clock.showTime ∧
    (State.endScan s).clock.paceTimer = s.clock.paceTimer ∧
    (State.endScan s).ctl.phase = s.ctl.phase ∧
    (State.endScan s).ctl.station = s.ctl.station ∧
    (State.endScan s).ctl.rehearsal = s.ctl.rehearsal ∧
    (State.endScan s).store.config = s.store.config ∧
    (State.endScan s).store.header = s.store.header := by
  unfold State.endScan; (try dsimp only); (repeat' split) <;> simp

@[simp] theorem State.applyCue_keeps (c : CueRec) (s : State) :
    (State.applyCue c s).localTimer = s.localTimer ∧
    (State.applyCue c s).inputs = s.inputs ∧
    (State.applyCue c s).line = s.line ∧
    (State.applyCue c s).pending = s.pending ∧
    (State.applyCue c s).clock.showTime = s.clock.showTime ∧
    (State.applyCue c s).clock.paceTimer = s.clock.paceTimer ∧
    (State.applyCue c s).ctl.phase = s.ctl.phase ∧
    (State.applyCue c s).ctl.station = s.ctl.station ∧
    (State.applyCue c s).ctl.rehearsal = s.ctl.rehearsal ∧
    (State.applyCue c s).store.config = s.store.config ∧
    (State.applyCue c s).store.header = s.store.header := by
  unfold State.applyCue; (try dsimp only); (repeat' split) <;> simp

@[simp] theorem readOnN_keeps (n : Nat) (s : State) :
    (readOnN n s).localTimer = s.localTimer ∧
    (readOnN n s).inputs = s.inputs ∧
    (readOnN n s).line = s.line ∧
    (readOnN n s).pending = s.pending ∧
    (readOnN n s).clock.showTime = s.clock.showTime ∧
    (readOnN n s).clock.paceTimer = s.clock.paceTimer ∧
    (readOnN n s).store.config = s.store.config ∧
    (readOnN n s).store.header = s.store.header ∧
    (readOnN n s).ctl.phase = s.ctl.phase ∧
    (readOnN n s).ctl.station = s.ctl.station ∧
    (readOnN n s).ctl.rehearsal = s.ctl.rehearsal := by
  induction n generalizing s with
  | zero => simp [readOnN]
  | succ n ih => unfold readOnN; (repeat' split) <;> simp [ih]

@[simp] theorem State.readOn_keeps (s : State) :
    (State.readOn s).localTimer = s.localTimer ∧
    (State.readOn s).inputs = s.inputs ∧
    (State.readOn s).line = s.line ∧
    (State.readOn s).pending = s.pending ∧
    (State.readOn s).clock.showTime = s.clock.showTime ∧
    (State.readOn s).clock.paceTimer = s.clock.paceTimer ∧
    (State.readOn s).store.config = s.store.config ∧
    (State.readOn s).store.header = s.store.header ∧
    (State.readOn s).ctl.phase = s.ctl.phase ∧
    (State.readOn s).ctl.station = s.ctl.station ∧
    (State.readOn s).ctl.rehearsal = s.ctl.rehearsal := by
  unfold State.readOn; (try dsimp only); (repeat' split) <;> simp

@[simp] theorem State.applyEntry_keeps (e : QueueEntry) (s : State) :
    (State.applyEntry e s).localTimer = s.localTimer ∧
    (State.applyEntry e s).inputs = s.inputs ∧
    (State.applyEntry e s).line = s.line ∧
    (State.applyEntry e s).pending = s.pending ∧
    (State.applyEntry e s).clock.showTime = s.clock.showTime ∧
    (State.applyEntry e s).clock.paceTimer = s.clock.paceTimer ∧
    (State.applyEntry e s).ctl.phase = s.ctl.phase ∧
    (State.applyEntry e s).ctl.station = s.ctl.station ∧
    (State.applyEntry e s).ctl.rehearsal = s.ctl.rehearsal ∧
    (State.applyEntry e s).store.config = s.store.config ∧
    (State.applyEntry e s).store.header = s.store.header := by
  unfold State.applyEntry; (try dsimp only); (repeat' split) <;> simp

@[simp] theorem State.startScan_keeps (s : State) :
    (State.startScan s).localTimer = s.localTimer ∧
    (State.startScan s).inputs = s.inputs ∧
    (State.startScan s).line = s.line ∧
    (State.startScan s).pending = s.pending ∧
    (State.startScan s).clock.showTime = s.clock.showTime ∧
    (State.startScan s).clock.paceTimer = s.clock.paceTimer ∧
    (State.startScan s).store.config = s.store.config ∧
    (State.startScan s).store.header = s.store.header ∧
    (State.startScan s).ctl.phase = s.ctl.phase ∧
    (State.startScan s).ctl.station = s.ctl.station ∧
    (State.startScan s).ctl.rehearsal = s.ctl.rehearsal := by
  unfold State.startScan; (try dsimp only); (repeat' split) <;> simp

@[simp] theorem State.stepReported_keeps (a : Int) (s : State) :
    (State.stepReported a s).localTimer = s.localTimer ∧
    (State.stepReported a s).inputs = s.inputs ∧
    (State.stepReported a s).line = s.line ∧
    (State.stepReported a s).pending = s.pending ∧
    (State.stepReported a s).clock.showTime = s.clock.showTime ∧
    (State.stepReported a s).clock.paceTimer = s.clock.paceTimer ∧
    (State.stepReported a s).ctl.phase = s.ctl.phase ∧
    (State.stepReported a s).ctl.station = s.ctl.station ∧
    (State.stepReported a s).ctl.rehearsal = s.ctl.rehearsal ∧
    (State.stepReported a s).store.config = s.store.config ∧
    (State.stepReported a s).store.header = s.store.header := by
  unfold State.stepReported; (try dsimp only); (repeat' split) <;> simp

@[simp] theorem State.startRun_keeps (s : State) :
    (State.startRun s).localTimer = s.localTimer ∧
    (State.startRun s).inputs = s.inputs ∧
    (State.startRun s).ctl = s.ctl ∧
    (State.startRun s).line = s.line ∧
    (State.startRun s).peers = s.peers ∧
    (State.startRun s).clock = s.clock ∧
    (State.startRun s).store = s.store ∧
    (State.startRun s).jet = s.jet ∧
    (State.startRun s).pump = s.pump ∧
    (State.startRun s).head = s.head ∧
    (State.startRun s).lights = s.lights ∧
    (State.startRun s).mon = s.mon ∧
    (State.startRun s).pending = s.pending := by
  unfold State.startRun; (try dsimp only); (repeat' split) <;> simp

@[simp] theorem State.setShowTime_keeps (t : Int) (s : State) :
    (State.setShowTime t s).localTimer = s.localTimer ∧
    (State.setShowTime t s).inputs = s.inputs ∧
    (State.setShowTime t s).ctl = s.ctl ∧
    (State.setShowTime t s).line = s.line ∧
    (State.setShowTime t s).store = s.store ∧
    (State.setShowTime t s).seq = s.seq ∧
    (State.setShowTime t s).jet = s.jet ∧
    (State.setShowTime t s).pump = s.pump ∧
    (State.setShowTime t s).head = s.head ∧
    (State.setShowTime t s).lights = s.lights ∧
    (State.setShowTime t s).music = s.music ∧
    (State.setShowTime t s).mon = s.mon ∧
    (State.setShowTime t s).pending = s.pending ∧
    (State.setShowTime t s).clock.paceTimer = s.clock.paceTimer := by
  unfold State.setShowTime; (try dsimp only); (repeat' split) <;> simp

@[simp] theorem State.enterCountdown_keeps (s : State) :
    (State.enterCountdown s).localTimer = s.localTimer ∧
    (State.enterCountdown s).inputs = s.inputs ∧
    (State.enterCountdown s).line = s.line ∧
    (State.enterCountdown s).pending = s.pending ∧
    (State.enterCountdown s).clock.showTime = s.clock.showTime ∧
    (State.enterCountdown s).clock.paceTimer = s.clock.paceTimer ∧
    (State.enterCountdown s).ctl.phase = s.ctl.phase ∧
    (State.enterCountdown s).ctl.station = s.ctl.station ∧
    (State.enterCountdown s).ctl.rehearsal = s.ctl.rehearsal ∧
    (State.enterCountdown s).store.config = s.store.config ∧
    (State.enterCountdown s).store.header = s.store.header := by
  unfold State.enterCountdown; (try dsimp only); (repeat' split) <;> simp

@[simp] theorem State.joinRunning_keeps (s : State) :
    (State.joinRunning s).localTimer = s.localTimer ∧
    (State.joinRunning s).inputs = s.inputs ∧
    (State.joinRunning s).line = s.line ∧
    (State.joinRunning s).pending = s.pending ∧
    (State.joinRunning s).clock.showTime = s.clock.showTime ∧
    (State.joinRunning s).clock.paceTimer = s.clock.paceTimer ∧
    (State.joinRunning s).store.config = s.store.config ∧
    (State.joinRunning s).store.header = s.store.header ∧
    (State.joinRunning s).ctl.phase = s.ctl.phase ∧
    (State.joinRunning s).ctl.station = s.ctl.station ∧
    (State.joinRunning s).ctl.rehearsal = s.ctl.rehearsal := by
  unfold State.joinRunning; (try dsimp only); (repeat' split) <;> simp

@[simp] theorem State.resumeShow_keeps (s : State) :
    (State.resumeShow s).localTimer = s.localTimer ∧
    (State.resumeShow s).inputs = s.inputs ∧
    (State.resumeShow s).line = s.line ∧
    (State.resumeShow s).pending = s.pending ∧
    (State.resumeShow s).clock.showTime = s.clock.showTime ∧
    (State.resumeShow s).clock.paceTimer = s.clock.paceTimer ∧
    (State.resumeShow s).store.config = s.store.config ∧
    (State.resumeShow s).store.header = s.store.header ∧
    (State.resumeShow s).ctl.phase = s.ctl.phase ∧
    (State.resumeShow s).ctl.station = s.ctl.station ∧
    (State.resumeShow s).ctl.rehearsal = s.ctl.rehearsal := by
  unfold State.resumeShow; (try dsimp only); (repeat' split) <;> simp

@[simp] theorem State.enterArmed_keeps (s : State) :
    (State.enterArmed s).localTimer = s.localTimer ∧
    (State.enterArmed s).inputs = s.inputs ∧
    (State.enterArmed s).line = s.line ∧
    (State.enterArmed s).pending = s.pending ∧
    (State.enterArmed s).clock.paceTimer = s.clock.paceTimer ∧
    (State.enterArmed s).ctl.phase = s.ctl.phase ∧
    (State.enterArmed s).ctl.station = s.ctl.station ∧
    (State.enterArmed s).ctl.rehearsal = s.ctl.rehearsal ∧
    (State.enterArmed s).store.config = s.store.config ∧
    (State.enterArmed s).store.header = s.store.header := by
  unfold State.enterArmed; (try dsimp only); (repeat' split) <;> simp

@[simp] theorem State.checkArmed_keeps (s : State) :
    (State.checkArmed s).localTimer = s.localTimer ∧
    (State.checkArmed s).inputs = s.inputs ∧
    (State.checkArmed s).line = s.line ∧
    (State.checkArmed s).pending = s.pending ∧
    (State.checkArmed s).clock.paceTimer = s.clock.paceTimer ∧
    (State.checkArmed s).ctl.phase = s.ctl.phase ∧
    (State.checkArmed s).ctl.station = s.ctl.station ∧
    (State.checkArmed s).ctl.rehearsal = s.ctl.rehearsal ∧
    (State.checkArmed s).store.config = s.store.config ∧
    (State.checkArmed s).store.header = s.store.header := by
  unfold State.checkArmed; (try dsimp only); (repeat' split) <;> simp

@[simp] theorem State.settle_keeps (s : State) :
    (State.settle s).localTimer = s.localTimer ∧
    (State.settle s).inputs = s.inputs ∧
    (State.settle s).line = s.line ∧
    (State.settle s).pending = s.pending ∧
    (State.settle s).clock.paceTimer = s.clock.paceTimer ∧
    (State.settle s).store.config = s.store.config ∧
    (State.settle s).store.header = s.store.header ∧
    (State.settle s).ctl.phase = s.ctl.phase ∧
    (State.settle s).ctl.station = s.ctl.station ∧
    (State.settle s).ctl.rehearsal = s.ctl.rehearsal := by
  unfold State.settle; (try dsimp only); (repeat' split) <;> simp

@[simp] theorem State.follow_keeps (s : State) :
    (State.follow s).localTimer = s.localTimer ∧
    (State.follow s).inputs = s.inputs ∧
    (State.follow s).line = s.line ∧
    (State.follow s).pending = s.pending ∧
    (State.follow s).clock.showTime = s.clock.showTime ∧
    (State.follow s).clock.paceTimer = s.clock.paceTimer ∧
    (State.follow s).ctl.phase = s.ctl.phase ∧
    (State.follow s).ctl.station = s.ctl.station ∧
    (State.follow s).ctl.rehearsal = s.ctl.rehearsal ∧
    (State.follow s).store.config = s.store.config ∧
    (State.follow s).store.header = s.store.header := by
  unfold State.follow; (try dsimp only); (repeat' split) <;> simp

@[simp] theorem State.filterWind_keeps (s : State) :
    (State.filterWind s).localTimer = s.localTimer ∧
    (State.filterWind s).inputs = s.inputs ∧
    (State.filterWind s).ctl = s.ctl ∧
    (State.filterWind s).line = s.line ∧
    (State.filterWind s).peers = s.peers ∧
    (State.filterWind s).clock = s.clock ∧
    (State.filterWind s).store = s.store ∧
    (State.filterWind s).seq = s.seq ∧
    (State.filterWind s).pump = s.pump ∧
    (State.filterWind s).head = s.head ∧
    (State.filterWind s).lights = s.lights ∧
    (State.filterWind s).music = s.music ∧
    (State.filterWind s).mon = s.mon ∧
    (State.filterWind s).pending = s.pending := by
  unfold State.filterWind; (try dsimp only); (repeat' split) <;> simp

@[simp] theorem State.passShare_keeps (s : State) :
    (State.passShare s).localTimer = s.localTimer ∧
    (State.passShare s).inputs = s.inputs ∧
    (State.passShare s).ctl = s.ctl ∧
    (State.passShare s).line = s.line ∧
    (State.passShare s).peers = s.peers ∧
    (State.passShare s).clock = s.clock ∧
    (State.passShare s).store = s.store ∧
    (State.passShare s).seq = s.seq ∧
    (State.passShare s).pump = s.pump ∧
    (State.passShare s).head = s.head ∧
    (State.passShare s).lights = s.lights ∧
    (State.passShare s).music = s.music ∧
    (State.passShare s).pending = s.pending := by
  unfold State.passShare; (try dsimp only); (repeat' split) <;> simp

@[simp] theorem State.markSeen_keeps (c : Channel) (s : State) :
    (State.markSeen c s).localTimer = s.localTimer ∧
    (State.markSeen c s).inputs = s.inputs ∧
    (State.markSeen c s).ctl = s.ctl ∧
    (State.markSeen c s).line = s.line ∧
    (State.markSeen c s).peers = s.peers ∧
    (State.markSeen c s).clock = s.clock ∧
    (State.markSeen c s).store = s.store ∧
    (State.markSeen c s).pump = s.pump ∧
    (State.markSeen c s).head = s.head ∧
    (State.markSeen c s).lights = s.lights ∧
    (State.markSeen c s).music = s.music ∧
    (State.markSeen c s).mon = s.mon ∧
    (State.markSeen c s).pending = s.pending := by
  unfold State.markSeen; (try dsimp only); (repeat' split) <;> simp

@[simp] theorem State.passChannel_keeps (c : Channel) (s : State) :
    (State.passChannel c s).localTimer = s.localTimer ∧
    (State.passChannel c s).inputs = s.inputs ∧
    (State.passChannel c s).ctl = s.ctl ∧
    (State.passChannel c s).line = s.line ∧
    (State.passChannel c s).peers = s.peers ∧
    (State.passChannel c s).clock = s.clock ∧
    (State.passChannel c s).store = s.store ∧
    (State.passChannel c s).pump = s.pump ∧
    (State.passChannel c s).head = s.head ∧
    (State.passChannel c s).lights = s.lights ∧
    (State.passChannel c s).music = s.music ∧
    (State.passChannel c s).pending = s.pending := by
  unfold State.passChannel; (try dsimp only); (repeat' split) <;> simp

@[simp] theorem State.handOffChannel_keeps (c : Channel) (s : State) :
    (State.handOffChannel c s).localTimer = s.localTimer ∧
    (State.handOffChannel c s).inputs = s.inputs ∧
    (State.handOffChannel c s).ctl = s.ctl ∧
    (State.handOffChannel c s).line = s.line ∧
    (State.handOffChannel c s).peers = s.peers ∧
    (State.handOffChannel c s).clock = s.clock ∧
    (State.handOffChannel c s).store = s.store ∧
    (State.handOffChannel c s).seq = s.seq ∧
    (State.handOffChannel c s).head = s.head ∧
    (State.handOffChannel c s).music = s.music ∧
    (State.handOffChannel c s).pending = s.pending := by
  unfold State.handOffChannel; (try dsimp only); (repeat' split) <;> simp

@[simp] theorem State.pass_keeps (s : State) :
    (State.pass s).localTimer = s.localTimer ∧
    (State.pass s).inputs = s.inputs ∧
    (State.pass s).line = s.line ∧
    (State.pass s).head = s.head ∧
    (State.pass s).pending = s.pending ∧
    (State.pass s).clock.showTime = s.clock.showTime ∧
    (State.pass s).clock.paceTimer = s.clock.paceTimer ∧
    (State.pass s).ctl.phase = s.ctl.phase ∧
    (State.pass s).ctl.station = s.ctl.station ∧
    (State.pass s).ctl.rehearsal = s.ctl.rehearsal ∧
    (State.pass s).store.config = s.store.config ∧
    (State.pass s).store.header = s.store.header := by
  unfold State.pass; (try dsimp only); (repeat' split) <;> simp

@[simp] theorem State.queuePace_keeps (s : State) :
    (State.queuePace s).localTimer = s.localTimer ∧
    (State.queuePace s).inputs = s.inputs ∧
    (State.queuePace s).ctl = s.ctl ∧
    (State.queuePace s).peers = s.peers ∧
    (State.queuePace s).clock = s.clock ∧
    (State.queuePace s).store = s.store ∧
    (State.queuePace s).seq = s.seq ∧
    (State.queuePace s).jet = s.jet ∧
    (State.queuePace s).pump = s.pump ∧
    (State.queuePace s).head = s.head ∧
    (State.queuePace s).lights = s.lights ∧
    (State.queuePace s).music = s.music ∧
    (State.queuePace s).mon = s.mon ∧
    (State.queuePace s).pending = s.pending := by
  unfold State.queuePace; (try dsimp only); (repeat' split) <;> simp

@[simp] theorem State.queueAlert_keeps (cause : AlertCause) (s : State) :
    (State.queueAlert cause s).localTimer = s.localTimer ∧
    (State.queueAlert cause s).inputs = s.inputs ∧
    (State.queueAlert cause s).ctl = s.ctl ∧
    (State.queueAlert cause s).peers = s.peers ∧
    (State.queueAlert cause s).clock = s.clock ∧
    (State.queueAlert cause s).store = s.store ∧
    (State.queueAlert cause s).seq = s.seq ∧
    (State.queueAlert cause s).jet = s.jet ∧
    (State.queueAlert cause s).pump = s.pump ∧
    (State.queueAlert cause s).head = s.head ∧
    (State.queueAlert cause s).lights = s.lights ∧
    (State.queueAlert cause s).music = s.music ∧
    (State.queueAlert cause s).mon = s.mon ∧
    (State.queueAlert cause s).pending = s.pending := by
  unfold State.queueAlert; (try dsimp only); (repeat' split) <;> simp

@[simp] theorem State.beginAttempt_keeps (s : State) :
    (State.beginAttempt s).localTimer = s.localTimer ∧
    (State.beginAttempt s).inputs = s.inputs ∧
    (State.beginAttempt s).ctl = s.ctl ∧
    (State.beginAttempt s).peers = s.peers ∧
    (State.beginAttempt s).clock = s.clock ∧
    (State.beginAttempt s).store = s.store ∧
    (State.beginAttempt s).seq = s.seq ∧
    (State.beginAttempt s).jet = s.jet ∧
    (State.beginAttempt s).pump = s.pump ∧
    (State.beginAttempt s).head = s.head ∧
    (State.beginAttempt s).lights = s.lights ∧
    (State.beginAttempt s).music = s.music ∧
    (State.beginAttempt s).mon = s.mon ∧
    (State.beginAttempt s).pending = s.pending := by
  unfold State.beginAttempt; (try dsimp only); (repeat' split) <;> simp

@[simp] theorem State.sent_keeps (kind : FrameKind) (rise : Nat) (s : State) :
    (State.sent kind rise s).localTimer = s.localTimer ∧
    (State.sent kind rise s).inputs = s.inputs ∧
    (State.sent kind rise s).ctl = s.ctl ∧
    (State.sent kind rise s).peers = s.peers ∧
    (State.sent kind rise s).clock = s.clock ∧
    (State.sent kind rise s).store = s.store ∧
    (State.sent kind rise s).seq = s.seq ∧
    (State.sent kind rise s).jet = s.jet ∧
    (State.sent kind rise s).pump = s.pump ∧
    (State.sent kind rise s).head = s.head ∧
    (State.sent kind rise s).lights = s.lights ∧
    (State.sent kind rise s).music = s.music ∧
    (State.sent kind rise s).pending = s.pending := by
  unfold State.sent; (try dsimp only); (repeat' split) <;> simp

@[simp] theorem State.dropFrame_keeps (kind : FrameKind) (s : State) :
    (State.dropFrame kind s).localTimer = s.localTimer ∧
    (State.dropFrame kind s).inputs = s.inputs ∧
    (State.dropFrame kind s).ctl = s.ctl ∧
    (State.dropFrame kind s).peers = s.peers ∧
    (State.dropFrame kind s).clock = s.clock ∧
    (State.dropFrame kind s).store = s.store ∧
    (State.dropFrame kind s).seq = s.seq ∧
    (State.dropFrame kind s).jet = s.jet ∧
    (State.dropFrame kind s).pump = s.pump ∧
    (State.dropFrame kind s).head = s.head ∧
    (State.dropFrame kind s).lights = s.lights ∧
    (State.dropFrame kind s).music = s.music ∧
    (State.dropFrame kind s).pending = s.pending := by
  unfold State.dropFrame; (try dsimp only); (repeat' split) <;> simp

@[simp] theorem State.collide_keeps (kind : FrameKind) (s : State) :
    (State.collide kind s).localTimer = s.localTimer ∧
    (State.collide kind s).inputs = s.inputs ∧
    (State.collide kind s).ctl = s.ctl ∧
    (State.collide kind s).peers = s.peers ∧
    (State.collide kind s).clock = s.clock ∧
    (State.collide kind s).store = s.store ∧
    (State.collide kind s).seq = s.seq ∧
    (State.collide kind s).jet = s.jet ∧
    (State.collide kind s).pump = s.pump ∧
    (State.collide kind s).head = s.head ∧
    (State.collide kind s).lights = s.lights ∧
    (State.collide kind s).music = s.music ∧
    (State.collide kind s).pending = s.pending := by
  unfold State.collide; (try dsimp only); (repeat' split) <;> simp

@[simp] theorem State.frameDone_keeps (c : Instr) (s : State) :
    (State.frameDone c s).localTimer = s.localTimer ∧
    (State.frameDone c s).inputs = s.inputs ∧
    (State.frameDone c s).ctl = s.ctl ∧
    (State.frameDone c s).peers = s.peers ∧
    (State.frameDone c s).clock = s.clock ∧
    (State.frameDone c s).store = s.store ∧
    (State.frameDone c s).seq = s.seq ∧
    (State.frameDone c s).jet = s.jet ∧
    (State.frameDone c s).pump = s.pump ∧
    (State.frameDone c s).head = s.head ∧
    (State.frameDone c s).lights = s.lights ∧
    (State.frameDone c s).music = s.music ∧
    (State.frameDone c s).mon = s.mon ∧
    (State.frameDone c s).pending = s.pending := by
  unfold State.frameDone; (try dsimp only); (repeat' split) <;> simp

@[simp] theorem State.frameFails_keeps (c : Instr) (why : RxFailure) (s : State) :
    (State.frameFails c why s).localTimer = s.localTimer ∧
    (State.frameFails c why s).inputs = s.inputs ∧
    (State.frameFails c why s).ctl = s.ctl ∧
    (State.frameFails c why s).peers = s.peers ∧
    (State.frameFails c why s).clock = s.clock ∧
    (State.frameFails c why s).store = s.store ∧
    (State.frameFails c why s).seq = s.seq ∧
    (State.frameFails c why s).jet = s.jet ∧
    (State.frameFails c why s).pump = s.pump ∧
    (State.frameFails c why s).head = s.head ∧
    (State.frameFails c why s).lights = s.lights ∧
    (State.frameFails c why s).music = s.music ∧
    (State.frameFails c why s).pending = s.pending := by
  unfold State.frameFails; (try dsimp only); (repeat' split) <;> simp

@[simp] theorem State.duplicateHeard_keeps (s : State) :
    (State.duplicateHeard s).localTimer = s.localTimer ∧
    (State.duplicateHeard s).inputs = s.inputs ∧
    (State.duplicateHeard s).ctl = s.ctl ∧
    (State.duplicateHeard s).peers = s.peers ∧
    (State.duplicateHeard s).clock = s.clock ∧
    (State.duplicateHeard s).store = s.store ∧
    (State.duplicateHeard s).seq = s.seq ∧
    (State.duplicateHeard s).jet = s.jet ∧
    (State.duplicateHeard s).pump = s.pump ∧
    (State.duplicateHeard s).head = s.head ∧
    (State.duplicateHeard s).lights = s.lights ∧
    (State.duplicateHeard s).music = s.music ∧
    (State.duplicateHeard s).pending = s.pending := by
  unfold State.duplicateHeard; (try dsimp only); (repeat' split) <;> simp

@[simp] theorem State.lateJoin_keeps (k : Peer) (p : PacePayload) (rx : Rx) (s : State) :
    (State.lateJoin k p rx s).localTimer = s.localTimer ∧
    (State.lateJoin k p rx s).inputs = s.inputs ∧
    (State.lateJoin k p rx s).line = s.line ∧
    (State.lateJoin k p rx s).pending = s.pending ∧
    (State.lateJoin k p rx s).clock.paceTimer = s.clock.paceTimer ∧
    (State.lateJoin k p rx s).ctl.phase = s.ctl.phase ∧
    (State.lateJoin k p rx s).ctl.station = s.ctl.station ∧
    (State.lateJoin k p rx s).ctl.rehearsal = s.ctl.rehearsal ∧
    (State.lateJoin k p rx s).store.config = s.store.config ∧
    (State.lateJoin k p rx s).store.header = s.store.header := by
  unfold State.lateJoin; (try dsimp only); (repeat' split) <;> simp

@[simp] theorem State.takePace_keeps (k : Peer) (p : PacePayload) (rx : Rx) (s : State) :
    (State.takePace k p rx s).localTimer = s.localTimer ∧
    (State.takePace k p rx s).inputs = s.inputs ∧
    (State.takePace k p rx s).line = s.line ∧
    (State.takePace k p rx s).pending = s.pending ∧
    (State.takePace k p rx s).clock.paceTimer = s.clock.paceTimer ∧
    (State.takePace k p rx s).store.config = s.store.config ∧
    (State.takePace k p rx s).store.header = s.store.header ∧
    (State.takePace k p rx s).ctl.phase = s.ctl.phase ∧
    (State.takePace k p rx s).ctl.station = s.ctl.station ∧
    (State.takePace k p rx s).ctl.rehearsal = s.ctl.rehearsal := by
  unfold State.takePace; (try dsimp only); (repeat' split) <;> simp

@[simp] theorem State.takeAlert_keeps (k : Peer) (rx : Rx) (s : State) :
    (State.takeAlert k rx s).localTimer = s.localTimer ∧
    (State.takeAlert k rx s).inputs = s.inputs ∧
    (State.takeAlert k rx s).line = s.line ∧
    (State.takeAlert k rx s).pending = s.pending ∧
    (State.takeAlert k rx s).clock.paceTimer = s.clock.paceTimer ∧
    (State.takeAlert k rx s).ctl.phase = s.ctl.phase ∧
    (State.takeAlert k rx s).ctl.station = s.ctl.station ∧
    (State.takeAlert k rx s).ctl.rehearsal = s.ctl.rehearsal ∧
    (State.takeAlert k rx s).store.config = s.store.config ∧
    (State.takeAlert k rx s).store.header = s.store.header := by
  unfold State.takeAlert; (try dsimp only); (repeat' split) <;> simp

end Sys2Proof.Machine
end

