-- ==== Sys2Proof/Laws/KeepsCommands.lean ====
section
/-! SUPPORT. What the operations behind the commands leave as it stands. -/

set_option linter.all false

namespace Sys2Proof.Machine

@[simp] theorem State.startAlerts_keeps (cause : AlertCause) (s : State) :
    (State.startAlerts cause s).localTimer = s.localTimer ∧
    (State.startAlerts cause s).inputs = s.inputs ∧
    (State.startAlerts cause s).peers = s.peers ∧
    (State.startAlerts cause s).clock = s.clock ∧
    (State.startAlerts cause s).store = s.store ∧
    (State.startAlerts cause s).seq = s.seq ∧
    (State.startAlerts cause s).jet = s.jet ∧
    (State.startAlerts cause s).pump = s.pump ∧
    (State.startAlerts cause s).head = s.head ∧
    (State.startAlerts cause s).lights = s.lights ∧
    (State.startAlerts cause s).music = s.music ∧
    (State.startAlerts cause s).mon = s.mon ∧
    (State.startAlerts cause s).pending = s.pending ∧
    (State.startAlerts cause s).ctl.phase = s.ctl.phase ∧
    (State.startAlerts cause s).ctl.station = s.ctl.station ∧
    (State.startAlerts cause s).ctl.rehearsal = s.ctl.rehearsal := by
  unfold State.startAlerts; (try dsimp only); (repeat' split) <;> simp

@[simp] theorem State.assertInput_keeps (cause : SafeCause) (alert : AlertCause) (s : State) :
    (State.assertInput cause alert s).localTimer = s.localTimer ∧
    (State.assertInput cause alert s).inputs = s.inputs ∧
    (State.assertInput cause alert s).pending = s.pending ∧
    (State.assertInput cause alert s).clock.showTime = s.clock.showTime ∧
    (State.assertInput cause alert s).clock.paceTimer = s.clock.paceTimer ∧
    (State.assertInput cause alert s).ctl.phase = s.ctl.phase ∧
    (State.assertInput cause alert s).ctl.station = s.ctl.station ∧
    (State.assertInput cause alert s).ctl.rehearsal = s.ctl.rehearsal ∧
    (State.assertInput cause alert s).store.config = s.store.config ∧
    (State.assertInput cause alert s).store.header = s.store.header := by
  unfold State.assertInput; (try dsimp only); (repeat' split) <;> simp

@[simp] theorem State.enterConfigFault_keeps (reason : Nat) (s : State) :
    (State.enterConfigFault reason s).localTimer = s.localTimer ∧
    (State.enterConfigFault reason s).inputs = s.inputs ∧
    (State.enterConfigFault reason s).peers = s.peers ∧
    (State.enterConfigFault reason s).store = s.store ∧
    (State.enterConfigFault reason s).seq = s.seq ∧
    (State.enterConfigFault reason s).jet = s.jet ∧
    (State.enterConfigFault reason s).pump = s.pump ∧
    (State.enterConfigFault reason s).head = s.head ∧
    (State.enterConfigFault reason s).lights = s.lights ∧
    (State.enterConfigFault reason s).music = s.music ∧
    (State.enterConfigFault reason s).mon = s.mon ∧
    (State.enterConfigFault reason s).pending = s.pending ∧
    (State.enterConfigFault reason s).ctl.station = s.ctl.station ∧
    (State.enterConfigFault reason s).ctl.rehearsal = s.ctl.rehearsal ∧
    (State.enterConfigFault reason s).clock.showTime = s.clock.showTime := by
  unfold State.enterConfigFault; (try dsimp only); (repeat' split) <;> simp

@[simp] theorem State.powerUp_keeps (g : StationConfig) (s : State) :
    (State.powerUp g s).localTimer = s.localTimer ∧
    (State.powerUp g s).inputs = s.inputs ∧
    (State.powerUp g s).line = s.line ∧
    (State.powerUp g s).peers = s.peers ∧
    (State.powerUp g s).seq = s.seq ∧
    (State.powerUp g s).head = s.head ∧
    (State.powerUp g s).mon = s.mon ∧
    (State.powerUp g s).pending = s.pending ∧
    (State.powerUp g s).clock.showTime = s.clock.showTime ∧
    (State.powerUp g s).store.header = s.store.header ∧
    (State.powerUp g s).ctl.station = s.ctl.station ∧
    (State.powerUp g s).ctl.rehearsal = s.ctl.rehearsal := by
  unfold State.powerUp; (try dsimp only); (repeat' split) <;> simp

@[simp] theorem State.completeStartUp_keeps (g : StationConfig) (s : State) :
    (State.completeStartUp g s).localTimer = s.localTimer ∧
    (State.completeStartUp g s).inputs = s.inputs ∧
    (State.completeStartUp g s).pending = s.pending ∧
    (State.completeStartUp g s).clock.showTime = s.clock.showTime ∧
    (State.completeStartUp g s).ctl.station = s.ctl.station ∧
    (State.completeStartUp g s).ctl.rehearsal = s.ctl.rehearsal ∧
    (State.completeStartUp g s).store.header = s.store.header := by
  unfold State.completeStartUp; (try dsimp only); (repeat' split) <;> simp

@[simp] theorem State.requestConfig_keeps (block : Nat) (s : State) :
    (State.requestConfig block s).localTimer = s.localTimer ∧
    (State.requestConfig block s).inputs = s.inputs ∧
    (State.requestConfig block s).peers = s.peers ∧
    (State.requestConfig block s).seq = s.seq ∧
    (State.requestConfig block s).jet = s.jet ∧
    (State.requestConfig block s).pump = s.pump ∧
    (State.requestConfig block s).head = s.head ∧
    (State.requestConfig block s).lights = s.lights ∧
    (State.requestConfig block s).music = s.music ∧
    (State.requestConfig block s).pending = s.pending ∧
    (State.requestConfig block s).clock.showTime = s.clock.showTime ∧
    (State.requestConfig block s).ctl.station = s.ctl.station ∧
    (State.requestConfig block s).ctl.rehearsal = s.ctl.rehearsal ∧
    (State.requestConfig block s).store.config = s.store.config ∧
    (State.requestConfig block s).store.header = s.store.header := by
  unfold State.requestConfig; (try dsimp only); (repeat' split) <;> simp

@[simp] theorem State.takeHeader_keeps (p : List Byte) (s : State) :
    (State.takeHeader p s).localTimer = s.localTimer ∧
    (State.takeHeader p s).inputs = s.inputs ∧
    (State.takeHeader p s).peers = s.peers ∧
    (State.takeHeader p s).seq = s.seq ∧
    (State.takeHeader p s).jet = s.jet ∧
    (State.takeHeader p s).pump = s.pump ∧
    (State.takeHeader p s).head = s.head ∧
    (State.takeHeader p s).lights = s.lights ∧
    (State.takeHeader p s).music = s.music ∧
    (State.takeHeader p s).pending = s.pending ∧
    (State.takeHeader p s).clock.showTime = s.clock.showTime ∧
    (State.takeHeader p s).store.config = s.store.config ∧
    (State.takeHeader p s).ctl.station = s.ctl.station ∧
    (State.takeHeader p s).ctl.rehearsal = s.ctl.rehearsal := by
  unfold State.takeHeader; (try dsimp only); (repeat' split) <;> simp

@[simp] theorem State.adoptMonitor_keeps (g : StationConfig) (s : State) :
    (State.adoptMonitor g s).localTimer = s.localTimer ∧
    (State.adoptMonitor g s).inputs = s.inputs ∧
    (State.adoptMonitor g s).ctl = s.ctl ∧
    (State.adoptMonitor g s).line = s.line ∧
    (State.adoptMonitor g s).peers = s.peers ∧
    (State.adoptMonitor g s).clock = s.clock ∧
    (State.adoptMonitor g s).store = s.store ∧
    (State.adoptMonitor g s).seq = s.seq ∧
    (State.adoptMonitor g s).jet = s.jet ∧
    (State.adoptMonitor g s).pump = s.pump ∧
    (State.adoptMonitor g s).head = s.head ∧
    (State.adoptMonitor g s).lights = s.lights ∧
    (State.adoptMonitor g s).music = s.music ∧
    (State.adoptMonitor g s).pending = s.pending := by
  unfold State.adoptMonitor; (try dsimp only); (repeat' split) <;> simp

@[simp] theorem State.takeConfig_keeps (p : List Byte) (s : State) :
    (State.takeConfig p s).localTimer = s.localTimer ∧
    (State.takeConfig p s).inputs = s.inputs ∧
    (State.takeConfig p s).pending = s.pending ∧
    (State.takeConfig p s).clock.showTime = s.clock.showTime ∧
    (State.takeConfig p s).ctl.station = s.ctl.station ∧
    (State.takeConfig p s).ctl.rehearsal = s.ctl.rehearsal ∧
    (State.takeConfig p s).store.header = s.store.header := by
  unfold State.takeConfig; (try dsimp only); (repeat' split) <;> simp

@[simp] theorem State.noShow_keeps (s : State) :
    (State.noShow s).localTimer = s.localTimer ∧
    (State.noShow s).inputs = s.inputs ∧
    (State.noShow s).line = s.line ∧
    (State.noShow s).head = s.head ∧
    (State.noShow s).pending = s.pending ∧
    (State.noShow s).clock.showTime = s.clock.showTime ∧
    (State.noShow s).clock.paceTimer = s.clock.paceTimer ∧
    (State.noShow s).ctl.phase = s.ctl.phase ∧
    (State.noShow s).ctl.station = s.ctl.station ∧
    (State.noShow s).ctl.rehearsal = s.ctl.rehearsal ∧
    (State.noShow s).store.config = s.store.config ∧
    (State.noShow s).store.header = s.store.header := by
  unfold State.noShow; (try dsimp only); (repeat' split) <;> simp

@[simp] theorem State.requestDirectory_keeps (step : DirStep) (block : Nat) (e : Expect) (s : State) :
    (State.requestDirectory step block e s).localTimer = s.localTimer ∧
    (State.requestDirectory step block e s).inputs = s.inputs ∧
    (State.requestDirectory step block e s).line = s.line ∧
    (State.requestDirectory step block e s).head = s.head ∧
    (State.requestDirectory step block e s).pending = s.pending ∧
    (State.requestDirectory step block e s).clock.showTime = s.clock.showTime ∧
    (State.requestDirectory step block e s).clock.paceTimer = s.clock.paceTimer ∧
    (State.requestDirectory step block e s).store.config = s.store.config ∧
    (State.requestDirectory step block e s).store.header = s.store.header ∧
    (State.requestDirectory step block e s).ctl.phase = s.ctl.phase ∧
    (State.requestDirectory step block e s).ctl.station = s.ctl.station ∧
    (State.requestDirectory step block e s).ctl.rehearsal = s.ctl.rehearsal := by
  unfold State.requestDirectory; (try dsimp only); (repeat' split) <;> simp

@[simp] theorem State.beginDirectory_keeps (s : State) :
    (State.beginDirectory s).localTimer = s.localTimer ∧
    (State.beginDirectory s).inputs = s.inputs ∧
    (State.beginDirectory s).line = s.line ∧
    (State.beginDirectory s).head = s.head ∧
    (State.beginDirectory s).pending = s.pending ∧
    (State.beginDirectory s).clock.showTime = s.clock.showTime ∧
    (State.beginDirectory s).clock.paceTimer = s.clock.paceTimer ∧
    (State.beginDirectory s).store.config = s.store.config ∧
    (State.beginDirectory s).store.header = s.store.header ∧
    (State.beginDirectory s).ctl.phase = s.ctl.phase ∧
    (State.beginDirectory s).ctl.station = s.ctl.station ∧
    (State.beginDirectory s).ctl.rehearsal = s.ctl.rehearsal := by
  unfold State.beginDirectory; (try dsimp only); (repeat' split) <;> simp

@[simp] theorem State.takeDirectory_keeps (i : Nat) (p : List Byte) (s : State) :
    (State.takeDirectory i p s).localTimer = s.localTimer ∧
    (State.takeDirectory i p s).inputs = s.inputs ∧
    (State.takeDirectory i p s).line = s.line ∧
    (State.takeDirectory i p s).head = s.head ∧
    (State.takeDirectory i p s).pending = s.pending ∧
    (State.takeDirectory i p s).clock.showTime = s.clock.showTime ∧
    (State.takeDirectory i p s).clock.paceTimer = s.clock.paceTimer ∧
    (State.takeDirectory i p s).ctl.phase = s.ctl.phase ∧
    (State.takeDirectory i p s).ctl.station = s.ctl.station ∧
    (State.takeDirectory i p s).ctl.rehearsal = s.ctl.rehearsal ∧
    (State.takeDirectory i p s).store.config = s.store.config ∧
    (State.takeDirectory i p s).store.header = s.store.header := by
  unfold State.takeDirectory; (try dsimp only); (repeat' split) <;> simp

@[simp] theorem State.takeTable_keeps (p : List Byte) (s : State) :
    (State.takeTable p s).localTimer = s.localTimer ∧
    (State.takeTable p s).inputs = s.inputs ∧
    (State.takeTable p s).ctl = s.ctl ∧
    (State.takeTable p s).line = s.line ∧
    (State.takeTable p s).peers = s.peers ∧
    (State.takeTable p s).clock = s.clock ∧
    (State.takeTable p s).jet = s.jet ∧
    (State.takeTable p s).pump = s.pump ∧
    (State.takeTable p s).head = s.head ∧
    (State.takeTable p s).lights = s.lights ∧
    (State.takeTable p s).pending = s.pending ∧
    (State.takeTable p s).store.config = s.store.config ∧
    (State.takeTable p s).store.header = s.store.header := by
  unfold State.takeTable; (try dsimp only); (repeat' split) <;> simp

@[simp] theorem State.deliver_keeps (r : Reader) (seq : Nat) (p : List Byte) (s : State) :
    (State.deliver r seq p s).localTimer = s.localTimer ∧
    (State.deliver r seq p s).inputs = s.inputs ∧
    (State.deliver r seq p s).pending = s.pending ∧
    (State.deliver r seq p s).clock.showTime = s.clock.showTime ∧
    (State.deliver r seq p s).ctl.station = s.ctl.station ∧
    (State.deliver r seq p s).ctl.rehearsal = s.ctl.rehearsal := by
  unfold State.deliver; (try dsimp only); (repeat' split) <;> simp

@[simp] theorem State.lose_keeps (r : Reader) (seq : Nat) (s : State) :
    (State.lose r seq s).localTimer = s.localTimer ∧
    (State.lose r seq s).inputs = s.inputs ∧
    (State.lose r seq s).pending = s.pending ∧
    (State.lose r seq s).clock.showTime = s.clock.showTime ∧
    (State.lose r seq s).store.config = s.store.config ∧
    (State.lose r seq s).store.header = s.store.header ∧
    (State.lose r seq s).ctl.station = s.ctl.station ∧
    (State.lose r seq s).ctl.rehearsal = s.ctl.rehearsal := by
  unfold State.lose; (try dsimp only); (repeat' split) <;> simp

@[simp] theorem State.judge_keeps (r : Reader) (q : Request) (data : List Byte) (s : State) :
    (State.judge r q data s).localTimer = s.localTimer ∧
    (State.judge r q data s).inputs = s.inputs ∧
    (State.judge r q data s).pending = s.pending ∧
    (State.judge r q data s).clock.showTime = s.clock.showTime ∧
    (State.judge r q data s).ctl.station = s.ctl.station ∧
    (State.judge r q data s).ctl.rehearsal = s.ctl.rehearsal := by
  unfold State.judge; (try dsimp only); (repeat' split) <;> simp

@[simp] theorem State.readCompletes_keeps (data : List Byte) (s : State) :
    (State.readCompletes data s).localTimer = s.localTimer ∧
    (State.readCompletes data s).inputs = s.inputs ∧
    (State.readCompletes data s).pending = s.pending ∧
    (State.readCompletes data s).clock.showTime = s.clock.showTime ∧
    (State.readCompletes data s).ctl.station = s.ctl.station ∧
    (State.readCompletes data s).ctl.rehearsal = s.ctl.rehearsal := by
  unfold State.readCompletes; (try dsimp only); (repeat' split) <;> simp

@[simp] theorem State.ignore_keeps (code : Nat) (s : State) :
    (State.ignore code s).localTimer = s.localTimer ∧
    (State.ignore code s).inputs = s.inputs ∧
    (State.ignore code s).ctl = s.ctl ∧
    (State.ignore code s).line = s.line ∧
    (State.ignore code s).peers = s.peers ∧
    (State.ignore code s).clock = s.clock ∧
    (State.ignore code s).store = s.store ∧
    (State.ignore code s).seq = s.seq ∧
    (State.ignore code s).jet = s.jet ∧
    (State.ignore code s).pump = s.pump ∧
    (State.ignore code s).head = s.head ∧
    (State.ignore code s).lights = s.lights ∧
    (State.ignore code s).music = s.music ∧
    (State.ignore code s).pending = s.pending := by
  unfold State.ignore; (try dsimp only); (repeat' split) <;> simp

@[simp] theorem State.takeSelect_keeps (n : Nat) (s : State) :
    (State.takeSelect n s).localTimer = s.localTimer ∧
    (State.takeSelect n s).inputs = s.inputs ∧
    (State.takeSelect n s).line = s.line ∧
    (State.takeSelect n s).pending = s.pending ∧
    (State.takeSelect n s).clock.paceTimer = s.clock.paceTimer ∧
    (State.takeSelect n s).ctl.phase = s.ctl.phase ∧
    (State.takeSelect n s).ctl.station = s.ctl.station ∧
    (State.takeSelect n s).ctl.rehearsal = s.ctl.rehearsal ∧
    (State.takeSelect n s).store.config = s.store.config ∧
    (State.takeSelect n s).store.header = s.store.header := by
  unfold State.takeSelect; (try dsimp only); (repeat' split) <;> simp

@[simp] theorem State.noteDelay_keeps (delay : Nat) (s : State) :
    (State.noteDelay delay s).localTimer = s.localTimer ∧
    (State.noteDelay delay s).inputs = s.inputs ∧
    (State.noteDelay delay s).ctl = s.ctl ∧
    (State.noteDelay delay s).line = s.line ∧
    (State.noteDelay delay s).peers = s.peers ∧
    (State.noteDelay delay s).clock = s.clock ∧
    (State.noteDelay delay s).store = s.store ∧
    (State.noteDelay delay s).seq = s.seq ∧
    (State.noteDelay delay s).jet = s.jet ∧
    (State.noteDelay delay s).pump = s.pump ∧
    (State.noteDelay delay s).head = s.head ∧
    (State.noteDelay delay s).lights = s.lights ∧
    (State.noteDelay delay s).music = s.music ∧
    (State.noteDelay delay s).pending = s.pending := by
  unfold State.noteDelay; (try dsimp only); (repeat' split) <;> simp

@[simp] theorem State.takeStart_keeps (n delay moment : Nat) (s : State) :
    (State.takeStart n delay moment s).localTimer = s.localTimer ∧
    (State.takeStart n delay moment s).inputs = s.inputs ∧
    (State.takeStart n delay moment s).line = s.line ∧
    (State.takeStart n delay moment s).pending = s.pending ∧
    (State.takeStart n delay moment s).clock.paceTimer = s.clock.paceTimer ∧
    (State.takeStart n delay moment s).ctl.phase = s.ctl.phase ∧
    (State.takeStart n delay moment s).ctl.station = s.ctl.station ∧
    (State.takeStart n delay moment s).ctl.rehearsal = s.ctl.rehearsal ∧
    (State.takeStart n delay moment s).store.config = s.store.config ∧
    (State.takeStart n delay moment s).store.header = s.store.header := by
  unfold State.takeStart; (try dsimp only); (repeat' split) <;> simp

@[simp] theorem State.takeStop_keeps (s : State) :
    (State.takeStop s).localTimer = s.localTimer ∧
    (State.takeStop s).inputs = s.inputs ∧
    (State.takeStop s).line = s.line ∧
    (State.takeStop s).pending = s.pending ∧
    (State.takeStop s).clock.paceTimer = s.clock.paceTimer ∧
    (State.takeStop s).ctl.phase = s.ctl.phase ∧
    (State.takeStop s).ctl.station = s.ctl.station ∧
    (State.takeStop s).ctl.rehearsal = s.ctl.rehearsal ∧
    (State.takeStop s).store.config = s.store.config ∧
    (State.takeStop s).store.header = s.store.header := by
  unfold State.takeStop; (try dsimp only); (repeat' split) <;> simp

@[simp] theorem State.softRestart_keeps (s : State) :
    (State.softRestart s).localTimer = s.localTimer ∧
    (State.softRestart s).inputs = s.inputs ∧
    (State.softRestart s).line = s.line ∧
    (State.softRestart s).pending = s.pending ∧
    (State.softRestart s).clock.showTime = s.clock.showTime ∧
    (State.softRestart s).clock.paceTimer = s.clock.paceTimer ∧
    (State.softRestart s).store.config = s.store.config ∧
    (State.softRestart s).store.header = s.store.header ∧
    (State.softRestart s).ctl.phase = s.ctl.phase ∧
    (State.softRestart s).ctl.station = s.ctl.station ∧
    (State.softRestart s).ctl.rehearsal = s.ctl.rehearsal := by
  unfold State.softRestart; (try dsimp only); (repeat' split) <;> simp

@[simp] theorem State.takeRestart_keeps (s : State) :
    (State.takeRestart s).localTimer = s.localTimer ∧
    (State.takeRestart s).inputs = s.inputs ∧
    (State.takeRestart s).line = s.line ∧
    (State.takeRestart s).pending = s.pending ∧
    (State.takeRestart s).clock.paceTimer = s.clock.paceTimer ∧
    (State.takeRestart s).store.config = s.store.config ∧
    (State.takeRestart s).store.header = s.store.header ∧
    (State.takeRestart s).ctl.phase = s.ctl.phase ∧
    (State.takeRestart s).ctl.station = s.ctl.station ∧
    (State.takeRestart s).ctl.rehearsal = s.ctl.rehearsal := by
  unfold State.takeRestart; (try dsimp only); (repeat' split) <;> simp

@[simp] theorem State.takeQuery_keeps (clear : Bool) (s : State) :
    (State.takeQuery clear s).localTimer = s.localTimer ∧
    (State.takeQuery clear s).inputs = s.inputs ∧
    (State.takeQuery clear s).ctl = s.ctl ∧
    (State.takeQuery clear s).peers = s.peers ∧
    (State.takeQuery clear s).clock = s.clock ∧
    (State.takeQuery clear s).store = s.store ∧
    (State.takeQuery clear s).seq = s.seq ∧
    (State.takeQuery clear s).jet = s.jet ∧
    (State.takeQuery clear s).pump = s.pump ∧
    (State.takeQuery clear s).head = s.head ∧
    (State.takeQuery clear s).lights = s.lights ∧
    (State.takeQuery clear s).music = s.music ∧
    (State.takeQuery clear s).pending = s.pending := by
  unfold State.takeQuery; (try dsimp only); (repeat' split) <;> simp

@[simp] theorem State.noteStep_keeps (applied : Int) (s : State) :
    (State.noteStep applied s).localTimer = s.localTimer ∧
    (State.noteStep applied s).inputs = s.inputs ∧
    (State.noteStep applied s).line = s.line ∧
    (State.noteStep applied s).pending = s.pending ∧
    (State.noteStep applied s).clock.showTime = s.clock.showTime ∧
    (State.noteStep applied s).clock.paceTimer = s.clock.paceTimer ∧
    (State.noteStep applied s).ctl.phase = s.ctl.phase ∧
    (State.noteStep applied s).ctl.station = s.ctl.station ∧
    (State.noteStep applied s).ctl.rehearsal = s.ctl.rehearsal ∧
    (State.noteStep applied s).store.config = s.store.config ∧
    (State.noteStep applied s).store.header = s.store.header := by
  unfold State.noteStep; (try dsimp only); (repeat' split) <;> simp

@[simp] theorem State.agree_keeps (s : State) :
    (State.agree s).localTimer = s.localTimer ∧
    (State.agree s).inputs = s.inputs ∧
    (State.agree s).line = s.line ∧
    (State.agree s).pending = s.pending ∧
    (State.agree s).clock.paceTimer = s.clock.paceTimer ∧
    (State.agree s).ctl.phase = s.ctl.phase ∧
    (State.agree s).ctl.station = s.ctl.station ∧
    (State.agree s).ctl.rehearsal = s.ctl.rehearsal ∧
    (State.agree s).store.config = s.store.config ∧
    (State.agree s).store.header = s.store.header := by
  unfold State.agree; (try dsimp only); (repeat' split) <;> simp

@[simp] theorem State.paceExpiry_keeps (s : State) :
    (State.paceExpiry s).localTimer = s.localTimer ∧
    (State.paceExpiry s).inputs = s.inputs ∧
    (State.paceExpiry s).pending = s.pending ∧
    (State.paceExpiry s).clock.paceTimer = s.clock.paceTimer ∧
    (State.paceExpiry s).store.config = s.store.config ∧
    (State.paceExpiry s).store.header = s.store.header ∧
    (State.paceExpiry s).ctl.phase = s.ctl.phase ∧
    (State.paceExpiry s).ctl.station = s.ctl.station ∧
    (State.paceExpiry s).ctl.rehearsal = s.ctl.rehearsal := by
  unfold State.paceExpiry; (try dsimp only); (repeat' split) <;> simp

@[simp] theorem State.afterSettling_keeps (s : State) :
    (State.afterSettling s).localTimer = s.localTimer ∧
    (State.afterSettling s).inputs = s.inputs ∧
    (State.afterSettling s).peers = s.peers ∧
    (State.afterSettling s).seq = s.seq ∧
    (State.afterSettling s).jet = s.jet ∧
    (State.afterSettling s).pump = s.pump ∧
    (State.afterSettling s).head = s.head ∧
    (State.afterSettling s).lights = s.lights ∧
    (State.afterSettling s).music = s.music ∧
    (State.afterSettling s).mon = s.mon ∧
    (State.afterSettling s).pending = s.pending ∧
    (State.afterSettling s).ctl.station = s.ctl.station ∧
    (State.afterSettling s).ctl.rehearsal = s.ctl.rehearsal ∧
    (State.afterSettling s).store.config = s.store.config ∧
    (State.afterSettling s).store.header = s.store.header ∧
    (State.afterSettling s).clock.showTime = s.clock.showTime := by
  unfold State.afterSettling; (try dsimp only); (repeat' split) <;> simp

@[simp] theorem State.inputAsserted_keeps (cause : SafeCause) (alert : AlertCause) (s : State) :
    (State.inputAsserted cause alert s).localTimer = s.localTimer ∧
    (State.inputAsserted cause alert s).inputs = s.inputs ∧
    (State.inputAsserted cause alert s).pending = s.pending ∧
    (State.inputAsserted cause alert s).clock.paceTimer = s.clock.paceTimer ∧
    (State.inputAsserted cause alert s).store.config = s.store.config ∧
    (State.inputAsserted cause alert s).store.header = s.store.header ∧
    (State.inputAsserted cause alert s).ctl.phase = s.ctl.phase ∧
    (State.inputAsserted cause alert s).ctl.station = s.ctl.station ∧
    (State.inputAsserted cause alert s).ctl.rehearsal = s.ctl.rehearsal := by
  unfold State.inputAsserted; (try dsimp only); (repeat' split) <;> simp

@[simp] theorem State.alertExpiry_keeps (s : State) :
    (State.alertExpiry s).localTimer = s.localTimer ∧
    (State.alertExpiry s).inputs = s.inputs ∧
    (State.alertExpiry s).peers = s.peers ∧
    (State.alertExpiry s).clock = s.clock ∧
    (State.alertExpiry s).store = s.store ∧
    (State.alertExpiry s).seq = s.seq ∧
    (State.alertExpiry s).jet = s.jet ∧
    (State.alertExpiry s).pump = s.pump ∧
    (State.alertExpiry s).head = s.head ∧
    (State.alertExpiry s).lights = s.lights ∧
    (State.alertExpiry s).music = s.music ∧
    (State.alertExpiry s).mon = s.mon ∧
    (State.alertExpiry s).pending = s.pending ∧
    (State.alertExpiry s).ctl.phase = s.ctl.phase ∧
    (State.alertExpiry s).ctl.station = s.ctl.station ∧
    (State.alertExpiry s).ctl.rehearsal = s.ctl.rehearsal := by
  unfold State.alertExpiry; (try dsimp only); (repeat' split) <;> simp

@[simp] theorem State.takeIfReady_keeps (s : State) :
    (State.takeIfReady s).localTimer = s.localTimer ∧
    (State.takeIfReady s).inputs = s.inputs ∧
    (State.takeIfReady s).line = s.line ∧
    (State.takeIfReady s).pending = s.pending ∧
    (State.takeIfReady s).clock.showTime = s.clock.showTime ∧
    (State.takeIfReady s).clock.paceTimer = s.clock.paceTimer ∧
    (State.takeIfReady s).ctl.phase = s.ctl.phase ∧
    (State.takeIfReady s).ctl.station = s.ctl.station ∧
    (State.takeIfReady s).ctl.rehearsal = s.ctl.rehearsal ∧
    (State.takeIfReady s).store.config = s.store.config ∧
    (State.takeIfReady s).store.header = s.store.header := by
  unfold State.takeIfReady; (try dsimp only); (repeat' split) <;> simp

@[simp] theorem State.issueIfDue_keeps (s : State) :
    (State.issueIfDue s).localTimer = s.localTimer ∧
    (State.issueIfDue s).inputs = s.inputs ∧
    (State.issueIfDue s).line = s.line ∧
    (State.issueIfDue s).pending = s.pending ∧
    (State.issueIfDue s).clock.showTime = s.clock.showTime ∧
    (State.issueIfDue s).clock.paceTimer = s.clock.paceTimer ∧
    (State.issueIfDue s).ctl.phase = s.ctl.phase ∧
    (State.issueIfDue s).ctl.station = s.ctl.station ∧
    (State.issueIfDue s).ctl.rehearsal = s.ctl.rehearsal ∧
    (State.issueIfDue s).store.config = s.store.config ∧
    (State.issueIfDue s).store.header = s.store.header := by
  unfold State.issueIfDue; (try dsimp only); (repeat' split) <;> simp

end Sys2Proof.Machine
end

