-- ==== Sys2Proof/Laws/PerInstr.lean ====
section
/-! SUPPORT. The family `Spelling`: what the frame of a command on the basin line looks like (R23, R26, R171), said of each
command of the table as syntax. -/

namespace Sys2Proof.Laws

/-- The frame of a well-formed command has the payload length fixed for its kind, at most 80 bytes of it, and the sender 0
exactly when its kind is a desk kind (R26 checks 3 to 6). -/
def Spelling.Statement (c : Instr) : Prop :=
  c.wf = true → ∀ f, commandFrame c = some f →
    payloadLength f.kind.toNat = some f.payload.length ∧ f.payload.length ≤ 80 ∧
      (f.sender.toNat = 0 ↔ 16 ≤ f.kind.toNat)

/-- A command that does not arrive on the line has no frame. -/
theorem Spelling.of_none {c : Instr} (h : commandFrame c = none) : Spelling.Statement c := by
  intro _ f hf
  rw [h] at hf
  exact absurd hf (by simp)

/-- A frame of a station: its sender is not 0. -/
theorem Spelling.of_station {c : Instr} {sender kind : Byte} {payload : List Byte}
    (h : commandFrame c = some ⟨sender, kind, payload⟩) (hw : c.wf = true → 1 ≤ sender.toNat)
    (hk : kind.toNat < 16) (hl : payloadLength kind.toNat = some payload.length) (hle : payload.length ≤ 80) :
    Spelling.Statement c := by
  intro w f hf
  rw [h] at hf
  cases hf
  have := hw w
  exact ⟨hl, hle, by simp only; omega⟩

/-- A frame of the desk: its sender is 0. -/
theorem Spelling.of_desk {c : Instr} {kind : Byte} {payload : List Byte}
    (h : commandFrame c = some ⟨0, kind, payload⟩) (hk : 16 ≤ kind.toNat)
    (hl : payloadLength kind.toNat = some payload.length) (hle : payload.length ≤ 80) : Spelling.Statement c := by
  intro _ f hf
  rw [h] at hf
  cases hf
  exact ⟨hl, hle, by simpa using hk⟩

/-- The sender of a well-formed station frame is at least 1. -/
theorem Spelling.sender_pos {sender : Byte} (h : stationSender sender = true) : 1 ≤ sender.toNat := by
  simp [stationSender] at h
  omega

theorem Spelling.hardReset : Spelling.Statement .hardReset := Spelling.of_none rfl
theorem Spelling.resetRelease (stn : BitVec 5) (rehearse : Bool) : Spelling.Statement (.resetRelease stn rehearse) :=
  Spelling.of_none rfl
theorem Spelling.settlingExpiry : Spelling.Statement .settlingExpiry := Spelling.of_none rfl
theorem Spelling.select (n : Byte) (hhom : BitVec 8) : Spelling.Statement (.select n hhom) :=
  Spelling.of_desk rfl (by decide) rfl (by simp)
theorem Spelling.start (n : Byte) (delay : BitVec 16) (rx : Rx) : Spelling.Statement (.start n delay rx) :=
  Spelling.of_desk rfl (by decide) rfl (by simp [Machine.bytes16])
theorem Spelling.hold : Spelling.Statement .hold :=
  Spelling.of_desk rfl (by decide) rfl (by simp)
theorem Spelling.resume (pflt : BitVec 4) : Spelling.Statement (.resume pflt) :=
  Spelling.of_desk rfl (by decide) rfl (by simp)
theorem Spelling.stop : Spelling.Statement .stop :=
  Spelling.of_desk rfl (by decide) rfl (by simp)
theorem Spelling.clear (estop : Bool) : Spelling.Statement (.clear estop) :=
  Spelling.of_desk rfl (by decide) rfl (by simp)
theorem Spelling.restart (target : Byte) : Spelling.Statement (.restart target) :=
  Spelling.of_desk rfl (by decide) rfl (by simp)
theorem Spelling.query (target : Byte) (clearFlag : Byte) : Spelling.Statement (.query target clearFlag) :=
  Spelling.of_desk rfl (by decide) rfl (by simp)
theorem Spelling.paceReceived (sender : Byte) (p : PacePayload) (rx : Rx) : Spelling.Statement (.paceReceived sender p rx) :=
  Spelling.of_station rfl (fun h => Spelling.sender_pos (Bool.and_eq_true_iff.mp h).1) (by decide) rfl
    (by simp [PacePayload.bytes, Machine.bytes32, Machine.bytes16])
theorem Spelling.alertReceived (sender : Byte) (cause : Byte) (rx : Rx) : Spelling.Statement (.alertReceived sender cause rx) :=
  Spelling.of_station rfl (fun h => Spelling.sender_pos h) (by decide) rfl (by simp)
theorem Spelling.reportReceived (sender : Byte) : Spelling.Statement (.reportReceived sender) :=
  Spelling.of_station rfl (fun h => Spelling.sender_pos h) (by decide) rfl (by simp)
theorem Spelling.frameError (why : RxFailure) : Spelling.Statement (.frameError why) := Spelling.of_none rfl
theorem Spelling.peerLapse (k : Peer) : Spelling.Statement (.peerLapse k) := Spelling.of_none rfl
theorem Spelling.peerLost (k : Peer) : Spelling.Statement (.peerLost k) := Spelling.of_none rfl
theorem Spelling.duplicateTimerExpiry : Spelling.Statement .duplicateTimerExpiry := Spelling.of_none rfl
theorem Spelling.deferGapEnd : Spelling.Statement .deferGapEnd := Spelling.of_none rfl
theorem Spelling.backoffEnd : Spelling.Statement .backoffEnd := Spelling.of_none rfl
theorem Spelling.collision : Spelling.Statement .collision := Spelling.of_none rfl
theorem Spelling.frameSent : Spelling.Statement .frameSent := Spelling.of_none rfl
theorem Spelling.paceTimerExpiry (pflt : BitVec 4) : Spelling.Statement (.paceTimerExpiry pflt) :=
  Spelling.of_none rfl
theorem Spelling.stepRecentTimerExpiry : Spelling.Statement .stepRecentTimerExpiry := Spelling.of_none rfl
theorem Spelling.solitudeTimerExpiry : Spelling.Statement .solitudeTimerExpiry := Spelling.of_none rfl
theorem Spelling.showTimeZeroCrossing : Spelling.Statement .showTimeZeroCrossing := Spelling.of_none rfl
theorem Spelling.timeLimit : Spelling.Statement .timeLimit := Spelling.of_none rfl
theorem Spelling.estopAsserted : Spelling.Statement .estopAsserted := Spelling.of_none rfl
theorem Spelling.lowLevelAsserted : Spelling.Statement .lowLevelAsserted := Spelling.of_none rfl
theorem Spelling.lowLevelReleased : Spelling.Statement .lowLevelReleased := Spelling.of_none rfl
theorem Spelling.alertTimerExpiry (estop : Bool) : Spelling.Statement (.alertTimerExpiry estop) :=
  Spelling.of_none rfl
theorem Spelling.flashReadComplete (data : List Byte) (estop : Bool) : Spelling.Statement (.flashReadComplete data estop) :=
  Spelling.of_none rfl
theorem Spelling.stagedRecordTaken : Spelling.Statement .stagedRecordTaken := Spelling.of_none rfl
theorem Spelling.cueIssue : Spelling.Statement .cueIssue := Spelling.of_none rfl
theorem Spelling.jetComputationPass (pflt : BitVec 4) : Spelling.Statement (.jetComputationPass pflt) :=
  Spelling.of_none rfl
theorem Spelling.windEdge : Spelling.Statement .windEdge := Spelling.of_none rfl
theorem Spelling.windCalmTimeout : Spelling.Statement .windCalmTimeout := Spelling.of_none rfl
theorem Spelling.windFilterPeriod : Spelling.Statement .windFilterPeriod := Spelling.of_none rfl
theorem Spelling.pumpControlPeriod : Spelling.Statement .pumpControlPeriod := Spelling.of_none rfl
theorem Spelling.startTimerExpiry (c : Channel) : Spelling.Statement (.startTimerExpiry c) :=
  Spelling.of_none rfl
theorem Spelling.driveFault (c : Channel) : Spelling.Statement (.driveFault c) := Spelling.of_none rfl
theorem Spelling.holdOffExpiry (c : Channel) (pflt : Bool) : Spelling.Statement (.holdOffExpiry c pflt) :=
  Spelling.of_none rfl
theorem Spelling.flowEdge (c : Channel) : Spelling.Statement (.flowEdge c) := Spelling.of_none rfl
theorem Spelling.flowSilenceTimeout (c : Channel) : Spelling.Statement (.flowSilenceTimeout c) :=
  Spelling.of_none rfl
theorem Spelling.valvePullInEnd (z : Nozzle) : Spelling.Statement (.valvePullInEnd z) := Spelling.of_none rfl
theorem Spelling.nozzleClimbComplete (z : Nozzle) : Spelling.Statement (.nozzleClimbComplete z) :=
  Spelling.of_none rfl
theorem Spelling.nozzleFallComplete (z : Nozzle) : Spelling.Statement (.nozzleFallComplete z) :=
  Spelling.of_none rfl
theorem Spelling.homeIntervalExpiry (h : Head) (hhom : Bool) : Spelling.Statement (.homeIntervalExpiry h hhom) :=
  Spelling.of_none rfl
theorem Spelling.stepIntervalExpiry (h : Head) : Spelling.Statement (.stepIntervalExpiry h) :=
  Spelling.of_none rfl
theorem Spelling.reversalPauseEnd (h : Head) : Spelling.Statement (.reversalPauseEnd h) :=
  Spelling.of_none rfl
theorem Spelling.settlePauseEnd (h : Head) (hhom : Bool) : Spelling.Statement (.settlePauseEnd h hhom) :=
  Spelling.of_none rfl
theorem Spelling.encoderEdge (h : Head) (a b : Bool) : Spelling.Statement (.encoderEdge h a b) :=
  Spelling.of_none rfl
theorem Spelling.sweepLegBoundary (h : Head) : Spelling.Statement (.sweepLegBoundary h) :=
  Spelling.of_none rfl
theorem Spelling.lightStep : Spelling.Statement .lightStep := Spelling.of_none rfl
theorem Spelling.lampPwmRollover : Spelling.Statement .lampPwmRollover := Spelling.of_none rfl
theorem Spelling.audioFrameSlot : Spelling.Statement .audioFrameSlot := Spelling.of_none rfl
theorem Spelling.syncCheck : Spelling.Statement .syncCheck := Spelling.of_none rfl
theorem Spelling.gainStep : Spelling.Statement .gainStep := Spelling.of_none rfl
theorem Spelling.rehearsalStartingExpiry (c : Channel) : Spelling.Statement (.rehearsalStartingExpiry c) :=
  Spelling.of_none rfl

end Sys2Proof.Laws
end

