-- ==== Sys2Proof/Laws/Queue.lean ====
section
/-! SUPPORT. The pending queue (R86): its order is a strict one, and an insertion keeps it. -/

namespace Sys2Proof.Machine

theorem QueueEntry.before_trans {a b c : QueueEntry} (h : a.before b = true) (k : c.before b = false) :
    c.before a = false := by
  simp only [QueueEntry.before, Bool.or_eq_true, Bool.and_eq_true, decide_eq_true_eq, beq_iff_eq, Bool.or_eq_false_iff,
    Bool.and_eq_false_iff, decide_eq_false_iff_not, beq_eq_false_iff_ne] at *
  omega

theorem QueueEntry.before_asymm {a b : QueueEntry} (h : a.before b = true) : b.before a = false := by
  simp only [QueueEntry.before, Bool.or_eq_true, Bool.and_eq_true, decide_eq_true_eq, beq_iff_eq, Bool.or_eq_false_iff,
    Bool.and_eq_false_iff, decide_eq_false_iff_not, beq_eq_false_iff_ne] at *
  omega

@[simp] theorem insertEntry_length (e : QueueEntry) (l : List QueueEntry) :
    (insertEntry e l).length = l.length + 1 := by
  induction l with
  | nil => rfl
  | cons x xs ih =>
    unfold insertEntry
    split <;> simp [ih]

theorem mem_insertEntry {e y : QueueEntry} {l : List QueueEntry} : y ∈ insertEntry e l ↔ y = e ∨ y ∈ l := by
  induction l with
  | nil => simp [insertEntry]
  | cons x xs ih =>
    unfold insertEntry
    split
    · simp
    · simp only [List.mem_cons, ih]
      tauto

/-- An entry inserted in its place leaves the queue in order. -/
theorem insertEntry_ordered (e : QueueEntry) (l : List QueueEntry) (h : l.Pairwise fun a b => b.before a = false) :
    (insertEntry e l).Pairwise fun a b => b.before a = false := by
  induction l with
  | nil => simp [insertEntry]
  | cons x xs ih =>
    obtain ⟨hx, hxs⟩ := List.pairwise_cons.mp h
    unfold insertEntry
    split
    · next he =>
      refine List.pairwise_cons.mpr ⟨fun y hy => ?_, h⟩
      rcases List.mem_cons.mp hy with rfl | hy
      · exact QueueEntry.before_asymm he
      · exact QueueEntry.before_trans he (hx y hy)
    · next he =>
      refine List.pairwise_cons.mpr ⟨fun y hy => ?_, ih hxs⟩
      rcases mem_insertEntry.mp hy with rfl | hy
      · exact Bool.eq_false_iff.mpr he
      · exact hx y hy

end Sys2Proof.Machine
end

