-- ==== Sys2Proof/Laws/Receiver.lean ====
section
/-! SUPPORT. The receiver (R24, R25): what an edge and a bit time leave as it stands, and how a wave falls into parts. -/

namespace Sys2Proof.Machine

/-- The pair of each bit time after some others: show time and local timer have counted them (R25). -/
def laterPair (n : Nat) (now : Rx) : Rx := { latch := now.latch + n, moment := now.moment + n }

@[simp] theorem laterPair_zero (now : Rx) : laterPair 0 now = now := by simp [laterPair]

theorem laterPair_succ (n : Nat) (now : Rx) :
    laterPair n { latch := now.latch + 1, moment := now.moment + 1 } = laterPair (n + 1) now := by
  simp only [laterPair]
  congr 1 <;> (push_cast; omega)

/-- An edge touches neither the slots nor the transmitter. -/
theorem Line.edge_keeps (now : Rx) (level : Bool) (l : Line) :
    l.edge now level = { l with
      receiver := (l.edge now level).receiver, quietSince := (l.edge now level).quietSince
      lowRun := (l.edge now level).lowRun, latch := (l.edge now level).latch } := by
  unfold Line.edge
  cases level <;> (repeat' split) <;> rfl

/-- Nor does what the receiver makes of a bit time. -/
theorem Line.hear_keeps (now : Rx) (level : Bool) (l : Line) :
    (l.hear now level).1 = { l with
      receiver := (l.hear now level).1.receiver, quietSince := (l.edge now level).quietSince
      lowRun := (l.edge now level).lowRun, latch := (l.edge now level).latch } := by
  have e := Line.edge_keeps now level l
  unfold Line.hear
  dsimp only
  split
  · exact e
  · exact e
  · split
    · rw [e]
    · exact e
  · rw [e]

/-- A wave in two parts: the second is heard from where the first has left the receiver. -/
theorem Line.hearWave_append (now : Rx) (a b : List Bool) (l : Line) :
    l.hearWave now (a ++ b) =
      (((l.hearWave now a).1.hearWave (laterPair a.length now) b).1,
       (l.hearWave now a).2 ++ ((l.hearWave now a).1.hearWave (laterPair a.length now) b).2) := by
  induction a generalizing now l with
  | nil => simp [Line.hearWave]
  | cons x xs ih => simp only [List.cons_append, Line.hearWave, ih, laterPair_succ, List.length_cons]

/-- The events of a wave are one for each bit time. -/
@[simp] theorem Line.hearWave_length (now : Rx) (a : List Bool) (l : Line) : (l.hearWave now a).2.length = a.length := by
  induction a generalizing now l with
  | nil => rfl
  | cons x xs ih => simp [Line.hearWave, ih]

/-- What hears has RESET released and its own driver off. -/
theorem State.hears_elim {s : State} (h : s.hears = true) : s.ctl.phase ≠ .held ∧ s.line.receiver ≠ .off := by
  unfold State.hears Line.hears at h
  constructor
  · intro k; simp [k] at h
  · intro k; simp [k] at h

/-- A frame ends with its stop bit and at most eight data bits at the high level (R22). -/
theorem endHighs_bounds (bs : List Byte) : 1 ≤ endHighs bs ∧ endHighs bs ≤ 9 := by
  have h : ∀ b : Fin 256, 1 ≤ ((charWave (BitVec.ofFin b)).reverse.takeWhile id).length ∧
      ((charWave (BitVec.ofFin b)).reverse.takeWhile id).length ≤ 9 := by decide +kernel
  exact h (bs.getLastD 0).toFin

/-- Without a frame in reception the last rise is put by the bits of the command (R31). -/
theorem State.lastRise_whole {s : State} (c : Instr) (h : ∀ b, s.line.receiver ≠ .receiving b) :
    s.lastRise c = s.localTimer - commandHighs c := by
  unfold State.lastRise
  split
  · exact absurd ‹_› (h _)
  all_goals rfl

/-- Of a frame in reception the last rise is the one that was heard (R31). -/
theorem State.lastRise_heard {s : State} (c : Instr) {b : RxBuffer} {q : Nat} (h : s.line.receiver = .receiving b)
    (hq : s.line.quietSince = some q) : s.lastRise c = q := by simp [State.lastRise, h, hq]

end Sys2Proof.Machine
end

