-- ==== Sys2Proof/Laws/Store.lean ====
section
/-! SUPPORT. What the operations on the Show Store make of its requests (R69, R70, R72 to R74). -/

set_option linter.all false

namespace Sys2Proof.Machine

@[simp] theorem Store.withdraw_same (r : Reader) (st : Store) : (st.withdraw r).request r = none := by
  cases r <;> simp only [Store.withdraw, Store.setRequest] <;> split <;> (try split) <;> rfl
@[simp] theorem Store.withdraw_requests (r : Reader) (st : Store) :
    (st.withdraw r).configReq = (if r = .config then none else st.configReq) ∧
    (st.withdraw r).dirReq = (if r = .directory then none else st.dirReq) ∧
    (st.withdraw r).cueReq = (if r = .cue then none else st.cueReq) ∧
    (st.withdraw r).audioReq = (if r = .audio then none else st.audioReq) := by
  cases hp : st.port with
  | none => cases r <;> simp [Store.withdraw, Store.setRequest, hp]
  | some p => cases r <;> simp [Store.withdraw, Store.setRequest, hp] <;> split <;> simp
@[simp] theorem Store.setRequest_requests (st : Store) (q : Option Request) (r : Reader) :
    (st.setRequest q r).configReq = (if r = .config then q else st.configReq) ∧
    (st.setRequest q r).dirReq = (if r = .directory then q else st.dirReq) ∧
    (st.setRequest q r).cueReq = (if r = .cue then q else st.cueReq) ∧
    (st.setRequest q r).audioReq = (if r = .audio then q else st.audioReq) := by
  cases r <;> simp [Store.setRequest]

@[simp] theorem State.dropEntry_store (s : State) :
    s.dropEntry.store.entry = none ∧ s.dropEntry.store.dirReq = none ∧ s.dropEntry.store.cueReq = none ∧
    s.dropEntry.store.audioReq = none ∧ s.dropEntry.store.configReq = s.store.configReq ∧ s.dropEntry.store.cuePos = none ∧
    s.dropEntry.store.audioPos = none := by
  simp [State.dropEntry]
@[simp] theorem State.stopCueReader_store (s : State) :
    s.stopCueReader.store.entry = s.store.entry ∧ s.stopCueReader.store.dirReq = s.store.dirReq ∧
    s.stopCueReader.store.cueReq = none ∧ s.stopCueReader.store.audioReq = s.store.audioReq ∧
    s.stopCueReader.store.configReq = s.store.configReq ∧ s.stopCueReader.store.audioPos = s.store.audioPos := by
  simp [State.stopCueReader]
@[simp] theorem State.makeRequest_store (r : Reader) (b : Nat) (e : Expect) (s : State) :
    (s.makeRequest r b e).store.entry = s.store.entry ∧ (s.makeRequest r b e).store.cuePos = s.store.cuePos ∧
    (s.makeRequest r b e).store.audioPos = s.store.audioPos ∧ (s.makeRequest r b e).store.dirStep = s.store.dirStep ∧
    (s.makeRequest r b e).store.port = s.store.port ∧
    (s.makeRequest r b e).store.configReq = (if r = .config then some ⟨b, e, 0⟩ else s.store.configReq) ∧
    (s.makeRequest r b e).store.dirReq = (if r = .directory then some ⟨b, e, 0⟩ else s.store.dirReq) ∧
    (s.makeRequest r b e).store.cueReq = (if r = .cue then some ⟨b, e, 0⟩ else s.store.cueReq) ∧
    (s.makeRequest r b e).store.audioReq = (if r = .audio then some ⟨b, e, 0⟩ else s.store.audioReq) := by
  cases r <;> simp [State.makeRequest, Store.setRequest]
@[simp] theorem State.grant_store (s : State) :
    s.grant.store = { s.store with port := s.grant.store.port } := by
  unfold State.grant; split <;> rfl
end Sys2Proof.Machine
end

