-- ==== Sys2Proof/Laws/Transitions.lean ====
section
/-! SUPPORT. What a change of the show state and the entry to IDLE make of Show Control's own items (R14, R15, R59, R104). -/

set_option linter.all false

namespace Sys2Proof.Machine

@[simp] theorem State.changeState_ctl (n : ShowState) (s : State) : (s.changeState n).ctl =
    { s.ctl with state := n, followHold := 0, followRunning := 0, followEnding := 0 } := by
  simp [State.changeState]
@[simp] theorem State.askPass_planned (s : State) : s.askPass.jet.planned = s.jet.planned := by
  unfold State.askPass; split <;> rfl
@[simp] theorem State.changeState_planned (n : ShowState) (s : State) :
    (s.changeState n).jet.planned = if n.underWay then s.jet.planned else 0 := by
  simp [State.changeState]
theorem State.changeState_solo (n : ShowState) (s : State) :
    (s.changeState n).clock.solo = (s.clock.solo && n.underWay) := by
  simp [State.changeState]; (repeat' split) <;> simp_all
theorem State.changeState_solitude (n : ShowState) (s : State) (h : n.underWay = false) :
    (s.changeState n).clock.solitude = none := by
  simp [State.changeState, h]
@[simp] theorem State.clearSequencer_store (s : State) : s.clearSequencer.store.entry = s.store.entry ∧
    s.clearSequencer.store.dirReq = s.store.dirReq ∧ s.clearSequencer.store.configReq = s.store.configReq := by
  simp [State.clearSequencer]
@[simp] theorem State.clearSequencer_jet (s : State) : s.clearSequencer.jet = { s.jet with view := none } := by
  simp [State.clearSequencer]
@[simp] theorem State.startPump_planned (c : Channel) (s : State) : (s.startPump c).jet.planned = s.jet.planned := by
  unfold State.startPump State.trip; dsimp only; (repeat' split) <;> simp
@[simp] theorem State.actGoal_planned (b : Bool) (c : Channel) (s : State) : (s.actGoal b c).jet.planned = s.jet.planned := by
  unfold State.actGoal; dsimp only; (repeat' split) <;> simp
theorem foldl_proj {α β : Type} (g : State → β) (f : State → α → State) (hf : ∀ s a, g (f s a) = g s) (l : List α) (s : State) :
    g (l.foldl f s) = g s := by
  induction l generalizing s with
  | nil => rfl
  | cons a l ih => simp [ih, hf]
@[simp] theorem State.workGoals_planned (s : State) : s.workGoals.jet.planned = s.jet.planned := by
  simp only [State.workGoals, State.refreshValves_keeps]
  exact foldl_proj (fun s => s.jet.planned) _ (by simp) _ _
@[simp] theorem State.idlePeers_planned (s : State) : s.idlePeers.jet.planned = s.jet.planned := by
  unfold State.idlePeers State.reportPeers; dsimp only; split <;> simp
@[simp] theorem State.enterIdle_ctl (b : Bool) (s : State) : (s.enterIdle b).ctl =
    { s.ctl with state := .idle, followHold := 0, followRunning := 0, followEnding := 0, selected := 0, held := none,
                 lightRunOut := false, audioRunOut := false } := by
  cases b <;> simp [State.enterIdle]
@[simp] theorem State.enterIdle_store (b : Bool) (s : State) : (s.enterIdle b).store.entry = none ∧
    (s.enterIdle b).store.dirReq = none ∧ (s.enterIdle b).store.configReq = s.store.configReq := by
  cases b <;> simp [State.enterIdle]
@[simp] theorem State.enterIdle_rest (b : Bool) (s : State) : (s.enterIdle b).jet.planned = 0 ∧
    (s.enterIdle b).clock.solo = false ∧ (s.enterIdle b).clock.solitude = none := by
  cases b <;> simp [State.enterIdle, State.changeState_solo, State.changeState_solitude _ _ (show ShowState.underWay .idle = false from rfl), ShowState.underWay]
end Sys2Proof.Machine
end

