-- ==== Sys2Proof/Laws/Valves.lean ====
section
/-! SUPPORT. What working the valves afresh leaves (R123, R150, R152): every valve command and every working duty stand as
their rules say. -/

namespace Sys2Proof.Machine

@[simp] theorem State.refreshValves_nozzles (s : State) :
    s.refreshValves.pump.nozzles = Vector.ofFn fun z : Fin 16 => s.nozzleAfter z := by
  simp [State.refreshValves, State.armStartTimers]

theorem State.pumpWithStartTimer_keeps (s : State) (c : Channel) :
    (s.pumpWithStartTimer c).valves = (s.pump.pumps[c]).valves ∧ (s.pumpWithStartTimer c).state = (s.pump.pumps[c]).state := by
  unfold State.pumpWithStartTimer
  dsimp only
  split <;> exact ⟨rfl, rfl⟩

theorem State.nozzleAfter_out (s : State) (z : Nozzle) :
    (s.nozzleAfter z).state = .out ↔ (s.pump.nozzles[z]).state = .out := by
  unfold State.nozzleAfter
  dsimp only
  split
  · rfl
  · next h =>
    split
    · exact ⟨fun k => (by cases k), fun k => absurd k h⟩
    · split
      · split
        · exact ⟨fun k => (by cases k), fun k => absurd k h⟩
        · exact Iff.rfl
      · exact Iff.rfl

/-- The command of a nozzle worked afresh is what R123 makes of the state. -/
theorem State.nozzleAfter_command (s : State) (z : Nozzle) : (s.nozzleAfter z).command = s.valveCommand z := by
  unfold State.nozzleAfter
  dsimp only
  split
  · next h =>
    have : ((s.pump.nozzles[z]).state != .out) = false := by rw [h]; rfl
    rw [State.valveCommand, this, Bool.and_false, Bool.false_and, Bool.false_and]
  · split
    · next h => simp [h.1]
    · split
      · next h => simp [h.1]
      · next h k =>
        cases hv : s.valveCommand z <;> cases hc : (s.pump.nozzles[z]).command <;> simp_all

/-- Two states that agree on what R123 reads have the same valve commands. -/
theorem State.valveCommand_congr {s t : State} (z : Nozzle) (ha : t.valvesAllowed = s.valvesAllowed)
    (hg : t.store.config = s.store.config) (hv : (t.pumpOf z).valves = (s.pumpOf z).valves)
    (hs : (t.pumpOf z).state = (s.pumpOf z).state) (hp : t.head.permits = s.head.permits)
    (ho : (t.pump.nozzles[z]).state = .out ↔ (s.pump.nozzles[z]).state = .out) :
    t.valveCommand z = s.valveCommand z := by
  have ho' : ((t.pump.nozzles[z]).state != .out) = ((s.pump.nozzles[z]).state != .out) := by
    rw [Bool.eq_iff_iff, bne_iff_ne, bne_iff_ne, Ne, Ne, ho]
  simp only [State.valveCommand, ha, hg, hv, hs, hp, ho']

@[simp] theorem State.refreshValves_pumps (s : State) : s.refreshValves.pump.pumps =
    Vector.ofFn fun c : Fin 4 =>
      State.pumpWithStartTimer { s with pump := { s.pump with nozzles := Vector.ofFn fun z : Fin 16 => s.nozzleAfter z } } c := by
  simp [State.refreshValves, State.armStartTimers]

theorem State.refreshValves_wetEnding (s : State) : s.refreshValves.pump.wetEnding = s.pump.wetEnding := by
  simp [State.refreshValves, State.armStartTimers]

theorem State.refreshValves_pumpOf (s : State) (z : Nozzle) :
    (s.refreshValves.pumpOf z).valves = (s.pumpOf z).valves ∧ (s.refreshValves.pumpOf z).state = (s.pumpOf z).state := by
  have e : (s.refreshValves.store.config.nozzles[z]).channel = (s.store.config.nozzles[z]).channel := by simp
  unfold State.pumpOf nthD
  rw [e]
  generalize (s.store.config.nozzles[z]).channel = c
  by_cases h : c < 4
  · have k := State.pumpWithStartTimer_keeps
      { s with pump := { s.pump with nozzles := Vector.ofFn fun z : Fin 16 => s.nozzleAfter z } } ⟨c, h⟩
    simpa [List.getD_eq_getElem?_getD, h, Vector.getElem?_toList] using k
  · simp [List.getD_eq_getElem?_getD, h]

/-- Working the valves afresh leaves every valve command as R123 says. -/
theorem State.refreshValves_stand (s : State) : ValvesStand s.refreshValves := by
  intro z
  rw [State.valveCommand_congr (s := s) z]
  · simp [State.nozzleAfter_command]
  · simp [State.valvesAllowed, State.refreshValves_wetEnding]
  · simp
  · exact (s.refreshValves_pumpOf z).1
  · exact (s.refreshValves_pumpOf z).2
  · simp
  · simp [State.nozzleAfter_out]

/-- Working the gating afresh leaves every working duty as R150 and R152 say. -/
theorem State.regate_stand (s : State) : LampsStand s.regate := by
  intro h f
  have ho : s.operating = true := by
    unfold State.regate at h
    split at h
    · assumption
    · exact h
  rw [State.regate, if_pos ho]
  exact Vector.getElem_ofFn _

/-- So does working the valves afresh. -/
theorem State.refreshValves_lamps (s : State) : LampsStand s.refreshValves := State.regate_stand _

/-- What working the permits afresh does to Head Control (R142): the permits become what their rule gives, and no head record
changes. -/
theorem State.refreshPermits_head (s : State) :
    s.refreshPermits.head = { s.head with permits := Vector.ofFn fun z : Fin 16 => s.permitOf z } := by
  unfold State.refreshPermits
  dsimp only
  split
  · rename_i h; rw [h]
  · simp [State.refreshValves, State.armStartTimers, State.dropValves]

/-- After HOMING entry with the switch not asserted the permits are those of the new state (R132, R142). -/
theorem State.enterHoming_permits (h : Head) (g : Target) (s : State) :
    (s.enterHoming h g false).refreshPermits.head = (s.enterHoming h g false).head := by
  rw [State.refreshPermits_head]
  simp only [State.enterHoming, State.refreshPermits_head, State.permitOf, State.refreshPermits_keeps, Bool.false_eq_true, if_false]

end Sys2Proof.Machine
end

