-- ==== Sys2Proof/Tests/Slice0.lean ====
section
/-! SUPPORT. The model's own tests.  Expected values come from the spec's worked cases (named in the comments) or from hand
calculation; the `meets_` theorems show, for each statement with hypotheses, a state and operands that meet them. -/

set_option maxRecDepth 20000
set_option Elab.async false

namespace Sys2Proof.Tests

open Sys2Proof.Machine

/-! ### A small installation and its states -/

/-- The station of the worked cases of 06, 07, 08, 09 and 10: channels 0 and 1 with fixed nozzles, channel 2 with swivel
nozzle 9 on head 2, fixture 5 AREA, fixture 0 JET over nozzle 0. -/
def plant : StationConfig :=
  { StationConfig.empty with
    counterKinds := #v[11, 2, 5, 22], thresholds := #v[5, 1, 0, 65535], capacity := 1200, ceiling := 600, lineDelay := 40
    anemometer := true, windK := 30000000, wLo := 30, wHi := 90, dFloor := 400, holdDuty := 50, safeWhite := 80
    zone := true
    channels := #v[
      { present := true, hfull := 2400, qfull := 320, nmin := 150, nmax := 950, rampUp := 25, rampDown := 40,
        startTimeout := 1000, kf := 308000, lbase := 350 },
      { present := true, hfull := 1200, qfull := 400, nmin := 200, nmax := 1000, rampUp := 50, rampDown := 50,
        startTimeout := 1000, kf := 308000, lbase := 200 },
      { present := true, hfull := 1000, qfull := 100, nmin := 100, nmax := 1000, rampUp := 50, rampDown := 50,
        startTimeout := 1000, kf := 308000, lbase := 100 }, {}]
    heads := StationConfig.empty.heads.set 2
      { present := true, range := 1600, stepInterval := 2000, homeInterval := 2000, ratio := 4, tolerance := 4
        settle := 50, park := 400 }
    nozzles := Vector.ofFn fun z : Fin 16 =>
      if z.val < 4 then { present := true, channel := 0, hmax := 2000 }
      else if z.val < 6 then { present := true, channel := 1, hmax := 1000 }
      else if z.val = 9 then
        { present := true, channel := 2, kind := 1, head := 2, envMin := 600, envMax := 1200, hmax := 900 }
      else {}
    fixtures := (StationConfig.empty.fixtures.set 5 { present := true, role := 1 }).set 0
      { present := true, role := 0, nozzle := 0 } }

/-- Station 14 after start-up, in a given state, with show 9 where there is one. -/
def station (st : ShowState) : State :=
  { State.reset with
    localTimer := 5000000
    ctl := { State.reset.ctl with
      phase := .done, state := st, station := 14, selected := if st.unselected then 0 else 9
      causes := { powerUp := st == .safe }, firstCause := if st = .safe then some .powerUp else none }
    clock := { State.reset.clock with showTime := 1000000, paceTimer := some 5010000 }
    store := { State.reset.store with
      header := some { version := 1, dirCount := 1, dirFirst := 131071, configBlocks := Vector.replicate 24 5 }
      config := plant }
    jet := { State.reset.jet with windFilter := some 5050000 }
    pump := { State.reset.pump with period := some 5010000 }
    head := { State.reset.head with permits := Vector.ofFn fun z : Fin 16 => z.val < 6 }
    lights := { State.reset.lights with lightTimer := some 5006000, pwmTimer := some 5001000 }
    music := { State.reset.music with slotBase := some 5000000, syncTimer := some 5005000, gainTimer := some 5010000 } }

/-- The state a command leaves. -/
def after (o : Host.Outcome State Fault Refusal) : State :=
  match o with
  | .next s => s
  | _ => State.reset

def rx : Rx := { latch := 990000, moment := 4990000 }

/-- The PACE of the worked layout of 13: station 3, RUNNING show 4, section 2, wind 45. -/
def pace : PacePayload :=
  { stamp := 12000000, showNo := 4, stateCode := 5, sectionNo := 2, flags := 0x10, planned := 500, ceiling := 600
    current := 139, wind := 45, outNozzles := 0, faultHeads := 0, trippedPumps := 0, causes := 0 }

/-- A FRESH entry of a peer in show 9. -/
def freshPeer (code : Nat) (offset : Option Offset) : PeerEntry :=
  { fresh := .fresh, offset := offset
    pace := some { showNo := 9, stateCode := code, stamp := 0, planned := 400, ceiling := 500, wind := none
                   arrival := 4960000 } }

/-- Head 2 in some state at position `p` with target step `g`. -/
def headAt (st : HeadState) (p g : Nat) (d : Direction) : HeadRec :=
  { state := st, position := some p, encoder := (p : Int) * 4, target := some { step := g, cueId := some 8 }
    direction := some d, timer := some 5000500 }

/-- A REPORT of a station right after reset. -/
def emptyReport : ReportImage :=
  { counters := State.reset.mon.counters, outNozzles := 0, faultHeads := 0, latchedPumps := 0, causes := {}
    clearRequested := false, firstCause := none, endingCause := none }

/-- A frame on the line, every slot full, the PACE's attempt count given. -/
def sending (kind : FrameKind) (tries : Nat) : Line :=
  { State.reset.line with
    alertSlot := some .eStop, reportSlot := some emptyReport, paceSlot := true, paceTries := tries
    tx := .sending kind [1, 2] 5000000, receiver := .off, quietSince := none }

/-- A cue record. -/
def cue (id beat : Nat) (body : CueBody) : CueRec := { id := id, beat := beat, order := id, body := body }

/-- A RUNNING station with one entry in its queue. -/
def queued (body : CueBody) : State :=
  { station .running with seq := { State.reset.seq with queue := [{ cue := cue 4 500 body, issue := 500 }] } }

/-- A RUNNING station whose section has audio, with some frames in the FIFO and a play index. -/
def playing (fifo : List AudioFrame) (play : Nat) : State :=
  { station .running with
    store := { (station .running).store with
      entry := some { firstCue := 10, cueCount := 1, firstAudio := 20, frames := 57000 }, audioPos := some 3
      audioReq := some { block := 23, expect := (station .running).expectAudio 57000 3, attempts := 0 } }
    music := { (station .running).music with fifo := fifo, playIndex := play } }

/-- A station with a pump record on channel 0. -/
def pumping (p : PumpRec) : State := (station .running).setPump 0 p

/-! ### Well-formedness: one ill-formed command for each check -/

theorem test_wf_pace_sender_desk : (Instr.paceReceived 0 pace rx).wf = false := by decide
theorem test_wf_pace_sender_high : (Instr.paceReceived 25 pace rx).wf = false := by decide
theorem test_wf_pace_state : (Instr.paceReceived 3 { pace with stateCode := 10 } rx).wf = false := by decide
theorem test_wf_pace_good : (Instr.paceReceived 24 { pace with stateCode := 9 } rx).wf = true := by decide
theorem test_wf_alert_sender : (Instr.alertReceived 25 1 rx).wf = false := by decide
theorem test_wf_report_sender : (Instr.reportReceived 0).wf = false := by decide
theorem test_wf_flash_length : (Instr.flashReadComplete [0, 0, 0] false).wf = false := by decide

/-! ### The checks and the layouts (R171, R172) -/

/-- 13: the checks of the nine characters 31h to 39h. -/
theorem test_crc16 : crc16 [0x31, 0x32, 0x33, 0x34, 0x35, 0x36, 0x37, 0x38, 0x39] = 0x29B1 := by decide +kernel
theorem test_crc32 : crc32 [0x31, 0x32, 0x33, 0x34, 0x35, 0x36, 0x37, 0x38, 0x39] = 0xCBF43926 := by decide +kernel

/-- 13, "Worked layout: one PACE". -/
theorem test_pace_layout : pace.bytes =
    [0x00, 0xB7, 0x1B, 0x00, 0x04, 0x05, 0x02, 0x10, 0x01, 0xF4, 0x02, 0x58, 0x00, 0x8B, 0x00, 0x2D, 0, 0, 0, 0] := by
  decide +kernel
/-- R23: 25 characters take 265 µs. -/
theorem test_pace_time : frameTime (LineFrame.bytes { sender := 3, kind := 1, payload := pace.bytes }) = 265 := by
  decide +kernel

/-- What stands at the station when the frames below arrive. -/
def arrival : Arrival := { rx := rx, hhom := 4, pflt := 1, estop := true }

/-! Frames written out from R171, the check worked by hand outside the model. -/
theorem test_decode_select : decodeFrame arrival [0, 16, 1, 9, 101, 187] = .select 9 4 := by decide +kernel
theorem test_decode_start : decodeFrame arrival [0, 17, 3, 9, 3, 232, 140, 35] = .start 9 1000 rx := by decide +kernel
theorem test_decode_hold : decodeFrame arrival [0, 18, 0, 169, 141] = .hold := by decide +kernel
theorem test_decode_resume : decodeFrame arrival [0, 19, 0, 154, 188] = .resume 1 := by decide +kernel
theorem test_decode_stop : decodeFrame arrival [0, 20, 0, 3, 43] = .stop := by decide +kernel
theorem test_decode_clear : decodeFrame arrival [0, 21, 0, 48, 26] = .clear true := by decide +kernel
theorem test_decode_restart : decodeFrame arrival [0, 22, 1, 255, 88, 194] = .restart 255 := by decide +kernel
theorem test_decode_query : decodeFrame arrival [0, 23, 2, 14, 1, 6, 200] = .query 14 1 := by decide +kernel
theorem test_decode_alert : decodeFrame arrival [2, 2, 1, 1, 36, 216] = .alertReceived 2 1 rx := by decide +kernel
theorem test_decode_report :
    decodeFrame arrival ([2, 3, 64] ++ List.replicate 64 0 ++ [11, 214]) = .reportReceived 2 := by decide +kernel

/-! R26: the first check that fails names the discard. -/
theorem test_check_crc : decodeFrame arrival [0, 18, 0, 169, 140] = .frameError .badCrc := by decide +kernel
theorem test_check_sender : decodeFrame arrival [25, 2, 1, 1, 33, 96] = .frameError .badSender := by decide +kernel
theorem test_check_kind : decodeFrame arrival [2, 9, 0, 24, 100] = .frameError .badKind := by decide +kernel
theorem test_check_length : decodeFrame arrival [2, 2, 0, 196, 158] = .frameError .badLength := by decide +kernel
theorem test_check_desk_kind : decodeFrame arrival [2, 18, 0, 199, 237] = .frameError .deskKindFromStation := by
  decide +kernel
theorem test_check_station_kind : decodeFrame arrival [0, 2, 1, 1, 201, 176] = .frameError .stationKindFromDesk := by
  decide +kernel
/-! The receiver (R24), fed bit time by bit time from a line at rest. -/

/-- The condition of the receiver after some bit times. -/
def heard (wave : List Bool) : Receiver := (State.reset.line.hearWave rx wave).1.receiver
/-- The events of some bit times but those that bring nothing. -/
def events (wave : List Bool) : List RxEvent := (State.reset.line.hearWave rx wave).2.filter fun e => e != .nothing

/-- A run of low level of 11 bit times is no start mark, one of 12 is, and one of 21 was none. -/
theorem test_short_mark : heard (List.replicate 11 false ++ [true]) = .hunting := by decide +kernel
theorem test_mark : heard (List.replicate 12 false) = .receiving (RxBuffer.start rx) := by decide +kernel
theorem test_long_mark : events (List.replicate 20 false) = [] ∧ events (List.replicate 21 false) = [.failed .markTooLong] := by
  decide +kernel
/-- R23, R25: the whole frame of a HOLD, with the pair of its first falling edge. -/
theorem test_heard_frame : events (frameWave [0, 18, 0, 169, 141]) = [.frame rx [0, 18, 0, 169, 141]] := by decide +kernel
/-- R31: after this HOLD the line is idle since the last data bit, a 1 of 8Dh, 2 µs before the frame's end; after a frame of
its own that ends with 02h, since the stop bit, 1 µs before the end. -/
theorem test_last_rise : (State.reset.line.hearWave rx (frameWave [0, 18, 0, 169, 141])).1.quietSince = some 4990063 ∧
    (after (exec .hold (station .idle))).line.quietSince = some 4999998 ∧
    (after (exec .frameSent { station .idle with line := sending .pace 0 })).line.quietSince = some 5000034 := by
  decide +kernel
/-- A frame in reception keeps the rise that was heard; a frame error while hunting has its stop bit 1 µs back. -/
theorem meets_lastRise :
    (({ station .idle with line := { State.reset.line with receiver := .receiving (RxBuffer.start rx)
                                                           quietSince := some 4999995 } }).frameDone .hold).line.quietSince =
      some 4999995 ∧ (station .idle).line.receiver = .hunting ∧ (commandFrame .hold).isSome = true ∧
    (after (exec (.frameError .badCrc) (station .idle))).line.quietSince = some 4999999 := by decide +kernel
/-- R24: no start bit within 10 bit times of the delimiter, and a stop bit sampled low. -/
theorem test_no_start : events (List.replicate 14 false ++ List.replicate 10 true) = [] ∧
    events (List.replicate 14 false ++ List.replicate 11 true) = [.failed .noStartBit] := by decide +kernel
theorem test_stop_low : events (List.replicate 14 false ++ [true] ++ List.replicate 10 false) = [.failed .stopBitLow] := by
  decide +kernel
/-- A DEFERRING station whose line has been idle from some reading. -/
def waiting (since : Nat) : State :=
  { station .idle with line := { sending .pace 0 with tx := .deferring, receiver := .hunting, quietSince := some since } }
/-- R31: 50 µs of idle line end the gap; with 49 it still runs. -/
theorem test_gap : (waiting 4999950).dueNow = some .deferGapEnd ∧ (waiting 4999951).dueNow = none := by decide +kernel

/-- The table gives no row any bits. -/
theorem test_no_word : decodeTableWord 8 18 = none ∧ State.reset.withFetchWord 8 18 = State.reset := by decide +kernel

/-! ### Worked figures -/

/-- The installation passes every check of R76. -/
theorem test_plant_valid : plant.reason = none := by decide +kernel
/-- R76: the first check that fails gives the reason. -/
theorem test_reason_ceiling : StationConfig.reason { plant with ceiling := 1201, dFloor := 99 } = some 10 := by
  decide +kernel
theorem test_reason_channel : StationConfig.reason { plant with channels := plant.channels.set 3 { present := true } } =
    some 35 := by decide +kernel

/-- 04, "One agreement, worked through": A = 80, a = +20. -/
theorem test_agreement : agreementOf [300, -120, 80, 5000, -60] = 80 ∧ adjustmentOf 80 = 20 := by decide +kernel
/-- 04: the first agreement after RESUME steps by -47,197. -/
theorem test_agreement_step : agreementOf [-47210, -47195, -47230, -47188] = -47197 ∧ adjustmentOf (-47197) = -47197 := by
  decide +kernel
/-- R54: the RUNNING floor. -/
theorem test_running_floor : adjustedTime .running 5000 (-47197) = 0 ∧ adjustedTime .countdown 5000 (-47197) = -42197 := by
  decide +kernel

/-- 06, 07, 08: flights of 1,275 cm and 680 cm. -/
theorem test_flight : flight 1275 = 1612 ∧ flight 680 = 1177 := by decide +kernel
/-- R99: the table of the derate. -/
theorem test_derate : [30, 31, 45, 60, 89, 90].map (derateOf plant) = [1000, 990, 850, 700, 410, 400] := by decide +kernel

/-- 06, "the first seconds of a show": the leads of cues 2, 3 and 5 at D = 850. -/
def scored : State :=
  { station .countdown with
    jet := { (station .countdown).jet with derate := 850, wf := 45 }
    seq := { State.reset.seq with predicted := State.reset.seq.predicted.set 2 400 } }
theorem test_lead_jet : scored.issueTime (cue 2 0 (.jet 0 1500 7)) = -1962 := by decide +kernel
theorem test_lead_aim : scored.issueTime (cue 3 500 (.aim 2 1400 none)) = -1550 := by decide +kernel
theorem test_lead_jet_1 : scored.issueTime (cue 5 960 (.jet 1 800 48)) = -417 := by decide +kernel

/-- 07, "one station sharing a short main": the state before the pass. -/
def sharing : State :=
  { station .running with
    jet := { (station .running).jet with derate := 850, wf := 45, other := 1000 }
    seq := { State.reset.seq with
      table := State.reset.seq.table.set 0 (some { height := 1500, openSet := 7, cueId := 40, seen := false })
      queue := [{ cue := cue 41 9000 (.jet 1 940 48), issue := 7000 }, { cue := cue 43 9500 (.jet 0 0 0), issue := 9500 }] } }
theorem test_share : (after (exec (.jetComputationPass 0) sharing)).jet.planned = 500 ∧
    (after (exec (.jetComputationPass 0) sharing)).jet.share = 400 ∧
    (after (exec (.jetComputationPass 0) sharing)).jet.scale = 800 := by decide +kernel
theorem test_targets : ((after (exec (.jetComputationPass 0) sharing)).pump.pumps[(0 : Fin 4)]).nt = 582 ∧
    ((after (exec (.jetComputationPass 0) sharing)).pump.pumps[(0 : Fin 4)]).fs = 139 ∧
    ((after (exec (.jetComputationPass 0) sharing)).pump.pumps[(0 : Fin 4)]).state = .starting := by decide +kernel

/-- 10, "Worked fade": the duties of the levels. -/
theorem test_gamma : [12, 63, 127, 191, 200, 255, 128].map gamma = [9, 250, 1015, 2297, 2519, 4096, 1032] := by
  decide +kernel
/-- 10: white at the first step of the fade, red at the fifth, and the run-out at 1,000 ms. -/
theorem test_fade : fadeLevel 0 255 10 200 = 12 ∧ fadeLevel 0 200 50 200 = 50 ∧ fadeLevel 255 0 1000 2000 = 128 := by
  decide +kernel

/-- R65: 57,000 frames make 57 blocks, the last of 104. -/
theorem test_audio_blocks : audioBlocks 57000 = 57 ∧ audioBlockFrames 57000 56 = 104 ∧ audioBlockFrames 57000 55 = 1016 := by
  decide +kernel
/-- 11, "Worked sync sequence": due frames. -/
theorem test_due_frame : dueFrame 60000000 = 1920000 ∧ dueFrame 59957803 = 1918649 ∧ dueFrame 60057903 = 1921852 := by
  decide +kernel

/-! ### Single commands -/

/-- R1: the pins keep their levels through a hard reset. -/
theorem test_hard_reset : (after (exec .hardReset { station .running with inputs :=
    { State.reset.inputs with lowlvl := true } })).inputs.lowlvl = true := by decide +kernel
/-- R2: number 0 leads to CONFIG FAULT in silence. -/
theorem test_settling : (after (exec .settlingExpiry (after (exec (.resetRelease 0 false) State.reset)))).ctl.state =
    .configFault := by decide +kernel
/-- R8: a delay of 500 ms counts as 1,000 ms; the START came 10 ms ago. -/
theorem test_start : (after (exec (.start 9 500 rx) (station .armed))).clock.showTime = -990000 := by decide +kernel
/-- R13: nothing runs, so ENDING lasts as long as its light run-out. -/
theorem test_stop : (after (exec .stop (station .running))).ctl.state = .ending := by decide +kernel
/-- R27: a frame with the own number. -/
theorem test_duplicate : (after (exec (.reportReceived 14) (station .idle))).line.dupTimer = some 7000000 := by
  decide +kernel
/-- The record that crossed the counter of 12's worked sequence. -/
def fifthError : Sample := { kind := .frameError, time := 410200118, cueId := none, object := none }

/-- 12, "a read with clear": 7 less the snapshot 5 leaves 2, no longer crossed. -/
theorem test_read_with_clear : PendingClear.clearCounter { values := #v[5, 0, 0, 0], crossed := #v[true, false, false, false] }
    0 { kind := some .frameError, threshold := 5, value := 7, crossed := true, sample := some fifthError } =
    { kind := some .frameError, threshold := 5, value := 2 } := by decide +kernel
/-- R97: 100 ms between edges, 30,000,000 / 100,000 = 300. -/
theorem test_wind_edge : (after (exec .windEdge { station .idle with jet :=
    { (station .idle).jet with windEdge := some 4900000 } })).jet.rawWind = 300 := by decide +kernel
/-- 08, "a channel through one jet": 308,000 / 14,000 = 22. -/
theorem test_flow_edge : ((after (exec (.flowEdge 0) (pumping { flowEdge := some 4986000 }))).pump.pumps[(0 : Fin 4)]).flow =
    22 := by decide +kernel
/-- 08: from 542 by -40, and the last step to nmin 150 from 182. -/
theorem test_ramp_down : ((after (exec .pumpControlPeriod (pumping
      { state := .stopping, output := 182 }))).pump.pumps[(0 : Fin 4)]).output = 150 := by decide +kernel
/-- 07: a pump at 575 reaches 582 at its next period. -/
theorem test_ramp_up : ((after (exec .pumpControlPeriod (pumping
      { state := .running, output := 575, goal := 582 }))).pump.pumps[(0 : Fin 4)]).output = 582 := by decide +kernel
/-- 09, "a reversal and a retry": at 700 with target 500, moving up. -/
theorem test_reversal : ((after (exec (.stepIntervalExpiry 2) ((station .running).setHead 2
      (headAt .moving 700 500 .up)))).head.heads[(2 : Fin 8)]).state = .reversing := by decide +kernel
/-- 09: count 1,992 against 2,000; corrected to 498, first step up to 499. -/
theorem test_retry : ((after (exec (.settlePauseEnd 2 false) ((station .running).setHead 2
      { headAt .verifying 500 500 .down with encoder := 1992 }))).head.heads[(2 : Fin 8)]).position = some 499 := by
  decide +kernel
/-- R131: low-low to low-high counts one down. -/
theorem test_encoder : ((after (exec (.encoderEdge 2 false true) (station .running))).head.heads[(2 : Fin 8)]).encoder = -1 :=
  by decide +kernel
/-- 11: due 1,921,852 against play index 1,921,849 is a skip. -/
theorem test_sync_skip : (after (exec .syncCheck { playing [] 1921849 with clock :=
      { (station .running).clock with showTime := 60052903 } })).music.playIndex = 1921850 := by decide +kernel
def longSection : ShowSection := { firstCue := 10, cueCount := 1, firstAudio := 20, frames := 10000000 }
/-- 11: e = -1,511 is a resync at block 1,890. -/
theorem test_resync : (State.resyncAudio 1918649 { playing [] 1920160 with store :=
      { (playing [] 0).store with entry := some longSection } }).store.audioPos = some 1890 := by
  decide +kernel
/-- R159: a sample of -3 at gain 128 is truncated toward zero. -/
theorem test_slot : (after (exec .audioFrameSlot { playing [{ index := 5, left := -3, right := 300 }] 5 with music :=
      { (playing [{ index := 5, left := -3, right := 300 }] 5).music with gain := 128 } })).music.lastLeft = -1 := by
  decide +kernel

/-! ### States and operands that meet the statements' hypotheses -/

theorem meets_StepTakesFrontCommand : ({ station .idle with pending := [.hold, .stop] } : State).pending = .hold :: [.stop] := rfl
theorem meets_IdleStep_due : (station .running).pending = [] ∧ ({ station .running with localTimer := 5010000 } : State).dueNow ≠ none := by
  decide +kernel
theorem meets_IdleStep_held : State.reset.pending = [] ∧ State.reset.dueNow = none ∧ State.reset.ctl.phase = .held := by
  decide +kernel
/-- A microsecond of a RUNNING station, and the read-back of a station that sends where another drives the line (R32). -/
theorem meets_IdleStep_none : (station .running).pending = [] ∧ (station .running).dueNow = none ∧
    (station .running).ctl.phase ≠ .held ∧ (station .running).line.receiver = .hunting ∧
    ({ station .running with line := sending .pace 0, inputs := { State.reset.inputs with lrx := [some true] } } : State).bitCommand =
      some .collision := by decide +kernel
theorem meets_ResetHeld : ResetHeld { State.reset with inputs := { State.reset.inputs with estop := true } } := rfl
theorem meets_ReleaseThenSettling : State.reset.ctl.phase = .held ∧
    (after (exec (.resetRelease 14 false) State.reset)).ctl.settleTimer = some 10000 := by decide +kernel
theorem meets_SelectBeginsLoading : (station .idle).hears = true ∧ (station .idle).ctl.state = .idle ∧
    (9 : Byte).toNat ≠ 0 ∧ (station .idle).dirBlock 0 ≤ 131071 := by decide +kernel
theorem meets_Start_armed : (station .armed).hears = true ∧ (9 : Byte).toNat ≠ 0 ∧
    (9 : Byte).toNat = (station .armed).ctl.selected ∧ (station .armed).ctl.state = .armed ∧
    (station .armed).seq.catchUp = false := by decide +kernel
theorem meets_Start_loading : (station .loading).hears = true ∧ (9 : Byte).toNat ≠ 0 ∧
    (9 : Byte).toNat = (station .loading).ctl.selected ∧ (station .loading).ctl.state = .loading := by decide +kernel
theorem meets_Hold : (station .running).hears = true ∧ (station .running).ctl.state = .running := by decide +kernel
theorem meets_Resume : (station .hold).hears = true ∧ (station .hold).ctl.state = .hold ∧
    (station .hold).seq.catchUp = false ∧ (station .hold).headDue = false ∧ (station .hold).clock.showTime < 1800000000 := by
  decide +kernel
theorem meets_Stop : (station .countdown).hears = true ∧ (station .countdown).ctl.state = .countdown ∧
    (station .loading).ctl.state = .loading := by decide +kernel
theorem meets_Clear : (station .safe).hears = true ∧ (station .safe).ctl.state = .safe ∧
    (station .safe).inputs.lowlvl = false ∧ ∀ (k : Peer) (a : Nat), ((station .safe).peers.entries[k]).alert = some a →
      a + 500000 < (station .safe).localTimer := by
  refine ⟨by decide, by decide, by decide, fun k a h => ?_⟩
  have : ((station .safe).peers.entries[k]).alert = none := by clear h a; revert k; decide +kernel
  rw [this] at h
  cases h
theorem meets_Restart : (station .safe).hears = true ∧ (station .safe).ctl.state = .safe ∧ (255 : Byte).toNat = 255 ∧
    (14 : Byte).toNat = (station .idle).ctl.station ∧ (station .idle).ctl.state = .idle := by decide +kernel
theorem meets_Query : (station .idle).hears = true ∧ (station .idle).operating = true ∧ (14 : Byte).toNat ≠ 255 ∧
    (14 : Byte).toNat = (station .idle).ctl.station ∧ (station .idle).line.reportSlot = none := by decide +kernel
/-- The clauses on ignored commands, each met by the ENDING station (CLEAR by one in SAFE with an alert just 500 ms old). -/
theorem meets_Ignored : (station .ending).hears = true ∧ (station .ending).operating = true ∧
    (station .ending).ctl.state ≠ .idle ∧ (station .ending).ctl.state ≠ .loading ∧ (station .ending).ctl.state ≠ .armed ∧
    (station .ending).ctl.state ≠ .running ∧ (station .ending).ctl.state ≠ .hold ∧ (station .ending).ctl.state ≠ .safe ∧
    (14 : Byte).toNat = (station .ending).ctl.station ∧ (255 : Byte).toNat = 255 := by decide +kernel
theorem meets_Ignored_clear : ((({ station .safe with
    peers := { State.reset.peers with entries := State.reset.peers.entries.set 3 { alert := some 4500000 } } }) : State).peers.entries[
      (3 : Fin 24)]).alert = some 4500000 ∧ (station .safe).localTimer ≤ 4500000 + 500000 := by decide +kernel
theorem meets_Ignored_query : (14 : Byte).toNat = (station .idle).ctl.station ∧
    ({ station .idle with line := sending .pace 0 } : State).line.reportSlot.isSome := by decide +kernel
theorem meets_Pace : (station .running).hears = true ∧ (station .running).operating = true ∧ 1 ≤ (3 : Byte).toNat ∧
    (3 : Byte).toNat ≤ 24 ∧ (3 : Byte).toNat ≠ (station .running).ctl.station ∧ 1 ≤ pace.stateCode.toNat ∧
    pace.stateCode.toNat ≤ 9 := by decide +kernel
theorem meets_Pace_offset : (station .running).ctl.state.underWay = true ∧
    ({ pace with showNo := 9 } : PacePayload).showNo.toNat = (station .running).ctl.selected ∧
    ({ pace with showNo := 9 } : PacePayload).showNo.toNat ≠ 0 ∧ pace.stateCode.toNat = 5 ∧
    (station .running).peers.lastSetting = none ∧ (station .running).peers.lastAdjust = none := by decide +kernel
theorem meets_LateJoin : (station .armed).hears = true ∧ (station .armed).ctl.state = .armed ∧
    (station .armed).seq.catchUp = false ∧ (3 : Byte).toNat ≠ (station .armed).ctl.station ∧
    ({ pace with showNo := 9 } : PacePayload).showNo.toNat = (station .armed).ctl.selected ∧ pace.stateCode.toNat = 5 ∧
    ({ pace with stateCode := 4 } : PacePayload).stateCode.toNat = 4 := by decide +kernel
/-- An ARMED station whose section has 1 cue block, not yet read; the joined time is 12,010,040 µs, or the limit. -/
def armedShow : State :=
  { station .armed with store := { (station .armed).store with
      entry := some { firstCue := 10, cueCount := 1, firstAudio := 0, frames := 0 }, cuePos := some 0 } }
theorem meets_LateJoin_scan : armedShow.hears = true ∧ armedShow.seq.queue = [] ∧ armedShow.store.cueReq = none ∧
    (after (exec (.paceReceived 3 { pace with showNo := 9 } rx) armedShow)).ctl.state = .running ∧
    (after (exec (.paceReceived 3 { pace with showNo := 9 } rx) armedShow)).clock.showTime = 12010040 := by decide +kernel
theorem meets_LateJoin_limit :
    (after (exec (.paceReceived 3 { pace with showNo := 9, stamp := 1799989960 } rx) armedShow)).clock.showTime = 1800000000 ∧
    (after (exec (.paceReceived 3 { pace with showNo := 9, stamp := 1799989960 } rx) armedShow)).ctl.state = .ending := by
  decide +kernel
theorem meets_Safe : (station .running).hears = true ∧ (station .running).operating = true ∧
    (station .running).ctl.state ≠ .safe ∧ (station .safe).operating = true ∧ (station .safe).hears = true := by
  decide +kernel
theorem meets_Alerts : (station .configFault).ctl.state = .configFault ∧ 1 ≤ (station .configFault).ctl.station ∧
    (station .configFault).ctl.station ≤ 24 ∧
    (after (exec .estopAsserted (station .configFault))).ctl.alertTimer = some 5100000 := by decide +kernel
theorem meets_Duplicates : (station .idle).hears = true ∧ (14 : Byte).toNat = (station .idle).ctl.station ∧
    (24 : Byte).toNat ≠ (station .idle).ctl.station ∧ 1 ≤ pace.stateCode.toNat ∧ pace.stateCode.toNat ≤ 9 := by
  decide +kernel
theorem meets_Unheard : ({ station .idle with line := sending .pace 0 } : State).hears = false ∧
    ({ station .idle with line := { sending .pace 0 with receiver := .waitIdle } } : State).hears = false ∧
    (commandFrame .hold).isSome = true := by decide +kernel
/-- Thresholds 5, 1 and 0, and 65,535 as the greatest: counted at the values where the rule changes. -/
theorem meets_Count : (CounterRec.count fifthError { kind := some .frameError, threshold := 5, value := 4 }).sample = some fifthError ∧
    (CounterRec.count fifthError { kind := some .frameError, threshold := 5, value := 3 }).crossed = false ∧
    (CounterRec.count fifthError { kind := some .frameError, threshold := 0, value := 65535 }).value = 65535 ∧
    (CounterRec.count fifthError { kind := some .frameError, threshold := 65535, value := 65534 }).crossed = true := by
  decide +kernel
theorem meets_Silent : (((station .running).setPeer 4 (freshPeer 5 none)).peers.entries[(4 : Fin 24)]).fresh = .fresh ∧
    (((station .running).setPeer 4 { freshPeer 5 none with fresh := .lapsed }).peers.entries[(4 : Fin 24)]).fresh = .lapsed := by
  decide +kernel
theorem meets_Attempt : ({ (sending .alert 0) with tx := .deferring } : Line).firstFull = some .alert ∧
    1 ≤ (station .idle).ctl.station ∧ (station .idle).ctl.station ≤ 24 ∧ (station .idle).ctl.state ≠ .startUp ∧
    (sending .alert 0).quietSince = none ∧ (station .configFault).ctl.state = .configFault := by
  decide +kernel
/-- A DEFERRING PACE of the RUNNING station, its gap just over; one of the station in rehearsal. -/
theorem meets_Attempt_pace : ({ State.reset.line with tx := .deferring, paceSlot := true, quietSince := some 4999950 } : Line).firstFull =
    some .pace ∧ ((after (exec .deferGapEnd { station .running with line :=
      { State.reset.line with tx := .deferring, paceSlot := true, quietSince := some 4999950 } })).line.receiver = .off) := by
  decide +kernel
/-- A station that sends its PACE at the eighth attempt, and one at its first. -/
theorem meets_Collision_sound (n : Nat) (h : n < 8) : LineInv { station .idle with line := sending .pace n } where
  alert := ⟨by simp [sending, State.reset], by simp [sending]⟩
  report := ⟨by simp [sending, State.reset], by simp [sending]⟩
  pace := ⟨h, by simp [sending]⟩
  quiet := by simp [sending, Line.firstFull]
  sending := by simp [sending]
  sendingReport := by simp [sending]
  sendingPace := by simp [sending]
  receiver := by simp [sending, Line.sendingKind]
  buffer := by simp [sending]
theorem meets_Collision : (sending .pace 7).tx = .sending .pace [1, 2] 5000000 ∧ (sending .pace 7).tries .pace = 7 ∧
    (sending .pace 6).tries .pace = 6 := by decide +kernel
theorem meets_FrameSent : (sending .report 3).tx = .sending .report [1, 2] 5000000 ∧ (sending .report 3).replaced = false ∧
    ({ sending .pace 1 with replaced := true } : Line).tx = .sending .pace [1, 2] 5000000 := by decide +kernel
theorem meets_Agreement : (station .running).clock.paceTimer = some 5010000 ∧ (station .running).ctl.state = .running ∧
    (0 :: (((station .running).setPeer 4 (freshPeer 5 (some { value := 300, time := 4960000 }))).passTo
      5010000).usableOffsets) = [0, 300] := by decide +kernel
/-- Four values: the trim has something to discard. -/
theorem meets_Agreement_trim : 4 ≤ (0 :: (((((station .running).setPeer 4 (freshPeer 5 (some { value := 300, time := 4960000 }))).setPeer 5
    (freshPeer 5 (some { value := -120, time := 4960000 }))).setPeer 6 (freshPeer 6 (some { value := 80, time := 4960000 }))).passTo
      5010000).usableOffsets).length := by decide +kernel
theorem meets_PaceExpiry_step : 20000 < (agreementOf (((station .running).setPeer 4 (freshPeer 5
    (some { value := 40002, time := 4960000 }))).passTo 5010000).usableOffsets).natAbs ∧
    (agreementOf ((station .running).passTo 5010000).usableOffsets).natAbs ≤ 20000 := by decide +kernel
/-- Two JETs due by their beats and one that is not, with a staged record ahead: A is 4,000,001 and T 5,010,001. -/
def stepped : State :=
  State.setPeer 4 (freshPeer 4 (some { value := 8000002, time := 4960000 }))
    { station .running with seq := { State.reset.seq with
        queue := [{ cue := cue 4 4000 (.jet 1 800 48), issue := 1500 }, { cue := cue 3 2000 (.jet 1 700 16), issue := 1600 },
                  { cue := cue 5 6000 (.jet 0 900 7), issue := 4000 }]
        staged := some { cue := cue 6 9000 .endCue, stalled := false } } }
theorem meets_PaceExpiry_scan : agreementOf (stepped.passTo 5010000).usableOffsets = 4000001 ∧
    adjustedTime .running (stepped.passTo 5010000).clock.showTime 4000001 = 5010001 ∧
    (after (exec (.paceTimerExpiry 0) stepped)).seq.table[(1 : Fin 4)] =
      some { height := 800, openSet := 48, cueId := 4, seen := false } ∧
    (after (exec (.paceTimerExpiry 0) stepped)).seq.queue.map (fun e => e.cue.id) = [5] ∧
    (after (exec (.paceTimerExpiry 0) stepped)).seq.catchUp = false := by decide +kernel
theorem meets_Crossings : (station .countdown).ctl.phase ≠ .held ∧ (station .countdown).ctl.state = .countdown ∧
    (station .countdown).clock.showTime < 1800000000 ∧ (station .running).ctl.state = .running := by decide +kernel
theorem meets_HoldFollows : (station .hold).clock.paceTimer = some 5010000 ∧ (station .hold).ctl.state = .hold ∧
    ((station .hold).setPeer 4 (freshPeer 5 none)).sameShowPeers.length <
      2 * ((station .hold).setPeer 4 (freshPeer 5 none)).majorityCount 5 ∧
    2 * (station .hold).majorityCount 5 ≤ (station .hold).sameShowPeers.length ∧
    2 * (station .hold).majorityCount 7 ≤ (station .hold).sameShowPeers.length := by decide +kernel
/-- A station in some state with one peer in another, that has followed twice. -/
def followed (st : ShowState) (code : Nat) : State :=
  State.setPeer 4 (freshPeer code none) { station st with ctl := { (station st).ctl with
    followHold := 2, followRunning := 2, followEnding := 2 } }
theorem meets_HoldFollows_third : (after (exec (.paceTimerExpiry 0) (followed .hold 5))).ctl.state = .running ∧
    (after (exec (.paceTimerExpiry 0) (followed .running 6))).ctl.state = .hold ∧
    (after (exec (.paceTimerExpiry 0) (followed .running 7))).ctl.endingCause = some .follow ∧
    (after (exec (.paceTimerExpiry 0) { followed .countdown 7 with clock := { (station .countdown).clock with
      showTime := -10001 } })).ctl.endingCause = some .follow := by decide +kernel
theorem meets_HoldFollows_none : (after (exec (.paceTimerExpiry 0) (followed .running 5))).ctl.followHold = 0 ∧
    (station .running).sameShowPeers = [] := by decide +kernel
/-- A second agreement with the majority: it is counted, and the station stays; the counter of its own state runs on. -/
def followedOnce (st : ShowState) (code : Nat) : State :=
  { followed st code with ctl := { (followed st code).ctl with followHold := 1, followRunning := 1, followEnding := 1 } }
theorem meets_HoldFollows_counted : (after (exec (.paceTimerExpiry 0) (followedOnce .running 6))).ctl.state = .running ∧
    (after (exec (.paceTimerExpiry 0) (followedOnce .running 6))).ctl.followHold = 2 ∧
    (after (exec (.paceTimerExpiry 0) (followedOnce .hold 5))).ctl.followRunning = 2 ∧
    (after (exec (.paceTimerExpiry 0) (followedOnce .hold 7))).ctl.followEnding = 2 ∧
    (after (exec (.paceTimerExpiry 0) (followed .running 5))).ctl.followRunning = 3 := by decide +kernel
theorem meets_FlagTimers : ({ (station .idle).clock with solitude := some 5100000, stepRecent := some 5200000 } : Clock).solitude =
    some 5100000 ∧ ({ State.reset.line with dupTimer := some 5300000 } : Line).dupTimer = some 5300000 ∧
    ((pumping { state := .starting, rehearsalTimer := some 5200000 }).pump.pumps[(0 : Fin 4)]).rehearsalTimer = some 5200000 := by
  decide +kernel
/-- A RUNNING station whose audio reader waits for block 3. -/
theorem meets_FlashRead : (station .running).steady ∧ (playing [] 5).store.request .audio ≠ none ∧
    goodRead ((station .running).expectAudio 57000 3) [] = false := by
  refine ⟨⟨by decide, by decide⟩, by decide +kernel, by decide +kernel⟩
/-- A station in some state with a read in progress for a reader, whose request has failed so often. -/
def reading (st : ShowState) (r : Reader) (e : Expect) (fails : Nat) : State :=
  { station st with store :=
      { ({ (station st).store with
            entry := if r = .directory then none else some { firstCue := 10, cueCount := 3, firstAudio := 20, frames := 57000 }
            cuePos := some 1, audioPos := some 3 } : Store).setRequest (some { block := 7, expect := e, attempts := fails }) r with
        port := some { reader := r, withdrawn := false } } }
/-- The block that holds a payload, for what its reader expects. -/
def blockOf (e : Expect) (p : List Byte) : List Byte :=
  let head : List Byte := [BitVec.ofNat 8 e.kind.code, BitVec.ofNat 8 e.showNo, BitVec.ofNat 8 e.station, 0] ++
    Machine.bytes16 e.seq ++ Machine.bytes16 p.length
  head ++ List.replicate 20 0 ++ Machine.bytes32 (crc32 (head ++ List.replicate 24 0 ++ p)).toNat ++ p
theorem meets_FlashRead_lost :
    (after (exec (.flashReadComplete [] false) (reading .loading .directory (expectDirectory 0) 2))).ctl.state = .idle ∧
    (after (exec (.flashReadComplete [] false) (reading .running .cue ((station .running).expectCue 1) 2))).store.cueReq =
      some { block := 12, expect := (station .running).expectCue 2, attempts := 0 } ∧
    (after (exec (.flashReadComplete [] false)
      (reading .running .audio ((station .running).expectAudio 57000 3) 2))).music.fifo.length = 1016 := by decide +kernel
/-- A section table without cues or audio for any station, and one with a cue block for station 14. -/
def emptyTable : List Byte := List.replicate 336 0
def cueTable : List Byte := List.replicate 182 0 ++ [0, 0, 0, 10, 0, 1] ++ List.replicate 148 0
/-- A station that waits for its section table; head 2 is homed. -/
def tabling : State :=
  State.setHead 2 { headAt .settled 400 400 .up with target := none, timer := none }
    { reading .loading .directory (expectTable 9) 0 with
      store := { (reading .loading .directory (expectTable 9) 0).store with dirStep := .table, cuePos := none, audioPos := none } }
theorem meets_FlashRead_table : goodRead (expectTable 9) (blockOf (expectTable 9) emptyTable) = true ∧
    (after (exec (.flashReadComplete (blockOf (expectTable 9) emptyTable) false) tabling)).ctl.state = .armed ∧
    (after (exec (.flashReadComplete (blockOf (expectTable 9) emptyTable) false) (tabling.setHead 2 {}))).ctl.state =
      .loading := by decide +kernel
theorem meets_FlashRead_held :
    (after (exec (.flashReadComplete (blockOf (expectTable 9) cueTable) false)
      { tabling with ctl := { tabling.ctl with held := some { delay := 1000, moment := 4000001 } } })).ctl.state = .countdown ∧
    (after (exec (.flashReadComplete (blockOf (expectTable 9) cueTable) false)
      { tabling with ctl := { tabling.ctl with held := some { delay := 1000, moment := 4000000 } } })).ctl.state = .running := by
  decide +kernel
/-- The directory: show 9 in slot 0, its table at block 500; and a directory without it. -/
def directory : List Byte := [9] ++ List.replicate 18 0 ++ [1, 244] ++ List.replicate 651 0
theorem meets_FlashRead_directory : findSlot directory 9 = some 500 ∧ findSlot (List.replicate 672 0) 9 = none ∧
    (after (exec (.flashReadComplete (blockOf (expectDirectory 0) directory) false)
      (reading .loading .directory (expectDirectory 0) 0))).store.dirStep = .table ∧
    (after (exec (.flashReadComplete (blockOf (expectDirectory 0) (List.replicate 672 0)) false)
      (reading .loading .directory (expectDirectory 0) 0))).ctl.state = .idle := by decide +kernel
/-- A MARK of cue 7 at beat 2,000, whole, and with its first 5 bytes in the block before. -/
def markRecord : List Byte := [11, 5, 0, 7, 0, 0, 7, 208, 2, 1, 244]
theorem meets_FlashRead_cue :
    (after (exec (.flashReadComplete (blockOf ((station .running).expectCue 1) (0 :: (markRecord ++ [8]))) false)
      (reading .running .cue ((station .running).expectCue 1) 0))).seq.current = some [8] ∧
    ((after (exec (.flashReadComplete (blockOf ((station .running).expectCue 1) (6 :: (markRecord.drop 5 ++ [8]))) false)
      { reading .running .cue ((station .running).expectCue 1) 0 with seq :=
          { State.reset.seq with partialRec := some (markRecord.take 5) } })).seq.staged.map fun x => x.cue.beat) = some 2000 := by
  decide +kernel
/-- A good volume header read: 102 bytes of zeros but for its own fields, with its check. -/
theorem meets_goodRead : ∃ data, goodRead { kind := .audio, showNo := 9, station := 14, seq := 0, len := some 4 } data = true :=
  ⟨[4, 9, 14, 0, 0, 0, 0, 4] ++ List.replicate 20 0 ++
    Machine.bytes32 (crc32 ([4, 9, 14, 0, 0, 0, 0, 4] ++ List.replicate 24 0 ++ [1, 2, 3, 4])).toNat ++ [1, 2, 3, 4],
    by decide +kernel⟩
/-- A configuration block whose every byte in use is 0 is a good read, and fails at the monitor fields. -/
theorem meets_Configuration : ∃ data, goodRead (expectConfig 14) data = true ∧
    (readConfig (blockPayload data)).reason = some 8 :=
  ⟨[1, 0, 14, 0, 0, 0, 1, 171] ++ List.replicate 20 0 ++
    Machine.bytes32 (crc32 ([1, 0, 14, 0, 0, 0, 1, 171] ++ List.replicate 451 0)).toNat ++ List.replicate 427 0,
    by decide +kernel⟩
theorem meets_ValidConfiguration : plant.reason = none := test_plant_valid
/-- A COUNTDOWN station whose staged record stands just inside the window. -/
def staged : State :=
  { station .countdown with
    seq := { State.reset.seq with staged := some { cue := cue 5 4960 (.jet 1 800 48), stalled := false } } }
theorem meets_Staged : staged.issuing = true ∧
    (4960 : Int) * 1000 ≤ (station .countdown).clock.showTime + 4000000 ∧
    ((station .countdown).clock.showTime < (station .countdown).issueTime (cue 5 4960 (.jet 1 800 48)) * 1000) := by
  decide +kernel
/-- The record's lead makes 1,000 ms its issue time, and 999 ms. -/
def stagedAt (beat : Nat) : State :=
  { station .running with
    seq := { State.reset.seq with staged := some { cue := cue 5 beat (.jet 1 0 0), stalled := false } }
    store := { (station .running).store with cueReq := some { block := 3, expect := expectDirectory 0, attempts := 0 } } }
theorem meets_Staged_late : (after (exec .stagedRecordTaken (stagedAt 999))).seq.staged = none ∧
    (stagedAt 999).issueTime (cue 5 999 (.jet 1 0 0)) * 1000 < (stagedAt 999).clock.showTime ∧
    (stagedAt 1000).issueTime (cue 5 1000 (.jet 1 0 0)) * 1000 = (stagedAt 1000).clock.showTime ∧
    (after (exec .stagedRecordTaken (stagedAt 1000))).seq.table[(1 : Fin 4)] =
      some { height := 0, openSet := 0, cueId := 5, seen := false } := by decide +kernel
/-- A record stalled behind the one entry of the queue, which is due. -/
def stalledBehind : State :=
  { queued (.jet 1 800 48) with seq := { (queued (.jet 1 800 48)).seq with
      staged := some { cue := cue 6 9000 (.jet 0 900 7), stalled := true } } }
theorem meets_DueEntry_stalled : (after (exec .cueIssue stalledBehind)).seq.queue.map (fun e => e.cue.id) = [6] ∧
    stalledBehind.clock.showTime < stalledBehind.issueTime (cue 6 9000 (.jet 0 900 7)) * 1000 := by decide +kernel
theorem meets_DueEntry : (queued (.mark 2 100)).issuing = true ∧ (queued (.mark 2 100)).seq.staged = none ∧
    500 * 1000 ≤ ((queued (.mark 2 100)).passShowTo (500 * 1000)).clock.showTime := by decide +kernel
theorem meets_DueEntry_aim : (((queued (.aim 2 500 none)).setHead 2 (headAt .moving 700 1400 .up)).head.heads[(2 : Fin 8)]).state =
    .moving := by decide +kernel
/-- The AIM for a SETTLED head at 700 with a sweep of 2 beats, in the leg 1 of show time 1 s; one at its position; a chase of two
colours, in beat 2. -/
theorem meets_DueEntry_settled :
    (let s := (queued (.aim 2 500 (some { partner := 900, beats := 2 }))).setHead 2 { headAt .settled 700 0 .up with target := none }
     ((after (exec .cueIssue s)).head.heads[(2 : Fin 8)]).position = some 699 ∧
     (((after (exec .cueIssue s)).head.heads[(2 : Fin 8)]).sweep.map fun w => (w.b, w.anchor)) = some (900, 1)) ∧
    (let s := (queued (.aim 2 700 none)).setHead 2 { headAt .settled 700 0 .up with target := none }
     ((after (exec .cueIssue s)).head.heads[(2 : Fin 8)]).state = .settled) ∧
    ((after (exec .cueIssue (queued (.aim 2 700 none)))).head.heads[(2 : Fin 8)]).pending = some { step := 700, cueId := some 4 } := by
  decide +kernel
theorem meets_DueEntry_chase :
    ((after (exec .cueIssue (queued (.light 5 [{ r := 9 }, { g := 9 }] 0 0)))).lights.fixtures[(5 : Fin 12)]).pattern =
      some { colours := [{ r := 9 }, { g := 9 }], divisor := 1, stepFade := 0, index := 0, group := 2 } ∧
    ((after (exec .cueIssue (queued (.light 5 [{ r := 9 }, { g := 9 }] 0 0)))).lights.fixtures[(5 : Fin 12)]).current = { r := 9 } := by
  decide +kernel
theorem meets_Pass : sharing.operating = true ∧ (sharing.store.config.channels[(0 : Fin 4)]).present = true ∧
    (sharing.mon.count { kind := .noShow, time := 0, cueId := none, object := none }) = sharing.mon := by decide +kernel
/-- The JETs of the catch-up view are walked in place of the queue's: with none the draw is channel 0's 174 alone (07, "one
station sharing a short main"); in IDLE it is 0. -/
theorem meets_Pass_draw : sharing.ctl.state = .running ∧ (station .idle).operating = true ∧
    (after (exec (.jetComputationPass 0) { sharing with
      jet := { sharing.jet with view := some { table := sharing.seq.table, jets := [] } } })).jet.planned = 174 ∧
    (after (exec (.jetComputationPass 0) { station .idle with jet := { (station .idle).jet with planned := 9 } })).jet.planned = 0 := by
  decide +kernel
/-- Channel 0 has a height and an open set; channel 1 has neither. -/
theorem meets_Targets : ((sharing.passTable)[(0 : Fin 4)]).isSome = true ∧ countBits (sharing.openSetOf 7) = 3 ∧
    ((sharing.passTable)[(1 : Fin 4)]) = none := by decide +kernel
theorem meets_Wind : (station .idle).operating = true ∧ (station .idle).store.config.anemometer = true ∧
    (station .idle).jet.windFilter = some 5050000 ∧ plant.wLo < plant.wHi ∧
    ({ (station .idle).jet with windEdge := some 4900000 } : Jet).windEdge = some 4900000 := by decide +kernel
theorem meets_Pumps : (pumping { state := .starting, startTimer := some 6000000, flow := 5 }).pump.period = some 5010000 ∧
    (plant.channels[(0 : Fin 4)]).present = true ∧
    (plant.channels[(0 : Fin 4)]).qfull * (plant.channels[(0 : Fin 4)]).nmin / 1000 ≤ 5 * 10 ∧
    (station .running).steady := by
  refine ⟨by decide +kernel, by decide +kernel, by decide +kernel, by decide, by decide⟩
theorem meets_Trips : ((pumping { state := .starting, startTimer := some 6000000 }).pump.pumps[(0 : Fin 4)]).startTimer =
    some 6000000 ∧ (pumping { state := .running }).operating = true ∧
    ((pumping { state := .running }).pump.pumps[(0 : Fin 4)]).state = .running ∧
    (pumping { state := .running }).ctl.rehearsal = false := by decide +kernel
/-- Channel 0 at 500 of 500 with a valve open and no flow, its low-flow run some µs old at the period's moment. -/
def flowless (since : Option Nat) : State :=
  State.setNozzle 0 { state := .wet, command := true }
    (pumping { state := .running, output := 500, goal := 500, nt := 500, openSet := 1, valves := 1, lowSince := since })
theorem meets_Trips_flow : (flowless none).pump.period = some 5010000 ∧ (flowless none).steady ∧
    ((after (exec .pumpControlPeriod (flowless (some 4010000)))).pump.pumps[(0 : Fin 4)]).state = .tripped ∧
    ((after (exec .pumpControlPeriod (flowless (some 4010001)))).pump.pumps[(0 : Fin 4)]).lowSince = some 4010001 ∧
    ((after (exec .pumpControlPeriod (flowless none))).pump.pumps[(0 : Fin 4)]).lowSince = some 5010000 := by
  refine ⟨by decide +kernel, ⟨by decide, by decide⟩, by decide +kernel, by decide +kernel, by decide +kernel⟩
theorem meets_HoldOff : ((pumping { state := .tripped, trips := 1, goal := 582, holdOff := some 6000000 }).pump.pumps[
      (0 : Fin 4)]).holdOff = some 6000000 ∧
    ((pumping { state := .tripped, trips := 1, holdOff := some 6000000 }).pump.pumps[(0 : Fin 4)]).goal = 0 := by
  decide +kernel
theorem meets_Nozzles : (((station .running).setNozzle 0 { state := .rising, drive := .pullIn 5100000 }).pump.nozzles[
      (0 : Fin 16)]).drive = .pullIn 5100000 ∧
    ((((station .running).setPump 0 { state := .running, settle := some 5000000 }).setNozzle 0 { state := .rising }).pumpOf 0).settle =
      some 5000000 ∧
    (((station .running).setNozzle 0 { state := .falling }).pump.nozzles[(0 : Fin 16)]).state = .falling := by decide +kernel
/-- The seek of head 2 may take 1,600 + 200 steps: one more is allowed at 1,799, none at 1,800. -/
theorem meets_Seek : (((station .loading).setHead 2 { state := .homing, timer := some 5002000, seekSteps := 1800 }).head.heads[
      (2 : Fin 8)]).state = .homing ∧ (plant.heads[(2 : Fin 8)]).range + (plant.heads[(2 : Fin 8)]).range / 8 = 1800 ∧
    (station .loading).ctl.held = none := by decide +kernel
theorem meets_Moves : (headAt .moving 700 500 .up).timer = some 5000500 ∧ (headAt .moving 500 500 .down).position = some 500 ∧
    (headAt .reversing 700 500 .up).target = some { step := 500, cueId := some 8 } := by decide +kernel
/-- A difference of 4 passes, one of 5 fails. -/
theorem meets_Ladder : (({ headAt .verifying 500 500 .down with encoder := 1996 } : HeadRec).encoder - (500 * 4 : Nat)).natAbs = 4 ∧
    (({ headAt .verifying 500 500 .down with encoder := 1995 } : HeadRec).encoder - (500 * 4 : Nat)).natAbs = 5 ∧
    (plant.heads[(2 : Fin 8)]).tolerance = 4 ∧ (headAt .verifying 500 500 .down).pending = none := by decide +kernel
/-- The third failure homes the head again, with home found at once where the switch is asserted; a target that came
during the pause is taken after a pass. -/
theorem meets_Ladder_third :
    ((after (exec (.settlePauseEnd 2 false) ((station .running).setHead 2
      { headAt .verifying 500 500 .down with encoder := 1995, failures := 2 }))).head.heads[(2 : Fin 8)]).state = .homing ∧
    ((after (exec (.settlePauseEnd 2 true) ((station .running).setHead 2
      { headAt .verifying 500 500 .down with encoder := 1995, failures := 2 }))).head.heads[(2 : Fin 8)]).position = some 1 ∧
    ((after (exec (.settlePauseEnd 2 false) ((station .running).setHead 2
      { headAt .verifying 500 500 .down with encoder := 1995, failures := 2, rehomed := true }))).head.heads[
        (2 : Fin 8)]).state = .fault := by decide +kernel
/-- R142: nozzle 9 has an envelope that holds step 499 and step 0, and its valve is open.  A re-home that finds home at once
takes its permit and gives it back: the valve closes, and the channel's valve set is without it. -/
def rehoming : State :=
  let s : State := (station .running).setHead 2 { headAt .verifying 500 500 .down with encoder := 1995, failures := 2 }
  let wide : NozzleCfg := { present := true, channel := 2, kind := 1, head := 2, envMin := 0, envMax := 1200, hmax := 900 }
  let s1 : State := { s with
    store := { s.store with config := { plant with nozzles := plant.nozzles.set 9 wide } }
    head := { s.head with permits := s.head.permits.set 9 true } }
  (s1.setPump 2 { state := .running, output := 100, goal := 100, nt := 100, openSet := 512, valves := 512 }).setNozzle 9
    { state := .wet, command := true, drive := .hold 4000000 }
theorem meets_Ladder_permits : (9 : Fin 16) ∈ rehoming.store.config.swivelsOf 2 ∧ rehoming.head.permits[(9 : Fin 16)] = true ∧
    rehoming.valveCommand 9 = true ∧
    (after (exec (.settlePauseEnd 2 true) rehoming)).head.permits[(9 : Fin 16)] = true ∧
    ((after (exec (.settlePauseEnd 2 true) rehoming)).pump.pumps[(2 : Fin 4)]).valves = 0 ∧
    ((after (exec (.settlePauseEnd 2 true) rehoming)).pump.nozzles[(9 : Fin 16)]).state = .falling ∧
    (after (exec (.settlePauseEnd 2 true) rehoming)).jet.passDue = true ∧
    (after (exec (.settlePauseEnd 2 false) rehoming)).head.permits[(9 : Fin 16)] = false := by decide +kernel
theorem meets_Ladder_pending :
    ((after (exec (.settlePauseEnd 2 false) ((station .running).setHead 2
      { headAt .verifying 500 500 .down with pending := some { step := 900, cueId := none } }))).head.heads[
        (2 : Fin 8)]).position = some 501 ∧
    ((after (exec (.settlePauseEnd 2 false) ((station .running).setHead 2
      { headAt .verifying 500 500 .down with pending := some { step := 500, cueId := none } }))).head.heads[
        (2 : Fin 8)]).state = .settled := by decide +kernel
theorem meets_Encoder : (station .running).operating = true ∧
    ((station .running).store.config.heads[(2 : Fin 8)]).present = true := by decide +kernel
/-- A sweep of 2 beats of 500 ms, last seen in leg 0 (show time is 1 s). -/
def sweep : Sweep := { a := 500, b := 900, beats := 2, anchor := 0, anchorPos := 500, cueId := 8, leg := 0 }
theorem meets_Sweep : (((station .running).setHead 2 { headAt .moving 700 500 .up with sweep := some sweep }).head.heads[
    (2 : Fin 8)]).sweep = some sweep ∧ (station .running).legIndex sweep.beats ≠ sweep.leg := by decide +kernel
theorem meets_LightStep : (station .running).lights.lightTimer = some 5006000 ∧ (station .running).steady ∧
    ((station .running).store.config.fixtures[(5 : Fin 12)]).present = true ∧
    ((station .running).lights.fixtures[(5 : Fin 12)]).pattern = none ∧ (station .running).lights.pwmTimer = some 5001000 ∧
    (station .running).ctl.held = none := by
  refine ⟨by decide +kernel, ⟨by decide, by decide⟩, by decide +kernel, by decide +kernel, by decide +kernel, by decide⟩
/-- A submerged AREA fixture at its safe white in SAFE goes dark as LOWLVL is asserted, and stays so at a light step. -/
def submerged : State :=
  { station .safe with
    store := { (station .safe).store with config := { plant with
      fixtures := plant.fixtures.set 5 { present := true, role := 1, submerged := true } } }
    lights := { (station .safe).lights with working := (station .safe).lights.working.set 5 { w := 403 } } }
theorem meets_Duties_submerged : submerged.operating = true ∧
    (submerged.store.config.fixtures[(5 : Fin 12)]).submerged = true ∧
    (after (exec .lightStep submerged)).lights.working[(5 : Fin 12)] = { w := 403 } ∧
    (after (exec .lowLevelAsserted submerged)).lights.working[(5 : Fin 12)] = {} ∧
    (after (exec .lightStep (after (exec .lowLevelAsserted submerged)))).lights.working[(5 : Fin 12)] = {} := by decide +kernel
/-- A chase of two colours at beats of 500 ms: show time 1 s is beat 2, group 1 of two beats each. -/
def chasing (group : Int) : State :=
  (station .running).setFixture 5
    { pattern := some { colours := [{ r := 10 }, { r := 200 }], divisor := 2, stepFade := 100, index := 1, group := group }
      target := { r := 200 }, fadeLen := 20, elapsed := 10 }
theorem meets_LightStep_chase :
    ((after (exec .lightStep (chasing 0))).lights.fixtures[(5 : Fin 12)]).target = { r := 10 } ∧
    ((after (exec .lightStep (chasing 0))).lights.fixtures[(5 : Fin 12)]).start = { r := 200 } ∧
    ((after (exec .lightStep (chasing 1))).lights.fixtures[(5 : Fin 12)]).elapsed = 20 := by decide +kernel
/-- The last step of a run-out, and one before it, in ENDING. -/
def runningOut (elapsed : Nat) : State :=
  (((station .ending).setFixture 5 { fadeLen := 2000, elapsed := elapsed, ending := true })).setFixture 0
    { fadeLen := 2000, elapsed := 2000, ending := true }
theorem meets_LightStep_runOut : (runningOut 1990).ctl.state = .ending ∧ (runningOut 1990).ctl.audioRunOut = false ∧
    (after (exec .lightStep (runningOut 1990))).ctl.lightRunOut = true ∧
    (after (exec .lightStep (runningOut 1989))).ctl.lightRunOut = false := by decide +kernel
/-- ENDING with the audio run-out under way: the slot still plays; a repeat slot sends the last frame again. -/
def playingOut : State :=
  { playing [{ index := 5, left := -3, right := 300 }] 5 with
    ctl := (station .ending).ctl, music := { (playing [{ index := 5, left := -3, right := 300 }] 5).music with
      runOut := true, startGain := 255, targetGain := 0, fadeLen := 500, elapsed := 490, lastLeft := 77 } }
theorem meets_FrameSlot_ending : playingOut.steady ∧ (after (exec .audioFrameSlot playingOut)).music.playIndex = 6 ∧
    (after (exec .audioFrameSlot { playingOut with music := { playingOut.music with repeatDue := true } })).music.lastLeft = 77 ∧
    (after (exec .audioFrameSlot (station .idle))).music.playIndex = 0 ∧ (station .idle).steady := by
  refine ⟨⟨by decide, by decide⟩, by decide +kernel, by decide +kernel, by decide +kernel, ⟨by decide, by decide⟩⟩
theorem meets_GainStep_ending : playingOut.music.gainTimer = some 5010000 ∧
    (after (exec .gainStep playingOut)).ctl.audioRunOut = true ∧ (after (exec .gainStep playingOut)).ctl.state = .ending ∧
    (after (exec .gainStep { playingOut with ctl := { playingOut.ctl with lightRunOut := true } })).ctl.state = .idle := by
  decide +kernel
theorem meets_FrameSlot : (playing [{ index := 5, left := -3, right := 300 }] 5).music.slotBase = some 5000000 ∧
    (playing [] 5).store.audioReq.isSome = true ∧ (playing [] 5).hasAudio = true ∧
    (playing [] 5).music.playIndex < (playing [] 5).frameCount ∧ (playing [] 5).ctl.state = .running := by decide +kernel
/-- No request stands and the reader is at its end, or asks for a block of the flash; a later frame at the front; no zone. -/
theorem meets_FrameSlot_unasked :
    (let s : State := { playing [{ index := 4, left := 1, right := 1 }, { index := 6, left := 2, right := 2 }] 5 with
       store := { (playing [] 5).store with audioReq := none } }
     (after (exec .audioFrameSlot s)).music.fifo = [{ index := 6, left := 2, right := 2 }] ∧
     ((after (exec .audioFrameSlot s)).store.audioReq.map fun q => q.block) = some 23 ∧
     (after (exec .audioFrameSlot s)).music.underrun = false ∧
     (after (exec .audioFrameSlot { s with store := { s.store with audioPos := some 57 } })).store.audioReq = none ∧
     (after (exec .audioFrameSlot { s with store := { s.store with config := { plant with zone := false } } })).music.playIndex = 6) := by
  decide +kernel
/-- At the check the due frame is 32,160: e is 1, 2, -2 and 320, 321 for these play indices. -/
theorem meets_SyncCheck : (playing [] 5).music.syncTimer = some 5005000 ∧ (playing [] 5).ctl.state = .running ∧
    0 ≤ ((playing [] 5).passTo 5005000).clock.showTime ∧ dueFrame ((playing [] 5).passTo 5005000).clock.showTime = 32160 := by
  decide +kernel
/-- A resync inside the stream: frame 34,208 lies in block 33; and one at whose due frame, 55,000, the stream has less than
2,048 frames left. -/
theorem meets_SyncCheck_resync : 20 + (57000 + 1015) / 1016 ≤ 131072 ∧
    ((after (exec .syncCheck (playing [] 5))).store.audioReq.map fun q => q.block) = some 53 ∧
    (after (exec .syncCheck { playing [] 5 with clock := { (station .running).clock with showTime := 1713750 } })).store.audioPos =
      some 57 ∧
    (after (exec .syncCheck { playing [] 5 with clock := { (station .running).clock with showTime := 1713750 } })).store.audioReq =
      none := by decide +kernel
theorem meets_GainStep : (station .running).music.gainTimer = some 5010000 ∧ (station .running).steady := by
  refine ⟨by decide +kernel, by decide, by decide⟩
theorem meets_FrameDecodes : (Instr.start 9 1000 rx).wf = true ∧ (commandFrame (.start 9 1000 rx)).isSome = true := by
  decide +kernel
theorem meets_Wave : ({ sender := 3, kind := 1, payload := pace.bytes } : LineFrame).payload.length ≤ 80 ∧
    State.reset.line.receiver = .hunting ∧ State.reset.line.lowRun = 0 ∧ (sending .pace 0).receiver = .off ∧
    ({ State.reset.line with lowRun := 11 } : Line).receiver = .hunting ∧
    ({ State.reset.line with receiver := .waitIdle } : Line).quietSince = some 0 := by decide +kernel

/-! The invariants hold of the RUNNING station, and it steps. -/

theorem meets_ControlInv : ControlInv (station .running) := by constructor <;> decide +kernel
theorem meets_ControlInv_safe : ControlInv (station .safe) := by constructor <;> decide +kernel
theorem meets_LineInv : LineInv { station .idle with line := sending .pace 7 } := meets_Collision_sound 7 (by decide)
theorem meets_RecordInv : RecordInv (station .running) := by constructor <;> decide +kernel
theorem meets_QueueInv : QueueInv (queued .endCue) := by constructor <;> decide +kernel
theorem meets_FifoInv : FifoInv (playing [{ index := 5, left := -3, right := 300 }] 5) where
  room := by decide +kernel
  rising := by decide +kernel
  asked := fun q h => by cases h; decide +kernel
  read := fun f h => ⟨3, rfl, by cases List.mem_singleton.mp h; decide⟩
  loading := fun h => by cases h
theorem meets_ValvesStand : ValvesStand (station .running) := by unfold ValvesStand; decide +kernel
theorem meets_WaterOff : WaterOff (station .safe) := by unfold WaterOff; decide +kernel
theorem meets_LampsStand : LampsStand (station .running) := by unfold LampsStand; decide +kernel
theorem meets_step : ∃ t, step (station .running) = .next t := ⟨_, rfl⟩
theorem meets_OnlyHardReset : (station .hold).ctl.phase = .done ∧ (station .hold).ctl.state = .hold := by decide +kernel

end Sys2Proof.Tests
end

section
/-! PROOFS. The show clock (04): the agreement of R53, and the adjustment of show time it ends in (R54).

The first part ties the model's figures (`greatestOf`, `leastOf`, `trimExtremes`, `averageOf`) to R53's words.  The second
part shows that an expiry of the pace timer does not move show time again after its adjustment: the only operation behind
it that could set show time is the entry to ARMED through a held START, and that needs LOADING, which nothing that an
agreement sets off can enter. -/

namespace Sys2Proof.Machine

/-! ### The agreement result (R53) -/

theorem max?_eq_greatestOf {l : List Int} (h : l ≠ []) : l.max? = some (greatestOf l) := by
  cases l with
  | nil => contradiction
  | cons x xs => rw [List.max?_cons', greatestOf, List.headD_cons, List.foldl_cons, max_self]

theorem min?_eq_leastOf {l : List Int} (h : l ≠ []) : l.min? = some (leastOf l) := by
  cases l with
  | nil => contradiction
  | cons x xs => rw [List.min?_cons', leastOf, List.headD_cons, List.foldl_cons, min_self]

/-- `greatestOf` is a member, and no member is above it. -/
theorem greatestOf_spec {l : List Int} (h : l ≠ []) : greatestOf l ∈ l ∧ ∀ x ∈ l, x ≤ greatestOf l :=
  List.max?_eq_some_iff.mp (max?_eq_greatestOf h)

/-- `leastOf` is a member, and no member is below it. -/
theorem leastOf_spec {l : List Int} (h : l ≠ []) : leastOf l ∈ l ∧ ∀ x ∈ l, leastOf l ≤ x :=
  List.min?_eq_some_iff.mp (min?_eq_leastOf h)

theorem averageOf_eq (l : List Int) : averageOf l = Int.tdiv l.sum l.length := by
  rw [averageOf, sumOf, List.sum_eq_foldl]

/-- The least value is still there when one member of greatest value is gone: where the two values differ the erasure does
not touch it, and where they agree every member has that one value. -/
theorem leastOf_mem_erase_greatestOf {l : List Int} (h : 2 ≤ l.length) : leastOf l ∈ l.erase (greatestOf l) := by
  have ne : l ≠ [] := List.ne_nil_of_length_pos (by omega)
  obtain ⟨hi, above⟩ := greatestOf_spec ne
  obtain ⟨lo, below⟩ := leastOf_spec ne
  by_cases same : leastOf l = greatestOf l
  · have left : 0 < (l.erase (greatestOf l)).length := by rw [List.length_erase_of_mem hi]; omega
    obtain ⟨x, hx⟩ := List.exists_mem_of_length_pos left
    have x_le := above x (List.mem_of_mem_erase hx)
    have le_x := below x (List.mem_of_mem_erase hx)
    rwa [show leastOf l = x by omega]
  · exact (List.mem_erase_of_ne same).mpr lo

theorem trimExtremes_of_short {l : List Int} (h : l.length < 4) : trimExtremes l = l := if_neg (by omega)

/-- The trim discards exactly one greatest and one least member. -/
theorem perm_trimExtremes {l : List Int} (h : 4 ≤ l.length) : l.Perm (greatestOf l :: leastOf l :: trimExtremes l) := by
  have ne : l ≠ [] := List.ne_nil_of_length_pos (by omega)
  rw [trimExtremes, if_pos h]
  exact (List.perm_cons_erase (greatestOf_spec ne).1).trans
    ((List.perm_cons_erase (leastOf_mem_erase_greatestOf (by omega))).cons _)

/-! ### Nothing behind an agreement enters LOADING -/

@[simp] theorem State.beginLightRunOut_state (s : State) : s.beginLightRunOut.ctl.state = s.ctl.state := by
  unfold State.beginLightRunOut
  dsimp only
  split <;> rfl

@[simp] theorem State.beginAudioRunOut_state (fromRunning : Bool) (s : State) :
    (s.beginAudioRunOut fromRunning).ctl.state = s.ctl.state := by
  fun_cases State.beginAudioRunOut <;> cases fromRunning <;> rfl

/-- The end of ENDING (R13) is the one change of state that `checkEnding` makes. -/
theorem State.checkEnding_not_loading {s : State} (h : s.ctl.state ≠ .loading) : s.checkEnding.ctl.state ≠ .loading := by
  unfold State.checkEnding
  split
  · simp
  · exact h

theorem State.enterEnding_not_loading (cause : EndingCause) (s : State) : (s.enterEnding cause).ctl.state ≠ .loading := by
  unfold State.enterEnding
  apply State.checkEnding_not_loading
  simp

theorem State.enterHold_not_loading (s : State) : s.enterHold.ctl.state ≠ .loading := by
  simp [State.enterHold]

theorem State.checkTimeLimit_not_loading {s : State} (h : s.ctl.state ≠ .loading) :
    s.checkTimeLimit.ctl.state ≠ .loading := by
  unfold State.checkTimeLimit
  split
  · exact State.enterEnding_not_loading _ _
  · exact h

theorem State.enterRunning_not_loading (s : State) : s.enterRunning.ctl.state ≠ .loading :=
  State.checkTimeLimit_not_loading (by simp)

theorem State.checkZero_not_loading {s : State} (h : s.ctl.state ≠ .loading) : s.checkZero.ctl.state ≠ .loading := by
  unfold State.checkZero
  split
  · exact s.enterRunning_not_loading
  · exact h

/-- Of the cues only END changes the show state, and it enters ENDING. -/
theorem State.handOn_not_loading (c : CueRec) (scan : Bool) {s : State} (h : s.ctl.state ≠ .loading) :
    (s.handOn c scan).ctl.state ≠ .loading := by
  fun_cases State.handOn c scan s
  case case1 s1 _ => simpa [s1] using h
  case case2 s1 _ => simpa [s1] using h
  case case7 => exact s.enterEnding_not_loading _
  all_goals simpa using h

theorem State.takeStaged_not_loading {s : State} (h : s.ctl.state ≠ .loading) : s.takeStaged.ctl.state ≠ .loading := by
  fun_cases State.takeStaged s
  case case2 | case3 => exact State.handOn_not_loading _ _ (by simpa using h)
  case case4 s1 s2 _ => simpa [s1, s2] using h
  case case5 s1 s2 _ => simpa [s1, s2] using h
  all_goals simpa using h

theorem State.retake_not_loading {s : State} (h : s.ctl.state ≠ .loading) : s.retake.ctl.state ≠ .loading := by
  fun_cases State.retake s
  case case2 => exact State.takeStaged_not_loading h
  all_goals exact h

theorem State.issueHead_not_loading {s : State} (h : s.ctl.state ≠ .loading) : s.issueHead.ctl.state ≠ .loading := by
  fun_cases State.issueHead s
  · exact h
  · exact State.retake_not_loading (State.handOn_not_loading _ _ h)

theorem issueDueN_not_loading (n : Nat) {s : State} (h : s.ctl.state ≠ .loading) :
    (issueDueN n s).ctl.state ≠ .loading := by
  fun_induction issueDueN n s with
  | case2 n s due ih => exact ih (State.issueHead_not_loading h)
  | _ => exact h

theorem State.issueDue_not_loading {s : State} (h : s.ctl.state ≠ .loading) : s.issueDue.ctl.state ≠ .loading := by
  unfold State.issueDue
  exact issueDueN_not_loading _ h

theorem State.applyCue_not_loading (c : CueRec) {s : State} (h : s.ctl.state ≠ .loading) :
    (s.applyCue c).ctl.state ≠ .loading :=
  State.handOn_not_loading _ _ (by simpa using h)

theorem State.applyEntry_not_loading (e : QueueEntry) {s : State} (h : s.ctl.state ≠ .loading) :
    (s.applyEntry e).ctl.state ≠ .loading := by
  unfold State.applyEntry
  split
  · exact State.applyCue_not_loading _ h
  · exact h

theorem State.endScan_not_loading {s : State} (h : s.ctl.state ≠ .loading) : s.endScan.ctl.state ≠ .loading :=
  State.retake_not_loading (by simpa using h)

theorem readOnN_not_loading (n : Nat) {s : State} (h : s.ctl.state ≠ .loading) : (readOnN n s).ctl.state ≠ .loading := by
  fun_induction readOnN n s with
  | case4 n s cueing st staged scan due ih => exact ih (State.applyCue_not_loading _ (by simpa using h))
  | case5 n s cueing st staged scan due ih => exact ih (State.endScan_not_loading h)
  | case7 => exact State.endScan_not_loading h
  | _ => simp_all

theorem State.readOn_not_loading {s : State} (h : s.ctl.state ≠ .loading) : s.readOn.ctl.state ≠ .loading := by
  unfold State.readOn
  exact readOnN_not_loading _ h

/-- The catch-up scan (R92): each entry already due is applied, then the scan reads on. -/
theorem State.startScan_not_loading {s : State} (h : s.ctl.state ≠ .loading) : s.startScan.ctl.state ≠ .loading := by
  unfold State.startScan
  split
  · exact h
  · apply State.readOn_not_loading
    exact List.foldlRecOn (motive := fun t : State => t.ctl.state ≠ .loading) _ _ h
      fun _ unloaded e _ => State.applyEntry_not_loading e unloaded

theorem State.stepReported_not_loading (a : Int) {s : State} (h : s.ctl.state ≠ .loading) :
    (s.stepReported a).ctl.state ≠ .loading := by
  fun_cases State.stepReported a s
  case case2 => exact State.startScan_not_loading h
  case case3 => exact State.readOn_not_loading (State.issueDue_not_loading h)
  all_goals exact h

theorem State.noteStep_not_loading (applied : Int) {s : State} (h : s.ctl.state ≠ .loading) :
    (s.noteStep applied).ctl.state ≠ .loading :=
  State.stepReported_not_loading _ (by simpa using h)

theorem State.agree_not_loading {s : State} (h : s.ctl.state ≠ .loading) : s.agree.ctl.state ≠ .loading := by
  unfold State.agree
  refine State.checkTimeLimit_not_loading (State.checkZero_not_loading ?_)
  split
  · exact State.noteStep_not_loading _ (by simpa using h)
  · simpa using h

theorem State.resumeShow_not_loading (s : State) : s.resumeShow.ctl.state ≠ .loading := by
  unfold State.resumeShow
  exact State.readOn_not_loading (State.issueDue_not_loading s.enterRunning_not_loading)

theorem State.follow_not_loading {s : State} (h : s.ctl.state ≠ .loading) : s.follow.ctl.state ≠ .loading := by
  unfold State.follow
  dsimp only
  split
  · exact h
  split
  · exact State.enterHold_not_loading _
  split
  · exact State.resumeShow_not_loading _
  split
  · exact State.enterEnding_not_loading _ _
  · exact h

/-! ### Show time at an expiry of the pace timer (R50, R54) -/

/-- The completions at the end of a step leave show time alone: only the entry to ARMED could set it (R9). -/
theorem State.settle_showTime {s : State} (h : s.ctl.state ≠ .loading) : s.settle.clock.showTime = s.clock.showTime := by
  have unarmed : s.checkArmed = s := if_neg fun c => h c.1
  simp [State.settle, unarmed]

theorem State.agree_showTime (s : State) : s.agree.clock.showTime =
    adjustedTime s.ctl.state s.clock.showTime (adjustmentOf (agreementOf s.usableOffsets)) := by
  unfold State.agree
  dsimp only
  split <;> simp

/-- In a show under way an expiry of the pace timer moves show time by its agreement and by nothing else. -/
theorem State.paceExpiry_showTime {s : State} (h : s.ctl.state = .countdown ∨ s.ctl.state = .running) :
    s.paceExpiry.clock.showTime =
      adjustedTime s.ctl.state s.clock.showTime (adjustmentOf (agreementOf s.usableOffsets)) := by
  have agrees : s.paceExpiry = s.queuePace.agree.follow.settle := by
    rcases h with h | h <;> simp [State.paceExpiry, h]
  have unloaded : s.queuePace.ctl.state ≠ .loading := by
    rcases h with h | h <;> simp [h]
  rw [agrees, State.settle_showTime (State.follow_not_loading (State.agree_not_loading unloaded))]
  simp [State.agree_showTime, State.usableOffsets]

/-- The state in which the pace timer's expiry acts: its moment has been reached, and the timer runs on (R50). -/
def State.atPaceExpiry (pflt : BitVec 4) (t0 : Nat) (s : State) : State :=
  let s1 := { s with inputs := { s.inputs with pflt := pflt } }.passTo t0
  { s1 with clock := { s1.clock with paceTimer := some (t0 + 20000) } }

theorem exec_paceTimerExpiry {s : State} {t0 : Nat} (pflt : BitVec 4) (h : s.clock.paceTimer = some t0) :
    exec (.paceTimerExpiry pflt) s = .next (s.atPaceExpiry pflt t0).paceExpiry := by
  simp [exec, execPaceTimerExpiry, h, State.atPaceExpiry]

/-- The levels of PFLT and the timer take no part in an agreement. -/
theorem State.atPaceExpiry_keeps (pflt : BitVec 4) (t0 : Nat) (s : State) :
    (s.atPaceExpiry pflt t0).ctl.state = s.ctl.state ∧
    (s.atPaceExpiry pflt t0).clock.showTime = (s.passTo t0).clock.showTime ∧
    (s.atPaceExpiry pflt t0).usableOffsets = (s.passTo t0).usableOffsets := by
  simp only [State.atPaceExpiry, State.usableOffsets, State.passTo, State.passTime]
  split <;> exact ⟨rfl, rfl, rfl⟩

/-- Settles O23: A is the model's `agreementOf`, whose trim takes one greatest and one least member out. -/
theorem agreementIsTheTrimmedMean : Obligations.AgreementIsTheTrimmedMean := by
  unfold Obligations.AgreementIsTheTrimmedMean
  intro s pflt t0 armed underWay
  obtain ⟨state, time, offsets⟩ := s.atPaceExpiry_keeps pflt t0
  refine ⟨_, agreementOf (s.passTo t0).usableOffsets, exec_paceTimerExpiry pflt armed, fun short => ?_, fun long => ?_, ?_⟩
  · rw [agreementOf, trimExtremes_of_short short, averageOf_eq]
  · obtain ⟨_, above⟩ := greatestOf_spec (List.cons_ne_nil 0 (s.passTo t0).usableOffsets)
    obtain ⟨_, below⟩ := leastOf_spec (List.cons_ne_nil 0 (s.passTo t0).usableOffsets)
    exact ⟨_, _, _, perm_trimExtremes long, fun x hx => ⟨below x hx, above x hx⟩, averageOf_eq _⟩
  · rw [State.paceExpiry_showTime (by rwa [state]), state, time, offsets]

end Sys2Proof.Machine
end

section
/-! PROOFS. Jet Computation (07): the planned draw of a pass, its share and its scale (R103 to R106).

The walk of the model is tied to R103's words first: its value is the greatest of the sums that the table gives after the
first k JETs, whose shadow entry is that of the last JET of the channel, or else the table's.  What the later steps of a pass
leave of its figures is said through one projection of the state, `State.figures`: handing targets to the pumps and the end
of ENDING keep it whole, and a channel's step changes that channel's record alone. -/

namespace Sys2Proof.Machine

/-! ### The walk (R103, R104) -/

/-- The shadow table after some JETs have replaced its entries, one after another (R103). -/
def shadowAfter (shadow : Vector (Nat × NozzleSet) 4) (jets : List QueuedJet) : Vector (Nat × NozzleSet) 4 :=
  jets.foldl (fun t j => t.set j.channel (j.height, j.openSet)) shadow

/-- Every sum the walk passes is at most its value. -/
theorem State.walkSum_le_walk (s : State) (jets : List QueuedJet) (shadow : Vector (Nat × NozzleSet) 4) (k : Nat) :
    s.walkSum (shadowAfter shadow (jets.take k)) ≤ s.walk jets shadow := by
  induction jets generalizing shadow k with
  | nil => simp [State.walk, shadowAfter]
  | cons j js ih =>
    cases k with
    | zero => exact Nat.le_max_left _ _
    | succ k => exact (ih _ k).trans (Nat.le_max_right _ _)

/-- The value of the walk is one of the sums it passes. -/
theorem State.exists_walk_eq (s : State) (jets : List QueuedJet) (shadow : Vector (Nat × NozzleSet) 4) :
    ∃ k ≤ jets.length, s.walk jets shadow = s.walkSum (shadowAfter shadow (jets.take k)) := by
  induction jets generalizing shadow with
  | nil => exact ⟨0, Nat.le_refl _, rfl⟩
  | cons j js ih =>
    obtain ⟨k, hk, later⟩ := ih (shadow.set j.channel (j.height, j.openSet))
    rcases Nat.le_total (s.walk js (shadow.set j.channel (j.height, j.openSet))) (s.walkSum shadow) with first | first
    · exact ⟨0, Nat.zero_le _, max_eq_left first⟩
    · exact ⟨k + 1, Nat.succ_le_succ hk, (max_eq_right first).trans later⟩

/-- A channel's shadow entry is that of its last JET, or the table's where it has none. -/
theorem shadowAfter_getElem (shadow : Vector (Nat × NozzleSet) 4) (jets : List QueuedJet) (c : Channel) :
    (shadowAfter shadow jets)[c] =
      ((jets.filter fun j => j.channel = c).getLast?.map fun j => (j.height, j.openSet)).getD shadow[c] := by
  induction jets generalizing shadow with
  | nil => rfl
  | cons j js ih =>
    have step : shadowAfter shadow (j :: js) = shadowAfter (shadow.set j.channel (j.height, j.openSet)) js := rfl
    rw [step, ih]
    by_cases own : j.channel = c
    · subst own
      cases h : (js.filter fun i => i.channel = j.channel).getLast? <;> simp [List.getLast?_cons, h]
    · have other : j.channel.val ≠ c.val := fun h => own (Fin.ext h)
      simp [own, other]

/-- The sum of a shadow table, over the present channels, as a `List.sum`. -/
theorem State.walkSum_eq_sum (s : State) (shadow : Vector (Nat × NozzleSet) 4) :
    s.walkSum shadow = ((List.finRange 4).map fun c : Channel =>
      if (s.store.config.channels[c]).present then s.walkFlow c (shadow[c]).1 (shadow[c]).2 else 0).sum :=
  List.sum_eq_foldl.symm

theorem State.walk_congr {s t : State} (h : ∀ shadow, t.walkSum shadow = s.walkSum shadow) (jets : List QueuedJet)
    (shadow : Vector (Nat × NozzleSet) 4) : t.walk jets shadow = s.walk jets shadow := by
  induction jets generalizing shadow with
  | nil => exact h shadow
  | cons j js ih => rw [State.walk, State.walk, h, ih]

/-- The planned draw reads neither the input levels nor the request for a pass. -/
theorem State.plannedDraw_congr (s : State) (inputs : Inputs) (due : Bool) :
    ({ s with inputs := inputs, jet := { s.jet with passDue := due } } : State).plannedDraw = s.plannedDraw := by
  have walk := State.walk_congr (s := s) (t := { s with inputs := inputs, jet := { s.jet with passDue := due } }) fun _ => rfl
  simp only [State.plannedDraw, walk]
  rfl

theorem State.plannedDraw_not_underWay {s : State} (h : s.ctl.state.underWay = false) : s.plannedDraw = 0 := by
  simp [State.plannedDraw, h]

theorem ShowState.underWay_iff (n : ShowState) : n.underWay = true ↔ n = .countdown ∨ n = .running ∨ n = .hold := by
  cases n <;> simp [ShowState.underWay]

/-! ### Share and scale (R105, R106) -/

theorem shareOf_le_planned (g : StationConfig) (planned other : Nat) : shareOf g planned other ≤ planned := by
  refine (Nat.min_le_left _ _).trans ?_
  split
  · exact Nat.le_refl _
  · exact Nat.div_le_of_le_mul (by rw [Nat.mul_comm]; exact Nat.mul_le_mul_right _ (by omega))

theorem shareOf_le_ceiling (g : StationConfig) (planned other : Nat) : shareOf g planned other ≤ g.ceiling :=
  Nat.min_le_right _ _

theorem shareOf_le_capacity (g : StationConfig) (planned other : Nat) : shareOf g planned other ≤ g.capacity := by
  refine (Nat.min_le_left _ _).trans ?_
  split
  · omega
  · exact Nat.div_le_of_le_mul (Nat.mul_le_mul_right _ (by omega))

/-- A share of at most P scales nothing up. -/
theorem scaleOf_le (planned share : Nat) (h : share ≤ planned) : scaleOf planned share ≤ 1000 := by
  unfold scaleOf
  split
  · exact Nat.le_refl _
  · exact Nat.div_le_of_le_mul (Nat.mul_le_mul_right _ h)

/-! ### The counters of BUDGET SCALED -/

/-- The counters handed BUDGET SCALED; those of another kind are left out. -/
def State.budgetCounters (s : State) : Vector (Option CounterRec) 4 :=
  s.mon.counters.map fun r => if r.kind = some .budgetScaled then some r else none

theorem State.counter_eq_of_budgetCounters {s t : State} (h : t.budgetCounters = s.budgetCounters) {i : Counter}
    (kind : (s.mon.counters[i]).kind = some .budgetScaled) : t.mon.counters[i] = s.mon.counters[i] := by
  have entry : t.budgetCounters[i] = s.budgetCounters[i] := by rw [h]
  simp only [Fin.getElem_fin] at kind
  simp only [State.budgetCounters, Fin.getElem_fin, Vector.getElem_map, if_pos kind] at entry
  exact Option.some.inj (Option.ite_none_right_eq_some.mp entry).2

theorem State.raise_counter (kind : EventKind) (cueId object : Option Nat) (s : State) (i : Counter) :
    (s.raise kind cueId object).mon.counters[i] =
      (s.mon.counters[i]).count { kind := kind, time := s.clock.showTime, cueId := cueId, object := object } :=
  Vector.getElem_ofFn _

@[simp] theorem CounterRec.count_kind (e : Sample) (r : CounterRec) : (r.count e).kind = r.kind := by
  unfold CounterRec.count
  dsimp only
  (repeat' split) <;> rfl

theorem CounterRec.count_of_kind_ne {e : Sample} {r : CounterRec} (h : r.kind ≠ some e.kind) : r.count e = r := if_neg h

/-- An event of another kind leaves the counters of BUDGET SCALED as they stand (R167). -/
theorem State.raise_budgetCounters {kind : EventKind} (h : kind ≠ .budgetScaled) (cueId object : Option Nat) (s : State) :
    (s.raise kind cueId object).budgetCounters = s.budgetCounters := by
  ext1 i hi
  have count := s.raise_counter kind cueId object ⟨i, hi⟩
  simp only [Fin.getElem_fin] at count
  simp only [State.budgetCounters, Vector.getElem_map, count, CounterRec.count_kind]
  split
  · next budget => rw [CounterRec.count_of_kind_ne (by simpa [budget] using h.symm)]
  · rfl

/-! ### The figures of a pass -/

/-- What the first two steps of a pass work out (P, G and S), with the counters of their BUDGET SCALED. -/
structure ShareFigures where
  planned : Nat
  share : Nat
  scale : Nat
  budget : Vector (Option CounterRec) 4

/-- What a pass works out: the share's figures and the channel records. -/
structure PassFigures extends ShareFigures where
  chans : Vector JetChan 4

/-- The figures of the latest pass, as the station holds them. -/
def State.figures (s : State) : PassFigures where
  planned := s.jet.planned
  share := s.jet.share
  scale := s.jet.scale
  budget := s.budgetCounters
  chans := s.jet.chans

theorem State.planned_of_shareFigures {s : State} {f : ShareFigures} (h : s.figures.toShareFigures = f) :
    s.jet.planned = f.planned := congrArg ShareFigures.planned h

theorem State.share_of_shareFigures {s : State} {f : ShareFigures} (h : s.figures.toShareFigures = f) :
    s.jet.share = f.share := congrArg ShareFigures.share h

theorem State.scale_of_shareFigures {s : State} {f : ShareFigures} (h : s.figures.toShareFigures = f) :
    s.jet.scale = f.scale := congrArg ShareFigures.scale h

theorem State.budget_of_shareFigures {s : State} {f : ShareFigures} (h : s.figures.toShareFigures = f) :
    s.budgetCounters = f.budget := congrArg ShareFigures.budget h

theorem State.planned_of_figures {s t : State} (h : t.figures = s.figures) : t.jet.planned = s.jet.planned :=
  State.planned_of_shareFigures (congrArg PassFigures.toShareFigures h)

theorem State.scale_of_figures {s t : State} (h : t.figures = s.figures) : t.jet.scale = s.jet.scale :=
  State.scale_of_shareFigures (congrArg PassFigures.toShareFigures h)

theorem State.chans_of_figures {s t : State} (h : t.figures = s.figures) : t.jet.chans = s.jet.chans :=
  congrArg PassFigures.chans h

/-- The figures are read from Jet Computation and the Show Monitor alone. -/
theorem State.figures_congr {s t : State} (jet : t.jet = s.jet) (mon : t.mon = s.mon) : t.figures = s.figures := by
  simp only [State.figures, State.budgetCounters, jet, mon]

@[simp] theorem State.ctl_figures (s : State) (ctl : ShowControl) : ({ s with ctl := ctl } : State).figures = s.figures := rfl

@[simp] theorem State.peers_figures (s : State) (peers : PeerView) : ({ s with peers := peers } : State).figures = s.figures :=
  rfl

theorem State.raise_figures {kind : EventKind} (h : kind ≠ .budgetScaled) (cueId object : Option Nat) (s : State) :
    (s.raise kind cueId object).figures = s.figures := by
  simp [State.figures, State.raise_budgetCounters h]

@[simp] theorem State.askPass_figures (s : State) : s.askPass.figures = s.figures := by
  unfold State.askPass
  split <;> rfl

@[simp] theorem State.setPump_figures (c : Channel) (p : PumpRec) (s : State) : (s.setPump c p).figures = s.figures := rfl

@[simp] theorem State.refreshValves_figures (s : State) : s.refreshValves.figures = s.figures :=
  State.figures_congr (by simp) (by simp)

/-- A trip raises PUMP TRIP and asks for a pass; it works out no figure (R120). -/
@[simp] theorem State.trip_figures (c : Channel) (cause : TripCause) (s : State) : (s.trip c cause).figures = s.figures := by
  have tripped := State.raise_figures (kind := .pumpTrip) (by decide)
  unfold State.trip
  dsimp only
  split <;> simp [tripped]

@[simp] theorem State.startPump_figures (c : Channel) (s : State) : (s.startPump c).figures = s.figures := by
  unfold State.startPump
  dsimp only
  split <;> simp

@[simp] theorem State.actGoal_figures (handOff : Bool) (c : Channel) (s : State) :
    (s.actGoal handOff c).figures = s.figures := by
  unfold State.actGoal
  dsimp only
  (repeat' split) <;> simp

@[simp] theorem State.workGoals_figures (s : State) : s.workGoals.figures = s.figures := by
  rw [State.workGoals, State.refreshValves_figures]
  exact foldl_proj State.figures _ (by simp) _ _

@[simp] theorem State.handOffChannel_figures (c : Channel) (s : State) : (s.handOffChannel c).figures = s.figures := by
  unfold State.handOffChannel
  split <;> simp

theorem State.reportPeers_figures (s : State) : s.reportPeers.figures = s.figures := State.askPass_figures _

theorem State.idlePeers_figures (s : State) : s.idlePeers.figures = s.figures := by
  have dropped : s.dropOffsets.figures = s.figures := State.figures_congr (by simp) (by simp)
  unfold State.idlePeers
  extract_lets s1 entries
  split
  · exact dropped
  · rw [State.reportPeers_figures, State.peers_figures, dropped]

/-- Of the figures a change of the show state touches P alone (R104). -/
theorem State.changeState_figures (n : ShowState) (s : State) :
    (s.changeState n).figures = { s.figures with planned := if n.underWay then s.jet.planned else 0 } := by
  unfold State.changeState
  rw [State.askPass_figures]
  rfl

/-- The blocks that IDLE empties hold no figure (R14). -/
theorem State.idleBlocks_figures (s : State) :
    (((s.clearSequencer.resetSection).dropEntry.flushMusic).mapPumps PumpRec.idle).figures = s.figures := by
  rw [State.figures_congr (s := s.clearSequencer) (by simp) (by simp)]
  simp [State.figures, State.budgetCounters]

/-- Of the figures the entry to IDLE makes P 0 (R104) and leaves the others. -/
theorem State.enterIdle_figures (soft : Bool) (s : State) : (s.enterIdle soft).figures = { s.figures with planned := 0 } := by
  have fixtures (t : State) : t.resetFixtures.figures = t.figures := State.figures_congr (by simp) (by simp)
  cases soft <;>
    simp [State.enterIdle, State.idlePeers_figures, fixtures, State.idleBlocks_figures, State.changeState_figures,
      ShowState.underWay]

/-- The end of ENDING changes no figure where P is 0 already. -/
theorem State.checkEnding_figures {s : State} (h : s.ctl.state.underWay = false → s.jet.planned = 0) :
    s.checkEnding.figures = s.figures := by
  unfold State.checkEnding
  split
  · next ended =>
    have zero : s.figures.planned = 0 := h (by rw [ended.1]; rfl)
    rw [State.enterIdle_figures, ← zero]
  · rfl

/-! ### The steps of a pass (R107) -/

/-- Steps 1 and 2: P is worked out afresh, G and S from it, and BUDGET SCALED is raised where S falls from 1000 (R106). -/
def State.shareFigures (s : State) : ShareFigures :=
  let share := shareOf s.store.config s.plannedDraw s.jet.other
  let scale := scaleOf s.plannedDraw share
  { planned := s.plannedDraw, share := share, scale := scale
    budget :=
      if scale < 1000 ∧ s.jet.scale = 1000 then (s.raise .budgetScaled none none).budgetCounters else s.budgetCounters }

theorem State.passShare_figures (s : State) : s.passShare.figures = { s.shareFigures with chans := s.jet.chans } := by
  unfold State.passShare State.shareFigures
  dsimp only
  split <;> rfl

theorem State.shareFigures_congr (s : State) (inputs : Inputs) (due : Bool) :
    ({ s with inputs := inputs, jet := { s.jet with passDue := due } } : State).shareFigures = s.shareFigures := by
  simp only [State.shareFigures, State.plannedDraw_congr]
  rfl

theorem State.markSeen_figures (c : Channel) (s : State) : (s.markSeen c).figures = s.figures := by
  unfold State.markSeen
  dsimp only
  split <;> rfl

/-- Step 3 for a present channel: the record of that channel alone changes. -/
theorem State.passChannel_figures {c : Channel} {s : State} (present : (s.store.config.channels[c]).present = true) :
    (s.passChannel c).figures =
      { s.figures with
        chans := s.jet.chans.set c (s.chanFigures c (((s.passTable[c]).map fun e => e.height).getD 0)
          (((s.passTable[c]).map fun e => e.openSet).getD 0)) } := by
  unfold State.passChannel
  rw [if_neg fun absent => Bool.false_ne_true (absent.symm.trans present)]
  extract_lets entry height id fig s1 s2
  have clamped : s1.figures = s.figures := by
    unfold s1
    split
    · exact State.raise_figures (by decide) _ _ _
    · rfl
  have starved : s2.figures = s.figures := by
    unfold s2
    split
    · exact (State.raise_figures (by decide) _ _ _).trans clamped
    · exact clamped
  rw [State.markSeen_figures]
  change { s2.figures with chans := s2.jet.chans.set c fig } = _
  rw [starved, State.chans_of_figures starved]

theorem State.passChannel_absent {c : Channel} {s : State} (absent : (s.store.config.channels[c]).present = false) :
    s.passChannel c = s := if_pos absent

@[simp] theorem State.passChannel_shareFigures (c : Channel) (s : State) :
    (s.passChannel c).figures.toShareFigures = s.figures.toShareFigures := by
  cases h : (s.store.config.channels[c]).present with
  | false => rw [State.passChannel_absent h]
  | true => rw [State.passChannel_figures h]

/-- The speed of a channel stands scaled by the S of the state, but where the channel starves (R102). -/
def State.ScaledAt (s : State) (c : Channel) : Prop :=
  (s.jet.chans[c]).starved = false → (s.jet.chans[c]).nt = (s.jet.chans[c]).n * s.jet.scale / 1000

theorem State.scaledAt_congr {s t : State} (h : t.figures = s.figures) (c : Channel) : t.ScaledAt c ↔ s.ScaledAt c := by
  rw [State.ScaledAt, State.ScaledAt, State.scale_of_figures h, State.chans_of_figures h]

theorem State.chanFigures_nt (s : State) (c : Channel) (height : Nat) (set : NozzleSet)
    (h : (s.chanFigures c height set).starved = false) :
    (s.chanFigures c height set).nt = (s.chanFigures c height set).n * s.jet.scale / 1000 :=
  if_neg (of_decide_eq_false h)

/-- Step 3 scales the channel it works, and leaves the others scaled. -/
theorem State.passChannel_scaledAt {s : State} {c d : Channel} (present : (s.store.config.channels[c]).present = true)
    (h : c = d ∨ s.ScaledAt c) : (s.passChannel d).ScaledAt c := by
  by_cases worked : (s.store.config.channels[d]).present = true
  · have figures := State.passChannel_figures worked
    have scale : (s.passChannel d).jet.scale = s.jet.scale :=
      State.scale_of_shareFigures (s.passChannel_shareFigures d)
    have chans := congrArg PassFigures.chans figures
    simp only [State.figures] at chans
    rw [State.ScaledAt, scale, chans]
    by_cases same : c = d
    · subst same
      simpa using s.chanFigures_nt c _ _
    · have other : d.val ≠ c.val := fun e => same (Fin.ext e).symm
      simpa [other, State.ScaledAt] using h.resolve_left same
  · rw [State.passChannel_absent (by simpa using worked)]
    exact h.resolve_left fun same => worked (same ▸ present)

theorem foldl_passChannel_scaledAt {c : Channel} (l : List Channel) {s : State}
    (present : (s.store.config.channels[c]).present = true) (h : c ∈ l ∨ s.ScaledAt c) :
    (l.foldl (fun s c => s.passChannel c) s).ScaledAt c := by
  induction l generalizing s with
  | nil => exact h.resolve_left List.not_mem_nil
  | cons d ds ih =>
    rw [List.mem_cons, or_assoc, or_left_comm] at h
    exact ih (by simpa using present) (h.imp_right (State.passChannel_scaledAt present))

/-- The state after steps 1 to 3 of a pass. -/
def State.passComputed (s : State) : State :=
  (List.finRange 4).foldl (fun s c => s.passChannel c) (State.passShare { s with jet := { s.jet with passDue := false } })

theorem State.passComputed_shareFigures (s : State) : s.passComputed.figures.toShareFigures = s.shareFigures := by
  have shared : s.passComputed.figures.toShareFigures = _ :=
    foldl_proj (fun s => s.figures.toShareFigures) _ (by simp) (List.finRange 4) _
  rw [shared, State.passShare_figures]
  exact s.shareFigures_congr s.inputs false

theorem State.passComputed_planned (s : State) : s.passComputed.jet.planned = s.plannedDraw :=
  State.planned_of_shareFigures s.passComputed_shareFigures

theorem State.passComputed_ctl (s : State) : s.passComputed.ctl = s.ctl := by
  simp [State.passComputed]

/-- The state at the hand-off of a pass, before it is seen whether ENDING is over. -/
def State.passHanded (s : State) : State :=
  State.refreshValves ((List.finRange 4).foldl (fun s c => s.handOffChannel c) s.passComputed)

theorem State.passHanded_ctl (s : State) : s.passHanded.ctl = s.ctl := by
  simp [State.passHanded, State.passComputed_ctl]

theorem State.passHanded_figures (s : State) : s.passHanded.figures = s.passComputed.figures := by
  rw [State.passHanded, State.refreshValves_figures]
  exact foldl_proj State.figures _ (by simp) _ _

theorem State.pass_eq_checkEnding (s : State) : s.pass = s.passHanded.checkEnding := rfl

/-- What follows steps 1 to 3 leaves the figures they have worked out. -/
theorem State.pass_figures (s : State) : s.pass.figures = s.passComputed.figures := by
  rw [State.pass_eq_checkEnding, State.checkEnding_figures, State.passHanded_figures]
  intro still
  rw [State.passHanded_ctl] at still
  rw [State.planned_of_figures s.passHanded_figures, State.passComputed_planned, State.plannedDraw_not_underWay still]

/-- The state that a pass leaves, with the levels of PFLT it works from (R107). -/
def State.afterPass (pflt : BitVec 4) (s : State) : State :=
  State.pass { s with inputs := { s.inputs with pflt := pflt } }

theorem exec_jetComputationPass {s : State} (pflt : BitVec 4) (h : s.operating = true) :
    exec (.jetComputationPass pflt) s = .next (s.afterPass pflt) :=
  congrArg Host.Outcome.next (if_pos h)

theorem State.afterPass_shareFigures (pflt : BitVec 4) (s : State) :
    (s.afterPass pflt).figures.toShareFigures = s.shareFigures := by
  rw [State.afterPass, State.pass_figures, State.passComputed_shareFigures]
  exact s.shareFigures_congr _ s.jet.passDue

theorem State.afterPass_planned (pflt : BitVec 4) (s : State) : (s.afterPass pflt).jet.planned = s.plannedDraw :=
  State.planned_of_shareFigures (s.afterPass_shareFigures pflt)

theorem State.afterPass_share (pflt : BitVec 4) (s : State) :
    (s.afterPass pflt).jet.share = shareOf s.store.config s.plannedDraw s.jet.other :=
  State.share_of_shareFigures (s.afterPass_shareFigures pflt)

theorem State.afterPass_scale (pflt : BitVec 4) (s : State) :
    (s.afterPass pflt).jet.scale = scaleOf s.plannedDraw (shareOf s.store.config s.plannedDraw s.jet.other) :=
  State.scale_of_shareFigures (s.afterPass_shareFigures pflt)

/-- A counter of BUDGET SCALED counts once where S falls below 1000 from 1000, and stands as it was otherwise (R106). -/
theorem State.afterPass_counter (pflt : BitVec 4) (s : State) {i : Counter}
    (kind : (s.mon.counters[i]).kind = some .budgetScaled) :
    (s.afterPass pflt).mon.counters[i] =
      if (s.afterPass pflt).jet.scale < 1000 ∧ s.jet.scale = 1000 then
        (s.mon.counters[i]).count { kind := .budgetScaled, time := s.clock.showTime, cueId := none, object := none }
      else s.mon.counters[i] := by
  have budget := State.budget_of_shareFigures (s.afterPass_shareFigures pflt)
  rw [State.afterPass_scale]
  unfold State.shareFigures at budget
  dsimp only at budget
  split at budget
  · next falls =>
    have counted := s.raise_counter .budgetScaled none none i
    rw [if_pos falls, ← counted]
    exact State.counter_eq_of_budgetCounters budget (by rw [counted, CounterRec.count_kind]; exact kind)
  · next stays =>
    rw [if_neg stays]
    exact State.counter_eq_of_budgetCounters budget kind

theorem State.afterPass_scaledAt (pflt : BitVec 4) (s : State) {c : Channel}
    (present : (s.store.config.channels[c]).present = true) : (s.afterPass pflt).ScaledAt c := by
  rw [State.afterPass, State.scaledAt_congr (State.pass_figures _)]
  exact foldl_passChannel_scaledAt _ (by simpa using present) (.inl (List.mem_finRange c))

/-- In a show under way P is one of the sums of the walk, and none is above it (R103, R104). -/
theorem State.plannedDraw_greatest {s : State} (h : s.ctl.state.underWay = true) :
    (∃ k ≤ s.passJets.length,
      s.plannedDraw = min 65535 (s.walkSum (shadowAfter (shadowOf s.passTable) (s.passJets.take k)))) ∧
    ∀ k, min 65535 (s.walkSum (shadowAfter (shadowOf s.passTable) (s.passJets.take k))) ≤ s.plannedDraw := by
  rw [State.plannedDraw, if_pos h]
  obtain ⟨k, hk, greatest⟩ := s.exists_walk_eq s.passJets (shadowOf s.passTable)
  exact ⟨⟨k, hk, by rw [greatest]⟩, fun k => min_le_min_left _ (s.walkSum_le_walk _ _ k)⟩

/-- Settles O33: the walk of the statement is the model's `State.walk`, and a pass keeps P, G and S as its first two steps
worked them out. -/
theorem shareAndScaleOfThePass : Obligations.ShareAndScaleOfThePass := by
  unfold Obligations.ShareAndScaleOfThePass
  refine ⟨fun s pflt op => ⟨_, exec_jetComputationPass pflt op, ?_⟩,
    fun s pflt op => ⟨_, exec_jetComputationPass pflt op, ?_, fun i kind => s.afterPass_counter pflt kind,
      fun c present => s.afterPass_scaledAt pflt present⟩, rfl, rfl⟩
  · intro jets table shadow fw sum
    have jets_eq : jets = s.passJets.map fun j => (j.channel, j.height, j.openSet) := by
      unfold jets State.passJets queuedJets
      cases s.jet.view with
      | some v => rfl
      | none =>
        refine .trans (congrArg (List.filterMap · s.seq.queue) (funext fun e => ?_)) List.map_filterMap.symm
        cases e.cue.body <;> rfl
    have table_eq (c : Channel) : table c = (shadowOf s.passTable)[c] := by
      have read : (shadowOf s.passTable)[c] = _ := Vector.getElem_ofFn _
      rw [read]
      unfold table State.passTable
      cases s.jet.view <;> rfl
    have shadow_eq (k : Nat) (c : Channel) :
        shadow k c = (shadowAfter (shadowOf s.passTable) (s.passJets.take k))[c] := by
      unfold shadow
      rw [shadowAfter_getElem, jets_eq, ← List.map_take, List.filter_map, List.getLast?_map, Option.map_map, table_eq]
      rfl
    have sum_eq (k : Nat) : sum k = s.walkSum (shadowAfter (shadowOf s.passTable) (s.passJets.take k)) := by
      unfold sum
      simp only [State.walkSum_eq_sum, shadow_eq]
      rfl
    have length : jets.length = s.passJets.length := by rw [jets_eq, List.length_map]
    rw [State.afterPass_planned, length]
    simp only [sum_eq]
    refine ⟨fun state => ?_, fun countdown running hold => State.plannedDraw_not_underWay ?_⟩
    · obtain ⟨attained, above⟩ := State.plannedDraw_greatest ((ShowState.underWay_iff _).mpr state)
      exact ⟨attained, fun k _ => above k⟩
    · simp [← Bool.not_eq_true, ShowState.underWay_iff, countdown, running, hold]
  · dsimp only
    rw [State.afterPass_scale, State.afterPass_share, State.afterPass_planned]
    exact ⟨rfl, shareOf_le_planned _ _ _, shareOf_le_ceiling _ _ _, shareOf_le_capacity _ _ _, rfl,
      scaleOf_le _ _ (shareOf_le_planned _ _ _)⟩

end Sys2Proof.Machine
end

section
/-! PROOFS. Lighting (10): gamma, the gating cases, and the working duties (R145, R150, R152).

That the working duties stand as R150 and R152 say is the model's `LampsStand`, and working the gating afresh brings it about.
What a light step leaves is that state with the completions of its end (`State.settle`) behind it: the entry to ARMED and the
end of ENDING each work the gating afresh themselves, and a grant of the flash port touches nothing that a duty depends on.  An
assertion of LOWLVL is followed by the gating in any case, so there the station need only still be operating. -/

namespace Sys2Proof.Machine

/-! ### Gamma (R150) -/

theorem gamma_eq_zero_iff (l : Nat) : gamma l = 0 ↔ l ≤ 3 := by
  rw [gamma, Nat.div_eq_zero_iff_lt (by decide)]
  constructor <;> intro h
  · by_contra above
    have : 4 * 4 ≤ l * l := Nat.mul_self_le_mul_self (by omega)
    omega
  · have : l * l ≤ 3 * 3 := Nat.mul_self_le_mul_self h
    omega

theorem gamma_mono {l m : Nat} (h : l ≤ m) : gamma l ≤ gamma m :=
  Nat.div_le_div_right (Nat.mul_le_mul_right _ (Nat.mul_self_le_mul_self h))

/-! ### The cases of the gating table (R152) -/

theorem State.outputLevel_of_submerged {s : State} {f : Fixture} (submerged : (s.store.config.fixtures[f]).submerged = true)
    (low : s.inputs.lowlvl = true) : s.outputLevel f = {} := by
  unfold State.outputLevel
  dsimp only
  split
  · rfl
  · rw [if_pos ⟨submerged, low⟩]

/-- The safe white of R153, where the water is not low. -/
theorem State.outputLevel_of_safe_area {s : State} {f : Fixture} (present : (s.store.config.fixtures[f]).present = true)
    (area : (s.store.config.fixtures[f]).role = 1) (safe : s.ctl.state = .safe) (high : s.inputs.lowlvl = false) :
    s.outputLevel f = { w := s.store.config.safeWhite } := by
  unfold State.outputLevel
  dsimp only
  rw [if_neg (by rw [present]; decide), if_neg (by simp [high]), if_pos safe, if_pos area]

/-- Over a nozzle that is DRY or OUT a JET fixture is dark in every show state. -/
theorem State.outputLevel_of_dry_jet {s : State} {f : Fixture} (jet : (s.store.config.fixtures[f]).role = 0)
    (dry : s.boundNozzle s.store.config.fixtures[f] = .dry ∨ s.boundNozzle s.store.config.fixtures[f] = .out) :
    s.outputLevel f = {} := by
  unfold State.outputLevel
  dsimp only
  split
  · rfl
  · split
    · rfl
    · split
      · rw [if_neg (by rw [jet]; decide)]
      · rw [if_pos ⟨jet, dry⟩]

theorem LampsStand.dark_of_submerged {s : State} {f : Fixture} (stand : LampsStand s) (op : s.operating = true)
    (submerged : (s.store.config.fixtures[f]).submerged = true) (low : s.inputs.lowlvl = true) :
    s.lights.working[f] = {} := by
  rw [stand op f, State.outputLevel_of_submerged submerged low]
  rfl

/-! ### The gating and the light step -/

/-- Whether the blocks work depends on the show state alone (R2, R3). -/
theorem State.operating_of_state_eq {s t : State} (op : s.operating = true) (h : t.ctl.state = s.ctl.state) :
    t.operating = true := by
  simpa only [State.operating, h] using op

theorem State.regate_of_operating {s : State} (op : s.operating = true) : s.regate =
    { s with lights := { s.lights with working := Vector.ofFn fun f : Fin 12 => (s.outputLevel f).duties } } :=
  if_pos op

/-- The one item of Show Control that a light step can change is the report of the run-out (R154). -/
theorem State.lightStep_ctl (s : State) :
    s.lightStep.ctl = { s.ctl with lightRunOut := s.lightStep.ctl.lightRunOut } := by
  have checked (u : State) : u.checkLightRunOut.ctl = { u.ctl with lightRunOut := u.checkLightRunOut.ctl.lightRunOut } := by
    unfold State.checkLightRunOut
    dsimp only
    split <;> rfl
  simpa [State.lightStep] using checked s.advanceFixtures

theorem State.lightStep_lamps (s : State) : LampsStand s.lightStep := State.regate_stand _

/-! ### The completions at the end of a step -/

/-- With no START held the entry to ARMED stops there (R7, R9). -/
theorem State.enterArmed_of_not_held {s : State} (held : s.ctl.held = none) :
    s.enterArmed = ((s.changeState .armed).resetFixtures).workGoals := by
  simp [State.enterArmed, held]

theorem State.workGoals_lamps (s : State) : LampsStand s.workGoals := State.refreshValves_lamps _

theorem State.checkArmed_lamps {s : State} (stand : LampsStand s) (held : s.ctl.held = none) : LampsStand s.checkArmed := by
  unfold State.checkArmed
  split
  · rw [State.enterArmed_of_not_held held]
    exact State.workGoals_lamps _
  · exact stand

theorem State.checkArmed_operating {s : State} (op : s.operating = true) (held : s.ctl.held = none) :
    s.checkArmed.operating = true := by
  unfold State.checkArmed
  split
  · simp [State.enterArmed_of_not_held held, State.operating]
  · exact op

theorem State.checkEnding_lamps {s : State} (stand : LampsStand s) : LampsStand s.checkEnding := by
  unfold State.checkEnding
  split
  · exact State.workGoals_lamps _
  · exact stand

theorem State.checkEnding_operating {s : State} (op : s.operating = true) : s.checkEnding.operating = true := by
  unfold State.checkEnding
  split
  · simp [State.operating]
  · exact op

theorem State.grant_lamps {s : State} (stand : LampsStand s) : LampsStand s.grant := by
  unfold State.grant
  split <;> exact stand

theorem State.settle_lamps {s : State} (stand : LampsStand s) (held : s.ctl.held = none) : LampsStand s.settle :=
  State.grant_lamps (State.checkEnding_lamps (State.checkArmed_lamps stand held))

theorem State.settle_operating {s : State} (op : s.operating = true) (held : s.ctl.held = none) :
    s.settle.operating = true :=
  State.operating_of_state_eq (State.checkEnding_operating (State.checkArmed_operating op held)) (by simp [State.settle])

/-- No operation that completes at the end of a step is under way in SAFE (R7, R13). -/
theorem State.settle_ctl_of_safe {s : State} (safe : s.ctl.state = .safe) : s.settle.ctl = s.ctl := by
  simp [State.settle, State.checkArmed, State.checkEnding, safe]

/-! ### An assertion of an input (R16, R17) -/

theorem State.enterSafe_state {s : State} (cause : SafeCause) (op : s.operating = true) :
    (s.enterSafe cause).ctl.state = .safe := by
  unfold State.enterSafe
  split
  · simp_all
  · split
    · assumption
    · simp

theorem State.startAlerts_state (cause : AlertCause) (s : State) : (s.startAlerts cause).ctl.state = s.ctl.state := by
  simp [State.startAlerts]

theorem State.inputAsserted_state {s : State} (cause : SafeCause) (alert : AlertCause) (op : s.operating = true) :
    (s.inputAsserted cause alert).ctl.state = .safe := by
  have asserted : (s.assertInput cause alert).ctl.state = .safe := by
    rw [State.assertInput, State.startAlerts_state, State.enterSafe_state cause op]
  rw [State.inputAsserted, if_pos op, State.settle_ctl_of_safe asserted, asserted]

/-! ### The commands -/

/-- The state in which the light step acts: its moment has been reached, and the timer runs on (R147). -/
def State.atLightStep (t0 : Nat) (s : State) : State :=
  { s.passTo t0 with lights := { (s.passTo t0).lights with lightTimer := some (t0 + 10000) } }

theorem exec_lightStep {s : State} {t0 : Nat} (h : s.lights.lightTimer = some t0) :
    exec .lightStep s = .next (s.atLightStep t0).lightStep.settle := by
  simp [exec, execLightStep, h, State.atLightStep]

theorem State.atLightStep_keeps (t0 : Nat) (s : State) :
    (s.atLightStep t0).ctl = s.ctl ∧ (s.atLightStep t0).inputs = s.inputs ∧ (s.atLightStep t0).store = s.store := by
  simp [State.atLightStep]

/-- After a light step the blocks still work, and every working duty stands as R150 and R152 say. -/
theorem State.lightStep_settle_lamps {s : State} (op : s.operating = true) (held : s.ctl.held = none) :
    s.lightStep.settle.operating = true ∧ LampsStand s.lightStep.settle := by
  have held' : s.lightStep.ctl.held = none := by rw [State.lightStep_ctl]; exact held
  have op' : s.lightStep.operating = true := State.operating_of_state_eq op (by rw [State.lightStep_ctl])
  exact ⟨State.settle_operating op' held', State.settle_lamps s.lightStep_lamps held'⟩

/-- What LOW_LEVEL_ASSERTED leaves before the gating is worked afresh: the input's level, and SAFE with its ALERT (R16). -/
def State.lowLevelAsserted (s : State) : State :=
  State.inputAsserted .lowLevel .lowLevel { s with inputs := { s.inputs with lowlvl := true } }

theorem exec_lowLevelAsserted (s : State) : exec .lowLevelAsserted s = .next s.lowLevelAsserted.regate := rfl

/-- What LOW_LEVEL_RELEASED leaves before the gating is worked afresh. -/
def State.lowLevelReleased (s : State) : State := { s with inputs := { s.inputs with lowlvl := false } }

theorem exec_lowLevelReleased (s : State) : exec .lowLevelReleased s = .next s.lowLevelReleased.regate := rfl

theorem exec_lampPwmRollover {s : State} {t0 : Nat} (h : s.lights.pwmTimer = some t0) : exec .lampPwmRollover s =
    .next { s.passTo t0 with lights := { s.lights with holding := s.lights.working, pwmTimer := some (t0 + 1000) } } := by
  simp [exec, execLampPwmRollover, h, State.pwmRollover]

/-! ### The statement -/

/-- A LIGHT_STEP leaves every duty as gamma of the output level, 0 where a submerged fixture meets a low water level. -/
theorem duties_after_lightStep {s : State} {t0 : Nat} (op : s.operating = true) (timer : s.lights.lightTimer = some t0)
    (held : s.ctl.held = none) :
    ∃ t, exec .lightStep s = .next t ∧ ∀ f : Fixture, t.lights.working[f] = (t.outputLevel f).duties ∧
      ((s.store.config.fixtures[f]).submerged = true → s.inputs.lowlvl = true → t.lights.working[f] = {}) := by
  obtain ⟨ctl, inputs, store⟩ := s.atLightStep_keeps t0
  obtain ⟨op', stand⟩ := State.lightStep_settle_lamps (s := s.atLightStep t0)
    (State.operating_of_state_eq op (by rw [ctl])) (by rw [ctl, held])
  refine ⟨_, exec_lightStep timer, fun f => ⟨stand op' f, fun submerged low => stand.dark_of_submerged op' ?_ ?_⟩⟩
  · simpa [store] using submerged
  · simpa [inputs] using low

/-- From LOW_LEVEL_ASSERTED on, the submerged fixtures are dark. -/
theorem dark_after_lowLevelAsserted {s : State} (op : s.operating = true) :
    ∃ t, exec .lowLevelAsserted s = .next t ∧ t.inputs.lowlvl = true ∧
      ∀ f : Fixture, (s.store.config.fixtures[f]).submerged = true → t.lights.working[f] = {} := by
  have safe : s.lowLevelAsserted.ctl.state = .safe := State.inputAsserted_state _ _ op
  have low : s.lowLevelAsserted.regate.inputs.lowlvl = true := by simp [State.lowLevelAsserted]
  refine ⟨_, exec_lowLevelAsserted s, low, fun f submerged => (State.regate_stand _).dark_of_submerged ?_ ?_ low⟩
  · simp [State.operating, safe]
  · simpa [State.lowLevelAsserted] using submerged

/-- LOW_LEVEL_RELEASED works the duties afresh and changes nothing else (R152, R153). -/
theorem duties_after_lowLevelReleased {s : State} (op : s.operating = true) :
    ∃ t, exec .lowLevelReleased s = .next t ∧ t.inputs.lowlvl = false ∧
      t = { s with inputs := t.inputs, lights := { s.lights with working := t.lights.working } } ∧
      ∀ f : Fixture, t.lights.working[f] = (t.outputLevel f).duties ∧
        ((s.store.config.fixtures[f]).present = true → s.ctl.state = .safe → (s.store.config.fixtures[f]).role = 1 →
          t.outputLevel f = { w := s.store.config.safeWhite }) ∧
        ((s.store.config.fixtures[f]).role = 0 →
          (s.boundNozzle s.store.config.fixtures[f] = .dry ∨ s.boundNozzle s.store.config.fixtures[f] = .out) →
          t.outputLevel f = {}) := by
  have op' : s.lowLevelReleased.operating = true := op
  have stand := State.regate_stand s.lowLevelReleased
  rw [State.regate_of_operating op'] at stand
  refine ⟨_, (exec_lowLevelReleased s).trans (by rw [State.regate_of_operating op']), rfl, rfl, fun f =>
    ⟨stand op f, fun present safe area => ?_, fun jet dry => ?_⟩⟩
  · exact State.outputLevel_of_safe_area present area safe rfl
  · exact State.outputLevel_of_dry_jet jet dry

/-- Settles O46: a clause per command, and for gamma where it is 0 and that it rises with the level. -/
theorem dutiesFollowLevelsAndGating : Obligations.DutiesFollowLevelsAndGating := by
  unfold Obligations.DutiesFollowLevelsAndGating
  refine ⟨fun s t0 op timer held => ?_, fun s op => dark_after_lowLevelAsserted op,
    fun l _ low => (gamma_eq_zero_iff l).mpr low, rfl, fun l bound => gamma_mono bound,
    fun s op => duties_after_lowLevelReleased op, fun s t0 timer => ⟨_, exec_lampPwmRollover timer, rfl⟩⟩
  obtain ⟨t, next, duties⟩ := duties_after_lightStep op timer held
  refine ⟨t, next, fun f => ?_⟩
  obtain ⟨working, dark⟩ := duties f
  refine ⟨?_, ?_, ?_, ?_, dark⟩ <;> rw [working] <;> rfl

end Sys2Proof.Machine
end

