-- ==== Sys2Proof/Proofs/Moves.lean ====
section
/-! PROOFS. What a command can do, said once: every command but a hard reset is a path of moves, each of which leaves the invariants of all
blocks standing.  A move is a block of the model's operations that goes from one sound state to another (an entry to a show
state with the valves it works, one edit of a block's own items), under the condition on which the model makes it. -/

set_option Elab.async false

namespace Sys2Proof.Machine

/-! ### The moves -/

/-- Entry to ENDING (R13) before the completion of R13 is examined. -/
def State.endingEntry (cause : EndingCause) (s : State) : State :=
  let from_ := s.ctl.state
  let s1 : State :=
    { s with
      ctl := { s.ctl with endingCause := some cause, lightRunOut := false, audioRunOut := false }
      pump := { s.pump with wetEnding := from_ = .running ∨ from_ = .hold } }
  let s2 := ((s1.changeState .ending).clearSequencer.zeroTargets).beginLightRunOut
  (s2.beginAudioRunOut (from_ = .running)).parkHeads.workGoals

theorem State.enterEnding_eq (cause : EndingCause) (s : State) :
    s.enterEnding cause = (s.endingEntry cause).checkEnding := rfl

/-- SELECT's entry to LOADING (R6, R7) before the heads are homed and the directory reader asks. -/
def State.loadingEntry (n : Nat) (s : State) : State :=
  let s1 : State := { s with ctl := { s.ctl with selected := n, held := none } }
  (((s1.dropEntry.flushMusic).changeState .loading).resetFixtures).workGoals

/-- Entry to ARMED (R7), the held START taken out of the record (R9). -/
def State.armedEntry (s : State) : State :=
  let s1 := ((s.changeState .armed).resetFixtures).workGoals
  { s1 with ctl := { s1.ctl with held := none } }

/-- Entry from ARMED to COUNTDOWN or RUNNING (R8, R61) before anything is read. -/
def State.runEntry (n : ShowState) (s : State) : State := ((s.changeState n).startRun).workGoals

/-- A pump whose hold-off has run out (R121). -/
def State.endHoldOff (c : Channel) (s : State) : State :=
  let p := s.pump.pumps[c]
  let s2 := s.setPump c { p with state := .stopped, holdOff := none }
  (if 0 < p.goal then s2.startPump c else s2).refreshValves

/-- The state that a hard reset leaves (R1): nothing but the levels of the pins and the queue stands as before. -/
def State.heldReset (s : State) : State := { State.reset with inputs := s.inputs, pending := s.pending }

/-- The frames of a block number: as many as a block holds at most, each in its place in the stream (R65). -/
structure FramesOf (k : Nat) (frames : List AudioFrame) : Prop where
  room : frames.length ≤ 1016
  rising : frames.Pairwise fun a b => a.index < b.index
  place : ∀ f ∈ frames, 1016 * k ≤ f.index ∧ f.index < 1016 * (k + 1)

/-- One move of the station, a hard reset apart. -/
inductive Move (s : State) : State → Prop
  -- time and the pins
  | time (dt : Nat) : Move s (s.passTime dt)
  | inputs (i : Inputs) (h : i.lowlvl = s.inputs.lowlvl := by rfl) : Move s { s with inputs := i }
  | lowLevel (h : s.operating = true) :
    Move s (State.regate (State.enterSafe .lowLevel { s with inputs := { s.inputs with lowlvl := true } }))
  | lowLevelSeen (b : Bool) : Move s (State.regate { s with inputs := { s.inputs with lowlvl := b } })
  -- Show Monitor
  | raise (kind : EventKind) (cueId object : Option Nat) : Move s (s.raise kind cueId object)
  | adoptMonitor (g : StationConfig) : Move s (s.adoptMonitor g)
  -- Peer View and Jet Computation
  | peers (v : PeerView) : Move s { s with peers := v }
  | jet (j : Jet) (h : j.planned = s.jet.planned := by rfl) : Move s { s with jet := j }
  | pass (h : s.operating = true) : Move s s.passHanded
  -- Show Clock
  | clock (c : Clock) (ht : c.showTime = s.clock.showTime := by rfl) (hs : c.solo = s.clock.solo := by rfl)
      (hu : c.solitude = s.clock.solitude := by rfl) : Move s { s with clock := c }
  | companyHeard : Move s { s with clock := { s.clock with solitude := none, solo := false } }
  | solitudeStarts (t : Nat) (h : s.ctl.state.underWay = true) :
    Move s { s with clock := { s.clock with solitude := some t } }
  | solitudeEnds (h : s.clock.solitude.isSome) : Move s { s with clock := { s.clock with solo := true, solitude := none } }
  | showTime (t : Int) : Move s { s with clock := { s.clock with showTime := clampShowTime t } }
  -- Show Control
  | marks (light audio : Bool) (alert : Option Nat) :
    Move s { s with ctl := { s.ctl with lightRunOut := light, audioRunOut := audio, alertTimer := alert } }
  | follow (a b c : Nat) (h : s.ctl.state.underWay = true) :
    Move s { s with ctl := { s.ctl with followHold := a, followRunning := b, followEnding := c } }
  | holdStart (hs : HeldStart) (h : s.ctl.state = .loading) : Move s { s with ctl := { s.ctl with held := some hs } }
  -- Cue Sequencer
  | seq (q : Sequencer) (h : q.queue.Sublist s.seq.queue := by exact .refl _) : Move s { s with seq := q }
  | insert (e : QueueEntry) (h : s.seq.queue.length < 64) :
    Move s { s with seq := { s.seq with queue := insertEntry e s.seq.queue } }
  -- Head Control
  | heads (v : Vector HeadRec 8) : Move s { s with head := { s.head with heads := v } }
  | permits : Move s s.refreshPermits
  | headFault (h : Head) (cause : HeadCause) : Move s (s.headFault h cause)
  | settleHead (h : Head) : Move s (s.settleHead h)
  -- Light Engine
  | lights (l : Lights) (light : Bool) :
    Move s (State.regate { s with lights := l, ctl := { s.ctl with lightRunOut := light } })
  | lamps (l : Lights) (hw : l.working = s.lights.working)
      (hc : ∀ f : Fixture, (l.fixtures[f]).current = (s.lights.fixtures[f]).current) : Move s { s with lights := l }
  -- Pump Control
  | pumpTimer (t : Option Nat) : Move s { s with pump := { s.pump with period := t } }
  | pumpRecord (c : Channel) (p : PumpRec) (hv : p.valves = (s.pump.pumps[c]).valves)
      (hr : p.state.runs = (s.pump.pumps[c]).state.runs)
      (hs : (s.pump.pumps[c]).state = .stopped → p.state = .stopped ∧ p.output = (s.pump.pumps[c]).output) :
    Move s (s.setPump c p)
  | trip (c : Channel) (cause : TripCause) (h : (s.pump.pumps[c]).state.runs = true) : Move s (s.trip c cause)
  | pumpPeriod : Move s s.pumpPeriod
  | endHoldOff (c : Channel) (h : (s.pump.pumps[c]).state = .tripped) : Move s (s.endHoldOff c)
  | nozzle (z : Nozzle) (n : NozzleRec) (hc : n.command = (s.pump.nozzles[z]).command) (hn : n.state ≠ .out)
      (ho : (s.pump.nozzles[z]).state ≠ .out) : Move s (s.setNozzle z n).regate
  | drive (z : Nozzle) (d : ValveDrive) : Move s (s.setNozzle z { s.pump.nozzles[z] with drive := d })
  -- Music Playback and its reader
  | music (m : Music) (h : m.fifo.Sublist s.music.fifo := by exact .refl _) : Move s { s with music := m }
  | audioPlaced (m : Music) (k : Nat) (h : m.fifo = []) :
    Move s { s with music := m, store := { s.store.withdraw .audio with audioPos := some k } }
  | audioAsked (q : Request) (h : s.store.entry.isSome) (hl : s.music.fifo.length ≤ 3080)
      (hp : s.store.audioPos = some q.expect.seq) : Move s { s with store := { s.store with audioReq := some q } }
  | audioSilent (k : Nat) (frames : List AudioFrame) (hf : FramesOf k frames) (h : s.store.entry.isSome)
      (hr : s.store.audioReq = none) (hl : s.music.fifo.length ≤ 3080) (hp : s.store.audioPos = some k) :
    Move s (s.deliverAudio frames)
  | audioBlock (q : Request) (frames : List AudioFrame) (hf : FramesOf q.expect.seq frames)
      (hr : s.store.audioReq = some q) :
    Move s (State.deliverAudio frames { s with store := { s.store with audioReq := none } })
  -- Show Store
  | cueReader (q : Option Request) (k : Option Nat) : Move s { s with store := { s.store with cueReq := q, cuePos := k } }
  | port (p : Option PortRead) : Move s { s with store := { s.store with port := p } }
  | reread (r : Reader) (q : Request) (n : Nat) (h : s.store.request r = some q) :
    Move s { s with store := s.store.setRequest (some { q with attempts := n }) r }
  | directory (q : Request) (d : DirStep)
      (h : s.store.dirReq.isSome ∨ s.ctl.state = .loading ∧ s.store.entry = none ∧ s.music.fifo = [] ∧
        s.store.audioReq = none) :
    Move s { s with store := { s.store with dirReq := some q, dirStep := d } }
  | sectionFound (e : ShowSection) (audio : Option Nat) (h : s.store.dirReq.isSome) :
    Move s { s with store := { s.store with dirReq := none, entry := some e, cuePos := some 0, audioPos := audio } }
  | unload : Move s s.dropEntry.flushMusic
  -- Line Controller
  | queuePace : Move s s.queuePace
  | queueAlert (cause : AlertCause) : Move s (s.queueAlert cause)
  | takeQuery (clear : Bool) (h : s.line.reportSlot = none) : Move s (s.takeQuery clear)
  | duplicate (b : Bool) (t : Option Nat) : Move s { s with line := { s.line with duplicate := b, dupTimer := t } }
  | receiver (r : Receiver) (q : Option Nat) (n : Nat) (h : s.line.receiver ≠ .off) (hr : r ≠ .off)
      (hb : ∀ b, r = .receiving b → ∃ rx, b = RxBuffer.start rx) :
    Move s { s with line := { s.line with receiver := r, quietSince := q, lowRun := n } }
  | beginAttempt (h : s.line.tx = .deferring ∨ s.line.tx = .backingOff) : Move s s.beginAttempt
  | sent (kind : FrameKind) (rise : Nat) (h : s.line.sendingKind = some kind) : Move s (s.sent kind rise)
  | collide (kind : FrameKind) (h : s.line.sendingKind = some kind) : Move s (s.collide kind)
  -- start-up
  | release (station : Nat) (rehearse : Bool) (h : s.ctl.phase = .held) :
    Move s { s with
      localTimer := 0
      ctl := { s.ctl with phase := .settling, settleTimer := some 10000, station := station, rehearsal := rehearse } }
  | settled (q : Request) (h : s.ctl.settleTimer.isSome) :
    Move s { s with
      ctl := { s.ctl with settleTimer := none, phase := .loadingConfig }, store := { s.store with configReq := some q } }
  | badNumber (h : s.ctl.settleTimer.isSome) :
    Move s { s with ctl := { s.ctl with settleTimer := none, phase := .done, state := .configFault, reason := 0 } }
  | configAsked (q : Request) (v : Option VolumeHeader) (h : s.store.configReq.isSome) :
    Move s { s with store := { s.store with configReq := some q, header := v } }
  | configFails (reason : Nat) (v : Option VolumeHeader) (h : s.store.configReq.isSome) :
    Move s { s with
      ctl := { s.ctl with phase := .done, state := .configFault, reason := reason }
      store := { s.store with configReq := none, header := v } }
  | powerUp (g : StationConfig) (h : s.store.configReq.isSome) :
    Move s (((State.powerUp g { s with store := { s.store with configReq := none } }).refreshPermits).regate)
  -- the show states
  | enterIdle (soft : Bool) (h : s.ctl.state = .idle ∨ s.ctl.state = .loading ∨ s.ctl.state = .armed ∨ s.ctl.state = .ending) :
    Move s (s.enterIdle soft)
  | noShow (h : s.store.dirReq.isSome) :
    Move s (State.enterIdle false { s with store := { s.store with dirReq := none } })
  | clearSafe (h : s.ctl.state = .safe) : Move s (s.emptySafe.enterIdle false)
  | enterSafe (cause : SafeCause) : Move s (s.enterSafe cause)
  | loadingEntry (n : Nat) (hn : n ≠ 0) (h : s.selectable = true) : Move s (s.loadingEntry n)
  | armedEntry (h : s.ctl.state = .loading) (e : s.store.entry.isSome = true) : Move s s.armedEntry
  | runEntry (n : ShowState) (hn : n = .countdown ∨ n = .running) (h : s.ctl.state = .armed) : Move s (s.runEntry n)
  | runningEntry (h : s.ctl.state = .countdown ∨ s.ctl.state = .hold) : Move s (s.changeState .running).workGoals
  | enterHold (h : s.ctl.state = .running) : Move s s.enterHold
  | endingEntry (cause : EndingCause) (h : s.ctl.state.underWay = true) : Move s (s.endingEntry cause)

/-- A path of moves. -/
def Moves : State → State → Prop := Relation.ReflTransGen Move

theorem Moves.of_eq {s t : State} (h : t = s) : Moves s t := h ▸ Relation.ReflTransGen.refl

theorem Moves.refl {s : State} : Moves s s := Relation.ReflTransGen.refl

theorem Moves.one {s t : State} (m : Move s t) : Moves s t := Relation.ReflTransGen.single m

theorem Moves.trans {s t u : State} (m : Moves s t) (n : Moves t u) : Moves s u := Relation.ReflTransGen.trans m n

/-- What every move keeps, every path keeps. -/
theorem Moves.keeps {P : State → Prop} (hP : ∀ s t, Move s t → P s → P t) {s t : State} (m : Moves s t) (h : P s) : P t := by
  induction m with
  | refl => exact h
  | tail _ m ih => exact hP _ _ m ih

/-- A fold of steps that are paths is a path. -/
theorem Moves.foldl {α : Type} {f : State → α → State} (hf : ∀ s a, Moves s (f s a)) (l : List α) (s : State) :
    Moves s (l.foldl f s) := by
  induction l generalizing s with
  | nil => exact .refl
  | cons a l ih => exact (hf s a).trans (ih _)

/-- A choice between two paths. -/
theorem Moves.ite {s a b : State} {c : Prop} [Decidable c] (ha : c → Moves s a) (hb : ¬ c → Moves s b) :
    Moves s (if c then a else b) := by
  split
  · exact ha ‹_›
  · exact hb ‹_›

/-- A path that is taken in one case only. -/
theorem Moves.opt {s a : State} {c : Prop} [Decidable c] (ha : c → Moves s a) : Moves s (if c then a else s) :=
  .ite ha fun _ => .refl

end Sys2Proof.Machine
end

