-- ==== Sys2Proof/Proofs/MovesOfBlocks.lean ====
section
/-! PROOFS. Each operation of the blocks is a path of moves. -/

set_option Elab.async false

namespace Sys2Proof.Machine

/-! ### Time, requests for a pass, Peer View -/

theorem State.passTo_moves (t : Nat) (s : State) : Moves s (s.passTo t) := (Moves.one (Move.time _))

theorem State.passShowTo_moves (t : Int) (s : State) : Moves s (s.passShowTo t) :=
  .ite (fun _ => (Moves.one (Move.time _))) fun _ => .refl

theorem State.askPass_moves (s : State) : Moves s s.askPass := .ite (fun _ => (Moves.one (Move.jet _))) fun _ => .refl

theorem State.reportPeers_moves (s : State) : Moves s s.reportPeers :=
  (Moves.one (Move.jet { s.jet with other := s.peers.other })).trans (State.askPass_moves _)

theorem State.setShowTime_moves (t : Int) (s : State) : Moves s (s.setShowTime t) :=
  (Moves.one (Move.showTime t)).trans (Moves.one (Move.peers _))

theorem State.hearPace_moves (k : Peer) (p : PacePayload) (rx : Rx) (s : State) : Moves s (s.hearPace k p rx) := by
  unfold State.hearPace
  dsimp only
  refine .trans ?_ (.ite (fun _ => State.reportPeers_moves _) fun _ => .refl)
  exact .trans (Moves.one (Move.peers _)) (.ite (fun _ => .refl) fun _ => Moves.one Move.companyHeard)

theorem State.lapsePeer_moves (k : Peer) (s : State) : Moves s (s.lapsePeer k) := by
  unfold State.lapsePeer
  have lapsed := (Moves.one (Move.peers (s.setPeer k { s.peers.entries[k] with fresh := .lapsed }).peers)).trans
    (State.reportPeers_moves (s.setPeer k { s.peers.entries[k] with fresh := .lapsed }))
  exact .ite (fun h => lapsed.trans (Moves.one (Move.solitudeStarts _ (by simpa using h.2)))) fun _ => lapsed

theorem State.losePeer_moves (k : Peer) (s : State) : Moves s (s.losePeer k) :=
  (Moves.one (Move.peers _)).trans (State.reportPeers_moves _)

/-! ### Head Control -/

theorem State.setHead_moves (h : Head) (r : HeadRec) (s : State) : Moves s (s.setHead h r) := (Moves.one (Move.heads _))

theorem State.enterVerifying_moves (h : Head) (s : State) : Moves s (s.enterVerifying h) := State.setHead_moves _ _ _

theorem State.stallCheck_moves (h : Head) (s : State) : Moves s (s.stallCheck h) :=
  .ite (fun _ => State.enterVerifying_moves _ _) fun _ => .refl

theorem State.issueStep_moves (h : Head) (d : Direction) (s : State) : Moves s (s.issueStep h d) :=
  (State.setHead_moves _ _ _).trans (State.stallCheck_moves _ _)

theorem State.goTo_moves (h : Head) (t : Target) (s : State) : Moves s (s.goTo h t) :=
  (State.setHead_moves h _ s).trans (.ite (fun _ => State.enterVerifying_moves _ _) fun _ => State.issueStep_moves _ _ _)

theorem State.homeFound_moves (h : Head) (s : State) : Moves s (s.homeFound h) :=
  (State.setHead_moves h _ s).trans (State.goTo_moves _ _ _)

theorem State.enterHoming_moves (h : Head) (g : Target) (asserted : Bool) (s : State) :
    Moves s (s.enterHoming h g asserted) :=
  ((State.setHead_moves h _ s).trans (Moves.one Move.permits)).trans
    (.ite (fun _ => State.homeFound_moves _ _) fun _ => .refl)

theorem State.verifyPass_moves (h : Head) (s : State) : Moves s (s.verifyPass h) := by
  unfold State.verifyPass
  dsimp only
  split
  · exact .ite (fun _ => (State.setHead_moves _ _ _).trans (Moves.one (Move.settleHead h)))
      fun _ => (State.setHead_moves _ _ _).trans (State.goTo_moves _ _ _)
  · exact (State.setHead_moves _ _ _).trans (Moves.one (Move.settleHead h))

theorem State.verifyFail_moves (h : Head) (asserted : Bool) (s : State) : Moves s (s.verifyFail h asserted) := by
  unfold State.verifyFail
  dsimp only
  refine .ite (fun _ => ?_) fun _ => .ite (fun _ => ?_) fun _ => ?_
  · exact ((State.setHead_moves _ _ _).trans (Moves.one (Move.raise _ _ _))).trans (State.goTo_moves _ _ _)
  · exact (((State.setHead_moves _ _ _).trans (Moves.one (Move.raise _ _ _))).trans (State.setHead_moves _ _ _)).trans
      (State.enterHoming_moves _ _ _ _)
  · exact (State.setHead_moves _ _ _).trans (Moves.one (Move.headFault _ _))

theorem State.takeTarget_moves (h : Head) (t : Target) (s : State) : Moves s (s.takeTarget h t) := by
  unfold State.takeTarget
  dsimp only
  split
  · exact .ite (fun _ => .refl) fun _ => State.goTo_moves _ _ _
  case h_7 => exact .refl
  all_goals exact State.setHead_moves _ _ _

theorem State.takeLeg_moves (h : Head) (s : State) : Moves s (s.takeLeg h) := by
  unfold State.takeLeg
  dsimp only
  split
  · exact .refl
  · exact (State.setHead_moves _ _ _).trans (State.takeTarget_moves _ _ _)

theorem State.takeDueLeg_moves (h : Head) (s : State) : Moves s (s.takeDueLeg h) :=
  .ite (fun _ => State.takeLeg_moves _ _) fun _ => .refl

theorem State.takeDueLegs_moves (s : State) : Moves s s.takeDueLegs :=
  (Moves.foldl (fun s h => State.takeDueLeg_moves h s) _ s).trans (Moves.one Move.permits)

theorem State.takeAim_moves (h : Head) (target : Nat) (part : Option SweepPart) (id : Nat) (s : State) :
    Moves s (s.takeAim h target part id) := by
  unfold State.takeAim
  dsimp only
  refine .ite (fun _ => (Moves.one (Move.raise _ _ _))) fun _ => ?_
  refine .trans (.trans (.trans ?_ (State.setHead_moves _ _ _)) (State.takeTarget_moves _ _ _)) (Moves.one Move.permits)
  exact .ite (fun _ => (Moves.one (Move.raise _ _ _))) fun _ => .refl

theorem State.homeForLoading_moves (h : Head) (s : State) : Moves s (s.homeForLoading h) :=
  .ite (fun _ => (State.setHead_moves _ _ _).trans (State.enterHoming_moves _ _ _ _)) fun _ => .refl

theorem State.homeHeads_moves (s : State) : Moves s s.homeHeads :=
  (Moves.foldl (fun s h => State.homeForLoading_moves h s) _ s).trans (Moves.one Move.permits)

theorem State.unhomeHeads_moves (s : State) : Moves s s.unhomeHeads :=
  (Moves.one (Move.heads (Vector.ofFn fun h : Fin 8 => (s.head.heads[h]).unhome))).trans (Moves.one Move.permits)

/-! ### Light Engine -/

theorem State.takeLight_moves (f : Fixture) (colours : List Colour) (fade divisor id : Nat) (instant : Bool) (s : State) :
    Moves s (s.takeLight f colours fade divisor id instant) := by
  have clamped (c : Prop) [Decidable c] : Moves s (if c then s.raise .valueClamp (some id) (some f.val) else s) :=
    .opt fun _ => Moves.one (Move.raise _ _ _)
  exact (clamped _).trans (Moves.one (Move.lights _ _))

theorem State.markChases_moves (s : State) : Moves s s.markChases :=
  (Moves.one (Move.lamps _ rfl (by intro f; simp)))

theorem State.lightStep_moves (s : State) : Moves s s.lightStep := by
  unfold State.lightStep State.checkLightRunOut
  dsimp only
  split
  · exact (Moves.one (Move.lights _ _))
  · exact (Moves.one (Move.lights s.advanceFixtures.lights s.ctl.lightRunOut))

/-! ### Music Playback and its reader (R74, R158) -/

theorem framesOf_map (k n : Nat) (h : n ≤ 1016) (l r : Nat → Int) :
    FramesOf k ((List.range n).map fun m => { index := 1016 * k + m, left := l m, right := r m }) where
  room := by simpa using h
  rising := by
    rw [List.pairwise_map]
    exact List.pairwise_lt_range.imp fun h => by simpa using h
  place := by
    intro f hf
    obtain ⟨m, hm, rfl⟩ := List.mem_map.mp hf
    have := List.mem_range.mp hm
    dsimp only
    omega

theorem audioBlockFrames_le (frames k : Nat) : audioBlockFrames frames k ≤ 1016 := by
  unfold audioBlockFrames audioBlocks at *
  split <;> omega

theorem framesOf_silent (frames k : Nat) : FramesOf k (silentFrames k (audioBlockFrames frames k)) :=
  framesOf_map k _ (audioBlockFrames_le _ _) _ _

theorem framesOf_read (p : List Byte) (frames k : Nat) : FramesOf k (readFrames p k (audioBlockFrames frames k)) :=
  framesOf_map k _ (audioBlockFrames_le _ _) _ _

theorem askAudio_moves (n : Nat) (s : State) : Moves s (askAudio n s) := by
  induction n generalizing s with
  | zero => exact .refl
  | succ n ih =>
    unfold askAudio
    split
    · next e k he hk =>
      refine .ite (fun h => ?_) fun _ => .refl
      obtain ⟨_, _, hr, hl, _⟩ := h
      refine .ite (fun _ => ?_) fun _ => ?_
      · refine .trans ((Moves.one (Move.raise .blockLost none (some Reader.audio.object))).trans (Moves.one ?_)) (ih _)
        exact Move.audioSilent k _ (framesOf_silent _ _) (by simp [he]) (by simpa using hr) (by simpa using hl)
          (by simpa using hk)
      · exact (Moves.one (Move.audioAsked { block := e.firstAudio + k, expect := s.expectAudio e.frames k, attempts := 0 }
          (by simp [he]) hl hk))
    · exact .refl

theorem State.fillAudio_moves (s : State) : Moves s s.fillAudio := askAudio_moves _ _

theorem State.audioSlot_moves (s : State) : Moves s s.audioSlot := by
  have front : (s.music.fifo.dropWhile fun f => f.index < s.music.playIndex).Sublist s.music.fifo :=
    List.dropWhile_sublist _
  unfold State.audioSlot
  dsimp only
  refine .ite (fun _ => (Moves.one (Move.music _))) fun _ => .ite (fun _ => (Moves.one (Move.music _ front))) fun _ =>
    .ite (fun _ => (Moves.one (Move.music _ front))) fun _ => ?_
  split
  · next f rest h =>
    refine .ite (fun _ => (Moves.one (Move.music _ ?_))) fun _ => (Moves.one (Move.music _ (h ▸ front)))
    exact .trans (h ▸ List.sublist_cons_self f rest) front
  · next h =>
    refine .ite (fun _ => (Moves.one (Move.music _ (h ▸ front)))) fun _ => .ite (fun _ => (Moves.one (Move.music _ (h ▸ front)))) fun _ => ?_
    exact (Moves.one (Move.music _ (h ▸ front))).trans (Moves.one (Move.raise .underrun none none))

theorem State.resyncAudio_moves (due : Nat) (s : State) : Moves s (s.resyncAudio due) :=
  ((Moves.one (Move.audioPlaced _ _ rfl)).trans (Moves.one (Move.raise .audioResync none none))).trans (State.fillAudio_moves _)

theorem State.checkSync_moves (s : State) : Moves s s.checkSync := by
  unfold State.checkSync
  refine .ite (fun _ => .refl) fun _ => .ite (fun _ => .refl) fun _ => .ite (fun _ => ?_) fun _ => .ite (fun _ => ?_) fun _ =>
    State.resyncAudio_moves _ _
  all_goals exact (Moves.one (Move.music _)).trans (Moves.one (Move.raise .audioSlip none _))

theorem State.takeLevel_moves (gain fade id : Nat) (instant : Bool) (s : State) :
    Moves s (s.takeLevel gain fade id instant) := by
  unfold State.takeLevel
  dsimp only
  refine .trans ?_ (Moves.one (Move.music _))
  exact .ite (fun _ => (Moves.one (Move.raise _ _ _))) fun _ => .refl

theorem State.gainStep_moves (s : State) : Moves s s.gainStep := by
  unfold State.gainStep
  dsimp only
  refine .ite (fun _ => .refl) fun _ => .ite (fun _ => ?_) fun _ => (Moves.one (Move.music _))
  refine .ite (fun _ => ?_) fun _ => (Moves.one (Move.music _))
  exact .trans (Moves.one (Move.music { s.music with
    elapsed := min (s.music.elapsed + 10) s.music.fadeLen, gain := s.music.targetGain, runOut := false }))
    (Moves.one (Move.marks s.ctl.lightRunOut true s.ctl.alertTimer))

/-! ### The changes of the show state -/

theorem Store.withdraw_cue (st : Store) :
    st.withdraw .cue = { st with cueReq := none, port := (st.withdraw .cue).port } := by
  unfold Store.withdraw
  dsimp only [Store.setRequest]
  split
  · split <;> rfl
  · rfl

theorem State.stopCueReader_moves (s : State) : Moves s s.stopCueReader := by
  unfold State.stopCueReader
  rw [Store.withdraw_cue]
  exact (Moves.one (Move.cueReader none none)).trans (Moves.one (Move.port _))

theorem State.clearSequencer_moves (s : State) : Moves s s.clearSequencer := by
  refine (State.stopCueReader_moves s).trans (.trans (Moves.one (Move.jet { s.stopCueReader.jet with view := none })) ?_)
  exact Moves.one (Move.seq _ (by exact List.nil_sublist _))

theorem State.checkEnding_moves (s : State) : Moves s s.checkEnding :=
  .ite (fun h => (Moves.one (Move.enterIdle false (.inr (.inr (.inr h.1)))))) fun _ => .refl

theorem State.enterEnding_moves (cause : EndingCause) {s : State} (h : s.ctl.state.underWay = true) :
    Moves s (s.enterEnding cause) :=
  (Moves.one (Move.endingEntry cause h)).trans (State.checkEnding_moves _)

theorem State.checkTimeLimit_moves (s : State) : Moves s s.checkTimeLimit :=
  .ite (fun h => State.enterEnding_moves _ (by rw [h.1]; rfl)) fun _ => .refl

theorem State.enterRunning_moves {s : State} (h : s.ctl.state = .countdown ∨ s.ctl.state = .hold) :
    Moves s s.enterRunning :=
  ((Moves.one (Move.runningEntry h)).trans (State.checkSync_moves _)).trans (State.checkTimeLimit_moves _)

theorem State.checkZero_moves (s : State) : Moves s s.checkZero :=
  .ite (fun h => State.enterRunning_moves (.inl h.1)) fun _ => .refl

/-! ### The Cue Sequencer -/

theorem State.applyMark_moves (sectionNo beatLen beat id : Nat) (s : State) :
    Moves s (s.applyMark sectionNo beatLen beat id) := by
  unfold State.applyMark
  dsimp only
  refine .trans (.trans (.trans (.trans (State.takeDueLegs_moves s) ?_) (Moves.one (Move.seq _)))
    (Moves.one (Move.heads _))) (State.markChases_moves _)
  exact .ite (fun _ => (Moves.one (Move.raise _ _ _))) fun _ => .refl

theorem ShowState.underWay_of_cueing {n : ShowState} (h : n.cueing = true) : n.underWay = true := by
  cases n <;> first | rfl | cases h

theorem State.handOn_moves (c : CueRec) (scan : Bool) (s : State) : Moves s (s.handOn c scan) := by
  unfold State.handOn
  split
  · exact .ite (fun _ => (Moves.one (Move.seq _))) fun _ =>
      .trans (Moves.one (Move.seq _)) (State.askPass_moves _)
  · exact State.takeAim_moves _ _ _ _ _
  · exact State.takeLight_moves _ _ _ _ _ _ _
  · exact State.takeLevel_moves _ _ _ _ _
  · exact State.applyMark_moves _ _ _ _ _
  · exact .ite (fun h => State.enterEnding_moves _ (ShowState.underWay_of_cueing h)) fun _ => .refl

theorem State.unstage_moves (s : State) : Moves s s.unstage := (Moves.one (Move.seq _))

theorem State.predict_moves (c : CueRec) (s : State) : Moves s (s.predict c) := by
  unfold State.predict
  split
  · exact (Moves.one (Move.seq _))
  · exact .refl

theorem State.predict_queue (c : CueRec) (s : State) : (s.predict c).seq.queue = s.seq.queue := by
  unfold State.predict
  split <;> rfl

theorem State.takeStaged_moves (s : State) : Moves s s.takeStaged := by
  unfold State.takeStaged
  split
  · exact .refl
  next st _ =>
  have taken : Moves s (s.unstage.predict st.cue) := (State.unstage_moves s).trans (State.predict_moves _ _)
  refine .ite (fun _ => (taken.trans (Moves.one (Move.raise _ _ _))).trans (State.handOn_moves _ _ _)) fun _ =>
    .ite (fun _ => taken.trans (State.handOn_moves _ _ _)) fun _ => .ite (fun h => ?_) fun _ => .ite (fun _ => .refl) fun _ => ?_
  · have room : (s.unstage.predict st.cue).seq.queue.length < 64 := by rw [State.predict_queue]; exact h
    exact .ite (fun _ => (taken.trans (Moves.one (Move.insert _ room))).trans (State.askPass_moves _)) fun _ =>
      taken.trans (Moves.one (Move.insert _ room))
  · exact .trans (Moves.one (Move.seq { s.seq with staged := some { st with stalled := true } })) (Moves.one (Move.raise _ _ _))

theorem State.retake_moves (s : State) : Moves s s.retake := by
  unfold State.retake
  split
  · exact .refl
  · exact .ite (fun _ => State.takeStaged_moves s) fun _ => .refl

theorem State.issueHead_moves (s : State) : Moves s s.issueHead := by
  unfold State.issueHead
  split
  · exact .refl
  next e rest h =>
  refine .trans (.trans (Moves.one (Move.seq { s.seq with queue := rest } ?_)) (State.handOn_moves _ _ _)) (State.retake_moves _)
  exact h ▸ List.sublist_cons_self e rest

theorem issueDueN_moves (n : Nat) (s : State) : Moves s (issueDueN n s) := by
  induction n generalizing s with
  | zero => exact .refl
  | succ n ih => exact .ite (fun _ => (State.issueHead_moves s).trans (ih _)) fun _ => .refl

theorem State.issueDue_moves (s : State) : Moves s s.issueDue := issueDueN_moves _ _

theorem State.checkRecord_moves (r : List Byte) (s : State) : Moves s (s.checkRecord r) := by
  unfold State.checkRecord
  dsimp only
  split
  · exact (Moves.one (Move.raise _ _ _))
  next form _ =>
  refine .ite (fun _ => (Moves.one (Move.raise _ _ _))) fun _ => ?_
  split
  · exact .trans (Moves.one (Move.seq { s.seq with lastId := some (be16 r 2) })) (Moves.one (Move.raise _ _ _))
  · exact (Moves.one (Move.seq _))

theorem State.discardPartial_moves (s : State) : Moves s s.discardPartial := by
  unfold State.discardPartial
  split
  · exact .refl
  · exact .trans (Moves.one (Move.seq { s.seq with partialRec := none })) (Moves.one (Move.raise _ _ _))

theorem State.blockUnreadable_moves (s : State) : Moves s s.blockUnreadable :=
  .trans (Moves.one (Move.seq { s.seq with current := none, partialRec := none })) (Moves.one (Move.raise _ _ _))

theorem State.cueBlockLost_moves (s : State) : Moves s s.cueBlockLost := (Moves.one (Move.seq _))

theorem State.cueReaderOn_moves (s : State) : Moves s s.cueReaderOn :=
  (Moves.one (Move.cueReader s.store.cueReq (s.store.cuePos.map fun j => j + 1)))

theorem State.decodeOne_moves (s : State) : Moves s s.decodeOne := by
  unfold State.decodeOne
  split
  · exact .refl
  · exact .refl
  · refine .ite (fun _ => State.blockUnreadable_moves s) fun _ => .ite (fun _ => (Moves.one (Move.seq _))) fun _ => ?_
    exact .trans (Moves.one (Move.seq { s.seq with current := some _ })) (State.checkRecord_moves _ _)

theorem State.takeCueBlock_moves (payload : List Byte) (s : State) : Moves s (s.takeCueBlock payload) := by
  have next (b : List Byte) (u : State) : Moves u { u with seq := { u.seq with current := some b } } :=
    (Moves.one (Move.seq _))
  unfold State.takeCueBlock
  split
  · exact next _ _
  dsimp only
  refine .ite (fun _ => State.blockUnreadable_moves s) fun _ => ?_
  split
  · exact next _ _
  · refine .ite (fun _ => .trans ?_ (next _ _)) fun _ => .trans (State.discardPartial_moves _) (next _ _)
    exact .trans (Moves.one (Move.seq { s.seq with partialRec := none })) (State.checkRecord_moves _ _)

theorem State.endOfStream_moves (s : State) : Moves s s.endOfStream :=
  (State.discardPartial_moves s).trans (Moves.one (Move.seq _))

theorem State.endScan_moves (s : State) : Moves s s.endScan :=
  .trans (.trans (.trans (Moves.one (Move.seq { s.seq with catchUp := false }))
    (Moves.one (Move.jet { s.jet with view := none }))) (State.askPass_moves _)) (State.retake_moves _)

theorem State.applyCue_moves (c : CueRec) (s : State) : Moves s (s.applyCue c) :=
  (State.predict_moves c s).trans (State.handOn_moves _ _ _)

theorem readOnN_moves (n : Nat) (s : State) : Moves s (readOnN n s) := by
  induction n generalizing s with
  | zero => exact .refl
  | succ n ih =>
    unfold readOnN
    refine .ite (fun _ => .refl) fun _ => ?_
    split
    · exact .ite (fun _ => .refl) fun _ => .ite
        (fun _ => ((State.unstage_moves s).trans (State.applyCue_moves _ _)).trans (ih _))
        fun _ => (State.endScan_moves s).trans (ih _)
    · split
      · exact (State.decodeOne_moves s).trans (ih _)
      · refine .ite (fun _ => .ite (fun _ => State.endScan_moves s) fun _ => .refl) fun _ => .ite (fun _ => .refl) fun _ => ?_
        split
        · refine .ite (fun _ => (State.endOfStream_moves s).trans (ih _)) fun _ => .ite (fun _ => ?_) fun _ => ?_
          · exact .trans (((Moves.one (Move.raise _ _ _)).trans (State.cueBlockLost_moves _)).trans (State.cueReaderOn_moves _)) (ih _)
          · exact (Moves.one (Move.cueReader (some _) s.store.cuePos))
        · exact .refl

theorem State.readOn_moves (s : State) : Moves s s.readOn := readOnN_moves _ _

theorem State.applyEntry_moves (e : QueueEntry) (s : State) : Moves s (s.applyEntry e) :=
  .ite (fun _ => State.applyCue_moves _ _) fun _ => .refl

theorem State.startScan_moves (s : State) : Moves s s.startScan := by
  unfold State.startScan
  refine .ite (fun _ => .refl) fun _ => ?_
  refine .trans (.trans ?_ (Moves.foldl (fun s e => State.applyEntry_moves e s) _ _)) (State.readOn_moves _)
  exact .trans (Moves.one (Move.jet { s.jet with view := some { table := s.seq.table, jets := queuedJets s.seq.queue } }))
    (Moves.one (Move.seq _ (by exact List.filter_sublist)))

theorem State.stepReported_moves (a : Int) (s : State) : Moves s (s.stepReported a) :=
  .ite (fun _ => .refl) fun _ => .ite (fun _ => State.startScan_moves s) fun _ =>
    .ite (fun _ => (State.issueDue_moves s).trans (State.readOn_moves _)) fun _ => .refl

/-! ### Entries that begin or resume a show run -/

theorem State.enterCountdown_moves {s : State} (h : s.ctl.state = .armed) : Moves s s.enterCountdown :=
  ((Moves.one (Move.runEntry .countdown (.inl rfl) h)).trans (State.readOn_moves _)).trans (State.checkZero_moves _)

theorem State.joinRunning_moves {s : State} (h : s.ctl.state = .armed) : Moves s s.joinRunning :=
  (((Moves.one (Move.runEntry .running (.inr rfl) h)).trans (State.checkSync_moves _)).trans (State.startScan_moves _)).trans
    (State.checkTimeLimit_moves _)

theorem State.resumeShow_moves {s : State} (h : s.ctl.state = .hold) : Moves s s.resumeShow :=
  ((State.enterRunning_moves (.inr h)).trans (State.issueDue_moves _)).trans (State.readOn_moves _)

theorem State.armedEntry_ctl (s : State) : s.armedEntry.ctl =
    { s.ctl with state := .armed, followHold := 0, followRunning := 0, followEnding := 0, held := none } := by
  simp [State.armedEntry]

theorem State.without_held {s : State} (h : s.ctl.held = none) : { s with ctl := { s.ctl with held := none } } = s := by
  rw [← h]

/-- The entry to ARMED, with what a held START brings from there (R7, R9). -/
theorem State.enterArmed_eq (s : State) : s.enterArmed =
    match s.ctl.held with
    | none => s.armedEntry
    | some hs =>
      let t := s.armedEntry.startTime hs.delay hs.moment
      let s2 := s.armedEntry.setShowTime t
      if t < 0 then s2.enterCountdown else s2.joinRunning := by
  obtain ⟨u, hu⟩ : ∃ u, u = ((s.changeState .armed).resetFixtures).workGoals := ⟨_, rfl⟩
  have held : u.ctl.held = s.ctl.held := by simp [hu]
  unfold State.enterArmed State.armedEntry
  rw [← hu, ← held]
  cases h : u.ctl.held with
  | none => simp only [h, State.without_held h]
  | some hs => simp only [h]; rfl

theorem State.setShowTime_ctl (t : Int) (s : State) : (s.setShowTime t).ctl = s.ctl := by simp

theorem State.enterArmed_moves {s : State} (h : s.ctl.state = .loading) (e : s.store.entry.isSome = true) :
    Moves s s.enterArmed := by
  rw [State.enterArmed_eq]
  split
  · exact (Moves.one (Move.armedEntry h e))
  · next hs _ =>
    have armed (t : Int) : (s.armedEntry.setShowTime t).ctl.state = .armed := by
      rw [State.setShowTime_ctl, State.armedEntry_ctl]
    refine .trans ((Moves.one (Move.armedEntry h e)).trans (State.setShowTime_moves (s.armedEntry.startTime hs.delay hs.moment) _)) ?_
    exact .ite (fun _ => State.enterCountdown_moves (armed _)) fun _ => State.joinRunning_moves (armed _)

theorem State.prefillDone_entry {s : State} (h : s.prefillDone = true) : s.store.entry.isSome = true :=
  (Bool.and_eq_true_iff.mp h).1

theorem State.checkArmed_moves (s : State) : Moves s s.checkArmed :=
  .ite (fun ⟨loading, filled, _⟩ => State.enterArmed_moves loading (State.prefillDone_entry filled)) fun _ => .refl

theorem State.grant_moves (s : State) : Moves s s.grant := by
  unfold State.grant
  split
  · exact (Moves.one (Move.port _))
  · exact .refl

theorem State.settle_moves (s : State) : Moves s s.settle :=
  ((State.checkArmed_moves s).trans (State.checkEnding_moves _)).trans (State.grant_moves _)

theorem State.follow_moves (s : State) : Moves s s.follow := by
  unfold State.follow
  refine .ite (fun _ => .refl) fun h => ?_
  have underWay : s.ctl.state.underWay = true := by simpa using h
  have counted (a b c : Nat) := Moves.one (Move.follow a b c underWay)
  exact .ite (fun h => (counted _ _ _).trans (Moves.one (Move.enterHold h.1))) fun _ =>
    .ite (fun h => (counted _ _ _).trans (State.resumeShow_moves h.1)) fun _ =>
    .ite (fun _ => (counted _ _ _).trans (State.enterEnding_moves _ underWay)) fun _ => counted _ _ _

theorem State.noteStep_moves (a : Int) (s : State) : Moves s (s.noteStep a) := by
  refine .trans (.trans (Moves.one (Move.raise .clockStep none none)) ?_) (State.stepReported_moves _ _)
  exact Moves.one (Move.clock _)

theorem State.agree_moves (s : State) : Moves s s.agree := by
  have adjusted (t a : Int) :
      Moves s (State.shiftOffsets a { s with clock := { s.clock with showTime := clampShowTime t } }) :=
    (Moves.one (Move.showTime _)).trans (Moves.one (Move.peers _))
  refine .trans (.trans ?_ (State.checkZero_moves _)) (State.checkTimeLimit_moves _)
  exact .ite (fun _ => (adjusted _ _).trans (State.noteStep_moves _ _)) fun _ => adjusted _ _

theorem State.paceExpiry_moves (s : State) : Moves s s.paceExpiry := by
  unfold State.paceExpiry
  refine .trans (Moves.one Move.queuePace) ?_
  dsimp only
  split
  · exact .trans (.trans (State.agree_moves _) (State.follow_moves _)) (State.settle_moves _)
  · exact .trans (.trans (State.agree_moves _) (State.follow_moves _)) (State.settle_moves _)
  · exact .trans (State.follow_moves _) (State.settle_moves _)
  · exact .refl

end Sys2Proof.Machine
end

