-- ==== Sys2Proof/Proofs/MovesOfCommands.lean ====
section
/-! PROOFS. Each command is a path of moves; one that comes over the line first brings the receiver out of its frame. -/

set_option Elab.async false

namespace Sys2Proof.Machine

/-! ### Start-up and the flash -/

theorem State.startAlerts_moves (cause : AlertCause) (s : State) : Moves s (s.startAlerts cause) := by
  refine .trans (Moves.one (Move.queueAlert cause)) ?_
  exact Moves.one (Move.marks s.ctl.lightRunOut s.ctl.audioRunOut _)

theorem State.assertInput_moves (cause : SafeCause) (alert : AlertCause) (s : State) :
    Moves s (s.assertInput cause alert) :=
  (Moves.one (Move.enterSafe cause)).trans (State.startAlerts_moves _ _)

/-- What follows the entry to CONFIG FAULT itself (R3). -/
theorem State.enterConfigFault_moves (reason : Nat) (s : State) :
    Moves { s with ctl := { s.ctl with phase := .done, state := .configFault, reason := reason } }
      (s.enterConfigFault reason) := by
  have timer (u : State) (t : Option Nat) : Moves u { u with clock := { u.clock with paceTimer := t } } :=
    Moves.one (Move.clock _)
  unfold State.enterConfigFault
  refine .opt fun _ => ?_
  exact .ite (fun _ => (timer _ _).trans (State.startAlerts_moves _ _)) fun _ =>
    .ite (fun _ => (timer _ _).trans (State.startAlerts_moves _ _)) fun _ => timer _ _

theorem State.configFails_moves {s : State} (reason : Nat) (v : Option VolumeHeader) (h : s.store.configReq.isSome) :
    Moves s (State.enterConfigFault reason { s with store := { s.store with configReq := none, header := v } }) :=
  (Moves.one (Move.configFails reason v h)).trans
    (State.enterConfigFault_moves reason { s with store := { s.store with configReq := none, header := v } })

theorem State.takeHeader_moves {s : State} (p : List Byte) (h : s.store.configReq.isSome) :
    Moves s (State.takeHeader p { s with store := { s.store with configReq := none } }) := by
  have fails (r : Nat) := State.configFails_moves r (some (readHeader p)) h
  refine .ite (fun _ => fails _) fun _ => .ite (fun _ => fails _) fun _ => .ite (fun _ => fails _) fun _ => .ite (fun _ => ?_) fun _ => ?_
  · exact .trans (Moves.one (Move.raise _ _ _)) (State.configFails_moves (s := s.raise _ _ _) 5 (some (readHeader p)) h)
  · exact Moves.one (Move.configAsked _ _ h)

theorem State.completeStartUp_moves {s : State} (g : StationConfig) (h : s.store.configReq.isSome) :
    Moves s (State.completeStartUp g { s with store := { s.store with configReq := none } }) := by
  unfold State.completeStartUp
  refine (Moves.one (Move.powerUp g h)).trans (.trans ?_ (.opt fun _ => State.assertInput_moves _ _ _))
  exact .opt fun _ => State.assertInput_moves _ _ _

theorem State.takeConfig_moves {s : State} (p : List Byte) (h : s.store.configReq.isSome) :
    Moves s (State.takeConfig p { s with store := { s.store with configReq := none } }) := by
  have taken (u : State) (hu : u.store.configReq.isSome) : Moves u
      (match (readConfig p).reason with
        | some r => State.enterConfigFault r { u with store := { u.store with configReq := none } }
        | none => State.completeStartUp (readConfig p) { u with store := { u.store with configReq := none } }) := by
    split
    · exact State.configFails_moves _ _ hu
    · exact State.completeStartUp_moves _ hu
  unfold State.takeConfig
  dsimp only
  by_cases m : (readConfig p).monitorOk = true
  · rw [if_pos m]
    exact (Moves.one (Move.adoptMonitor _)).trans (taken (s.adoptMonitor (readConfig p)) h)
  · rw [if_neg m]
    exact taken s h

theorem State.noShow_moves {s : State} (h : s.store.dirReq.isSome) :
    Moves s (State.noShow { s with store := { s.store with dirReq := none } }) :=
  (Moves.one (Move.raise .noShow none (some s.ctl.selected))).trans (Moves.one (Move.noShow h))

theorem State.noShow_moves_of_loading {s : State} (h : s.ctl.state = .loading) : Moves s s.noShow :=
  (Moves.one (Move.raise .noShow none (some s.ctl.selected))).trans (Moves.one (Move.enterIdle false (.inr (.inl h))))

theorem State.requestDirectory_moves {s : State} (step : DirStep) (block : Nat) (e : Expect) (h : s.store.dirReq.isSome) :
    Moves s (State.requestDirectory step block e { s with store := { s.store with dirReq := none } }) :=
  .ite (fun _ => (Moves.one (Move.raise _ _ _)).trans (State.noShow_moves (s := s.raise _ _ _) h)) fun _ =>
    Moves.one (Move.directory _ _ (.inl h))

theorem State.takeDirectory_moves {s : State} (i : Nat) (p : List Byte) (h : s.store.dirReq.isSome) :
    Moves s (State.takeDirectory i p { s with store := { s.store with dirReq := none } }) := by
  unfold State.takeDirectory
  split
  · exact State.requestDirectory_moves _ _ _ h
  · exact .ite (fun _ => State.requestDirectory_moves _ _ _ h) fun _ => State.noShow_moves h

theorem State.takeTable_moves {s : State} (p : List Byte) (h : s.store.dirReq.isSome) :
    Moves s (State.takeTable p { s with store := { s.store with dirReq := none } }) := by
  refine .trans ((Moves.one (Move.sectionFound (readSection p s.ctl.station)
    (if 0 < (readSection p s.ctl.station).frames ∧ s.store.config.zone then some 0 else none) h)).trans ?_) (State.fillAudio_moves _)
  exact Moves.one (Move.seq _)

theorem State.deliver_moves {s : State} {r : Reader} {q : Request} (p : List Byte) (h : s.store.request r = some q) :
    Moves s (State.deliver r q.expect.seq p { s with store := s.store.setRequest none r }) := by
  unfold State.deliver
  cases r with
  | config =>
    have asked : s.store.configReq.isSome := by rw [show s.store.configReq = some q from h]; rfl
    exact .ite (fun _ => State.takeHeader_moves p asked) fun _ => State.takeConfig_moves p asked
  | directory =>
    have asked : s.store.dirReq.isSome := by rw [show s.store.dirReq = some q from h]; rfl
    dsimp only
    split
    · exact State.takeDirectory_moves _ p asked
    · exact State.takeTable_moves p asked
  | cue =>
    refine .trans (.trans ?_ (State.takeCueBlock_moves p _)) (State.readOn_moves _)
    exact (Moves.one (Move.cueReader none s.store.cuePos)).trans (State.cueReaderOn_moves _)
  | audio =>
    exact (Moves.one (Move.audioBlock q _ (framesOf_read p _ _) h)).trans (State.fillAudio_moves _)

theorem State.lose_moves {s : State} {r : Reader} {q : Request} (h : s.store.request r = some q) :
    Moves s (State.lose r q.expect.seq { s with store := s.store.setRequest none r }) := by
  unfold State.lose
  refine (Moves.one (Move.raise .blockLost none (some r.object))).trans ?_
  cases r with
  | config =>
    have asked : s.store.configReq.isSome := by rw [show s.store.configReq = some q from h]; rfl
    exact State.configFails_moves (s := s.raise _ _ _) _ _ asked
  | directory =>
    have asked : s.store.dirReq.isSome := by rw [show s.store.dirReq = some q from h]; rfl
    exact State.noShow_moves (s := s.raise _ _ _) asked
  | cue =>
    refine .trans (.trans ?_ (State.cueBlockLost_moves _)) (State.readOn_moves _)
    exact (Moves.one (Move.cueReader none s.store.cuePos)).trans (State.cueReaderOn_moves _)
  | audio =>
    exact (Moves.one (Move.audioBlock (s := s.raise _ _ _) q _ (framesOf_silent _ _) h)).trans (State.fillAudio_moves _)

theorem State.judge_moves {s : State} {r : Reader} {q : Request} (data : List Byte) (h : s.store.request r = some q) :
    Moves s (s.judge r q data) := by
  refine .ite (fun _ => State.deliver_moves _ h) fun _ => .ite (fun _ => ?_) fun _ => State.lose_moves h
  exact (Moves.one (Move.reread r q _ h)).trans (Moves.one (Move.raise _ _ _))

theorem State.readCompletes_moves (data : List Byte) (s : State) : Moves s (s.readCompletes data) := by
  unfold State.readCompletes
  split
  · exact .refl
  · dsimp only
    refine (Moves.one (Move.port none)).trans (.ite (fun _ => .refl) fun _ => ?_)
    split
    · exact .refl
    · exact State.judge_moves data ‹_›

theorem State.inputAsserted_moves (cause : SafeCause) (alert : AlertCause) (s : State) :
    Moves s (s.inputAsserted cause alert) :=
  .ite (fun _ => (State.assertInput_moves _ _ _).trans (State.settle_moves _)) fun _ =>
    .opt fun _ => State.startAlerts_moves _ _

theorem State.alertExpiry_moves (s : State) : Moves s s.alertExpiry :=
  .ite (fun _ => State.startAlerts_moves _ _) fun _ => .ite (fun _ => State.startAlerts_moves _ _) fun _ =>
    Moves.one (Move.marks s.ctl.lightRunOut s.ctl.audioRunOut none)

/-! ### Frames of the line -/

/-- The receiver holds no frame in reception but one whose start mark it has just recognised. -/
def State.Fresh (s : State) : Prop := ∀ b, s.line.receiver = .receiving b → ∃ rx, b = RxBuffer.start rx

/-- A path on which the receiver leaves the frame in reception. -/
def Heard (s t : State) : Prop := ∃ u, Moves s u ∧ u.Fresh ∧ Moves u t

theorem Heard.moves {s t : State} (h : Heard s t) : Moves s t := by
  obtain ⟨u, su, _, ut⟩ := h
  exact su.trans ut

theorem Heard.after {s t u : State} (m : Moves s t) (h : Heard t u) : Heard s u := by
  obtain ⟨v, tv, fresh, vu⟩ := h
  exact ⟨v, m.trans tv, fresh, vu⟩

theorem Heard.then {s t u : State} (h : Heard s t) (m : Moves t u) : Heard s u := by
  obtain ⟨v, sv, fresh, vt⟩ := h
  exact ⟨v, sv, fresh, vt.trans m⟩

theorem State.frameDone_heard (c : Instr) {s : State} (h : s.hears = true) : Heard s (s.frameDone c) := by
  refine ⟨s.frameDone c, Moves.one (Move.receiver .hunting _ _ (State.hears_elim h).2 (by decide) ?_), ?_, .refl⟩
  · intro b hb; cases hb
  · intro b hb; cases hb

theorem State.deskCommand_heard (c : Instr) {take : State → State} {s : State} (m : ∀ u, Moves u (take u))
    (h : s.hears = true) : Heard s (s.deskCommand c take) := by
  rw [State.deskCommand, if_neg (by simp [h])]
  exact (State.frameDone_heard c h).then (.opt fun _ => m _)

theorem State.deskCommand_moves (c : Instr) {take : State → State} (m : ∀ u, Moves u (take u)) (s : State) :
    Moves s (s.deskCommand c take) := by
  cases h : s.hears
  · rw [State.deskCommand, if_pos h]
    exact .refl
  · exact (State.deskCommand_heard c m h).moves

theorem State.frameFails_heard (c : Instr) (why : RxFailure) {s : State} (h : s.hears = true) :
    Heard s (s.frameFails c why) := by
  have marked : ∀ b, receiverAfter why = .receiving b → ∃ rx, b = RxBuffer.start rx := by
    intro b hb
    cases why <;> cases hb
    exact ⟨_, rfl⟩
  have on : receiverAfter why ≠ .off := by cases why <;> exact fun k => nomatch k
  refine ⟨{ s with line := { s.line with receiver := receiverAfter why, quietSince := quietAfter (s.lastRise c) why } },
    Moves.one (Move.receiver _ _ _ (State.hears_elim h).2 on marked), marked, ?_⟩
  exact .ite (fun _ => .refl) fun _ => Moves.one (Move.raise _ _ _)

theorem State.duplicateHeard_moves (s : State) : Moves s s.duplicateHeard := by
  have noted := Moves.one (s := s) (Move.duplicate true (some (s.localTimer + 2000000)))
  exact .ite (fun _ => noted) fun _ => noted.trans (Moves.one (Move.raise _ _ _))

theorem State.stationFrame_heard (c : Instr) (sender : Byte) {take : State → State} {s : State} (m : ∀ u, Moves u (take u))
    (h : s.hears = true) : Heard s (s.stationFrame c sender take) := by
  rw [State.stationFrame, if_neg (by simp [h])]
  exact (State.frameDone_heard c h).then
    (.ite (fun _ => State.duplicateHeard_moves _) fun _ => .opt fun _ => m _)

theorem State.lateJoin_moves (k : Peer) (p : PacePayload) (rx : Rx) (s : State) : Moves s (s.lateJoin k p rx) := by
  refine .opt fun h => ?_
  have armed : (s.setShowTime (s.joinTime p rx)).ctl.state = .armed := by
    rw [State.setShowTime_ctl]
    simp only [State.joins, Bool.and_eq_true, beq_iff_eq] at h
    exact h.1.1.1
  exact (State.setShowTime_moves _ _).trans
    (.ite (fun _ => State.enterCountdown_moves armed) fun _ => State.joinRunning_moves armed)

theorem State.takePace_moves (k : Peer) (p : PacePayload) (rx : Rx) (s : State) : Moves s (s.takePace k p rx) :=
  ((State.hearPace_moves _ _ _ _).trans (State.lateJoin_moves _ _ _ _)).trans (State.settle_moves _)

theorem State.takeAlert_moves (k : Peer) (rx : Rx) (s : State) : Moves s (s.takeAlert k rx) :=
  ((Moves.one (Move.peers _)).trans (Moves.one (Move.enterSafe .peerAlert))).trans (State.settle_moves _)

/-! ### Desk commands -/

theorem State.loadingEntry_keeps (n : Nat) (s : State) :
    (s.loadingEntry n).ctl =
      { s.ctl with state := .loading, followHold := 0, followRunning := 0, followEnding := 0, selected := n, held := none } ∧
    (s.loadingEntry n).store.entry = none ∧ (s.loadingEntry n).store.audioReq = none ∧ (s.loadingEntry n).music.fifo = [] := by
  refine ⟨by simp [State.loadingEntry], ?_, ?_, ?_⟩ <;> simp [State.loadingEntry, State.flushMusic, Music.flush]

theorem State.takeSelect_eq (n : Nat) (s : State) :
    s.takeSelect n = ((s.loadingEntry n).homeHeads.beginDirectory).settle := rfl

theorem State.beginDirectory_moves {s : State} (loading : s.ctl.state = .loading) (entry : s.store.entry = none)
    (fifo : s.music.fifo = []) (audio : s.store.audioReq = none) : Moves s s.beginDirectory := by
  refine .ite (fun _ => ?_) fun _ => Moves.one (Move.directory _ _ (.inr ⟨loading, entry, fifo, audio⟩))
  exact (Moves.one (Move.raise _ _ _)).trans (State.noShow_moves_of_loading loading)

theorem State.takeSelect_moves {n : Nat} {s : State} (hn : n ≠ 0) (h : s.selectable = true) : Moves s (s.takeSelect n) := by
  obtain ⟨ctl, entry, audio, fifo⟩ := State.loadingEntry_keeps n s
  rw [State.takeSelect_eq]
  refine .trans (((Moves.one (Move.loadingEntry n hn h)).trans (State.homeHeads_moves _)).trans ?_) (State.settle_moves _)
  exact State.beginDirectory_moves (by simp [ctl]) (by simp [entry]) (by simp [fifo]) (by simp [audio])

theorem State.ignore_moves (code : Nat) (s : State) : Moves s (s.ignore code) := Moves.one (Move.raise _ _ _)

theorem State.noteDelay_moves (delay : Nat) (s : State) : Moves s (s.noteDelay delay) :=
  .ite (fun _ => .refl) fun _ => Moves.one (Move.raise _ _ _)

theorem State.takeStart_moves (n delay moment : Nat) (s : State) : Moves s (s.takeStart n delay moment) := by
  have ctl : (s.noteDelay delay).ctl = s.ctl := by simp
  refine .ite (fun h => ?_) fun _ => .ite (fun h => ?_) fun _ => (State.noteDelay_moves _ _).trans (State.ignore_moves _ _)
  · refine .trans (.trans ((State.noteDelay_moves delay s).trans (State.setShowTime_moves
      (State.startTime (clampDelay delay) moment (s.noteDelay delay)) _)) ?_) (State.settle_moves _)
    exact State.enterCountdown_moves (by rw [State.setShowTime_ctl, ctl]; exact h.2.2)
  · exact (State.noteDelay_moves delay s).trans (Moves.one (Move.holdStart _ (by rw [ctl]; exact h.2.2)))

theorem State.takeStop_moves (s : State) : Moves s s.takeStop := by
  unfold State.takeStop
  split
  case h_6 => exact State.ignore_moves _ _
  all_goals rename_i h
  all_goals refine .trans ?_ (State.settle_moves _)
  · exact State.enterEnding_moves _ (by rw [h]; rfl)
  · exact State.enterEnding_moves _ (by rw [h]; rfl)
  · exact State.enterEnding_moves _ (by rw [h]; rfl)
  · exact Moves.one (Move.enterIdle false (.inr (.inl h)))
  · exact Moves.one (Move.enterIdle false (.inr (.inr (.inl h))))

theorem State.clearable_safe {s : State} (h : s.clearable = true) : s.ctl.state = .safe := by
  simp only [State.clearable, Bool.and_eq_true, beq_iff_eq] at h
  exact h.1.1.1

theorem State.softRestart_moves {s : State} (h : s.ctl.state = .idle ∨ s.ctl.state = .armed ∨ s.ctl.state = .safe) :
    Moves s s.softRestart := by
  refine .ite (fun _ => ?_) fun hs => ?_
  · refine .trans (.trans (.trans ?_ (Moves.one Move.unload)) (State.unhomeHeads_moves _)) (State.askPass_moves _)
    exact (State.clearSequencer_moves s).trans (Moves.one (Move.seq _))
  · refine (State.unhomeHeads_moves s).trans (Moves.one (Move.enterIdle true ?_))
    simp only [State.unhomeHeads_keeps]
    tauto

theorem State.takeRestart_moves (s : State) : Moves s s.takeRestart := by
  unfold State.takeRestart
  split
  case h_4 => exact State.ignore_moves _ _
  all_goals exact (State.softRestart_moves (by simp [*])).trans (State.settle_moves _)

/-! ### The commands that come over the line -/

/-- The command is what a frame, or the failure of one, stands for (R24, R28). -/
def fromLine : Instr → Bool
  | .select _ _ | .start _ _ _ | .hold | .resume _ | .stop | .clear _ | .restart _ | .query _ _ | .paceReceived _ _ _
  | .alertReceived _ _ _ | .reportReceived _ | .frameError _ => true
  | _ => false

/-- What a received frame is read as is such a command. -/
theorem fromLine_decodeFrame (a : Arrival) (bs : List Byte) : fromLine (decodeFrame a bs) = true := by
  unfold decodeFrame frameCommand
  split
  · rfl
  · dsimp only
    split <;> rfl

theorem exec_select_take_moves (n : Nat) (u : State) :
    Moves u (if n ≠ 0 ∧ u.selectable then u.takeSelect n else u.ignore 16) :=
  .ite (fun h => State.takeSelect_moves h.1 h.2) fun _ => State.ignore_moves _ _

theorem exec_hold_take_moves (u : State) : Moves u (if u.ctl.state = .running then u.enterHold.settle else u.ignore 18) :=
  .ite (fun h => (Moves.one (Move.enterHold h)).trans (State.settle_moves _)) fun _ => State.ignore_moves _ _

theorem exec_resume_take_moves (u : State) : Moves u (if u.ctl.state = .hold then u.resumeShow.settle else u.ignore 19) :=
  .ite (fun h => (State.resumeShow_moves h).trans (State.settle_moves _)) fun _ => State.ignore_moves _ _

theorem exec_clear_take_moves (u : State) :
    Moves u (if u.clearable then (u.emptySafe.enterIdle false).settle else u.ignore 21) :=
  .ite (fun h => (Moves.one (Move.clearSafe (State.clearable_safe h))).trans (State.settle_moves _)) fun _ =>
    State.ignore_moves _ _

theorem exec_restart_take_moves (target : Byte) (u : State) :
    Moves u (if target.toNat = u.ctl.station ∨ target.toNat = 255 then u.takeRestart else u) :=
  .opt fun _ => State.takeRestart_moves _

theorem exec_query_take_moves (target clearFlag : Byte) (u : State) :
    Moves u
      (if target.toNat = 255 then u.ignore 23
      else if target.toNat ≠ u.ctl.station then u
      else if u.line.reportSlot.isSome then u.ignore 23
      else u.takeQuery (clearFlag.toNat ≠ 0)) :=
  .ite (fun _ => State.ignore_moves _ _) fun _ => .ite (fun _ => .refl) fun _ => .ite (fun _ => State.ignore_moves _ _)
    fun h => Moves.one (Move.takeQuery _ (by simpa using h))

/-- A command of the line that the receiver hears takes it out of its frame first. -/
theorem exec_heard {c : Instr} {s : State} (hc : fromLine c = true) (h : s.hears = true) :
    ∃ t, exec c s = .next t ∧ Heard s t := by
  have hears (i : Inputs) : ({ s with inputs := i } : State).hears = true := h
  have pins (i : Inputs) (e : i.lowlvl = s.inputs.lowlvl) : Moves s { s with inputs := i } := Moves.one (Move.inputs i e)
  cases c with
  | select n hhom =>
    exact ⟨_, rfl, .after (pins { s.inputs with hhom := hhom } rfl) (State.deskCommand_heard _ (exec_select_take_moves n.toNat) (hears _))⟩
  | start n delay rx => exact ⟨_, rfl, State.deskCommand_heard _ (State.takeStart_moves _ _ _) h⟩
  | hold => exact ⟨_, rfl, State.deskCommand_heard _ exec_hold_take_moves h⟩
  | resume pflt => exact ⟨_, rfl, .after (pins { s.inputs with pflt := pflt } rfl) (State.deskCommand_heard _ exec_resume_take_moves (hears _))⟩
  | stop => exact ⟨_, rfl, State.deskCommand_heard _ State.takeStop_moves h⟩
  | clear estop => exact ⟨_, rfl, .after (pins { s.inputs with estop := estop } rfl) (State.deskCommand_heard _ exec_clear_take_moves (hears _))⟩
  | restart target => exact ⟨_, rfl, State.deskCommand_heard (.restart target) (exec_restart_take_moves target) h⟩
  | query target clearFlag => exact ⟨_, rfl, State.deskCommand_heard _ (exec_query_take_moves target clearFlag) h⟩
  | paceReceived sender p rx =>
    refine ⟨_, rfl, ?_⟩
    rw [if_neg (by simp [h])]
    split
    · exact State.frameFails_heard _ _ h
    split
    · exact State.frameFails_heard _ _ h
    split
    · exact State.frameFails_heard _ _ h
    · exact State.stationFrame_heard _ _ (State.takePace_moves _ _ _) h
  | alertReceived sender cause rx =>
    refine ⟨_, rfl, ?_⟩
    rw [if_neg (by simp [h])]
    split
    · exact State.frameFails_heard _ _ h
    split
    · exact State.frameFails_heard _ _ h
    · exact State.stationFrame_heard _ _ (State.takeAlert_moves _ _) h
  | reportReceived sender =>
    refine ⟨_, rfl, ?_⟩
    rw [if_neg (by simp [h])]
    split
    · exact State.frameFails_heard _ _ h
    split
    · exact State.frameFails_heard _ _ h
    · exact State.stationFrame_heard _ _ (fun _ => .refl) h
  | frameError why =>
    refine ⟨_, rfl, ?_⟩
    rw [if_neg (by simp [h])]
    exact State.frameFails_heard _ _ h
  | _ => cases hc

theorem State.deskCommand_unheard (c : Instr) (take : State → State) {s : State} (h : s.hears = false) :
    s.deskCommand c take = s := if_pos h

/-- A command of the line that the receiver does not hear changes the levels it carries at most. -/
theorem exec_unheard {c : Instr} {s : State} (hc : fromLine c = true) (h : s.hears = false) :
    ∃ i : Inputs, exec c s = .next { s with inputs := i } ∧ i.lowlvl = s.inputs.lowlvl ∧ i.lrx = s.inputs.lrx := by
  have still (take : State → State) (e : take s = s) : Host.Outcome.next (φ := Fault) (ρ := Refusal) (take s) =
      .next { s with inputs := s.inputs } := by rw [e]
  have desk (c : Instr) (take : State → State) (i : Inputs) :
      Host.Outcome.next (φ := Fault) (ρ := Refusal) (State.deskCommand c take { s with inputs := i }) =
        .next { s with inputs := i } := by
    rw [State.deskCommand_unheard c take (s := { s with inputs := i }) h]
  cases c with
  | select n hhom => exact ⟨{ s.inputs with hhom := hhom }, desk _ _ _, rfl, rfl⟩
  | start n delay rx => exact ⟨s.inputs, still _ (State.deskCommand_unheard _ _ h), rfl, rfl⟩
  | hold => exact ⟨s.inputs, still _ (State.deskCommand_unheard _ _ h), rfl, rfl⟩
  | resume pflt => exact ⟨{ s.inputs with pflt := pflt }, desk _ _ _, rfl, rfl⟩
  | stop => exact ⟨s.inputs, still _ (State.deskCommand_unheard _ _ h), rfl, rfl⟩
  | clear estop => exact ⟨{ s.inputs with estop := estop }, desk _ _ _, rfl, rfl⟩
  | restart target => exact ⟨s.inputs, still _ (State.deskCommand_unheard _ _ h), rfl, rfl⟩
  | query target clearFlag => exact ⟨s.inputs, still _ (State.deskCommand_unheard _ _ h), rfl, rfl⟩
  | paceReceived sender p rx => exact ⟨s.inputs, congrArg _ (if_pos h), rfl, rfl⟩
  | alertReceived sender cause rx => exact ⟨s.inputs, congrArg _ (if_pos h), rfl, rfl⟩
  | reportReceived sender => exact ⟨s.inputs, congrArg _ (if_pos h), rfl, rfl⟩
  | frameError why => exact ⟨s.inputs, congrArg _ (if_pos h), rfl, rfl⟩
  | _ => cases hc

end Sys2Proof.Machine
end

