-- ==== Sys2Proof/Proofs/MovesOfSteps.lean ====
section
/-! PROOFS. Every command is a path of moves, and what every move and every bit time keep, every step keeps. -/

set_option Elab.async false

namespace Sys2Proof.Machine

/-! ### The commands of timers, pins and flash, block by block -/

/-- `c` completes by a path of moves. -/
def Completes (c : Instr) (s : State) : Prop := ∃ t, exec c s = .next t ∧ Moves s t

theorem resetRelease_completes (stn : BitVec 5) (rehearse : Bool) (s : State) : Completes (.resetRelease stn rehearse) s :=
  ⟨_, rfl, .opt fun h => Moves.one (Move.release _ _ h)⟩

theorem settlingExpiry_completes (s : State) : Completes .settlingExpiry s := by
  refine ⟨_, rfl, ?_⟩
  split
  · exact .refl
  · next t0 h =>
    have timer : (s.passTo t0).ctl.settleTimer.isSome := by simp [h]
    refine (State.passTo_moves t0 s).trans (.ite (fun _ => ?_) fun _ => ?_)
    · exact (Moves.one (Move.settled ⟨0, expectHeader, 0⟩ timer)).trans (State.grant_moves _)
    · exact (Moves.one (Move.badNumber timer)).trans (State.enterConfigFault_moves 0
        { s.passTo t0 with ctl := { (s.passTo t0).ctl with settleTimer := none } })

theorem peerLapse_completes (k : Peer) (s : State) : Completes (.peerLapse k) s :=
  ⟨_, rfl, .opt fun _ => (State.passTo_moves _ _).trans (State.lapsePeer_moves _ _)⟩

theorem peerLost_completes (k : Peer) (s : State) : Completes (.peerLost k) s :=
  ⟨_, rfl, .opt fun _ => (State.passTo_moves _ _).trans (State.losePeer_moves _ _)⟩

theorem duplicateTimerExpiry_completes (s : State) : Completes .duplicateTimerExpiry s := by
  refine ⟨_, rfl, ?_⟩
  split
  · exact .refl
  · next t _ =>
    exact (State.passTo_moves t s).trans (Moves.one (Move.duplicate _ _))

theorem State.attemptAfter_moves (gap : Nat) {s : State} (h : s.line.tx = .deferring ∨ s.line.tx = .backingOff) :
    Moves s (s.attemptAfter gap) := by
  unfold State.attemptAfter
  split
  · exact .refl
  · next q _ => exact (State.passTo_moves (q + gap) s).trans (Moves.one (Move.beginAttempt (by simpa using h)))

theorem deferGapEnd_completes (s : State) : Completes .deferGapEnd s :=
  ⟨_, rfl, .opt fun h => State.attemptAfter_moves _ (.inl h)⟩

theorem backoffEnd_completes (s : State) : Completes .backoffEnd s :=
  ⟨_, rfl, .opt fun h => State.attemptAfter_moves _ (.inr h)⟩

theorem collision_completes (s : State) : Completes .collision s := by
  refine ⟨_, rfl, ?_⟩
  split
  · next kind bytes since h => exact Moves.one (Move.collide kind (by simp [Line.sendingKind, h]))
  all_goals exact .refl

theorem frameSent_completes (s : State) : Completes .frameSent s := by
  refine ⟨_, rfl, ?_⟩
  split
  · next kind bytes since h =>
    exact (State.passTo_moves _ _).trans (Moves.one (Move.sent kind _ (by simp [Line.sendingKind, h])))
  all_goals exact .refl

theorem paceTimerExpiry_completes (pflt : BitVec 4) (s : State) : Completes (.paceTimerExpiry pflt) s := by
  refine ⟨_, rfl, (Moves.one (Move.inputs { s.inputs with pflt := pflt })).trans ?_⟩
  split
  · exact .refl
  · next t _ =>
    refine .trans ((State.passTo_moves t _).trans ?_) (State.paceExpiry_moves _)
    exact Moves.one (Move.clock _)

theorem stepRecentTimerExpiry_completes (s : State) : Completes .stepRecentTimerExpiry s := by
  refine ⟨_, rfl, ?_⟩
  split
  · exact .refl
  · next t _ =>
    exact (State.passTo_moves t s).trans (Moves.one (Move.clock _))

theorem solitudeTimerExpiry_completes (s : State) : Completes .solitudeTimerExpiry s := by
  refine ⟨_, rfl, ?_⟩
  split
  · exact .refl
  · next t h =>
    have timer : (s.passTo t).clock.solitude.isSome := by
      unfold State.passTo State.passTime
      split <;> simp [h]
    exact (State.passTo_moves t s).trans (Moves.one (Move.solitudeEnds timer))

theorem showTimeZeroCrossing_completes (s : State) : Completes .showTimeZeroCrossing s :=
  ⟨_, rfl, .opt fun _ => ((State.passShowTo_moves _ _).trans (State.checkZero_moves _)).trans (State.settle_moves _)⟩

theorem timeLimit_completes (s : State) : Completes .timeLimit s :=
  ⟨_, rfl, .opt fun _ => ((State.passShowTo_moves _ _).trans (State.checkTimeLimit_moves _)).trans (State.settle_moves _)⟩

theorem estopAsserted_completes (s : State) : Completes .estopAsserted s :=
  ⟨_, rfl, (Moves.one (Move.inputs { s.inputs with estop := true })).trans (State.inputAsserted_moves _ _ _)⟩

/-- The gating reads nothing of the line, of the alert timer or of the flash port. -/
theorem State.regate_startAlerts (cause : AlertCause) (s : State) :
    (s.startAlerts cause).regate = (s.regate).startAlerts cause := by
  have operating : (s.startAlerts cause).operating = s.operating := rfl
  simp only [State.regate, operating]
  split <;> rfl

theorem State.grant_eq (s : State) :
    s.grant = { s with store := { s.store with port := s.grant.store.port } } := by
  unfold State.grant
  split <;> rfl

theorem State.regate_grant (s : State) : s.grant.regate = s.regate.grant := by
  have port : s.regate.grant.store.port = s.grant.store.port := by
    have store : s.regate.store = s.store := by simp
    have choice : s.regate.grantChoice = s.grantChoice := by simp [State.grantChoice]
    unfold State.grant
    rw [store, choice]
    split
    · rfl
    · exact congrArg Store.port store
  have gated (p : Option PortRead) : State.regate { s with store := { s.store with port := p } } =
      { s.regate with store := { s.regate.store with port := p } } := by
    unfold State.regate
    split
    · next h => rw [if_pos (show s.operating = true from h)]; rfl
    · next h => rw [if_neg (show ¬ s.operating = true from h)]
  rw [State.grant_eq, gated, State.grant_eq s.regate, port]

theorem State.settle_eq_grant {s : State} (hl : s.ctl.state ≠ .loading) (he : s.ctl.state ≠ .ending) :
    s.settle = s.grant := by
  have armed : s.checkArmed = s := if_neg fun h => hl h.1
  have ending : s.checkEnding = s := if_neg fun h => he h.1
  rw [State.settle, armed, ending]

theorem lowLevelAsserted_completes (s : State) : Completes .lowLevelAsserted s := by
  refine ⟨_, rfl, ?_⟩
  obtain ⟨u, hu⟩ : ∃ u : State, u = { s with inputs := { s.inputs with lowlvl := true } } := ⟨_, rfl⟩
  have operating : u.operating = s.operating := by rw [hu]; rfl
  rw [← hu]
  cases op : s.operating
  · have seen : Moves s u.regate := hu ▸ Moves.one (Move.lowLevelSeen true)
    have idle (v : State) (h : v.operating = false) : v.regate = v := if_neg (by simp [h])
    have alerts : u.inputAsserted .lowLevel .lowLevel =
        if u.ctl.state = .configFault ∧ u.validNumber then u.startAlerts .lowLevel else u := if_neg (by simp [operating, op])
    rw [alerts]
    split
    · rw [State.regate_startAlerts]
      exact seen.trans (State.startAlerts_moves _ _)
    · exact seen
  · have taken : u.inputAsserted .lowLevel .lowLevel = (u.assertInput .lowLevel .lowLevel).settle :=
      if_pos (by rw [operating, op])
    have safe : (u.assertInput .lowLevel .lowLevel).ctl.state = .safe := by
      rw [State.assertInput, State.startAlerts_state, State.enterSafe_state _ (by rw [operating, op])]
    rw [taken, State.settle_eq_grant (by rw [safe]; decide) (by rw [safe]; decide), State.regate_grant, State.assertInput,
      State.regate_startAlerts]
    refine .trans (.trans ?_ (State.startAlerts_moves _ _)) (State.grant_moves _)
    exact hu ▸ Moves.one (Move.lowLevel op)

theorem lowLevelReleased_completes (s : State) : Completes .lowLevelReleased s :=
  ⟨_, rfl, Moves.one (Move.lowLevelSeen false)⟩

theorem alertTimerExpiry_completes (estop : Bool) (s : State) : Completes (.alertTimerExpiry estop) s := by
  refine ⟨_, rfl, (Moves.one (Move.inputs { s.inputs with estop := estop })).trans ?_⟩
  split
  · exact .refl
  · next t _ =>
    exact (State.passTo_moves t _).trans (State.alertExpiry_moves _)

theorem flashReadComplete_completes (data : List Byte) (estop : Bool) (s : State) :
    Completes (.flashReadComplete data estop) s :=
  ⟨_, rfl, (Moves.one (Move.inputs { s.inputs with estop := estop })).trans
    (.ite (fun _ => .refl) fun _ => (State.readCompletes_moves _ _).trans (State.settle_moves _))⟩

theorem stagedRecordTaken_completes (s : State) : Completes .stagedRecordTaken s := by
  refine ⟨_, rfl, ?_⟩
  split
  · exact .refl
  · next st _ =>
    refine .opt fun _ => .trans ((State.passShowTo_moves (windowTime st.cue) s).trans ?_) (State.settle_moves _)
    exact .opt fun _ => (State.takeStaged_moves _).trans (State.readOn_moves _)

theorem cueIssue_completes (s : State) : Completes .cueIssue s := by
  refine ⟨_, rfl, ?_⟩
  split
  · exact .refl
  · next e _ _ =>
    refine .opt fun _ => .trans ((State.passShowTo_moves (e.issue * 1000) s).trans ?_) (State.settle_moves _)
    exact .opt fun _ => (State.issueHead_moves _).trans (State.readOn_moves _)

theorem State.pass_moves {s : State} (h : s.operating = true) : Moves s s.pass := by
  rw [State.pass_eq_checkEnding]
  exact (Moves.one (Move.pass h)).trans (State.checkEnding_moves _)

theorem jetComputationPass_completes (pflt : BitVec 4) (s : State) : Completes (.jetComputationPass pflt) s := by
  refine ⟨_, rfl, (Moves.one (Move.inputs { s.inputs with pflt := pflt })).trans (.opt fun h => ?_)⟩
  exact State.pass_moves h

theorem windEdge_completes (s : State) : Completes .windEdge s := by
  refine ⟨_, rfl, .opt fun _ => Moves.one (Move.jet _ ?_)⟩
  unfold State.windEdgeAt
  dsimp only
  split <;> rfl

theorem windCalmTimeout_completes (s : State) : Completes .windCalmTimeout s := by
  refine ⟨_, rfl, ?_⟩
  split
  · exact .refl
  · next t _ => exact (State.passTo_moves (t + 2000000) s).trans (Moves.one (Move.jet _))

theorem State.filterWind_moves (s : State) : Moves s s.filterWind := by
  unfold State.filterWind
  dsimp only
  have filtered (w d : Nat) := Moves.one (s := s) (Move.jet { s.jet with wf := w, derate := d })
  exact .ite (fun _ => filtered _ _) fun _ => (filtered _ _).trans (State.askPass_moves _)

theorem windFilterPeriod_completes (s : State) : Completes .windFilterPeriod s := by
  refine ⟨_, rfl, ?_⟩
  split
  · exact .refl
  · next t _ =>
    refine .trans ((State.passTo_moves t s).trans ?_) (State.filterWind_moves _)
    exact Moves.one (Move.jet _)

theorem pumpControlPeriod_completes (s : State) : Completes .pumpControlPeriod s := by
  refine ⟨_, rfl, ?_⟩
  split
  · exact .refl
  · next t _ =>
    exact .trans (((State.passTo_moves t s).trans (Moves.one (Move.pumpTimer _))).trans (Moves.one Move.pumpPeriod))
      (State.settle_moves _)

theorem State.passTo_pump (t : Nat) (s : State) : (s.passTo t).pump = s.pump := by simp

theorem State.trip_settle_moves (c : Channel) (cause : TripCause) {s : State} (h : (s.pump.pumps[c]).state.runs = true) :
    Moves s (s.trip c cause).settle :=
  (Moves.one (Move.trip c cause h)).trans (State.settle_moves _)

theorem startTimerExpiry_completes (c : Channel) (s : State) : Completes (.startTimerExpiry c) s := by
  refine ⟨_, rfl, ?_⟩
  split
  · exact .refl
  · next t _ =>
    refine .opt fun h => (State.passTo_moves t _).trans (State.trip_settle_moves c _ ?_)
    rw [State.passTo_pump, h]
    rfl

theorem driveFault_completes (c : Channel) (s : State) : Completes (.driveFault c) s := by
  refine ⟨_, rfl, .trans (Moves.one (Move.inputs { s.inputs with pflt := withBit s.inputs.pflt c.val true })) ?_⟩
  exact .opt fun h => State.trip_settle_moves c _ h.2.2.2

theorem holdOffExpiry_completes (c : Channel) (pflt : Bool) (s : State) : Completes (.holdOffExpiry c pflt) s := by
  refine ⟨_, rfl, .trans (Moves.one (Move.inputs { s.inputs with pflt := withBit s.inputs.pflt c.val pflt })) ?_⟩
  split
  · exact .refl
  · next t _ =>
    refine .opt fun h => .trans (.trans (State.passTo_moves t _) (.trans (Moves.one (Move.endHoldOff c ?_)) ?_))
      (State.settle_moves _)
    · rw [State.passTo_pump]
      exact h.1
    · refine Moves.of_eq ?_
      unfold State.endHoldOff
      rw [State.passTo_pump]

theorem State.setPump_moves {s : State} {c : Channel} {p : PumpRec} (hv : p.valves = (s.pump.pumps[c]).valves)
    (hs : p.state = (s.pump.pumps[c]).state) (ho : p.output = (s.pump.pumps[c]).output) : Moves s (s.setPump c p) :=
  Moves.one (Move.pumpRecord c p hv (by rw [hs]) fun h => ⟨hs.trans h, ho⟩)

theorem flowEdge_completes (c : Channel) (s : State) : Completes (.flowEdge c) s := by
  refine ⟨_, rfl, .opt fun _ => ?_⟩
  split <;> exact State.setPump_moves rfl rfl rfl

theorem flowSilenceTimeout_completes (c : Channel) (s : State) : Completes (.flowSilenceTimeout c) s := by
  refine ⟨_, rfl, ?_⟩
  split
  · exact .refl
  · next t _ =>
    refine (State.passTo_moves (t + 1000000) s).trans
      (State.setPump_moves (p := { s.pump.pumps[c] with flow := 0, flowEdge := none }) ?_ ?_ ?_) <;>
    rw [State.passTo_pump]

theorem valvePullInEnd_completes (z : Nozzle) (s : State) : Completes (.valvePullInEnd z) s := by
  refine ⟨_, rfl, ?_⟩
  split
  · next t _ =>
    refine (State.passTo_moves t s).trans (.trans (Moves.one (Move.drive z (.hold (s.passTo t).localTimer))) ?_)
    exact Moves.of_eq (by simp)
  · exact .refl
  · exact .refl

theorem State.nozzle_moves {s : State} {z : Nozzle} (st : NozzleState) (hn : st ≠ .out)
    (ho : (s.pump.nozzles[z]).state ≠ .out) (t : Nat) :
    Moves s ((s.passTo t).setNozzle z { s.pump.nozzles[z] with state := st }).regate :=
  (State.passTo_moves t s).trans (Moves.one (Move.nozzle z _ (by simp) hn (by simpa using ho)))

theorem nozzleClimbComplete_completes (z : Nozzle) (s : State) : Completes (.nozzleClimbComplete z) s := by
  refine ⟨_, rfl, ?_⟩
  split
  · exact .refl
  · exact .opt fun h => State.nozzle_moves .wet (by decide) (by rw [h]; decide) _

theorem nozzleFallComplete_completes (z : Nozzle) (s : State) : Completes (.nozzleFallComplete z) s :=
  ⟨_, rfl, .opt fun h => State.nozzle_moves .dry (by decide) (by rw [h]; decide) _⟩

theorem rehearsalStartingExpiry_completes (c : Channel) (s : State) : Completes (.rehearsalStartingExpiry c) s := by
  refine ⟨_, rfl, ?_⟩
  split
  · exact .refl
  · next t _ =>
    refine .opt fun h => (State.passTo_moves t _).trans (Moves.one (Move.pumpRecord c _ ?_ ?_ ?_))
    · rw [State.passTo_pump]
    · rw [State.passTo_pump, h]
      rfl
    · rw [State.passTo_pump, h]
      exact fun k => nomatch k

theorem homeIntervalExpiry_completes (h : Head) (hhom : Bool) (s : State) : Completes (.homeIntervalExpiry h hhom) s := by
  refine ⟨_, rfl, .trans (Moves.one (Move.inputs { s.inputs with hhom := withBit s.inputs.hhom h.val hhom })) ?_⟩
  split
  · exact .refl
  · next t _ =>
    refine .opt fun _ => (State.passTo_moves t _).trans ?_
    refine .ite (fun _ => ?_) fun _ => .ite (fun _ => ?_) fun _ => State.setHead_moves _ _ _
    · exact ((State.homeFound_moves _ _).trans (Moves.one Move.permits)).trans (State.settle_moves _)
    · exact ((Moves.one (Move.headFault _ _)).trans (Moves.one Move.permits)).trans (State.settle_moves _)

theorem stepIntervalExpiry_completes (h : Head) (s : State) : Completes (.stepIntervalExpiry h) s := by
  refine ⟨_, rfl, ?_⟩
  split
  · next t _ _ _ _ _ =>
    refine .opt fun _ => (State.passTo_moves t _).trans ?_
    refine .ite (fun _ => ?_) fun _ => .ite (fun _ => ?_) fun _ => ?_
    · exact (State.enterVerifying_moves _ _).trans (Moves.one Move.permits)
    · exact (State.issueStep_moves _ _ _).trans (Moves.one Move.permits)
    · exact (State.setHead_moves _ _ _).trans (Moves.one Move.permits)
  · exact .refl

theorem reversalPauseEnd_completes (h : Head) (s : State) : Completes (.reversalPauseEnd h) s := by
  refine ⟨_, rfl, ?_⟩
  split
  · exact .opt fun _ => ((State.passTo_moves _ _).trans (State.goTo_moves _ _ _)).trans (Moves.one Move.permits)
  · exact .refl

theorem settlePauseEnd_completes (h : Head) (hhom : Bool) (s : State) : Completes (.settlePauseEnd h hhom) s := by
  refine ⟨_, rfl, .trans (Moves.one (Move.inputs { s.inputs with hhom := withBit s.inputs.hhom h.val hhom })) ?_⟩
  split
  · exact .refl
  · next t _ =>
    refine .opt fun _ => (State.passTo_moves t _).trans (.trans (.trans ?_ (Moves.one Move.permits)) (State.settle_moves _))
    exact .ite (fun _ => State.verifyPass_moves _ _) fun _ => State.verifyFail_moves _ _ _

theorem encoderEdge_completes (h : Head) (a b : Bool) (s : State) : Completes (.encoderEdge h a b) s := by
  refine ⟨_, rfl, .trans (Moves.one (Move.inputs { s.inputs with
    hena := withBit s.inputs.hena h.val a, henb := withBit s.inputs.henb h.val b })) (.opt fun _ => ?_)⟩
  exact ((State.setHead_moves _ _ _).trans (State.stallCheck_moves _ _)).trans (Moves.one Move.permits)

theorem sweepLegBoundary_completes (h : Head) (s : State) : Completes (.sweepLegBoundary h) s := by
  refine ⟨_, rfl, ?_⟩
  split
  · exact .refl
  · next w _ =>
    have crossed : Moves s (if s.legIndex w.beats = w.leg then s.passShowTo (s.nextLegAt w) else s) :=
      .opt fun _ => State.passShowTo_moves _ _
    exact crossed.trans (.ite (fun _ => .refl) fun _ => (State.takeLeg_moves _ _).trans (Moves.one Move.permits))

theorem lightStep_completes (s : State) : Completes .lightStep s := by
  refine ⟨_, rfl, ?_⟩
  split
  · exact .refl
  · next t _ =>
    refine .trans (.trans ((State.passTo_moves t s).trans ?_) (State.lightStep_moves _)) (State.settle_moves _)
    exact Moves.one (Move.lamps _ rfl fun _ => rfl)

theorem lampPwmRollover_completes (s : State) : Completes .lampPwmRollover s := by
  refine ⟨_, rfl, ?_⟩
  split
  · exact .refl
  · next t _ =>
    exact (State.passTo_moves t s).trans (Moves.one (Move.lamps _ rfl fun _ => rfl))

theorem audioFrameSlot_completes (s : State) : Completes .audioFrameSlot s := by
  refine ⟨_, rfl, ?_⟩
  split
  · exact .refl
  · next t _ =>
    refine .trans (.trans (.trans ((State.passTo_moves (slotAt t (s.music.slots + 1)) s).trans ?_) (State.audioSlot_moves _)) (State.fillAudio_moves _))
      (State.settle_moves _)
    exact Moves.one (Move.music _)

theorem syncCheck_completes (s : State) : Completes .syncCheck s := by
  refine ⟨_, rfl, ?_⟩
  split
  · exact .refl
  · next t _ =>
    refine .trans (.trans ((State.passTo_moves t s).trans ?_) (State.checkSync_moves _)) (State.settle_moves _)
    exact Moves.one (Move.music _)

theorem gainStep_completes (s : State) : Completes .gainStep s := by
  refine ⟨_, rfl, ?_⟩
  split
  · exact .refl
  · next t _ =>
    refine .trans (.trans ((State.passTo_moves t s).trans ?_) (State.gainStep_moves _)) (State.settle_moves _)
    exact Moves.one (Move.music _)

/-! ### Every command -/

theorem fromLine_completes {c : Instr} (hc : fromLine c = true) (s : State) : Completes c s := by
  cases h : s.hears
  · obtain ⟨i, e, low, _⟩ := exec_unheard hc h
    exact ⟨_, e, Moves.one (Move.inputs i low)⟩
  · obtain ⟨t, e, heard⟩ := exec_heard hc h
    exact ⟨t, e, heard.moves⟩

/-- Every command but a hard reset completes in every state by a path of moves. -/
theorem exec_completes {c : Instr} (hc : c ≠ .hardReset) (s : State) : Completes c s := by
  cases c with
  | hardReset => exact absurd rfl hc
  | resetRelease stn rehearse => exact resetRelease_completes stn rehearse s
  | settlingExpiry => exact settlingExpiry_completes s
  | peerLapse k => exact peerLapse_completes k s
  | peerLost k => exact peerLost_completes k s
  | duplicateTimerExpiry => exact duplicateTimerExpiry_completes s
  | deferGapEnd => exact deferGapEnd_completes s
  | backoffEnd => exact backoffEnd_completes s
  | collision => exact collision_completes s
  | frameSent => exact frameSent_completes s
  | paceTimerExpiry pflt => exact paceTimerExpiry_completes pflt s
  | stepRecentTimerExpiry => exact stepRecentTimerExpiry_completes s
  | solitudeTimerExpiry => exact solitudeTimerExpiry_completes s
  | showTimeZeroCrossing => exact showTimeZeroCrossing_completes s
  | timeLimit => exact timeLimit_completes s
  | estopAsserted => exact estopAsserted_completes s
  | lowLevelAsserted => exact lowLevelAsserted_completes s
  | lowLevelReleased => exact lowLevelReleased_completes s
  | alertTimerExpiry estop => exact alertTimerExpiry_completes estop s
  | flashReadComplete data estop => exact flashReadComplete_completes data estop s
  | stagedRecordTaken => exact stagedRecordTaken_completes s
  | cueIssue => exact cueIssue_completes s
  | jetComputationPass pflt => exact jetComputationPass_completes pflt s
  | windEdge => exact windEdge_completes s
  | windCalmTimeout => exact windCalmTimeout_completes s
  | windFilterPeriod => exact windFilterPeriod_completes s
  | pumpControlPeriod => exact pumpControlPeriod_completes s
  | startTimerExpiry c => exact startTimerExpiry_completes c s
  | driveFault c => exact driveFault_completes c s
  | holdOffExpiry c pflt => exact holdOffExpiry_completes c pflt s
  | flowEdge c => exact flowEdge_completes c s
  | flowSilenceTimeout c => exact flowSilenceTimeout_completes c s
  | valvePullInEnd z => exact valvePullInEnd_completes z s
  | nozzleClimbComplete z => exact nozzleClimbComplete_completes z s
  | nozzleFallComplete z => exact nozzleFallComplete_completes z s
  | homeIntervalExpiry h hhom => exact homeIntervalExpiry_completes h hhom s
  | stepIntervalExpiry h => exact stepIntervalExpiry_completes h s
  | reversalPauseEnd h => exact reversalPauseEnd_completes h s
  | settlePauseEnd h hhom => exact settlePauseEnd_completes h hhom s
  | encoderEdge h a b => exact encoderEdge_completes h a b s
  | sweepLegBoundary h => exact sweepLegBoundary_completes h s
  | lightStep => exact lightStep_completes s
  | lampPwmRollover => exact lampPwmRollover_completes s
  | audioFrameSlot => exact audioFrameSlot_completes s
  | syncCheck => exact syncCheck_completes s
  | gainStep => exact gainStep_completes s
  | rehearsalStartingExpiry c => exact rehearsalStartingExpiry_completes c s
  | _ => exact fromLine_completes rfl s

theorem exec_hardReset (s : State) : exec .hardReset s = .next s.heldReset := rfl

theorem exec_keeps {P : State → Prop} (move : ∀ s t, Move s t → P s → P t) (reset : ∀ s : State, P s.heldReset) {c : Instr}
    {s t : State} (h : P s) (e : exec c s = .next t) : P t := by
  by_cases hc : c = .hardReset
  · subst hc
    cases e
    exact reset s
  · obtain ⟨u, e', m⟩ := exec_completes hc s
    cases e'.symm.trans e
    exact m.keeps move h

/-! ### Every step -/

/-- One bit time and the queue are the two things besides a command that a step can bring (notes/assumptions/1.md). -/
theorem tick_keeps {P : State → Prop} (move : ∀ s t, Move s t → P s → P t) (reset : ∀ s : State, P s.heldReset)
    (line : ∀ (s : State) (l : Line) (i : Inputs), i.lowlvl = s.inputs.lowlvl → P s → P { s with line := l, inputs := i })
    {s t : State} (h : P s) (e : tick s = .next t) : P t := by
  unfold tick at e
  split at e
  · exact exec_keeps move reset h e
  · have bit : P s.passBit := move _ _ (Move.time 1) (line s _ _ rfl h)
    split at e
    · cases e; exact h
    · split at e
      · cases e; exact bit
      · exact exec_keeps move reset bit e

/-- What every move keeps, whatever stands in the queue and on the line, every step keeps. -/
theorem step_keeps {P : State → Prop} (move : ∀ s t, Move s t → P s → P t) (reset : ∀ s : State, P s.heldReset)
    (line : ∀ (s : State) (l : Line) (i : Inputs), i.lowlvl = s.inputs.lowlvl → P s → P { s with line := l, inputs := i })
    (queue : ∀ (s : State) (q : List Instr), P s → P { s with pending := q })
    {s t : State} (h : P s) (e : step s = .next t) : P t := by
  unfold step at e
  split at e
  · exact tick_keeps move reset line h e
  · exact exec_keeps move reset (queue _ _ h) e

end Sys2Proof.Machine
end

