-- ==== Sys2Proof/Proofs/QueueStands.lean ====
section
/-! PROOFS. The pending queue (R84, R86): every move keeps it within 64 entries and in order. -/

set_option Elab.async false

namespace Sys2Proof.Machine

/-! ### What the entries to the show states make of the queue -/

theorem State.enterIdle_queue (soft : Bool) (s : State) : (s.enterIdle soft).seq.queue = [] := by
  cases soft <;> simp [State.enterIdle, State.clearSequencer, State.resetSection]

theorem State.endingEntry_queue (cause : EndingCause) (s : State) : (s.endingEntry cause).seq.queue = [] := by
  simp [State.endingEntry, State.clearSequencer]

theorem State.enterSafe_queue (cause : SafeCause) (s : State) :
    (s.enterSafe cause).seq.queue = s.seq.queue ∨ (s.enterSafe cause).seq.queue = [] := by
  unfold State.enterSafe
  split
  · exact .inl rfl
  · split
    · exact .inl rfl
    · exact .inr (by simp [State.clearSequencer, State.resetSection])

theorem State.markSeen_queue (c : Channel) (s : State) : (s.markSeen c).seq.queue = s.seq.queue := by
  unfold State.markSeen
  dsimp only
  split <;> rfl

theorem State.passChannel_queue (c : Channel) (s : State) : (s.passChannel c).seq.queue = s.seq.queue := by
  unfold State.passChannel
  dsimp only
  split
  · rfl
  · rw [State.markSeen_queue]
    split <;> split <;> simp

theorem State.passHanded_queue (s : State) : s.passHanded.seq.queue = s.seq.queue := by
  unfold State.passHanded State.passComputed
  simp only [State.refreshValves_keeps]
  rw [foldl_seq _ (by simp), foldl_proj (fun s => s.seq.queue) _ (by simp [State.passChannel_queue])]
  simp

theorem State.enterHold_queue (s : State) : s.enterHold.seq.queue = s.seq.queue := by simp [State.enterHold]

theorem State.runEntry_queue (n : ShowState) (s : State) : (s.runEntry n).seq.queue = s.seq.queue := by
  simp [State.runEntry, State.startRun, State.resetSection]

theorem State.armedEntry_queue (s : State) : s.armedEntry.seq.queue = s.seq.queue := by simp [State.armedEntry]

theorem State.loadingEntry_queue (n : Nat) (s : State) : (s.loadingEntry n).seq.queue = s.seq.queue := by
  simp [State.loadingEntry]

/-! ### The invariant -/

theorem QueueInv.of_queue {s t : State} (h : QueueInv s) (e : t.seq.queue = s.seq.queue) : QueueInv t :=
  ⟨e ▸ h.room, e ▸ h.ordered⟩

theorem QueueInv.of_sublist {s t : State} (h : QueueInv s) (e : t.seq.queue.Sublist s.seq.queue) : QueueInv t :=
  ⟨e.length_le.trans h.room, h.ordered.sublist e⟩

theorem QueueInv.of_empty {s : State} (e : s.seq.queue = []) : QueueInv s :=
  ⟨by simp [e], by simp [e]⟩

theorem QueueInv.enterSafe {s : State} (h : QueueInv s) (cause : SafeCause) : QueueInv (s.enterSafe cause) :=
  (State.enterSafe_queue cause s).elim h.of_queue QueueInv.of_empty

theorem QueueInv.move {s t : State} (m : Move s t) (h : QueueInv s) : QueueInv t := by
  cases m with
  | seq q hq => exact h.of_sublist hq
  | insert e room =>
    refine ⟨?_, insertEntry_ordered e _ h.ordered⟩
    rw [insertEntry_length]
    omega
  | lowLevel =>
    have seen : QueueInv { s with inputs := { s.inputs with lowlvl := true } } := h.of_queue rfl
    exact (seen.enterSafe .lowLevel).of_queue (by simp)
  | enterSafe cause => exact h.enterSafe cause
  | enterIdle soft => exact .of_empty (State.enterIdle_queue _ _)
  | noShow => exact .of_empty (State.enterIdle_queue _ _)
  | clearSafe => exact .of_empty (State.enterIdle_queue _ _)
  | endingEntry cause => exact .of_empty (State.endingEntry_queue _ _)
  | pass => exact h.of_queue (State.passHanded_queue s)
  | enterHold => exact h.of_queue (State.enterHold_queue s)
  | runEntry n => exact h.of_queue (State.runEntry_queue n s)
  | armedEntry => exact h.of_queue (State.armedEntry_queue s)
  | loadingEntry n => exact h.of_queue (State.loadingEntry_queue n s)
  | powerUp g => exact h.of_queue (by simp)
  | endHoldOff c =>
    exact h.of_queue (by unfold State.endHoldOff; dsimp only; split <;> simp)
  | _ => exact h.of_queue (by simp)

/-- Settles O54: only a taken record enters the queue, below 64 entries and in its place; everything else keeps the queue or
a part of it in its order. -/
theorem stepKeepsQueue : Obligations.StepKeepsQueue := fun _ _ h e =>
  step_keeps (fun _ _ => QueueInv.move) (fun _ => .of_empty rfl) (fun _ _ _ _ h => h.of_queue rfl) (fun _ _ h => h.of_queue rfl) h e

end Sys2Proof.Machine
end

