-- ==== Sys2Proof/Proofs/FifoStands.lean ====
section
/-! PROOFS. The audio FIFO (R74, R157, R158): every move keeps its bound, its rising indices and what a standing request
means for it. -/

set_option Elab.async false

namespace Sys2Proof.Machine

/-- Nothing stands loaded or asked for of a show: an empty FIFO and no request of the directory or the audio reader. -/
structure Unloaded (s : State) : Prop where
  fifo : s.music.fifo = []
  audio : s.store.audioReq = none
  directory : s.store.dirReq = none

/-- What the FIFO's invariant reads. -/
structure SameFifo (s t : State) : Prop where
  fifo : t.music.fifo = s.music.fifo
  asked : t.store.audioReq = s.store.audioReq
  position : t.store.audioPos = s.store.audioPos
  directory : t.store.dirReq = s.store.dirReq
  entry : t.store.entry = s.store.entry

theorem SameFifo.of_parts {s t : State} (store : t.store = s.store) (music : t.music = s.music) : SameFifo s t :=
  ⟨by rw [music], by rw [store], by rw [store], by rw [store], by rw [store]⟩

/-! ### What the entries to the show states make of it -/

theorem State.enterIdle_unloaded (soft : Bool) (s : State) : Unloaded (s.enterIdle soft) := by
  constructor <;> cases soft <;> simp [State.enterIdle, State.flushMusic, Music.flush]

theorem State.enterSafe_fifo (cause : SafeCause) (s : State) :
    SameFifo s (s.enterSafe cause) ∨ Unloaded (s.enterSafe cause) := by
  unfold State.enterSafe
  split
  · exact .inl (.of_parts rfl rfl)
  · split
    · exact .inl (.of_parts rfl rfl)
    · right
      constructor <;> simp [State.flushMusic, Music.flush]

theorem State.loadingEntry_unloaded (n : Nat) (s : State) : Unloaded (s.loadingEntry n) := by
  constructor <;> simp [State.loadingEntry, State.flushMusic, Music.flush]

theorem State.beginAudioRunOut_fifo (b : Bool) (s : State) : (s.beginAudioRunOut b).music.fifo = s.music.fifo := by
  unfold State.beginAudioRunOut
  dsimp only
  split <;> split <;> rfl

theorem State.endingEntry_fifo (cause : EndingCause) (s : State) : SameFifo s (s.endingEntry cause) := by
  constructor <;> simp [State.endingEntry, State.beginAudioRunOut_fifo, State.clearSequencer]

theorem State.runEntry_fifo (n : ShowState) (s : State) : SameFifo s (s.runEntry n) := by
  constructor <;> simp [State.runEntry, State.startRun, Music.fullGain]

theorem State.passHanded_parts (s : State) : s.passHanded.store = s.store ∧ s.passHanded.music = s.music := by
  unfold State.passHanded State.passComputed
  constructor <;> simp

theorem State.endHoldOff_parts (c : Channel) (s : State) :
    (s.endHoldOff c).store = s.store ∧ (s.endHoldOff c).music = s.music := by
  unfold State.endHoldOff
  dsimp only
  split <;> simp

/-! ### The invariant -/

theorem FifoInv.of_same {s t : State} (h : FifoInv s) (e : SameFifo s t) : FifoInv t where
  room := by rw [e.fifo]; exact h.room
  rising := by rw [e.fifo]; exact h.rising
  asked := by rw [e.fifo, e.asked, e.position]; exact h.asked
  read := by rw [e.fifo, e.position]; exact h.read
  loading := by rw [e.fifo, e.asked, e.directory, e.entry]; exact h.loading

theorem FifoInv.of_unloaded {s : State} (e : Unloaded s) : FifoInv s where
  room := by simp [e.fifo]
  rising := by simp [e.fifo]
  asked := by simp [e.audio]
  read := by simp [e.fifo]
  loading := by simp [e.directory]

theorem FifoInv.enterSafe {s : State} (h : FifoInv s) (cause : SafeCause) : FifoInv (s.enterSafe cause) :=
  (State.enterSafe_fifo cause s).elim h.of_same FifoInv.of_unloaded

/-- Frames that leave the FIFO keep it sound. -/
theorem FifoInv.of_sublist {s : State} (h : FifoInv s) (m : Music) (e : m.fifo.Sublist s.music.fifo) :
    FifoInv { s with music := m } where
  room := e.length_le.trans h.room
  rising := h.rising.sublist e
  asked q hq := ⟨e.length_le.trans (h.asked q hq).1, (h.asked q hq).2⟩
  read f hf := h.read f (e.subset hf)
  loading d := by
    obtain ⟨fifo, rest⟩ := h.loading d
    exact ⟨List.sublist_nil.mp (fifo ▸ e), rest⟩

/-- A block that joins a FIFO of at most 3,080 frames: its frames follow in the stream and find room (R74, R158). -/
theorem FifoInv.delivered {s : State} {k : Nat} {frames : List AudioFrame} (h : FifoInv s) (hf : FramesOf k frames)
    (room : s.music.fifo.length ≤ 3080) (pos : s.store.audioPos = some k) (asked : s.store.audioReq = none)
    (dir : s.store.dirReq = none) : FifoInv (s.deliverAudio frames) := by
  have kept := List.filter_sublist (p := fun f => decide (s.music.playIndex ≤ f.index)) (l := frames)
  have old : ∀ f ∈ s.music.fifo, f.index < 1016 * k := by
    intro f mem
    obtain ⟨j, hj, lt⟩ := h.read f mem
    rw [pos] at hj
    cases hj
    exact lt
  have new : ∀ f ∈ frames.filter fun f => decide (s.music.playIndex ≤ f.index), 1016 * k ≤ f.index ∧ f.index < 1016 * (k + 1) :=
    fun f mem => hf.place f (kept.subset mem)
  constructor
  case room =>
    have := kept.length_le
    have := hf.room
    simp only [State.deliverAudio, List.length_append]
    omega
  case rising =>
    refine List.pairwise_append.mpr ⟨h.rising, hf.rising.sublist kept, fun a ha b hb => ?_⟩
    have := old a ha
    have := new b hb
    omega
  case asked => simp [State.deliverAudio, asked]
  case read =>
    intro f mem
    refine ⟨k + 1, by simp [State.deliverAudio, pos], ?_⟩
    rcases List.mem_append.mp mem with mem | mem
    · have := old f mem
      omega
    · exact (new f mem).2
  case loading => simp [State.deliverAudio, dir]

theorem FifoInv.dirReq_none {s : State} (h : FifoInv s) (e : s.store.entry.isSome ∨ s.store.audioReq.isSome) :
    s.store.dirReq = none := by
  by_contra d
  obtain ⟨_, entry, audio⟩ := h.loading (Option.isSome_iff_ne_none.mpr d)
  simp [entry, audio] at e

theorem FifoInv.reread {s : State} (h : FifoInv s) {r : Reader} {q : Request} (n : Nat) (e : s.store.request r = some q) :
    FifoInv { s with store := s.store.setRequest (some { q with attempts := n }) r } := by
  cases r with
  | config => exact h.of_same ⟨rfl, rfl, rfl, rfl, rfl⟩
  | cue => exact h.of_same ⟨rfl, rfl, rfl, rfl, rfl⟩
  | directory =>
    exact ⟨h.room, h.rising, h.asked, h.read, fun _ => h.loading (by rw [show s.store.dirReq = some q from e]; rfl)⟩
  | audio =>
    have asked : s.store.audioReq = some q := e
    refine ⟨h.room, h.rising, fun p hp => ?_, h.read, fun d => ?_⟩
    · cases hp
      exact h.asked q asked
    · exact absurd (h.dirReq_none (.inr (by simp [asked]))) (Option.isSome_iff_ne_none.mp d)

theorem FifoInv.move {s t : State} (m : Move s t) (h : FifoInv s) : FifoInv t := by
  cases m with
  | music m e => exact h.of_sublist m e
  | audioPlaced m k e =>
    refine ⟨by simp [e], by simp [e], by simp, by simp [e], fun d => ?_⟩
    have dir : s.store.dirReq.isSome := by simpa using d
    exact ⟨e, by simpa using (h.loading dir).2.1, by simp⟩
  | audioAsked q entry room pos =>
    refine ⟨h.room, h.rising, fun p hp => ?_, h.read, fun d => ?_⟩
    · cases hp
      exact ⟨room, pos⟩
    · exact absurd (h.dirReq_none (.inl entry)) (Option.isSome_iff_ne_none.mp d)
  | audioSilent k frames hf entry asked room pos => exact h.delivered hf room pos asked (h.dirReq_none (.inl entry))
  | audioBlock q frames hf asked =>
    obtain ⟨room, pos⟩ := h.asked q asked
    have dir := h.dirReq_none (.inr (by simp [asked]))
    have ended : FifoInv { s with store := { s.store with audioReq := none } } :=
      ⟨h.room, h.rising, fun _ hq => (nomatch hq), h.read, fun d => absurd dir (Option.isSome_iff_ne_none.mp d)⟩
    exact ended.delivered hf room pos rfl dir
  | reread r q n e => exact h.reread n e
  | directory q d e =>
    refine ⟨h.room, h.rising, h.asked, h.read, fun _ => ?_⟩
    rcases e with e | ⟨_, entry, fifo, audio⟩
    · exact h.loading e
    · exact ⟨fifo, entry, audio⟩
  | sectionFound e audio d =>
    obtain ⟨fifo, _, asked⟩ := h.loading d
    exact ⟨h.room, h.rising, by simp [asked], by simp [fifo], fun d => nomatch d⟩
  | unload => exact .of_unloaded ⟨rfl, by simp, by simp⟩
  | enterIdle soft => exact .of_unloaded (State.enterIdle_unloaded _ _)
  | noShow => exact .of_unloaded (State.enterIdle_unloaded _ _)
  | clearSafe => exact .of_unloaded (State.enterIdle_unloaded _ _)
  | enterSafe cause => exact h.enterSafe cause
  | lowLevel =>
    have seen : FifoInv { s with inputs := { s.inputs with lowlvl := true } } := h.of_same (.of_parts rfl rfl)
    exact (seen.enterSafe .lowLevel).of_same (.of_parts (by simp) (by simp))
  | loadingEntry n => exact .of_unloaded (State.loadingEntry_unloaded _ _)
  | endingEntry cause => exact h.of_same (State.endingEntry_fifo _ _)
  | runEntry n => exact h.of_same (State.runEntry_fifo n s)
  | armedEntry => exact h.of_same (.of_parts (by simp [State.armedEntry]) (by simp [State.armedEntry]))
  | pass => exact h.of_same (.of_parts s.passHanded_parts.1 s.passHanded_parts.2)
  | endHoldOff c => exact h.of_same (.of_parts (s.endHoldOff_parts c).1 (s.endHoldOff_parts c).2)
  | powerUp g => exact h.of_same ⟨by simp [State.powerUp], by simp [State.powerUp], by simp [State.powerUp],
      by simp [State.powerUp], by simp [State.powerUp]⟩
  | cueReader q k => exact h.of_same ⟨rfl, rfl, rfl, rfl, rfl⟩
  | port p => exact h.of_same ⟨rfl, rfl, rfl, rfl, rfl⟩
  | settled q => exact h.of_same ⟨rfl, rfl, rfl, rfl, rfl⟩
  | configAsked q v => exact h.of_same ⟨rfl, rfl, rfl, rfl, rfl⟩
  | configFails reason v => exact h.of_same ⟨rfl, rfl, rfl, rfl, rfl⟩
  | _ => exact h.of_same (.of_parts (by simp) (by simp))

/-- Settles O55: a block joins a FIFO that has room for it, at the reader's position; every other move takes frames out, or
keeps what stands. -/
theorem stepKeepsFifo : Obligations.StepKeepsFifo := fun _ _ h e =>
  step_keeps (fun _ _ => FifoInv.move) (fun _ => .of_unloaded ⟨rfl, rfl, rfl⟩) (fun _ _ _ _ h => h.of_same (.of_parts rfl rfl))
    (fun _ _ h => h.of_same (.of_parts rfl rfl)) h e

end Sys2Proof.Machine
end

