-- ==== Sys2Proof/Proofs/ControlStands.lean ====
section
/-! PROOFS. Show Control's items (R2, R4, R8, R14, R16, R59, R104): every move keeps them in agreement with the show state. -/

set_option Elab.async false

namespace Sys2Proof.Machine

/-! ### The planned draw, which only a pass and a change of the show state touch (R104) -/

@[simp] theorem State.trip_planned (c : Channel) (cause : TripCause) (s : State) :
    (s.trip c cause).jet.planned = s.jet.planned := State.planned_of_figures (s.trip_figures c cause)

@[simp] theorem State.checkLostFlow_planned (c : Channel) (s : State) : (s.checkLostFlow c).jet.planned = s.jet.planned := by
  unfold State.checkLostFlow
  dsimp only
  (repeat' split) <;> simp

@[simp] theorem State.periodPump_planned (c : Channel) (s : State) : (s.periodPump c).jet.planned = s.jet.planned := by
  unfold State.periodPump
  dsimp only
  (repeat' split) <;> simp

@[simp] theorem State.pumpPeriod_planned (s : State) : s.pumpPeriod.jet.planned = s.jet.planned := by
  rw [State.pumpPeriod, (State.refreshValves_keeps _).2.2.2.2.2.2.2.2.1]
  exact foldl_proj (fun s => s.jet.planned) _ (by simp) _ _

@[simp] theorem State.endHoldOff_planned (c : Channel) (s : State) : (s.endHoldOff c).jet.planned = s.jet.planned := by
  unfold State.endHoldOff
  dsimp only
  split <;> simp

@[simp] theorem State.refreshPermits_planned (s : State) : s.refreshPermits.jet.planned = s.jet.planned := by
  unfold State.refreshPermits
  dsimp only
  split <;> simp

@[simp] theorem State.setFaultMark_planned (z : Nozzle) (s : State) : (s.setFaultMark z).jet.planned = s.jet.planned := by
  unfold State.setFaultMark
  dsimp only
  split <;> simp

@[simp] theorem State.clearFaultMark_planned (z : Nozzle) (s : State) : (s.clearFaultMark z).jet.planned = s.jet.planned := by
  unfold State.clearFaultMark
  dsimp only
  split <;> simp

@[simp] theorem State.headFault_planned (h : Head) (cause : HeadCause) (s : State) :
    (s.headFault h cause).jet.planned = s.jet.planned := by
  simp only [State.headFault, State.refreshValves_keeps, State.raise_keeps]
  exact foldl_proj (fun s => s.jet.planned) _ (by simp) _ _

@[simp] theorem State.settleHead_planned (h : Head) (s : State) : (s.settleHead h).jet.planned = s.jet.planned := by
  unfold State.settleHead
  dsimp only
  split
  · rw [(State.refreshValves_keeps _).2.2.2.2.2.2.2.2.1]
    exact foldl_proj (fun s => s.jet.planned) _ (by simp) _ _
  · rfl

@[simp] theorem State.parkHeads_planned (s : State) : s.parkHeads.jet.planned = s.jet.planned := by
  rw [State.parkHeads, State.refreshPermits_planned]
  exact foldl_proj (fun s => s.jet.planned) _ (by simp) _ _

@[simp] theorem State.unhomeHeads_planned (s : State) : s.unhomeHeads.jet.planned = s.jet.planned :=
  State.refreshPermits_planned _

/-! ### What the invariant reads -/

/-- Show Control's items that its invariant does not read: the marks of the run-outs, the ending cause, the alert timer, and
what start-up leaves. -/
structure SameControl (s t : State) : Prop where
  ctl : t.ctl = { s.ctl with
    station := t.ctl.station, rehearsal := t.ctl.rehearsal, reason := t.ctl.reason, endingCause := t.ctl.endingCause
    lightRunOut := t.ctl.lightRunOut, audioRunOut := t.ctl.audioRunOut, alertTimer := t.ctl.alertTimer }
  config : t.store.configReq = s.store.configReq
  directory : t.store.dirReq = s.store.dirReq
  entry : t.store.entry = s.store.entry
  planned : t.jet.planned = s.jet.planned
  solo : t.clock.solo = s.clock.solo
  solitude : t.clock.solitude = s.clock.solitude

theorem SameControl.of_parts {s t : State} (ctl : t.ctl = s.ctl) (store : t.store = s.store) (clock : t.clock = s.clock)
    (planned : t.jet.planned = s.jet.planned) : SameControl s t :=
  ⟨by rw [ctl], by rw [store], by rw [store], by rw [store], planned, by rw [clock], by rw [clock]⟩

theorem ControlInv.of_same {s t : State} (h : ControlInv s) (e : SameControl s t) : ControlInv t := by
  constructor <;> rw [e.ctl]
  · exact h.phase
  · exact h.settling
  · rw [e.config]; exact h.config
  · rw [e.directory, e.entry]; exact h.directory
  · exact h.causes
  · exact h.first
  · exact h.selected
  · exact h.held
  · exact h.follow
  · rw [e.planned]; exact h.draw
  · rw [e.solo, e.solitude]; exact h.solo

/-- No show state stands while start-up is under way, and the other items then stand as reset left them (R2, R4). -/
structure Starting (s : State) : Prop where
  state : s.ctl.state = .startUp
  phase : s.ctl.phase ≠ .done
  directory : s.store.dirReq = none
  causes : s.ctl.causes = {}
  first : s.ctl.firstCause = none
  selected : s.ctl.selected = 0
  held : s.ctl.held = none
  follow : s.ctl.followHold = 0 ∧ s.ctl.followRunning = 0 ∧ s.ctl.followEnding = 0
  draw : s.jet.planned = 0
  solo : s.clock.solo = false ∧ s.clock.solitude = none

theorem ControlInv.starting {s : State} (h : ControlInv s) (p : s.ctl.phase ≠ .done) : Starting s := by
  have state := h.phase.mpr p
  have notSafe : s.ctl.state ≠ .safe := by simp [state]
  have notUnderWay : s.ctl.state.underWay = false := by rw [state]; rfl
  have notLoading : s.ctl.state ≠ .loading := by simp [state]
  exact {
    state := state
    phase := p
    directory := by
      by_contra d
      exact notLoading (h.directory (Option.isSome_iff_ne_none.mpr d)).1
    causes := by
      by_contra c
      exact notSafe (h.causes.mpr c)
    first := by
      by_contra c
      exact notSafe (h.first.mpr (Option.isSome_iff_ne_none.mpr c))
    selected := h.selected.mp (by rw [state]; rfl)
    held := by
      by_contra d
      exact notLoading (h.held (Option.isSome_iff_ne_none.mpr d))
    follow := h.follow notUnderWay
    draw := h.draw notUnderWay
    solo := h.solo notUnderWay }

/-- What follows start-up has neither its settling wait nor its request (R2, R69). -/
theorem ControlInv.started {s : State} (h : ControlInv s) (e : s.ctl.state ≠ .startUp) :
    s.ctl.phase = .done ∧ s.ctl.settleTimer = none ∧ s.store.configReq = none := by
  have phase : s.ctl.phase = .done := by
    by_contra p
    exact e (h.phase.mpr p)
  refine ⟨phase, ?_, ?_⟩
  · by_contra t
    exact absurd (phase.symm.trans (h.settling (Option.isSome_iff_ne_none.mpr t))) (by decide)
  · by_contra q
    exact absurd (phase.symm.trans (h.config (Option.isSome_iff_ne_none.mpr q))) (by decide)

/-! ### Changes of the show state -/

/-- What a change to the show state `n` leaves standing, SAFE's record apart (R14, R15, R59, R104). -/
structure Entered (n : ShowState) (s t : State) : Prop where
  state : t.ctl.state = n
  phase : t.ctl.phase = s.ctl.phase
  settling : t.ctl.settleTimer = s.ctl.settleTimer
  config : t.store.configReq = s.store.configReq
  directory : t.store.dirReq = none
  selected : n.unselected = true ↔ t.ctl.selected = 0
  held : t.ctl.held = none
  follow : t.ctl.followHold = 0 ∧ t.ctl.followRunning = 0 ∧ t.ctl.followEnding = 0
  draw : n.underWay = false → t.jet.planned = 0
  solo : n.underWay = false → t.clock.solo = false ∧ t.clock.solitude = none

theorem ControlInv.entered {s t : State} {n : ShowState} (h : ControlInv s) (old : s.ctl.state ≠ .startUp)
    (e : Entered n s t) (new : n ≠ .startUp) (causes : n = .safe ↔ t.ctl.causes ≠ {})
    (first : n = .safe ↔ t.ctl.firstCause.isSome) : ControlInv t := by
  obtain ⟨done, timer, request⟩ := h.started old
  have phase := e.phase.trans done
  constructor
  case phase => simp [e.state, phase, new]
  case settling => simp [e.settling, timer]
  case config => simp [e.config, request]
  case directory => simp [e.directory]
  case causes => rw [e.state]; exact causes
  case first => rw [e.state]; exact first
  case selected => rw [e.state]; exact e.selected
  case held => simp [e.held]
  case follow => exact fun _ => e.follow
  case draw => rw [e.state]; exact e.draw
  case solo => rw [e.state]; exact e.solo

/-- Between states other than SAFE the record of SAFE stays empty (R16). -/
theorem ControlInv.entered_unsafe {s t : State} {n : ShowState} (h : ControlInv s) (old : s.ctl.state ≠ .startUp)
    (oldSafe : s.ctl.state ≠ .safe) (e : Entered n s t) (new : n ≠ .startUp) (newSafe : n ≠ .safe)
    (causes : t.ctl.causes = s.ctl.causes) (first : t.ctl.firstCause = s.ctl.firstCause) : ControlInv t := by
  refine h.entered old e new ?_ ?_
  · rw [causes, ← h.causes]
    simp [oldSafe, newSafe]
  · rw [first, ← h.first]
    simp [oldSafe, newSafe]

theorem State.changeState_solo_stopped {n : ShowState} (hn : n.underWay = false) (s : State) :
    (s.changeState n).clock.solo = false ∧ (s.changeState n).clock.solitude = none :=
  ⟨by simp [State.changeState_solo, hn], State.changeState_solitude _ _ hn⟩

theorem State.enterIdle_entered (soft : Bool) (s : State) : Entered .idle s (s.enterIdle soft) := by
  constructor <;> simp [ShowState.unselected]

theorem State.endingEntry_ctl (cause : EndingCause) (s : State) :
    (s.endingEntry cause).ctl = { s.ctl with
      state := .ending, followHold := 0, followRunning := 0, followEnding := 0
      endingCause := some cause, lightRunOut := (s.endingEntry cause).ctl.lightRunOut
      audioRunOut := (s.endingEntry cause).ctl.audioRunOut } := by
  simp only [State.endingEntry, State.workGoals_keeps, State.parkHeads_keeps, State.beginAudioRunOut, State.beginLightRunOut]
  (repeat' split) <;> simp [State.zeroTargets]

theorem State.endingEntry_entered {cause : EndingCause} {s : State} (h : ControlInv s) (u : s.ctl.state.underWay = true) :
    Entered .ending s (s.endingEntry cause) := by
  have stopped := State.changeState_solo_stopped (n := .ending) rfl
  have notLoading : s.ctl.state ≠ .loading := fun e => by simp [e, ShowState.underWay] at u
  constructor
  case directory =>
    have none : s.store.dirReq = none := by
      by_contra d
      exact notLoading (h.directory (Option.isSome_iff_ne_none.mpr d)).1
    simp [State.endingEntry, none]
  case selected =>
    rw [State.endingEntry_ctl, ← h.selected]
    cases k : s.ctl.state <;> simp_all [ShowState.underWay, ShowState.unselected]
  case held =>
    rw [State.endingEntry_ctl]
    by_contra d
    exact notLoading (h.held (Option.isSome_iff_ne_none.mpr d))
  case draw => simp [State.endingEntry, State.zeroTargets, ShowState.underWay]
  case solo => simp [State.endingEntry, stopped]
  case config => simp [State.endingEntry]
  all_goals rw [State.endingEntry_ctl]
  exact ⟨rfl, rfl, rfl⟩

theorem State.enterSafe_entered {cause : SafeCause} {s : State} (op : s.operating = true) (other : s.ctl.state ≠ .safe) :
    Entered .safe s (s.enterSafe cause) ∧ (s.enterSafe cause).ctl.causes ≠ {} ∧ (s.enterSafe cause).ctl.firstCause.isSome := by
  have stopped := State.changeState_solo_stopped (n := .safe) rfl
  rw [State.enterSafe, if_neg (by simp [op]), if_neg other]
  refine ⟨by constructor <;> simp [ShowState.unselected, ShowState.underWay, stopped], ?_, by simp⟩
  cases cause <;> simp [CauseSet.insert]

theorem State.loadingEntry_entered {n : Nat} (hn : n ≠ 0) (s : State) : Entered .loading s (s.loadingEntry n) := by
  have stopped := State.changeState_solo_stopped (n := .loading) rfl
  constructor <;> simp [State.loadingEntry, ShowState.unselected, ShowState.underWay, stopped, hn]

theorem State.armedEntry_entered {s : State} (h : ControlInv s) (e : s.ctl.state = .loading)
    (found : s.store.entry.isSome = true) : Entered .armed s s.armedEntry := by
  have d : s.store.dirReq = none := by
    by_contra d
    simp [(h.directory (Option.isSome_iff_ne_none.mpr d)).2] at found
  have stopped := State.changeState_solo_stopped (n := .armed) rfl
  have selected := h.selected
  rw [e] at selected
  constructor <;> simp [State.armedEntry, ShowState.underWay, stopped, d]
  exact selected

/-- A state of a show that is under way keeps its show when it takes over from a state with one (R8, R11, R15). -/
theorem Entered.of_change {s t : State} {n : ShowState} (h : ControlInv s) (u : n.underWay = true)
    (old : s.ctl.state.unselected = false) (notLoading : s.ctl.state ≠ .loading)
    (ctl : t.ctl = (s.changeState n).ctl) (store : t.store = s.store) : Entered n s t := by
  have selected : s.ctl.selected ≠ 0 := by
    rw [Ne, ← h.selected, old]
    simp
  rw [State.changeState_ctl] at ctl
  constructor <;> (try rw [ctl])
  case config => rw [store]
  case directory =>
    rw [store]
    by_contra d
    exact notLoading (h.directory (Option.isSome_iff_ne_none.mpr d)).1
  case selected => cases n <;> simp_all [ShowState.underWay, ShowState.unselected]
  case held =>
    by_contra d
    exact notLoading (h.held (Option.isSome_iff_ne_none.mpr d))
  case follow => exact ⟨rfl, rfl, rfl⟩
  case draw => simp [u]
  case solo => simp [u]

/-! ### The invariant -/

theorem State.not_startUp_of_operating {s : State} (h : s.operating = true) : s.ctl.state ≠ .startUp := fun e => by
  simp [State.operating, e] at h

theorem ShowState.underWay_ne {n : ShowState} (h : n.underWay = true) :
    n ≠ .startUp ∧ n ≠ .safe ∧ n ≠ .loading := by
  cases n <;> simp_all [ShowState.underWay]

theorem ControlInv.enterSafe {s : State} (h : ControlInv s) (cause : SafeCause) : ControlInv (s.enterSafe cause) := by
  by_cases op : s.operating = true
  · by_cases safe : s.ctl.state = .safe
    · rw [State.enterSafe, if_neg (by simp [op]), if_pos safe]
      refine ⟨h.phase, h.settling, h.config, h.directory, ?_, h.first, h.selected, h.held, h.follow, h.draw, h.solo⟩
      cases cause <;> simp [safe, CauseSet.insert]
    · obtain ⟨entered, causes, first⟩ := State.enterSafe_entered (cause := cause) op safe
      exact h.entered (State.not_startUp_of_operating op) entered (by decide) (by simp [causes]) (by simp [first])
  · rw [State.enterSafe, if_pos (by simpa using op)]
    exact h

theorem ControlInv.heldReset (s : State) : ControlInv s.heldReset := by
  constructor <;> simp [State.heldReset, State.reset, ShowState.unselected]

theorem ControlInv.move {s t : State} (m : Move s t) (h : ControlInv s) : ControlInv t := by
  cases m with
  | time dt => exact h.of_same (by unfold State.passTime; split <;> constructor <;> rfl)
  | inputs i => exact h.of_same (.of_parts rfl rfl rfl rfl)
  | lowLevel =>
    have seen : ControlInv { s with inputs := { s.inputs with lowlvl := true } } := h.of_same (.of_parts rfl rfl rfl rfl)
    exact (seen.enterSafe .lowLevel).of_same (.of_parts (by simp) (by simp) (by simp) (by simp))
  | jet j e => exact h.of_same (.of_parts rfl rfl rfl e)
  | pass =>
    have planned : s.passHanded.jet.planned = s.plannedDraw := by
      rw [State.planned_of_figures s.passHanded_figures, State.passComputed_planned]
    have ctl := s.passHanded_ctl
    have store := s.passHanded_parts.1
    have clock : s.passHanded.clock = s.clock := by simp [State.passHanded, State.passComputed]
    constructor <;> simp only [ctl, store, clock, planned]
    case draw => exact State.plannedDraw_not_underWay
    exacts [h.phase, h.settling, h.config, h.directory, h.causes, h.first, h.selected, h.held, h.follow, h.solo]
  | clock c t solo solitude => exact h.of_same ⟨rfl, rfl, rfl, rfl, rfl, solo, solitude⟩
  | companyHeard => exact { h with solo := fun _ => ⟨rfl, rfl⟩ }
  | solitudeStarts t u => exact { h with solo := fun e => absurd (u.symm.trans e) (by decide) }
  | solitudeEnds u =>
    refine { h with solo := fun e => ?_ }
    rw [(h.solo e).2] at u
    cases u
  | showTime t => exact h.of_same ⟨rfl, rfl, rfl, rfl, rfl, rfl, rfl⟩
  | marks l a t => exact h.of_same ⟨rfl, rfl, rfl, rfl, rfl, rfl, rfl⟩
  | follow a b c u => exact { h with follow := fun e => absurd (u.symm.trans e) (by decide) }
  | holdStart hs e => exact { h with held := fun _ => e }
  | lights l light => exact h.of_same (by constructor <;> simp)
  | audioPlaced m k => exact h.of_same (by constructor <;> simp)
  | audioAsked q => exact h.of_same ⟨rfl, rfl, rfl, rfl, rfl, rfl, rfl⟩
  | audioSilent k frames => exact h.of_same ⟨rfl, rfl, rfl, rfl, rfl, rfl, rfl⟩
  | audioBlock q frames => exact h.of_same ⟨rfl, rfl, rfl, rfl, rfl, rfl, rfl⟩
  | cueReader q k => exact h.of_same ⟨rfl, rfl, rfl, rfl, rfl, rfl, rfl⟩
  | port p => exact h.of_same ⟨rfl, rfl, rfl, rfl, rfl, rfl, rfl⟩
  | reread r q n e =>
    cases r with
    | config => exact { h with config := fun _ => h.config (by rw [show s.store.configReq = some q from e]; rfl) }
    | directory => exact { h with directory := fun _ => h.directory (by rw [show s.store.dirReq = some q from e]; rfl) }
    | cue => exact h.of_same ⟨rfl, rfl, rfl, rfl, rfl, rfl, rfl⟩
    | audio => exact h.of_same ⟨rfl, rfl, rfl, rfl, rfl, rfl, rfl⟩
  | directory q d e =>
    refine { h with directory := fun _ => ?_ }
    rcases e with e | ⟨loading, entry, _⟩
    · exact h.directory e
    · exact ⟨loading, entry⟩
  | sectionFound e audio d => exact { h with directory := fun d => nomatch d }
  | unload => exact { h with config := by simpa using h.config, directory := by simp }
  | release station rehearse held =>
    have o := h.starting (by simp [held])
    constructor <;> simp [o.state, o.directory, o.causes, o.first, o.selected, o.held, o.follow, o.draw, o.solo,
      ShowState.unselected]
    by_contra q
    simpa [held] using h.config (Option.isSome_iff_ne_none.mpr q)
  | settled q e =>
    have o := h.starting (by simp [h.settling e])
    constructor <;> simp [o.state, o.directory, o.causes, o.first, o.selected, o.held, o.follow, o.draw, o.solo,
      ShowState.unselected]
  | badNumber e =>
    have o := h.starting (by simp [h.settling e])
    constructor <;> simp [o.directory, o.causes, o.first, o.selected, o.held, o.follow, o.draw, o.solo,
      ShowState.unselected]
    by_contra q
    simpa [h.settling e] using h.config (Option.isSome_iff_ne_none.mpr q)
  | configAsked q v e => exact { h with config := fun _ => h.config e }
  | configFails reason v e =>
    have o := h.starting (by simp [h.config e])
    constructor <;> simp [o.directory, o.causes, o.first, o.selected, o.held, o.follow, o.draw, o.solo,
      ShowState.unselected]
    by_contra q
    simpa [h.config e] using h.settling (Option.isSome_iff_ne_none.mpr q)
  | powerUp g e =>
    have o := h.starting (by simp [h.config e])
    have timer : s.ctl.settleTimer = none := by
      by_contra q
      simpa [h.config e] using h.settling (Option.isSome_iff_ne_none.mpr q)
    constructor <;> simp [State.powerUp, timer, o.directory, o.selected, o.held, o.follow, o.draw, o.solo,
      ShowState.unselected, CauseSet.insert]
  | enterIdle soft e =>
    refine h.entered_unsafe ?_ ?_ (State.enterIdle_entered soft s) (by decide) (by decide) (by simp) (by simp)
    · rcases e with e | e | e | e <;> simp [e]
    · rcases e with e | e | e | e <;> simp [e]
  | noShow e =>
    obtain ⟨loading, _⟩ := h.directory e
    have dropped : ControlInv { s with store := { s.store with dirReq := none } } :=
      { h with directory := fun d => nomatch d }
    exact dropped.entered_unsafe (by simp [loading]) (by simp [loading]) (State.enterIdle_entered false _) (by decide)
      (by decide) (by simp) (by simp)
  | clearSafe e =>
    have left := State.enterIdle_entered false s.emptySafe
    refine h.entered (t := s.emptySafe.enterIdle false) (n := .idle) (by simp [e]) ?_ (by decide) (by simp [State.emptySafe])
      (by simp [State.emptySafe])
    exact { left with phase := left.phase, settling := left.settling, config := left.config }
  | enterSafe cause => exact h.enterSafe cause
  | loadingEntry n hn e =>
    have old : s.ctl.state ≠ .startUp ∧ s.ctl.state ≠ .safe := by
      constructor <;> intro k <;> simp [State.selectable, k] at e
    exact h.entered_unsafe old.1 old.2 (State.loadingEntry_entered hn s) (by decide) (by decide)
      (by simp [State.loadingEntry]) (by simp [State.loadingEntry])
  | armedEntry e found =>
    exact h.entered_unsafe (by simp [e]) (by simp [e]) (State.armedEntry_entered h e found) (by decide) (by decide)
      (by simp [State.armedEntry]) (by simp [State.armedEntry])
  | runEntry n hn e =>
    have u : n.underWay = true := by rcases hn with rfl | rfl <;> rfl
    have entered := Entered.of_change (t := s.runEntry n) h u (by simp [e, ShowState.unselected]) (by simp [e])
      (by simp [State.runEntry, State.startRun]) (by simp [State.runEntry, State.startRun])
    obtain ⟨started, notSafe, _⟩ := ShowState.underWay_ne u
    exact h.entered_unsafe (by simp [e]) (by simp [e]) entered started notSafe
      (by simp [State.runEntry, State.startRun]) (by simp [State.runEntry, State.startRun])
  | runningEntry e =>
    have old : s.ctl.state.unselected = false ∧ s.ctl.state.underWay = true := by
      rcases e with e | e <;> simp [e, ShowState.unselected, ShowState.underWay]
    obtain ⟨started, notSafe, notLoading⟩ := ShowState.underWay_ne old.2
    exact h.entered_unsafe started notSafe
      (Entered.of_change (t := (s.changeState .running).workGoals) h (n := .running) rfl old.1 notLoading (by simp) (by simp))
      (by decide) (by decide) (by simp) (by simp)
  | enterHold e =>
    exact h.entered_unsafe (by simp [e]) (by simp [e])
      (Entered.of_change (t := s.enterHold) h (n := .hold) rfl (by simp [e, ShowState.unselected]) (by simp [e])
        (by simp [State.enterHold]) (by simp [State.enterHold]))
      (by decide) (by decide) (by simp [State.enterHold]) (by simp [State.enterHold])
  | endingEntry cause u =>
    obtain ⟨started, notSafe, _⟩ := ShowState.underWay_ne u
    exact h.entered_unsafe started notSafe (State.endingEntry_entered h u) (by decide) (by decide)
      (by rw [State.endingEntry_ctl]) (by rw [State.endingEntry_ctl])
  | endHoldOff c =>
    have ctl : (s.endHoldOff c).ctl = s.ctl ∧ (s.endHoldOff c).clock = s.clock := by
      unfold State.endHoldOff
      dsimp only
      split <;> simp
    exact h.of_same (.of_parts ctl.1 (s.endHoldOff_parts c).1 ctl.2 (State.endHoldOff_planned c s))
  | _ => exact h.of_same (.of_parts (by simp) (by simp) (by simp) (by simp))

/-- Settles O52: a change of the show state leaves exactly what its new state may hold, and every other move keeps what Show
Control's invariant reads, or changes it in a state that allows it. -/
theorem stepKeepsControl : Obligations.StepKeepsControl := fun _ _ h e =>
  step_keeps (fun _ _ => ControlInv.move) ControlInv.heldReset (fun _ _ _ _ h => h.of_same (.of_parts rfl rfl rfl rfl))
    (fun _ _ h => h.of_same (.of_parts rfl rfl rfl rfl)) h e

end Sys2Proof.Machine
end

