-- ==== Sys2Proof/Proofs/ValvesAndLampsStand.lean ====
section
/-! PROOFS. Valve commands and working duties (R123, R150, R152): a move either ends by working them afresh, or leaves what
they are worked from. -/

set_option Elab.async false

namespace Sys2Proof.Machine

/-! ### Moves that end by working the valves afresh -/

/-- Valve commands and working duties stand. -/
structure Standing (s : State) : Prop where
  valves : ValvesStand s
  lamps : LampsStand s

theorem State.refreshValves_standing (s : State) : Standing s.refreshValves := ⟨s.refreshValves_stand, s.refreshValves_lamps⟩

theorem State.workGoals_standing (s : State) : Standing s.workGoals := State.refreshValves_standing _

theorem State.enterIdle_standing (soft : Bool) (s : State) : Standing (s.enterIdle soft) := State.workGoals_standing _

theorem State.endHoldOff_standing (c : Channel) (s : State) : Standing (s.endHoldOff c) := State.refreshValves_standing _

/-! ### What they are worked from -/

/-- Records that agree in an item read alike in it at every number, also at one that names none of them. -/
theorem nthD_congr {α β : Type} {n : Nat} {v w : Vector α n} (item : α → β) (h : ∀ i : Fin n, item v[i] = item w[i])
    (k : Nat) (d : α) : item (nthD v k d) = item (nthD w k d) := by
  unfold nthD
  by_cases inside : k < n
  · simpa [List.getD_eq_getElem?_getD, inside, Vector.getElem?_toList] using h ⟨k, inside⟩
  · simp [List.getD_eq_getElem?_getD, inside]

theorem State.setPump_other {c j : Channel} (h : j ≠ c) (p : PumpRec) (s : State) :
    (s.setPump c p).pump.pumps[j] = s.pump.pumps[j] := Vector.getElem_set_ne c.isLt _ (Fin.val_ne_of_ne h.symm)

theorem State.setNozzle_other {z j : Nozzle} (h : j ≠ z) (n : NozzleRec) (s : State) :
    (s.setNozzle z n).pump.nozzles[j] = s.pump.nozzles[j] := Vector.getElem_set_ne z.isLt _ (Fin.val_ne_of_ne h.symm)

/-- What R123 reads stands as it did. -/
structure SameWater (s t : State) : Prop where
  state : t.ctl.state = s.ctl.state
  wet : t.pump.wetEnding = s.pump.wetEnding
  config : t.store.config = s.store.config
  permits : t.head.permits = s.head.permits
  nozzles : ∀ z : Nozzle, (t.pump.nozzles[z]).command = (s.pump.nozzles[z]).command ∧
    ((t.pump.nozzles[z]).state = .out ↔ (s.pump.nozzles[z]).state = .out)
  pumps : ∀ c : Channel, (t.pump.pumps[c]).valves = (s.pump.pumps[c]).valves ∧
    (t.pump.pumps[c]).state.runs = (s.pump.pumps[c]).state.runs

theorem SameWater.of_parts {s t : State} (state : t.ctl.state = s.ctl.state) (pump : t.pump = s.pump)
    (config : t.store.config = s.store.config) (permits : t.head.permits = s.head.permits) : SameWater s t :=
  ⟨state, by rw [pump], config, permits, fun _ => by rw [pump]; exact ⟨rfl, Iff.rfl⟩, fun _ => by rw [pump]; exact ⟨rfl, rfl⟩⟩

theorem SameWater.pumpOf {s t : State} (e : SameWater s t) (z : Nozzle) :
    (t.pumpOf z).valves = (s.pumpOf z).valves ∧ (t.pumpOf z).state.runs = (s.pumpOf z).state.runs := by
  unfold State.pumpOf
  rw [e.config]
  exact ⟨nthD_congr PumpRec.valves (fun c => (e.pumps c).1) _ _, nthD_congr (fun p : PumpRec => p.state.runs) (fun c => (e.pumps c).2) _ _⟩

theorem ValvesStand.of_same {s t : State} (h : ValvesStand s) (e : SameWater s t) : ValvesStand t := by
  intro z
  obtain ⟨command, out⟩ := e.nozzles z
  obtain ⟨valves, runs⟩ := e.pumpOf z
  have shut : ((t.pump.nozzles[z]).state != .out) = ((s.pump.nozzles[z]).state != .out) := by
    rw [Bool.eq_iff_iff, bne_iff_ne, bne_iff_ne, Ne, Ne, out]
  rw [command, h z]
  simp only [State.valveCommand, State.valvesAllowed, e.state, e.wet, e.config, e.permits, valves, runs, shut]

/-- What R152 reads, and the duties, stand as they did. -/
structure SameLight (s t : State) : Prop where
  state : t.ctl.state = s.ctl.state
  config : t.store.config = s.store.config
  low : t.inputs.lowlvl = s.inputs.lowlvl
  nozzles : ∀ z : Nozzle, (t.pump.nozzles[z]).state = (s.pump.nozzles[z]).state
  working : t.lights.working = s.lights.working
  colours : ∀ f : Fixture, (t.lights.fixtures[f]).current = (s.lights.fixtures[f]).current

theorem SameLight.of_parts {s t : State} (state : t.ctl.state = s.ctl.state) (config : t.store.config = s.store.config)
    (low : t.inputs.lowlvl = s.inputs.lowlvl) (nozzles : t.pump.nozzles = s.pump.nozzles) (lights : t.lights = s.lights) :
    SameLight s t :=
  ⟨state, config, low, fun _ => by rw [nozzles], by rw [lights], fun _ => by rw [lights]⟩

theorem SameLight.boundNozzle {s t : State} (e : SameLight s t) (g : FixtureCfg) : t.boundNozzle g = s.boundNozzle g :=
  nthD_congr NozzleRec.state e.nozzles _ _

theorem LampsStand.of_same {s t : State} (h : LampsStand s) (e : SameLight s t) : LampsStand t := by
  intro op f
  have op' : s.operating = true := State.operating_of_state_eq op e.state.symm
  rw [e.working, h op' f]
  simp only [State.outputLevel, e.state, e.config, e.low, e.boundNozzle, e.colours]

/-! ### The moves that work the valves afresh in one case and leave them in the other -/

theorem ValvesStand.regate {s : State} (h : ValvesStand s) : ValvesStand s.regate :=
  h.of_same (.of_parts (by simp) (by simp) (by simp) (by simp))

theorem ValvesStand.refreshPermits {s : State} (h : ValvesStand s) : ValvesStand s.refreshPermits := by
  unfold State.refreshPermits
  dsimp only
  split
  · exact h
  · exact State.refreshValves_stand _

theorem LampsStand.refreshPermits {s : State} (h : LampsStand s) : LampsStand s.refreshPermits := by
  unfold State.refreshPermits
  dsimp only
  split
  · exact h
  · exact State.refreshValves_lamps _

theorem State.enterSafe_standing (cause : SafeCause) (s : State) :
    Standing (s.enterSafe cause) ∨ ∃ c, s.enterSafe cause = { s with ctl := { s.ctl with causes := c } } := by
  unfold State.enterSafe
  split
  · exact .inr ⟨s.ctl.causes, rfl⟩
  · split
    · exact .inr ⟨_, rfl⟩
    · exact .inl (State.workGoals_standing _)

theorem State.settleHead_standing (h : Head) (s : State) :
    Standing (s.settleHead h) ∨ ∃ v, s.settleHead h = { s with head := { s.head with heads := v } } := by
  unfold State.settleHead
  dsimp only
  split
  · exact .inl (State.refreshValves_standing _)
  · exact .inr ⟨_, rfl⟩

/-- That the held START is taken out of the record moves no valve and no lamp. -/
theorem Standing.unheld {s : State} (h : Standing s) (x : Option HeldStart) :
    Standing { s with ctl := { s.ctl with held := x } } :=
  ⟨h.valves.of_same (.of_parts rfl rfl rfl rfl), h.lamps.of_same (.of_parts rfl rfl rfl rfl rfl)⟩

theorem State.armedEntry_standing (s : State) : Standing s.armedEntry := (State.workGoals_standing _).unheld none

theorem ValvesStand.enterSafe {s : State} (h : ValvesStand s) (cause : SafeCause) : ValvesStand (s.enterSafe cause) := by
  rcases State.enterSafe_standing cause s with e | ⟨c, e⟩
  · exact e.valves
  · rw [e]; exact h.of_same (.of_parts rfl rfl rfl rfl)

theorem LampsStand.enterSafe {s : State} (h : LampsStand s) (cause : SafeCause) : LampsStand (s.enterSafe cause) := by
  rcases State.enterSafe_standing cause s with e | ⟨c, e⟩
  · exact e.lamps
  · rw [e]; exact h.of_same (.of_parts rfl rfl rfl rfl rfl)

/-- Where no valve may be open and none is, the commands stand. -/
theorem ValvesStand.of_shut {s : State} (allowed : s.valvesAllowed = false)
    (shut : ∀ z : Nozzle, (s.pump.nozzles[z]).command = false) : ValvesStand s := fun z => by
  rw [shut z, State.valveCommand, allowed]
  rfl

theorem ValvesStand.shut {s : State} (h : ValvesStand s) (allowed : s.valvesAllowed = false) (z : Nozzle) :
    (s.pump.nozzles[z]).command = false := by
  rw [h z, State.valveCommand, allowed]
  rfl

/-! ### The invariants -/

theorem ValvesStand.heldReset (s : State) : ValvesStand s.heldReset :=
  .of_shut rfl fun z => by simp [State.heldReset, State.reset]

theorem LampsStand.heldReset (s : State) : LampsStand s.heldReset := fun op => nomatch op

theorem ValvesStand.move {s t : State} (m : Move s t) (c : ControlInv s) (h : ValvesStand s) : ValvesStand t := by
  cases m with
  | lowLevel =>
    have seen : ValvesStand { s with inputs := { s.inputs with lowlvl := true } } := h.of_same (.of_parts rfl rfl rfl rfl)
    exact (seen.enterSafe .lowLevel).of_same (.of_parts (by simp) (by simp) (by simp) (by simp))
  | permits => exact h.refreshPermits
  | enterSafe cause => exact h.enterSafe cause
  | settleHead k =>
    rcases State.settleHead_standing k s with e | ⟨v, e⟩
    · exact e.valves
    · rw [e]; exact h.of_same (.of_parts rfl rfl rfl rfl)
  | pumpRecord k p valves runs =>
    refine h.of_same ⟨rfl, rfl, rfl, rfl, fun _ => ⟨rfl, Iff.rfl⟩, fun j => ?_⟩
    by_cases same : j = k
    · subst same
      simpa using ⟨valves, runs⟩
    · rw [State.setPump_other same]
      exact ⟨rfl, rfl⟩
  | nozzle z n command notOut wasNotOut =>
    refine ValvesStand.regate (h.of_same ⟨rfl, rfl, rfl, rfl, fun j => ?_, fun _ => ⟨rfl, rfl⟩⟩)
    by_cases same : j = z
    · subst same
      simpa using ⟨command, iff_of_false notOut wasNotOut⟩
    · rw [State.setNozzle_other same]
      exact ⟨rfl, Iff.rfl⟩
  | pumpTimer t => exact h.of_same ⟨rfl, rfl, rfl, rfl, fun _ => ⟨rfl, Iff.rfl⟩, fun _ => ⟨rfl, rfl⟩⟩
  | drive z d =>
    refine h.of_same ⟨rfl, rfl, rfl, rfl, fun j => ?_, fun _ => ⟨rfl, rfl⟩⟩
    by_cases same : j = z
    · subst same
      simp
    · rw [State.setNozzle_other same]
      exact ⟨rfl, Iff.rfl⟩
  | badNumber e =>
    have started := (c.starting (by simp [c.settling e])).state
    exact .of_shut rfl (h.shut (by rw [State.valvesAllowed, started]))
  | configFails reason v e =>
    have started := (c.starting (by simp [c.config e])).state
    exact .of_shut rfl (h.shut (by rw [State.valvesAllowed, started]))
  | powerUp g e =>
    refine ValvesStand.regate (ValvesStand.refreshPermits (.of_shut rfl fun z => ?_))
    simp only [State.powerUp, Fin.getElem_fin, Vector.getElem_ofFn, startNozzle]
    split <;> rfl
  | pass => exact State.refreshValves_stand _
  | trip c cause => exact State.refreshValves_stand _
  | pumpPeriod => exact State.refreshValves_stand _
  | endHoldOff c => exact State.refreshValves_stand _
  | headFault k cause => exact State.refreshValves_stand _
  | enterIdle soft => exact (State.enterIdle_standing _ _).valves
  | noShow => exact (State.enterIdle_standing _ _).valves
  | clearSafe => exact (State.enterIdle_standing _ _).valves
  | loadingEntry n => exact (State.workGoals_standing _).valves
  | armedEntry => exact s.armedEntry_standing.valves
  | runEntry n => exact (State.workGoals_standing _).valves
  | runningEntry => exact (State.workGoals_standing _).valves
  | enterHold => exact (State.workGoals_standing _).valves
  | endingEntry cause => exact (State.workGoals_standing _).valves
  | _ => exact h.of_same (.of_parts (by simp) (by simp) (by simp) (by simp))

theorem LampsStand.move {s t : State} (m : Move s t) (h : LampsStand s) : LampsStand t := by
  cases m with
  | lowLevel => exact State.regate_stand _
  | lowLevelSeen b => exact State.regate_stand _
  | lights l light => exact State.regate_stand _
  | nozzle z n => exact State.regate_stand _
  | powerUp g => exact State.regate_stand _
  | lamps l working colours => exact h.of_same ⟨rfl, rfl, rfl, fun _ => rfl, working, colours⟩
  | inputs i low => exact h.of_same (.of_parts rfl rfl low rfl rfl)
  | drive z d =>
    refine h.of_same ⟨rfl, rfl, rfl, fun j => ?_, rfl, fun _ => rfl⟩
    by_cases same : j = z
    · subst same
      simp
    · rw [State.setNozzle_other same]
  | permits => exact h.refreshPermits
  | enterSafe cause => exact h.enterSafe cause
  | settleHead k =>
    rcases State.settleHead_standing k s with e | ⟨v, e⟩
    · exact e.lamps
    · rw [e]; exact h.of_same (.of_parts rfl rfl rfl rfl rfl)
  | pass => exact State.refreshValves_lamps _
  | trip c cause => exact State.refreshValves_lamps _
  | pumpPeriod => exact State.refreshValves_lamps _
  | endHoldOff c => exact State.refreshValves_lamps _
  | headFault k cause => exact State.refreshValves_lamps _
  | enterIdle soft => exact State.workGoals_lamps _
  | noShow => exact State.workGoals_lamps _
  | clearSafe => exact State.workGoals_lamps _
  | loadingEntry n => exact State.workGoals_lamps _
  | armedEntry => exact s.armedEntry_standing.lamps
  | runEntry n => exact State.workGoals_lamps _
  | runningEntry => exact State.workGoals_lamps _
  | enterHold => exact State.workGoals_lamps _
  | endingEntry cause => exact State.workGoals_lamps _
  | badNumber => exact fun op => nomatch op
  | configFails => exact fun op => nomatch op
  | _ => exact h.of_same (.of_parts (by simp) (by simp) (by simp) (by simp) (by simp))

/-- Settles O56: what changes a figure of R123 works the valve commands afresh behind it; the moves of start-up leave every
valve shut. -/
theorem stepKeepsValves : Obligations.StepKeepsValves := fun _ _ c h e =>
  (step_keeps (P := fun s => ControlInv s ∧ ValvesStand s) (fun _ _ m ⟨c, h⟩ => ⟨ControlInv.move m c, ValvesStand.move m c h⟩)
    (fun s => ⟨.heldReset s, .heldReset s⟩)
    (fun _ _ _ _ ⟨c, h⟩ => ⟨c.of_same (.of_parts rfl rfl rfl rfl), h.of_same (.of_parts rfl rfl rfl rfl)⟩)
    (fun _ _ ⟨c, h⟩ => ⟨c.of_same (.of_parts rfl rfl rfl rfl), h.of_same (.of_parts rfl rfl rfl rfl)⟩) ⟨c, h⟩ e).2

/-- Settles O58: what changes a figure of R150 and R152 works the gating afresh behind it. -/
theorem stepKeepsLamps : Obligations.StepKeepsLamps := fun _ _ h e =>
  step_keeps (fun _ _ => LampsStand.move) LampsStand.heldReset (fun _ _ _ low h => h.of_same (.of_parts rfl rfl low rfl rfl))
    (fun _ _ h => h.of_same (.of_parts rfl rfl rfl rfl rfl)) h e

end Sys2Proof.Machine
end

