-- ==== Sys2Proof/Proofs/WaterOff.lean ====
section
/-! PROOFS. No water in SAFE, in CONFIG FAULT and before start-up ends (R1, R3, R16, R127): a pump leaves STOPPED for a goal
above 0 alone, and outside COUNTDOWN and RUNNING no goal is above 0. -/

set_option Elab.async false

namespace Sys2Proof.Machine

/-! ### Pumps at rest -/

/-- A pump at rest: STOPPED with output 0. -/
def PumpRec.AtRest (p : PumpRec) : Prop := p.state = .stopped ∧ p.output = 0

/-- Every pump is at rest. -/
def PumpsAtRest (s : State) : Prop := ∀ c : Channel, (s.pump.pumps[c]).AtRest

theorem PumpsAtRest.of_pumps {s t : State} (h : PumpsAtRest s) (e : t.pump.pumps = s.pump.pumps) : PumpsAtRest t := fun c => by
  rw [e]; exact h c

theorem PumpsAtRest.setPump {s : State} (h : PumpsAtRest s) (c : Channel) {p : PumpRec} (hp : p.AtRest) :
    PumpsAtRest (s.setPump c p) := fun j => by
  by_cases same : j = c
  · subst same
    simpa using hp
  · rw [State.setPump_other same]
    exact h j

/-- A pump at rest has no goal outside COUNTDOWN and RUNNING, and then stays at rest (R115). -/
theorem PumpsAtRest.actGoal {s : State} (h : PumpsAtRest s) (still : s.ctl.state.cueing = false) (b : Bool) (c : Channel) :
    PumpsAtRest (s.actGoal b c) := by
  have goal : s.goalOf c = 0 := by simp [State.goalOf, still]
  unfold State.actGoal
  dsimp only
  split
  · exact h
  · rw [goal, (h c).1]
    exact h.setPump c ⟨rfl, (h c).2⟩

theorem PumpsAtRest.refreshValves {s : State} (h : PumpsAtRest s) : PumpsAtRest s.refreshValves := fun c => by
  rw [State.refreshValves_pumps]
  simp only [Fin.getElem_fin, Vector.getElem_ofFn, State.pumpWithStartTimer]
  split
  · next k => exact absurd (k.1.symm.trans (h c).1) (by decide)
  · exact h c

theorem PumpsAtRest.dropValves {s : State} (h : PumpsAtRest s) (set : NozzleSet) : PumpsAtRest (s.dropValves set) := fun c => by
  obtain ⟨stopped, output⟩ := h c
  simpa [State.dropValves, PumpRec.AtRest] using ⟨stopped, output⟩

theorem PumpsAtRest.askPass {s : State} (h : PumpsAtRest s) : PumpsAtRest s.askPass := h.of_pumps (by simp)

theorem PumpsAtRest.regate {s : State} (h : PumpsAtRest s) : PumpsAtRest s.regate := h.of_pumps (by simp)

theorem PumpsAtRest.raise {s : State} (h : PumpsAtRest s) {kind : EventKind} {id object : Option Nat} :
    PumpsAtRest (s.raise kind id object) := h.of_pumps (by simp)

/-- Outside COUNTDOWN and RUNNING every pump at rest: what a fold over channels of goals keeps. -/
def StillAtRest (s : State) : Prop := s.ctl.state.cueing = false ∧ PumpsAtRest s

theorem foldl_keeps {α : Type} {P : State → Prop} {f : State → α → State} (hf : ∀ s a, P s → P (f s a)) (l : List α)
    {s : State} (h : P s) : P (l.foldl f s) := by
  induction l generalizing s with
  | nil => exact h
  | cons a l ih => exact ih (hf s a h)

theorem StillAtRest.actGoal {s : State} (h : StillAtRest s) (b : Bool) (c : Channel) : StillAtRest (s.actGoal b c) :=
  ⟨by simpa using h.1, h.2.actGoal h.1 b c⟩

theorem StillAtRest.workGoals {s : State} (h : StillAtRest s) : PumpsAtRest s.workGoals :=
  PumpsAtRest.refreshValves (foldl_keeps (fun _ c h => h.actGoal false c) (List.finRange 4) h).2

theorem StillAtRest.handOffChannel {s : State} (h : StillAtRest s) (c : Channel) : StillAtRest (s.handOffChannel c) := by
  unfold State.handOffChannel
  split
  · exact h
  · have handed {p : PumpRec} (hp : p.AtRest) : StillAtRest (s.setPump c p) := ⟨h.1, h.2.setPump c hp⟩
    refine StillAtRest.actGoal (handed ?_) true c
    exact ⟨(h.2 c).1, (h.2 c).2⟩

theorem StillAtRest.passHanded {s : State} (h : StillAtRest s) : PumpsAtRest s.passHanded := by
  have computed : StillAtRest s.passComputed :=
    ⟨by rw [State.passComputed_ctl]; exact h.1, h.2.of_pumps (by simp [State.passComputed])⟩
  exact PumpsAtRest.refreshValves (foldl_keeps (fun _ c h => h.handOffChannel c) (List.finRange 4) computed).2

theorem PumpsAtRest.periodPump {s : State} (h : PumpsAtRest s) (c : Channel) : PumpsAtRest (s.periodPump c) := by
  unfold State.periodPump
  dsimp only
  split
  · exact h
  · rw [(h c).1]
    exact h

theorem PumpsAtRest.pumpPeriod {s : State} (h : PumpsAtRest s) : PumpsAtRest s.pumpPeriod :=
  PumpsAtRest.refreshValves (foldl_keeps (fun _ c h => h.periodPump c) (List.finRange 4) h)

theorem PumpsAtRest.setFaultMark {s : State} (h : PumpsAtRest s) (z : Nozzle) : PumpsAtRest (s.setFaultMark z) := by
  unfold State.setFaultMark
  dsimp only
  split
  · exact h.of_pumps rfl
  · exact PumpsAtRest.askPass (PumpsAtRest.dropValves (h.of_pumps rfl) _)

theorem PumpsAtRest.clearFaultMark {s : State} (h : PumpsAtRest s) (z : Nozzle) : PumpsAtRest (s.clearFaultMark z) := by
  unfold State.clearFaultMark
  dsimp only
  split <;> exact h.of_pumps (by simp)

theorem PumpsAtRest.headFault {s : State} (h : PumpsAtRest s) (k : Head) (cause : HeadCause) :
    PumpsAtRest (s.headFault k cause) := by
  have faulted (r : HeadRec) : PumpsAtRest
      ((s.store.config.swivelsOf k).foldl (fun s z => State.setFaultMark z s) (s.setHead k r)) :=
    foldl_keeps (P := PumpsAtRest) (fun _ z h => h.setFaultMark z) _ (h.of_pumps rfl)
  unfold State.headFault
  exact PumpsAtRest.refreshValves (PumpsAtRest.raise (faulted _))

theorem PumpsAtRest.settleHead {s : State} (h : PumpsAtRest s) (k : Head) : PumpsAtRest (s.settleHead k) := by
  unfold State.settleHead
  dsimp only
  split
  · exact PumpsAtRest.refreshValves (foldl_keeps (fun _ z h => h.clearFaultMark z) _ (h.of_pumps rfl))
  · exact h.of_pumps rfl

theorem PumpsAtRest.refreshPermits {s : State} (h : PumpsAtRest s) : PumpsAtRest s.refreshPermits := by
  unfold State.refreshPermits
  dsimp only
  split
  · exact h
  · exact PumpsAtRest.refreshValves (PumpsAtRest.askPass (PumpsAtRest.dropValves (h.of_pumps rfl) _))

/-- SAFE stops every pump at once (R16, R127). -/
theorem State.enterSafe_atRest {s : State} (cause : SafeCause) (op : s.operating = true) (other : s.ctl.state ≠ .safe) :
    PumpsAtRest (s.enterSafe cause) := by
  rw [State.enterSafe, if_neg (by simp [op]), if_neg other]
  refine StillAtRest.workGoals ⟨by simp [ShowState.cueing], ?_⟩
  refine PumpsAtRest.refreshPermits fun c => ?_
  simp [State.mapPumps, PumpRec.safe, PumpRec.AtRest]

/-! ### The invariant -/

/-- The states of which the invariant speaks. -/
def ShowState.dry : ShowState → Bool
  | .startUp | .safe | .configFault => true
  | _ => false

theorem ShowState.dry_iff (n : ShowState) : n.dry = true ↔ n = .startUp ∨ n = .safe ∨ n = .configFault := by
  cases n <;> simp [ShowState.dry]

theorem WaterOff.iff {s : State} : WaterOff s ↔ (s.ctl.state.dry = true → PumpsAtRest s) := by
  rw [WaterOff, ShowState.dry_iff]
  rfl

theorem WaterOff.of_same {s t : State} (h : WaterOff s) (state : t.ctl.state = s.ctl.state)
    (pumps : t.pump.pumps = s.pump.pumps) : WaterOff t := by
  rw [WaterOff.iff, state]
  exact fun dry => (WaterOff.iff.mp h dry).of_pumps pumps

theorem WaterOff.of_rest {s t : State} (h : WaterOff s) (state : t.ctl.state = s.ctl.state)
    (rest : s.ctl.state.dry = true → PumpsAtRest s → PumpsAtRest t) : WaterOff t := by
  rw [WaterOff.iff, state]
  exact fun dry => rest dry (WaterOff.iff.mp h dry)

theorem WaterOff.of_wet {s : State} (h : s.ctl.state.dry = false) : WaterOff s := by
  rw [WaterOff.iff, h]
  exact fun dry => nomatch dry

theorem ShowState.not_cueing_of_dry {n : ShowState} (h : n.dry = true) : n.cueing = false := by
  cases n <;> first | rfl | cases h

theorem WaterOff.enterSafe {s : State} (h : WaterOff s) (cause : SafeCause) : WaterOff (s.enterSafe cause) := by
  by_cases op : s.operating = true
  · by_cases safe : s.ctl.state = .safe
    · rw [State.enterSafe, if_neg (by simp [op]), if_pos safe]
      exact h.of_same rfl rfl
    · rw [WaterOff.iff]
      exact fun _ => State.enterSafe_atRest cause op safe
  · rw [State.enterSafe, if_pos (by simpa using op)]
    exact h

/-- A pump that moves is none that is at rest. -/
theorem WaterOff.of_moving {s t : State} (h : WaterOff s) (state : t.ctl.state = s.ctl.state) (c : Channel)
    (moving : (s.pump.pumps[c]).state ≠ .stopped) : WaterOff t :=
  h.of_rest state fun _ rest => absurd (rest c).1 moving

theorem WaterOff.heldReset (s : State) : WaterOff s.heldReset :=
  WaterOff.iff.mpr fun _ c => by simp [State.heldReset, State.reset, PumpRec.AtRest]

theorem WaterOff.move {s t : State} (m : Move s t) (c : ControlInv s) (h : WaterOff s) : WaterOff t := by
  cases m with
  | lowLevel =>
    have seen : WaterOff { s with inputs := { s.inputs with lowlvl := true } } := h.of_same rfl rfl
    exact (seen.enterSafe .lowLevel).of_same (by simp) (by simp)
  | pass =>
    exact h.of_rest (by rw [State.passHanded_ctl]) fun dry rest =>
      StillAtRest.passHanded ⟨ShowState.not_cueing_of_dry dry, rest⟩
  | permits => exact h.of_rest (by simp) fun _ rest => rest.refreshPermits
  | headFault k cause => exact h.of_rest (by simp) fun _ rest => rest.headFault k cause
  | settleHead k => exact h.of_rest (by simp) fun _ rest => rest.settleHead k
  | pumpPeriod => exact h.of_rest (by simp) fun _ rest => rest.pumpPeriod
  | pumpRecord k p _ _ stays =>
    refine h.of_rest (by simp) fun _ rest => rest.setPump k ?_
    obtain ⟨stopped, output⟩ := rest k
    obtain ⟨stopped', output'⟩ := stays stopped
    exact ⟨stopped', output'.trans output⟩
  | trip k cause runs => exact h.of_moving (by simp) k fun e => by rw [e] at runs; cases runs
  | endHoldOff k tripped =>
    refine h.of_moving ?_ k (by rw [tripped]; decide)
    unfold State.endHoldOff
    dsimp only
    split <;> simp
  | settled q e => exact h.of_same rfl rfl
  | badNumber e =>
    have started := (c.starting (by simp [c.settling e])).state
    exact WaterOff.iff.mpr fun _ => (WaterOff.iff.mp h (by rw [started]; rfl)).of_pumps rfl
  | configFails reason v e =>
    have started := (c.starting (by simp [c.config e])).state
    exact WaterOff.iff.mpr fun _ => (WaterOff.iff.mp h (by rw [started]; rfl)).of_pumps rfl
  | powerUp g e =>
    have started := (c.starting (by simp [c.config e])).state
    have rest : PumpsAtRest s := WaterOff.iff.mp h (by rw [started]; rfl)
    exact WaterOff.iff.mpr fun _ => PumpsAtRest.regate (PumpsAtRest.refreshPermits (rest.of_pumps rfl))
  | enterSafe cause => exact h.enterSafe cause
  | enterIdle soft => exact .of_wet (by simp [ShowState.dry])
  | noShow => exact .of_wet (by simp [ShowState.dry])
  | clearSafe => exact .of_wet (by simp [ShowState.dry])
  | loadingEntry n => exact .of_wet (by simp [State.loadingEntry, ShowState.dry])
  | armedEntry => exact .of_wet (by simp [State.armedEntry, ShowState.dry])
  | runEntry n hn => exact .of_wet (by rcases hn with rfl | rfl <;> simp [State.runEntry, State.startRun, ShowState.dry])
  | runningEntry => exact .of_wet (by simp [ShowState.dry])
  | enterHold => exact .of_wet (by simp [State.enterHold, ShowState.dry])
  | endingEntry cause => exact .of_wet (by rw [State.endingEntry_ctl]; rfl)
  | _ => exact h.of_same (by simp) (by simp)

/-- Settles O57: in the three states no goal is above 0, so no pump at rest starts; their entries find every pump at rest or
stop it. -/
theorem stepKeepsWaterOff : Obligations.StepKeepsWaterOff := fun _ _ c h e =>
  (step_keeps (P := fun s => ControlInv s ∧ WaterOff s) (fun _ _ m ⟨c, h⟩ => ⟨ControlInv.move m c, WaterOff.move m c h⟩)
    (fun s => ⟨.heldReset s, .heldReset s⟩)
    (fun _ _ _ _ ⟨c, h⟩ => ⟨c.of_same (.of_parts rfl rfl rfl rfl), h.of_same rfl rfl⟩)
    (fun _ _ ⟨c, h⟩ => ⟨c.of_same (.of_parts rfl rfl rfl rfl), h.of_same rfl rfl⟩) ⟨c, h⟩ e).2

end Sys2Proof.Machine
end

