-- ==== Sys2Proof/Proofs/WhatStands.lean ====
section
/-! PROOFS. What no command changes: the queue of coming commands, and after start-up the configuration (R2, R52, R71, R77). -/

set_option Elab.async false

namespace Sys2Proof.Machine

/-! ### The queue -/

theorem Move.pending {s t : State} (m : Move s t) : t.pending = s.pending := by
  cases m with
  | loadingEntry n => simp [State.loadingEntry]
  | armedEntry => simp [State.armedEntry]
  | runEntry n => simp [State.runEntry, State.startRun]
  | enterHold => simp [State.enterHold]
  | endingEntry cause => simp [State.endingEntry]
  | endHoldOff c =>
    unfold State.endHoldOff
    dsimp only
    split <;> simp
  | pass => simp [State.passHanded, State.passComputed]
  | clearSafe => simp
  | _ => simp

theorem Moves.pending {s t : State} (m : Moves s t) : t.pending = s.pending :=
  m.keeps (P := fun u => u.pending = s.pending) (fun _ _ m h => m.pending.trans h) rfl

/-- Settles O3: a hard reset keeps the queue by its definition, and every other command is a path of moves. -/
theorem everyCommandCompletes : Obligations.EveryCommandCompletes := by
  intro c s
  by_cases hc : c = .hardReset
  · subst hc
    exact ⟨_, rfl, rfl⟩
  · obtain ⟨t, e, m⟩ := exec_completes hc s
    exact ⟨t, e, m.pending⟩

/-! ### What start-up leaves -/

/-- Start-up is done, with these items of it. -/
structure Started (config : StationConfig) (header : Option VolumeHeader) (station : Nat) (rehearsal : Bool) (s : State) :
    Prop where
  phase : s.ctl.phase = .done
  config : s.store.config = config
  header : s.store.header = header
  station : s.ctl.station = station
  rehearsal : s.ctl.rehearsal = rehearsal

theorem Started.of_parts {g : StationConfig} {v : Option VolumeHeader} {n : Nat} {r : Bool} {s t : State}
    (h : Started g v n r s) (phase : t.ctl.phase = s.ctl.phase) (config : t.store.config = s.store.config)
    (header : t.store.header = s.store.header) (station : t.ctl.station = s.ctl.station)
    (rehearsal : t.ctl.rehearsal = s.ctl.rehearsal) : Started g v n r t :=
  ⟨phase.trans h.phase, config.trans h.config, header.trans h.header, station.trans h.station, rehearsal.trans h.rehearsal⟩

/-- Only the moves of start-up change an item of it, and each of those has a condition that ends with start-up. -/
theorem Started.move {g : StationConfig} {v : Option VolumeHeader} {n : Nat} {r : Bool} {s t : State} (m : Move s t)
    (c : ControlInv s) (h : Started g v n r s) : Started g v n r t := by
  have started : s.ctl.state ≠ .startUp := fun e => absurd h.phase (c.phase.mp e)
  obtain ⟨_, timer, request⟩ := c.started started
  cases m with
  | release station rehearse held => exact absurd (h.phase.symm.trans held) (by decide)
  | settled q e => simp [timer] at e
  | badNumber e => simp [timer] at e
  | configAsked q v e => simp [request] at e
  | configFails reason v e => simp [request] at e
  | powerUp g e => simp [request] at e
  | pass =>
    exact h.of_parts (by rw [s.passHanded_ctl]) (by rw [s.passHanded_parts.1]) (by rw [s.passHanded_parts.1])
      (by rw [s.passHanded_ctl]) (by rw [s.passHanded_ctl])
  | endHoldOff c =>
    unfold State.endHoldOff
    dsimp only
    split <;> exact h.of_parts (by simp) (by simp) (by simp) (by simp) (by simp)
  | reread q => exact h.of_parts (by simp) (by simp) (by simp) (by simp) (by simp)
  | loadingEntry n =>
    unfold State.loadingEntry
    exact h.of_parts (by simp) (by simp) (by simp) (by simp) (by simp)
  | armedEntry =>
    unfold State.armedEntry
    exact h.of_parts (by simp) (by simp) (by simp) (by simp) (by simp)
  | runEntry n =>
    unfold State.runEntry State.startRun
    exact h.of_parts (by simp) (by simp) (by simp) (by simp) (by simp)
  | enterHold =>
    unfold State.enterHold
    exact h.of_parts (by simp) (by simp) (by simp) (by simp) (by simp)
  | endingEntry cause =>
    unfold State.endingEntry
    exact h.of_parts (by simp) (by simp) (by simp) (by simp) (by simp)
  | _ => exact h.of_parts (by simp) (by simp) (by simp) (by simp) (by simp)

theorem exec_keeps_started {c : Instr} {s : State} (inv : ControlInv s) (done : s.ctl.phase = .done) (hc : c ≠ .hardReset) :
    ∃ t, exec c s = .next t ∧ t.store.config = s.store.config ∧ t.store.header = s.store.header ∧
      t.ctl.station = s.ctl.station ∧ t.ctl.rehearsal = s.ctl.rehearsal ∧ t.ctl.phase = .done := by
  obtain ⟨t, e, m⟩ := exec_completes hc s
  have kept := m.keeps (P := fun u => ControlInv u ∧ Started s.store.config s.store.header s.ctl.station s.ctl.rehearsal u)
    (fun _ _ m ⟨c, h⟩ => ⟨ControlInv.move m c, Started.move m c h⟩) ⟨inv, done, rfl, rfl, rfl, rfl⟩
  exact ⟨t, e, kept.2.config, kept.2.header, kept.2.station, kept.2.rehearsal, kept.2.phase⟩

/-! ### Show time in HOLD (R49, R52) -/

/-- The station is not in LOADING, from which alone the completions at a step's end could set show time (R9), and show time
is that of `s`. -/
structure ShowTimeStands (s t : State) : Prop where
  notLoading : t.ctl.state ≠ .loading
  showTime : t.clock.showTime = s.clock.showTime

theorem ShowTimeStands.settle {s t : State} (h : ShowTimeStands s t) : t.settle.clock.showTime = s.clock.showTime :=
  (State.settle_showTime h.notLoading).trans h.showTime

theorem State.passTime_of_hold {s : State} (h : s.ctl.state = .hold) (dt : Nat) :
    (s.passTime dt).ctl = s.ctl ∧ (s.passTime dt).clock = s.clock := by
  unfold State.passTime
  split
  · exact ⟨rfl, rfl⟩
  · simp [h, ShowState.timeRuns]

theorem State.passTo_of_hold {s : State} (h : s.ctl.state = .hold) (t : Nat) :
    (s.passTo t).ctl = s.ctl ∧ (s.passTo t).clock = s.clock := State.passTime_of_hold h _

theorem State.passShowTo_of_hold {s : State} (h : s.ctl.state = .hold) (t : Int) : s.passShowTo t = s :=
  if_neg (by simp [h, ShowState.timeRuns])

theorem State.enterConfigFault_not_loading (reason : Nat) (s : State) : (s.enterConfigFault reason).ctl.state ≠ .loading := by
  unfold State.enterConfigFault State.startAlerts
  dsimp only
  (repeat' split) <;> simp

theorem State.enterSafe_not_loading {s : State} (h : s.ctl.state ≠ .loading) (cause : SafeCause) :
    (s.enterSafe cause).ctl.state ≠ .loading := by
  unfold State.enterSafe
  (repeat' split) <;> simp [h]

theorem State.assertInput_not_loading {s : State} (h : s.ctl.state ≠ .loading) (cause : SafeCause) (alert : AlertCause) :
    (s.assertInput cause alert).ctl.state ≠ .loading := by
  simpa [State.assertInput, State.startAlerts_state] using State.enterSafe_not_loading h cause

theorem State.completeStartUp_not_loading (g : StationConfig) (s : State) : (s.completeStartUp g).ctl.state ≠ .loading := by
  have asserted {u : State} (h : u.ctl.state ≠ .loading) (b : Bool) (cause : SafeCause) (alert : AlertCause) :
      (if b then u.assertInput cause alert else u).ctl.state ≠ .loading := by
    split
    · exact State.assertInput_not_loading h cause alert
    · exact h
  have powered : (((s.powerUp g).refreshPermits).regate).ctl.state ≠ .loading := by simp [State.powerUp]
  exact asserted (asserted powered _ _ _) _ _ _

theorem State.requestDirectory_not_loading {s : State} (h : s.ctl.state ≠ .loading) (step : DirStep) (block : Nat)
    (e : Expect) : (s.requestDirectory step block e).ctl.state ≠ .loading := by
  unfold State.requestDirectory State.noShow
  split <;> simp [h]

theorem State.deliver_not_loading {s : State} (h : s.ctl.state ≠ .loading) (r : Reader) (seq : Nat) (p : List Byte) :
    (s.deliver r seq p).ctl.state ≠ .loading := by
  cases r with
  | config =>
    unfold State.deliver State.takeHeader State.takeConfig State.requestConfig
    dsimp only
    (repeat' split) <;> simp [State.enterConfigFault_not_loading, State.completeStartUp_not_loading, h]
  | directory =>
    unfold State.deliver State.takeDirectory State.takeTable State.noShow
    dsimp only
    (repeat' split) <;> simp [State.requestDirectory_not_loading, h]
  | cue => exact State.readOn_not_loading (by simpa using h)
  | audio => simpa [State.deliver] using h

theorem State.lose_not_loading {s : State} (h : s.ctl.state ≠ .loading) (r : Reader) (seq : Nat) :
    (s.lose r seq).ctl.state ≠ .loading := by
  cases r with
  | config => exact State.enterConfigFault_not_loading _ _
  | directory => simp [State.lose, State.noShow]
  | cue => exact State.readOn_not_loading (by simpa using h)
  | audio => simpa [State.lose] using h

theorem State.judge_not_loading {s : State} (h : s.ctl.state ≠ .loading) (r : Reader) (q : Request) (data : List Byte) :
    (s.judge r q data).ctl.state ≠ .loading := by
  unfold State.judge
  dsimp only
  split
  · exact State.deliver_not_loading (by exact h) _ _ _
  · split
    · simpa using h
    · exact State.lose_not_loading (by exact h) _ _

theorem State.readCompletes_not_loading {s : State} (h : s.ctl.state ≠ .loading) (data : List Byte) :
    (s.readCompletes data).ctl.state ≠ .loading := by
  unfold State.readCompletes
  split
  · exact h
  · dsimp only
    split
    · exact h
    · split
      · exact h
      · exact State.judge_not_loading (by exact h) _ _ _

/-- A desk command in HOLD is taken, ignored or discarded. -/
theorem State.deskCommand_showTime {s : State} (h : s.ctl.state = .hold) (c : Instr) {take : State → State}
    (taken : ∀ u : State, u.ctl.state = .hold → (take u).clock.showTime = u.clock.showTime) :
    (s.deskCommand c take).clock.showTime = s.clock.showTime := by
  unfold State.deskCommand
  split
  · rfl
  · dsimp only
    split
    · rw [taken _ (by simpa using h)]
      simp
    · simp

/-- A frame of another station in HOLD is taken or discarded. -/
theorem State.stationFrame_showTime {s : State} (h : s.ctl.state = .hold) (c : Instr) (sender : Byte) {take : State → State}
    (taken : ∀ u : State, u.ctl.state = .hold → (take u).clock.showTime = u.clock.showTime) :
    (s.stationFrame c sender take).clock.showTime = s.clock.showTime := by
  have taken := taken (s.frameDone c) (by simpa using h)
  unfold State.stationFrame
  dsimp only
  (repeat' split) <;> simp [taken]

theorem State.inputAsserted_showTime {s : State} (h : s.ctl.state = .hold) (cause : SafeCause) (alert : AlertCause) :
    (s.inputAsserted cause alert).clock.showTime = s.clock.showTime := by
  have op : s.operating = true := by rw [State.operating, h]
  rw [State.inputAsserted, if_pos op]
  exact ShowTimeStands.settle ⟨State.assertInput_not_loading (by simp [h]) _ _, by simp⟩

/-- In HOLD no PACE brings a late join (R60). -/
theorem State.takePace_showTime {s : State} (h : s.ctl.state = .hold) (k : Peer) (p : PacePayload) (rx : Rx) :
    (s.takePace k p rx).clock.showTime = s.clock.showTime := by
  have unjoined : (s.hearPace k p rx).joins k p = false := by simp [State.joins, h]
  rw [State.takePace, State.lateJoin, unjoined]
  exact ShowTimeStands.settle ⟨by simp [h], by simp⟩

theorem State.takeStop_of_underWay {s : State} (h : s.ctl.state.underWay = true) :
    s.takeStop = (s.enterEnding .stop).settle := by
  unfold State.takeStop
  split <;> simp_all [ShowState.underWay]

theorem showTime_stands_of_fromLine {c : Instr} (hc : fromLine c = true) {s : State} (h : s.ctl.state = .hold) :
    ∃ t, exec c s = .next t ∧ t.clock.showTime = s.clock.showTime := by
  cases c with
  | select n hhom =>
    refine ⟨_, rfl, State.deskCommand_showTime (s := { s with inputs := { s.inputs with hhom := hhom } }) h _ fun u hold => ?_⟩
    simp [State.selectable, hold, State.ignore]
  | start n delay rx =>
    refine ⟨_, rfl, State.deskCommand_showTime h _ fun u hold => ?_⟩
    simp [State.takeStart, hold, State.ignore]
  | hold =>
    refine ⟨_, rfl, State.deskCommand_showTime h _ fun u hold => ?_⟩
    simp [hold, State.ignore]
  | resume pflt =>
    refine ⟨_, rfl, State.deskCommand_showTime (s := { s with inputs := { s.inputs with pflt := pflt } }) h _ fun u hold => ?_⟩
    rw [if_pos hold]
    exact ShowTimeStands.settle ⟨State.resumeShow_not_loading u, by simp⟩
  | stop =>
    refine ⟨_, rfl, State.deskCommand_showTime h _ fun u hold => ?_⟩
    rw [State.takeStop_of_underWay (by rw [hold]; rfl)]
    exact ShowTimeStands.settle ⟨State.enterEnding_not_loading _ u, by simp⟩
  | clear estop =>
    refine ⟨_, rfl, State.deskCommand_showTime (s := { s with inputs := { s.inputs with estop := estop } }) h _ fun u hold => ?_⟩
    simp [State.clearable, hold, State.ignore]
  | restart target =>
    refine ⟨_, rfl, State.deskCommand_showTime h _ fun u hold => ?_⟩
    simp only [State.takeRestart, hold, State.ignore]
    split <;> simp
  | query target clearFlag =>
    refine ⟨_, rfl, State.deskCommand_showTime h _ fun u hold => ?_⟩
    simp only [State.ignore, State.takeQuery]
    (repeat' split) <;> simp
  | paceReceived sender p rx =>
    refine ⟨_, rfl, ?_⟩
    have taken := State.stationFrame_showTime h (.paceReceived sender p rx) sender
      fun u hold => State.takePace_showTime hold (peerOf sender) p rx
    (repeat' split) <;> simp [taken]
  | alertReceived sender cause rx =>
    refine ⟨_, rfl, ?_⟩
    have taken := State.stationFrame_showTime h (.alertReceived sender cause rx) sender (take := State.takeAlert (peerOf sender) rx)
      fun u hold => ShowTimeStands.settle ⟨State.enterSafe_not_loading (by simp [hold]) _, by simp⟩
    (repeat' split) <;> simp [taken]
  | reportReceived sender =>
    refine ⟨_, rfl, ?_⟩
    have taken := State.stationFrame_showTime h (.reportReceived sender) sender (take := fun s => s) fun _ _ => rfl
    (repeat' split) <;> simp [taken]
  | frameError why =>
    refine ⟨_, rfl, ?_⟩
    split <;> simp
  | _ => cases hc

theorem State.attemptAfter_showTime {s : State} (h : s.ctl.state = .hold) (gap : Nat) :
    (s.attemptAfter gap).clock.showTime = s.clock.showTime := by
  unfold State.attemptAfter
  split <;> simp [State.passTo_of_hold h]

theorem State.paceExpiry_showTime_of_hold {s : State} (h : s.ctl.state = .hold) :
    s.paceExpiry.clock.showTime = s.clock.showTime := by
  have followed : s.paceExpiry = s.queuePace.follow.settle := by simp [State.paceExpiry, h]
  rw [followed]
  exact ShowTimeStands.settle ⟨State.follow_not_loading (by simp [h]), by simp⟩

/-- The commands that set the station's own steps going (timers, pins, flash, sequencer), in HOLD. -/
theorem showTime_stands_of_own {c : Instr} (hc : fromLine c = false) (hr : c ≠ .hardReset) {s : State}
    (h : s.ctl.state = .hold) : ∃ t, exec c s = .next t ∧ t.clock.showTime = s.clock.showTime := by
  have at' (t : Nat) : (s.passTo t).ctl = s.ctl ∧ (s.passTo t).clock = s.clock := State.passTo_of_hold h t
  cases c with
  | hardReset => exact absurd rfl hr
  | select | start | hold | resume | stop | clear | restart | query | paceReceived | alertReceived | reportReceived
  | frameError => cases hc
  | deferGapEnd =>
    refine ⟨_, rfl, ?_⟩
    split <;> simp [State.attemptAfter_showTime h]
  | backoffEnd =>
    refine ⟨_, rfl, ?_⟩
    split <;> simp [State.attemptAfter_showTime h]
  | paceTimerExpiry pflt =>
    cases timer : s.clock.paceTimer with
    | none => exact ⟨_, rfl, by simp [timer]⟩
    | some t0 =>
      obtain ⟨state, time, _⟩ := s.atPaceExpiry_keeps pflt t0
      refine ⟨_, exec_paceTimerExpiry pflt timer, ?_⟩
      rw [State.paceExpiry_showTime_of_hold (state.trans h), time, (at' t0).2]
  | showTimeZeroCrossing => exact ⟨s, by simp [exec, execShowTimeZeroCrossing, h], rfl⟩
  | timeLimit => exact ⟨s, by simp [exec, execTimeLimit, h], rfl⟩
  | estopAsserted =>
    exact ⟨_, rfl, State.inputAsserted_showTime (s := { s with inputs := { s.inputs with estop := true } }) h _ _⟩
  | lowLevelAsserted =>
    refine ⟨_, rfl, ?_⟩
    have asserted := State.inputAsserted_showTime (s := { s with inputs := { s.inputs with lowlvl := true } }) h .lowLevel .lowLevel
    simpa using asserted
  | flashReadComplete data estop =>
    refine ⟨_, rfl, ?_⟩
    split
    · rfl
    · exact ShowTimeStands.settle ⟨State.readCompletes_not_loading (by simp [h]) data, by simp⟩
  | stagedRecordTaken =>
    refine ⟨_, rfl, ?_⟩
    (repeat' split) <;> simp_all [State.issuing, ShowState.cueing]
  | cueIssue =>
    refine ⟨_, rfl, ?_⟩
    (repeat' split) <;> simp_all [State.issuing, ShowState.cueing]
  | sweepLegBoundary k =>
    refine ⟨_, rfl, ?_⟩
    dsimp only
    (repeat' split) <;> simp [State.passShowTo_of_hold h]
  | lightStep =>
    cases timer : s.lights.lightTimer with
    | none => exact ⟨_, by rw [exec, execLightStep, timer], rfl⟩
    | some t0 =>
      refine ⟨_, exec_lightStep timer, ShowTimeStands.settle ⟨?_, ?_⟩⟩
      · rw [State.lightStep_ctl, (s.atLightStep_keeps t0).1]
        simp [h]
      · simp [State.atLightStep, at']
  | gainStep =>
    refine ⟨_, rfl, ?_⟩
    split
    · rfl
    · refine ShowTimeStands.settle ⟨?_, by simp [at']⟩
      unfold State.gainStep
      dsimp only
      (repeat' split) <;> simp [at', h]
  | _ =>
    -- The rest leave the show state, so that nothing completes at their end that could set show time.
    refine ⟨_, rfl, ?_⟩
    (try dsimp only)
    (repeat' split) <;> simp [State.passTo_of_hold, h, State.settle_showTime]

/-- Settles O60: the moves that change an item of start-up have conditions that end with start-up, and in HOLD show time does
not run, is not set by a START, a PACE or an agreement, and stands through RESUME, STOP and SAFE. -/
theorem onlyHardResetChangesTheseItems : Obligations.OnlyHardResetChangesTheseItems := by
  refine ⟨fun c s inv done hc => exec_keeps_started inv done hc, fun c s hold _ hc => ?_⟩
  cases line : fromLine c
  · exact showTime_stands_of_own line hc hold
  · exact showTime_stands_of_fromLine line hold

end Sys2Proof.Machine
end

