-- ==== Sys2Proof/Proofs/LineAndRecordsStand.lean ====
section
/-! PROOFS. The slots, the transmitter and the receiver (R24, R29 to R32), and the Show Monitor's records with the bounds of
show time (R49, R167 to R170).  Of the line's invariant only the receive buffer's clause speaks of the inside of a frame: it
does not hold between the bit time that completes a frame and the command that the frame brings in the same step, so it is
kept apart. -/

set_option Elab.async false

namespace Sys2Proof.Machine

/-! ### The receive buffer (R24) -/

/-- The buffer holds no more than one frame in reception. -/
structure RxBuffer.Sound (b : RxBuffer) : Prop where
  bits : b.bits.length ≤ 9
  highs : b.highs ≤ 10
  chars : b.chars.length < 3 ∨ (byteAt b.chars 2 ≤ 80 ∧ b.chars.length < 5 + byteAt b.chars 2)

/-- The buffer of a frame in reception, if there is one, is sound. -/
def BufferSound (l : Line) : Prop := ∀ b, l.receiver = .receiving b → b.Sound

theorem RxBuffer.start_sound (rx : Rx) : (RxBuffer.start rx).Sound :=
  ⟨Nat.zero_le _, Nat.zero_le _, .inl (by simp [RxBuffer.start])⟩

/-- A character that ends neither the frame nor its reception leaves the buffer sound. -/
theorem RxBuffer.Sound.endChar {b : RxBuffer} (quiet : b.endChar.2 = .nothing) : b.endChar.1.Sound := by
  unfold RxBuffer.endChar at quiet ⊢
  dsimp only at quiet ⊢
  split at quiet
  · cases quiet
  · next inside =>
    rw [if_neg inside]
    split at quiet
    · cases quiet
    · next unfinished =>
      rw [if_neg unfinished]
      exact ⟨Nat.zero_le _, Nat.zero_le _, by dsimp only; omega⟩

/-- A bit time that brings nothing leaves the buffer sound. -/
theorem RxBuffer.Sound.hear {b : RxBuffer} (h : b.Sound) {level : Bool} {run : Nat} {latch : Rx}
    (quiet : (b.hear level run latch).2 = .nothing) : (b.hear level run latch).1.Sound := by
  obtain ⟨bits, highs, chars⟩ := h
  revert quiet
  unfold RxBuffer.hear
  split
  · split
    · exact fun _ => ⟨bits, by simp, chars⟩
    · split <;> exact fun _ => ⟨bits, highs, chars⟩
  · split
    · split
      · exact fun _ => ⟨by simp, by simp, chars⟩
      · split
        · exact fun _ => ⟨bits, highs, chars⟩
        · exact fun _ => ⟨bits, by dsimp only; omega, chars⟩
    · split
      · split
        · exact RxBuffer.Sound.endChar
        · exact fun _ => ⟨bits, highs, chars⟩
      · split
        · exact fun _ => ⟨bits, highs, chars⟩
        · exact fun _ => ⟨by simp only [List.length_append, List.length_singleton]; omega, highs, chars⟩

/-- Of an edge the receiver makes no more than that the wait for an idle line may be over (R24). -/
theorem Line.edge_receiver (now : Rx) (level : Bool) (l : Line) : (l.edge now level).receiver =
    if l.receiver = .waitIdle ∧ l.idleFor 50 now.moment = true then .hunting else l.receiver := by
  unfold Line.edge
  dsimp only
  split
  · next off => simp [off]
  · cases level <;> simp only [Bool.false_eq_true, if_false, if_true] <;> split <;> rfl

theorem BufferSound.hear {l : Line} (h : BufferSound l) {now : Rx} {level : Bool}
    (quiet : (l.hear now level).2 = .nothing) : BufferSound (l.hear now level).1 := by
  intro b hb
  unfold Line.hear at quiet hb
  dsimp only at quiet hb
  split at quiet
  · next off => simp [off] at hb
  · next wait => simp [wait] at hb
  · next hunting =>
    simp only [hunting] at hb
    split at hb
    · cases hb
      exact RxBuffer.start_sound _
    · simp [hunting] at hb
  · next b0 receiving =>
    simp only [receiving, Receiver.receiving.injEq] at hb
    have before : l.receiver = .receiving b0 := by
      rw [Line.edge_receiver] at receiving
      split at receiving
      · cases receiving
      · exact receiving
    subst hb
    exact (h b0 before).hear quiet

/-- The driver alone turns the receiver off. -/
theorem Line.hear_off (now : Rx) (level : Bool) (l : Line) : (l.hear now level).1.receiver = .off ↔ l.receiver = .off := by
  have edge : (l.edge now level).receiver = .off ↔ l.receiver = .off := by
    rw [Line.edge_receiver]
    split
    · next wait => simp [wait.1]
    · rfl
  rw [← edge]
  unfold Line.hear
  dsimp only
  split
  · rfl
  · rfl
  · next hunting =>
    split <;> simp [hunting]
  · next b receiving => simp [receiving]

/-- A bit time that brings an event is one of a frame in reception. -/
theorem Line.hear_receiving {now : Rx} {level : Bool} {l : Line} (event : (l.hear now level).2 ≠ .nothing) :
    ∃ b, (l.hear now level).1.receiver = .receiving b := by
  unfold Line.hear at event ⊢
  dsimp only at event ⊢
  split at event
  · exact absurd rfl event
  · exact absurd rfl event
  · exact absurd rfl event
  · exact ⟨_, rfl⟩

/-! ### The slots and the transmitter -/

/-- What the line's invariant says of all but the inside of a frame in reception. -/
structure Line.Sound (l : Line) : Prop where
  alert : l.alertTries < 8 ∧ (l.alertSlot = none → l.alertTries = 0)
  report : l.reportTries < 8 ∧ (l.reportSlot = none → l.reportTries = 0)
  pace : l.paceTries < 8 ∧ (l.paceSlot = false → l.paceTries = 0)
  quiet : l.tx = .quiet ↔ l.firstFull = none
  sending : l.sendingKind = some .alert → l.alertSlot.isSome
  sendingReport : l.sendingKind = some .report → l.reportSlot.isSome
  sendingPace : l.sendingKind = some .pace → l.paceSlot = true
  receiver : l.receiver = .off ↔ l.sendingKind.isSome = true

theorem LineInv.iff {s : State} : LineInv s ↔ s.line.Sound ∧ BufferSound s.line := by
  constructor
  · intro h
    exact ⟨⟨h.alert, h.report, h.pace, h.quiet, h.sending, h.sendingReport, h.sendingPace, h.receiver⟩,
      fun b hb => ⟨(h.buffer b hb).1, (h.buffer b hb).2.1, (h.buffer b hb).2.2⟩⟩
  · intro ⟨h, buffer⟩
    exact ⟨h.alert, h.report, h.pace, h.quiet, h.sending, h.sendingReport, h.sendingPace, h.receiver,
      fun b hb => ⟨(buffer b hb).bits, (buffer b hb).highs, (buffer b hb).chars⟩⟩

/-- A slot is filled: the transmitter is no longer quiet (R31). -/
theorem Line.fill_sendingKind (l : Line) : l.fill.sendingKind = l.sendingKind := by
  unfold Line.fill
  split
  · next quiet => simp [Line.sendingKind, quiet]
  · rfl

@[simp] theorem Line.fill_slots (l : Line) :
    l.fill.alertSlot = l.alertSlot ∧ l.fill.alertTries = l.alertTries ∧ l.fill.reportSlot = l.reportSlot ∧
      l.fill.reportTries = l.reportTries ∧ l.fill.paceSlot = l.paceSlot ∧ l.fill.paceTries = l.paceTries ∧
      l.fill.receiver = l.receiver := by
  unfold Line.fill
  split <;> simp

@[simp] theorem Line.noteReplaced_slots (kind : FrameKind) (l : Line) :
    (l.noteReplaced kind).tx = l.tx ∧
      (l.noteReplaced kind).alertSlot = l.alertSlot ∧ (l.noteReplaced kind).alertTries = l.alertTries ∧
      (l.noteReplaced kind).reportSlot = l.reportSlot ∧ (l.noteReplaced kind).reportTries = l.reportTries ∧
      (l.noteReplaced kind).paceSlot = l.paceSlot ∧ (l.noteReplaced kind).paceTries = l.paceTries ∧
      (l.noteReplaced kind).receiver = l.receiver := by
  unfold Line.noteReplaced
  split <;> simp

theorem Line.fill_tx (l : Line) : l.fill.tx ≠ .quiet := by
  unfold Line.fill
  split
  · simp
  · assumption

theorem Line.firstFull_none {l : Line} :
    l.firstFull = none ↔ l.alertSlot = none ∧ l.reportSlot = none ∧ l.paceSlot = false := by
  unfold Line.firstFull
  cases l.alertSlot <;> cases l.reportSlot <;> cases l.paceSlot <;> simp

/-- The frame on the line reads the transmitter alone, and the first full slot the slots alone. -/
theorem Line.sendingKind_congr {l m : Line} (h : m.tx = l.tx) : m.sendingKind = l.sendingKind := by
  unfold Line.sendingKind
  rw [h]

/-- A slot may have become full; a full one stays so. -/
structure Line.Fuller (l m : Line) : Prop where
  alert : m.alertTries = l.alertTries ∧ (m.alertSlot = l.alertSlot ∨ m.alertSlot.isSome = true)
  report : m.reportTries = l.reportTries ∧ (m.reportSlot = l.reportSlot ∨ m.reportSlot.isSome = true)
  pace : m.paceTries = l.paceTries ∧ (m.paceSlot = l.paceSlot ∨ m.paceSlot = true)

/-- Filling a slot leaves a sound line. -/
theorem Line.Sound.filled {l m : Line} (h : l.Sound) (f : l.Fuller m) (tx : m.tx = l.tx) (receiver : m.receiver = l.receiver)
    (full : m.firstFull ≠ none) : m.fill.Sound := by
  have kind : m.fill.sendingKind = l.sendingKind := m.fill_sendingKind.trans (Line.sendingKind_congr tx)
  have full' : m.fill.firstFull ≠ none := by
    rw [Ne, Line.firstFull_none] at full ⊢
    simpa using full
  obtain ⟨⟨at', as⟩, ⟨rt, rs⟩, pt, ps⟩ := f
  constructor
  case alert =>
    refine ⟨by simpa [at'] using h.alert.1, fun e => ?_⟩
    rcases as with as | as
    · simpa [at'] using h.alert.2 (by simpa [as] using e)
    · simp at e; simp [e] at as
  case report =>
    refine ⟨by simpa [rt] using h.report.1, fun e => ?_⟩
    rcases rs with rs | rs
    · simpa [rt] using h.report.2 (by simpa [rs] using e)
    · simp at e; simp [e] at rs
  case pace =>
    refine ⟨by simpa [pt] using h.pace.1, fun e => ?_⟩
    rcases ps with ps | ps
    · simpa [pt] using h.pace.2 (by simpa [ps] using e)
    · simp [ps] at e
  case quiet => exact iff_of_false m.fill_tx full'
  case sending =>
    rw [kind]
    intro e
    rcases as with as | as
    · simpa [as] using h.sending e
    · simpa using as
  case sendingReport =>
    rw [kind]
    intro e
    rcases rs with rs | rs
    · simpa [rs] using h.sendingReport e
    · simpa using rs
  case sendingPace =>
    rw [kind]
    intro e
    rcases ps with ps | ps
    · simpa [ps] using h.sendingPace e
    · simpa using ps
  case receiver =>
    rw [kind]
    simpa [receiver] using h.receiver

theorem Line.Sound.queuePace {l : Line} (h : l.Sound) : l.queuePace.Sound :=
  h.filled (by constructor <;> simp) (by simp) (by simp) (by simp [Line.firstFull_none])

theorem Line.Sound.queueAlert {l : Line} (h : l.Sound) (cause : AlertCause) : (l.queueAlert cause).Sound :=
  h.filled (by constructor <;> simp) (by simp) (by simp) (by simp [Line.firstFull_none])

theorem Line.Sound.placeReport {l : Line} (h : l.Sound) (image : ReportImage) : (l.placeReport image).Sound :=
  h.filled (by constructor <;> simp) (by simp) (by simp) (by simp [Line.firstFull_none])

/-- An attempt begins for the first full slot, with the receiver off (R24, R31). -/
theorem Line.Sound.beginAttempt {s : State} (h : s.line.Sound) : s.beginAttempt.line.Sound := by
  unfold State.beginAttempt
  split
  · exact h
  · next kind first =>
    have notEmpty : s.line.firstFull ≠ none := by simp [first]
    refine ⟨h.alert, h.report, h.pace, iff_of_false (by simp) notEmpty, ?_, ?_, ?_, iff_of_true rfl rfl⟩ <;>
      · unfold Line.firstFull at first
        intro e
        cases e
        revert first
        cases s.line.alertSlot <;> cases s.line.reportSlot <;> cases s.line.paceSlot <;> simp

/-- The attempt counts of the slots (R29, R32). -/
structure Line.Counts (l : Line) : Prop where
  alert : l.alertTries < 8 ∧ (l.alertSlot = none → l.alertTries = 0)
  report : l.reportTries < 8 ∧ (l.reportSlot = none → l.reportTries = 0)
  pace : l.paceTries < 8 ∧ (l.paceSlot = false → l.paceTries = 0)

theorem Line.Sound.counts {l : Line} (h : l.Sound) : l.Counts := ⟨h.alert, h.report, h.pace⟩

theorem Line.Counts.empty {l : Line} (h : l.Counts) (kind : FrameKind) : (l.empty kind).Counts := by
  cases kind
  · exact ⟨h.alert, h.report, by simp [Line.empty]⟩
  · exact ⟨by simp [Line.empty], h.report, h.pace⟩
  · exact ⟨h.alert, by simp [Line.empty], h.pace⟩

/-- The slot being served is full, so that it may have any count below 8. -/
theorem Line.Sound.setTries {l : Line} (h : l.Sound) {kind : FrameKind} (on : l.sendingKind = some kind) {n : Nat}
    (low : n < 8) : (l.setTries n kind).Counts := by
  cases kind
  · exact ⟨h.alert, h.report, low, fun e => by simp [Line.setTries, h.sendingPace on] at e⟩
  · exact ⟨⟨low, fun e => by have := h.sending on; simp_all [Line.setTries]⟩, h.report, h.pace⟩
  · exact ⟨h.alert, ⟨low, fun e => by have := h.sendingReport on; simp_all [Line.setTries]⟩, h.pace⟩

/-- A transmitter at rest that waits exactly when a slot is full, with the receiver on, stands in a sound line. -/
theorem Line.Counts.rest {l m : Line} (h : l.Counts) (slots : m.alertSlot = l.alertSlot ∧ m.alertTries = l.alertTries ∧
      m.reportSlot = l.reportSlot ∧ m.reportTries = l.reportTries ∧ m.paceSlot = l.paceSlot ∧ m.paceTries = l.paceTries)
    (tx : m.tx = .quiet ↔ l.firstFull = none) (idle : m.sendingKind = none) (receiver : m.receiver = .hunting) : m.Sound := by
  obtain ⟨as, at', rs, rt, ps, pt⟩ := slots
  have full : m.firstFull = l.firstFull := by simp only [Line.firstFull, as, rs, ps]
  constructor
  case alert => rw [as, at']; exact h.alert
  case report => rw [rs, rt]; exact h.report
  case pace => rw [ps, pt]; exact h.pace
  case quiet => rw [full]; exact tx
  case receiver => simp [idle, receiver]
  all_goals simp [idle]

theorem Line.Counts.afterSend {l : Line} (h : l.Counts) (rise : Nat) : (l.afterSend rise).Sound := by
  refine h.rest ⟨rfl, rfl, rfl, rfl, rfl, rfl⟩ ?_ ?_ rfl <;> unfold Line.afterSend
  · cases l.firstFull <;> simp
  · cases l.firstFull <;> simp [Line.sendingKind]

theorem Line.Counts.afterCollision {l : Line} (h : l.Counts) (now : Nat) : (l.afterCollision now).Sound := by
  refine h.rest ⟨rfl, rfl, rfl, rfl, rfl, rfl⟩ ?_ ?_ rfl <;> unfold Line.afterCollision
  · cases l.firstFull <;> simp
  · cases l.firstFull <;> simp [Line.sendingKind]

theorem Line.Sound.sent {s : State} (h : s.line.Sound) {kind : FrameKind} (on : s.line.sendingKind = some kind) (rise : Nat) :
    (s.sent kind rise).line.Sound := by
  unfold State.sent
  dsimp only
  split
  · exact (h.setTries on (by decide)).afterSend rise
  · exact (h.counts.empty kind).afterSend rise

theorem Line.Sound.collide {s : State} (h : s.line.Sound) {kind : FrameKind} (on : s.line.sendingKind = some kind) :
    (s.collide kind).line.Sound := by
  unfold State.collide State.dropFrame
  dsimp only
  split
  · next low => exact (h.setTries on low).afterCollision _
  · simpa using (h.counts.empty kind).afterCollision _

theorem State.collide_receiver (kind : FrameKind) (s : State) : (s.collide kind).line.receiver = .hunting := by
  unfold State.collide State.dropFrame Line.afterCollision
  dsimp only
  split <;> simp

/-- A receiver that is not off may take any other condition. -/
theorem Line.Sound.receiver_set {l : Line} (h : l.Sound) (r : Receiver) (q : Option Nat) (n : Nat) (on : l.receiver ≠ .off)
    (hr : r ≠ .off) : Line.Sound { l with receiver := r, quietSince := q, lowRun := n } := by
  refine ⟨h.alert, h.report, h.pace, h.quiet, h.sending, h.sendingReport, h.sendingPace, ?_⟩
  exact iff_of_false hr fun k => on (h.receiver.mpr k)

/-- A bit time leaves the slots and the transmitter, and the receiver on or off. -/
theorem Line.Sound.hear {l : Line} (h : l.Sound) (now : Rx) (level : Bool) : (l.hear now level).1.Sound := by
  have off := Line.hear_off now level l
  rw [Line.hear_keeps] at off ⊢
  exact ⟨h.alert, h.report, h.pace, h.quiet, h.sending, h.sendingReport, h.sendingPace, off.trans h.receiver⟩

/-! ### The Show Monitor (R167 to R170) -/

/-- A counter stays within 65,535, with its crossed flag and its sample together. -/
def CounterRec.Sound (c : CounterRec) : Prop := c.value ≤ 65535 ∧ c.crossed = c.sample.isSome

def Monitor.Sound (m : Monitor) : Prop := ∀ i : Counter, (m.counters[i]).Sound

theorem CounterRec.Sound.count {c : CounterRec} (h : c.Sound) (e : Sample) : (c.count e).Sound := by
  have risen (b : Prop) [Decidable b] (v : Nat) (bound : v ≤ 65535) : CounterRec.Sound
      (if b then { c with value := v, crossed := true, sample := some e } else { c with value := v }) := by
    split
    · exact ⟨bound, rfl⟩
    · exact ⟨bound, h.2⟩
  unfold CounterRec.count
  split
  · exact risen _ _ (by split <;> omega)
  · exact h

theorem CounterRec.Sound.cleared {c : CounterRec} (h : c.Sound) (p : PendingClear) (i : Counter) :
    (p.clearCounter i c).Sound := by
  obtain ⟨value, crossed⟩ := h
  unfold PendingClear.clearCounter
  dsimp only
  split
  · exact ⟨(Nat.sub_le _ _).trans value, rfl⟩
  · exact ⟨(Nat.sub_le _ _).trans value, crossed⟩

/-- `t` has counted events that `s` had not, and no more has come over its records. -/
structure Counted (s t : State) : Prop where
  sound : s.mon.Sound → t.mon.Sound
  clear : t.mon.pendingClear = s.mon.pendingClear

theorem Counted.of_eq {s t : State} (h : t.mon = s.mon) : Counted s t := ⟨fun k => h ▸ k, by rw [h]⟩

theorem Counted.trans {s t u : State} (h : Counted s t) (k : Counted t u) : Counted s u :=
  ⟨fun m => k.sound (h.sound m), k.clear.trans h.clear⟩

theorem Counted.foldl {α : Type} {f : State → α → State} (hf : ∀ s a, Counted s (f s a)) (l : List α) (s : State) :
    Counted s (l.foldl f s) := by
  induction l generalizing s with
  | nil => exact .of_eq rfl
  | cons a l ih => exact (hf s a).trans (ih _)

theorem State.raise_counted (kind : EventKind) (id object : Option Nat) (s : State) : Counted s (s.raise kind id object) :=
  ⟨fun h i => by rw [State.raise_counter]; exact (h i).count _, rfl⟩

/-- What a step has not touched of the Show Monitor stands as counted before it. -/
theorem Counted.then_eq {s t u : State} (h : Counted s t) (e : u.mon = t.mon) : Counted s u := h.trans (.of_eq e)

theorem Counted.after_eq {s t u : State} (h : Counted t u) (e : t.mon = s.mon) : Counted s u := Counted.trans (.of_eq e) h

theorem Counted.refreshValves {s t : State} (h : Counted s t) : Counted s t.refreshValves := h.then_eq (by simp)

theorem State.trip_counted (c : Channel) (cause : TripCause) (s : State) : Counted s (s.trip c cause) := by
  have mon : (s.trip c cause).mon = (s.raise .pumpTrip none (some (c.val + 4 * cause.number))).mon := by
    unfold State.trip
    dsimp only
    split <;> simp [State.raise]
  exact (State.raise_counted _ _ _ s).then_eq mon

theorem State.startPump_counted (c : Channel) (s : State) : Counted s (s.startPump c) := by
  unfold State.startPump
  dsimp only
  split
  · exact .after_eq (State.trip_counted _ _ _) rfl
  · exact .of_eq rfl

theorem State.actGoal_counted (b : Bool) (c : Channel) (s : State) : Counted s (s.actGoal b c) := by
  unfold State.actGoal
  dsimp only
  split
  · exact .of_eq rfl
  · split
    · split
      · exact .after_eq (State.startPump_counted _ _) rfl
      · exact .of_eq rfl
    all_goals first | exact .of_eq rfl | (split <;> exact .of_eq rfl)

theorem State.workGoals_counted (s : State) : Counted s s.workGoals :=
  (Counted.foldl (fun s c => State.actGoal_counted false c s) (List.finRange 4) s).then_eq (by simp [State.workGoals])

theorem State.handOffChannel_counted (c : Channel) (s : State) : Counted s (s.handOffChannel c) := by
  unfold State.handOffChannel
  split
  · exact .of_eq rfl
  · exact .after_eq (State.actGoal_counted true c _) rfl

theorem State.passShare_counted (s : State) : Counted s s.passShare := by
  unfold State.passShare
  dsimp only
  split
  · exact .after_eq (State.raise_counted _ _ _ _) rfl
  · exact .of_eq rfl

theorem State.passChannel_counted (c : Channel) (s : State) : Counted s (s.passChannel c) := by
  have raised (b : Prop) [Decidable b] (kind : EventKind) (id object : Option Nat) (u : State) :
      Counted u (if b then u.raise kind id object else u) := by
    split
    · exact State.raise_counted _ _ _ _
    · exact .of_eq rfl
  unfold State.passChannel
  dsimp only
  split
  · exact .of_eq rfl
  · have marked {t : State} (h : Counted s t) : Counted s (t.markSeen c) := h.then_eq (by simp)
    exact marked (((raised _ _ _ _ s).trans (raised _ _ _ _ _)).then_eq rfl)

theorem State.passHanded_counted (s : State) : Counted s s.passHanded := by
  have shared : Counted s (State.passShare { s with jet := { s.jet with passDue := false } }) :=
    .after_eq (State.passShare_counted _) rfl
  have computed := shared.trans (Counted.foldl (fun s c => State.passChannel_counted c s) (List.finRange 4) _)
  have handed := computed.trans (Counted.foldl (fun s c => State.handOffChannel_counted c s) (List.finRange 4) _)
  exact handed.then_eq (by simp [State.passHanded, State.passComputed])

theorem State.periodPump_counted (c : Channel) (s : State) : Counted s (s.periodPump c) := by
  have lost (u : State) : Counted u (u.checkLostFlow c) := by
    unfold State.checkLostFlow
    dsimp only
    (repeat' split) <;> first | exact .of_eq rfl | exact State.trip_counted _ _ _
  unfold State.periodPump
  dsimp only
  split
  · exact .of_eq rfl
  · split
    case h_2 =>
      split
      · exact .of_eq rfl
      · exact .after_eq (lost _) rfl
    all_goals first | exact .of_eq rfl | (split <;> exact .of_eq rfl)

theorem State.pumpPeriod_counted (s : State) : Counted s s.pumpPeriod :=
  (Counted.foldl (fun s c => State.periodPump_counted c s) (List.finRange 4) s).then_eq (by simp [State.pumpPeriod])

theorem State.endHoldOff_counted (c : Channel) (s : State) : Counted s (s.endHoldOff c) := by
  unfold State.endHoldOff
  dsimp only
  split
  · exact Counted.refreshValves (Counted.after_eq (State.startPump_counted c _) rfl)
  · exact .of_eq (by simp)

theorem State.headFault_counted (h : Head) (cause : HeadCause) (s : State) : Counted s (s.headFault h cause) := by
  have marked (r : HeadRec) :
      Counted s ((s.store.config.swivelsOf h).foldl (fun s z => State.setFaultMark z s) (s.setHead h r)) :=
    (Counted.foldl (fun s z => .of_eq (by simp)) _ _).after_eq rfl
  unfold State.headFault
  exact Counted.refreshValves ((marked _).trans (State.raise_counted _ _ _ _))

theorem Counted.workGoals {s t : State} (h : Counted s t) : Counted s t.workGoals := h.trans (State.workGoals_counted _)

theorem State.enterIdle_counted (soft : Bool) (s : State) : Counted s (s.enterIdle soft) :=
  Counted.workGoals (.of_eq (by cases soft <;> simp))

theorem State.enterSafe_counted (cause : SafeCause) (s : State) : Counted s (s.enterSafe cause) := by
  unfold State.enterSafe
  split
  · exact .of_eq rfl
  · split
    · exact .of_eq rfl
    · exact Counted.workGoals (.of_eq (by simp))

theorem State.loadingEntry_counted (n : Nat) (s : State) : Counted s (s.loadingEntry n) :=
  Counted.workGoals (.of_eq (by simp))

theorem State.armedEntry_counted (s : State) : Counted s s.armedEntry :=
  have worked : Counted s ((s.changeState .armed).resetFixtures).workGoals := Counted.workGoals (.of_eq (by simp))
  worked.then_eq (by simp [State.armedEntry])

theorem State.runEntry_counted (n : ShowState) (s : State) : Counted s (s.runEntry n) :=
  Counted.workGoals (.of_eq (by simp [State.startRun]))

theorem State.runningEntry_counted (s : State) : Counted s (s.changeState .running).workGoals :=
  Counted.workGoals (.of_eq (by simp))

theorem State.enterHold_counted (s : State) : Counted s s.enterHold := Counted.workGoals (.of_eq (by simp))

theorem State.endingEntry_counted (cause : EndingCause) (s : State) : Counted s (s.endingEntry cause) :=
  Counted.workGoals (.of_eq (by simp))

/-- The kinds and thresholds are no part of what a counter has counted (R75). -/
theorem State.adoptMonitor_counted (g : StationConfig) (s : State) : Counted s (s.adoptMonitor g) :=
  ⟨fun h i => by
    have kept := h i
    simpa [State.adoptMonitor, CounterRec.Sound] using kept, rfl⟩

/-! ### The invariants through the moves -/

/-- What the line's invariant and that of the records say, the receive buffer apart. -/
structure LineAndRecords (s : State) : Prop where
  line : s.line.Sound
  counters : s.mon.Sound
  pending : s.mon.pendingClear.isSome → s.line.reportSlot.isSome
  showTime : -2147483648 ≤ s.clock.showTime ∧ s.clock.showTime ≤ 2147483647

theorem RecordInv.iff {s : State} : RecordInv s ↔ s.mon.Sound ∧ (s.mon.pendingClear.isSome → s.line.reportSlot.isSome) ∧
    -2147483648 ≤ s.clock.showTime ∧ s.clock.showTime ≤ 2147483647 :=
  ⟨fun h => ⟨fun i => ⟨h.values i, h.crossed i⟩, h.pending, h.showTime⟩,
    fun ⟨counters, pending, showTime⟩ => ⟨fun i => (counters i).1, fun i => (counters i).2, pending, showTime⟩⟩

theorem LineAndRecords.counted {s t : State} (h : LineAndRecords s) (c : Counted s t) (line : t.line = s.line)
    (showTime : t.clock.showTime = s.clock.showTime) : LineAndRecords t :=
  ⟨by rw [line]; exact h.line, c.sound h.counters, by rw [c.clear, line]; exact h.pending, by rw [showTime]; exact h.showTime⟩

theorem LineAndRecords.of_parts {s t : State} (h : LineAndRecords s) (line : t.line = s.line) (mon : t.mon = s.mon)
    (showTime : t.clock.showTime = s.clock.showTime) : LineAndRecords t := h.counted (.of_eq mon) line showTime

/-- A change of the line that keeps the REPORT in its slot. -/
theorem LineAndRecords.of_line {s t : State} (h : LineAndRecords s) (line : t.line.Sound)
    (report : t.line.reportSlot = s.line.reportSlot) (mon : t.mon = s.mon) (clock : t.clock = s.clock) : LineAndRecords t :=
  ⟨line, by rw [mon]; exact h.counters, by rw [mon, report]; exact h.pending, by rw [clock]; exact h.showTime⟩

theorem LineAndRecords.setClock {s t : State} (h : LineAndRecords s) (line : t.line = s.line) (mon : t.mon = s.mon)
    (showTime : -2147483648 ≤ t.clock.showTime ∧ t.clock.showTime ≤ 2147483647) : LineAndRecords t :=
  ⟨by rw [line]; exact h.line, by rw [mon]; exact h.counters, by rw [line, mon]; exact h.pending, showTime⟩

/-- A REPORT that leaves its slot takes its pending clear with it (R170). -/
theorem LineAndRecords.sent {s : State} (h : LineAndRecords s) {kind : FrameKind} (on : s.line.sendingKind = some kind)
    (rise : Nat) : LineAndRecords (s.sent kind rise) := by
  have cleared : s.mon.clearAfterSend.Sound ∧ s.mon.clearAfterSend.pendingClear = none := by
    unfold Monitor.clearAfterSend
    split
    · next none => exact ⟨h.counters, none⟩
    · next p _ => exact ⟨fun i => by simpa using (h.counters i).cleared p i, rfl⟩
  refine ⟨h.line.sent on rise, ?_, ?_, h.showTime⟩
  · unfold State.sent
    dsimp only
    split
    · exact cleared.1
    · exact h.counters
  · cases kind with
    | report => simp [State.sent, cleared.2]
    | alert | pace =>
      have kept := h.pending
      unfold State.sent Line.afterSend
      cases s.line.replaced <;> exact kept

theorem LineAndRecords.dropFrame {s : State} (h : LineAndRecords s) (kind : FrameKind) :
    (s.dropFrame kind).mon.Sound ∧
      ((s.dropFrame kind).mon.pendingClear.isSome → (s.dropFrame kind).line.reportSlot.isSome) := by
  unfold State.dropFrame
  refine ⟨(State.raise_counted _ _ _ _).sound ?_, ?_⟩
  · dsimp only
    split <;> exact h.counters
  · cases kind
    case report => exact fun e => nomatch e
    all_goals exact h.pending

theorem LineAndRecords.collide {s : State} (h : LineAndRecords s) {kind : FrameKind} (on : s.line.sendingKind = some kind) :
    LineAndRecords (s.collide kind) := by
  obtain ⟨counters, pending⟩ := h.dropFrame kind
  have line := h.line.collide on
  revert line
  unfold State.collide
  dsimp only
  split
  · refine fun line => ⟨line, h.counters, ?_, h.showTime⟩
    cases kind <;> exact h.pending
  · exact fun line => ⟨line, counters, pending, by simpa using h.showTime⟩

theorem LineAndRecords.move {s t : State} (m : Move s t) (h : LineAndRecords s) : LineAndRecords t := by
  cases m with
  | time dt =>
    refine h.setClock (by simp) (by simp) ?_
    unfold State.passTime
    split
    · exact h.showTime
    · dsimp only
      split
      · exact clampShowTime_bounds _
      · exact h.showTime
  | showTime t => exact h.setClock rfl rfl (clampShowTime_bounds t)
  | clock c time => exact h.of_parts rfl rfl time
  | raise kind id object => exact h.counted (State.raise_counted _ _ _ _) (by simp) (by simp)
  | adoptMonitor g => exact h.counted (State.adoptMonitor_counted g s) (by simp) (by simp)
  | lowLevel =>
    have entered := (State.enterSafe_counted .lowLevel { s with inputs := { s.inputs with lowlvl := true } }).after_eq
      (s := s) rfl
    exact h.counted (entered.then_eq (by simp)) (by simp) (by simp)
  | pass =>
    exact h.counted s.passHanded_counted (by simp [State.passHanded, State.passComputed])
      (by simp [State.passHanded, State.passComputed])
  | trip c cause => exact h.counted (State.trip_counted c cause s) (by simp) (by simp)
  | pumpPeriod => exact h.counted s.pumpPeriod_counted (by simp) (by simp)
  | endHoldOff c =>
    refine h.counted (State.endHoldOff_counted c s) ?_ ?_ <;>
      · unfold State.endHoldOff
        dsimp only
        split <;> simp
  | headFault k cause => exact h.counted (State.headFault_counted k cause s) (by simp) (by simp)
  | enterIdle soft => exact h.counted (State.enterIdle_counted soft s) (by simp) (by simp)
  | noShow =>
    exact h.counted ((State.enterIdle_counted false { s with store := { s.store with dirReq := none } }).after_eq rfl)
      (by simp) (by simp)
  | clearSafe => exact h.counted ((State.enterIdle_counted false s.emptySafe).after_eq rfl) (by simp) (by simp)
  | enterSafe cause => exact h.counted (State.enterSafe_counted cause s) (by simp) (by simp)
  | loadingEntry n =>
    exact h.counted (State.loadingEntry_counted n s) (by simp [State.loadingEntry]) (by simp [State.loadingEntry])
  | armedEntry => exact h.counted s.armedEntry_counted (by simp [State.armedEntry]) (by simp [State.armedEntry])
  | runEntry n =>
    exact h.counted (State.runEntry_counted n s) (by simp [State.runEntry, State.startRun])
      (by simp [State.runEntry, State.startRun])
  | runningEntry => exact h.counted s.runningEntry_counted (by simp) (by simp)
  | enterHold => exact h.counted s.enterHold_counted (by simp [State.enterHold]) (by simp [State.enterHold])
  | endingEntry cause =>
    exact h.counted (State.endingEntry_counted cause s) (by simp [State.endingEntry]) (by simp [State.endingEntry])
  | queuePace => exact h.of_line h.line.queuePace (by simp [State.queuePace, Line.queuePace]) rfl rfl
  | queueAlert cause =>
    exact h.of_line (h.line.queueAlert cause) (by simp [State.queueAlert, Line.queueAlert]) rfl rfl
  | takeQuery clear =>
    refine ⟨h.line.placeReport _, ?_, fun _ => by simp [State.takeQuery, Line.placeReport], h.showTime⟩
    unfold State.takeQuery
    dsimp only
    split <;> exact h.counters
  | duplicate b t =>
    exact h.of_line ⟨h.line.alert, h.line.report, h.line.pace, h.line.quiet, h.line.sending, h.line.sendingReport,
      h.line.sendingPace, h.line.receiver⟩ rfl rfl rfl
  | receiver r q n on hr => exact h.of_line (h.line.receiver_set r q n on hr) rfl rfl rfl
  | beginAttempt =>
    refine h.of_line h.line.beginAttempt ?_ (by simp) (by simp)
    unfold State.beginAttempt
    split <;> rfl
  | sent kind rise on => exact h.sent on rise
  | collide kind on => exact h.collide on
  | _ => exact h.of_parts (by simp) (by simp) (by simp)

theorem BufferSound.of_receiver {l m : Line} (h : BufferSound l) (e : m.receiver = l.receiver) : BufferSound m :=
  fun b hb => h b (e ▸ hb)

theorem BufferSound.of_idle {l : Line} (e : ∀ b, l.receiver ≠ .receiving b) : BufferSound l := fun b hb => absurd hb (e b)

theorem BufferSound.of_fresh {s : State} (h : s.Fresh) : BufferSound s.line := fun b hb => by
  obtain ⟨rx, rfl⟩ := h b hb
  exact RxBuffer.start_sound rx

theorem BufferSound.move {s t : State} (m : Move s t) (h : BufferSound s.line) : BufferSound t.line := by
  cases m with
  | receiver r q n on hr fresh => exact .of_fresh fresh
  | beginAttempt =>
    unfold State.beginAttempt
    split
    · exact h
    · exact .of_idle fun b => by simp
  | sent kind rise => exact .of_idle fun b => by simp [State.sent, Line.afterSend]
  | collide kind => exact .of_idle fun b => by simp [State.collide_receiver]
  | queuePace => exact h.of_receiver (by simp [State.queuePace, Line.queuePace])
  | queueAlert cause => exact h.of_receiver (by simp [State.queueAlert, Line.queueAlert])
  | takeQuery clear => exact h.of_receiver (by simp [State.takeQuery, Line.placeReport])
  | pass => exact h.of_receiver (by simp [State.passHanded, State.passComputed])
  | endHoldOff c =>
    refine h.of_receiver ?_
    unfold State.endHoldOff
    dsimp only
    split <;> simp
  | loadingEntry n => exact h.of_receiver (by simp [State.loadingEntry])
  | armedEntry => exact h.of_receiver (by simp [State.armedEntry])
  | runEntry n => exact h.of_receiver (by simp [State.runEntry, State.startRun])
  | enterHold => exact h.of_receiver (by simp [State.enterHold])
  | endingEntry cause => exact h.of_receiver (by simp [State.endingEntry])
  | _ => exact h.of_receiver (by simp)

/-! ### Every step -/

/-- Both invariants in full. -/
def LineAndRecordsStand (s : State) : Prop := LineAndRecords s ∧ BufferSound s.line

theorem LineAndRecordsStand.iff {s : State} : LineAndRecordsStand s ↔ LineInv s ∧ RecordInv s := by
  rw [LineInv.iff, RecordInv.iff]
  exact ⟨fun ⟨h, buffer⟩ => ⟨⟨h.line, buffer⟩, h.counters, h.pending, h.showTime⟩,
    fun ⟨⟨line, buffer⟩, counters, pending, showTime⟩ => ⟨⟨line, counters, pending, showTime⟩, buffer⟩⟩

theorem LineAndRecordsStand.move {s t : State} (m : Move s t) (h : LineAndRecordsStand s) : LineAndRecordsStand t :=
  ⟨h.1.move m, h.2.move m⟩

theorem LineAndRecordsStand.heldReset (s : State) : LineAndRecordsStand s.heldReset := by
  refine ⟨⟨?_, fun i => by simp [State.heldReset, State.reset, CounterRec.Sound], by simp [State.heldReset, State.reset],
    by simp [State.heldReset, State.reset]⟩, .of_idle fun b => by simp [State.heldReset, State.reset]⟩
  constructor <;> simp [State.heldReset, State.reset, Line.firstFull, Line.sendingKind]

/-- What a frame of the line, or the error that ends one, makes of a state in which it is heard: the receiver leaves its frame
first, so that nothing is asked of its buffer. -/
theorem LineAndRecordsStand.heard {c : Instr} {s t : State} (hc : fromLine c = true) (hears : s.hears = true)
    (h : LineAndRecords s) (e : exec c s = .next t) : LineAndRecordsStand t := by
  obtain ⟨u, e', v, before, fresh, after⟩ := exec_heard hc hears
  cases e'.symm.trans e
  exact after.keeps (fun _ _ => LineAndRecordsStand.move)
    ⟨before.keeps (fun _ _ => LineAndRecords.move) h, .of_fresh fresh⟩

theorem LineAndRecords.passBit {s : State} (h : LineAndRecords s) : LineAndRecords s.passBit := by
  have heard : LineAndRecords { s with
      inputs := { s.inputs with lrx := s.inputs.lrx.tail }, line := (s.line.hear s.nowPair s.lrxLevel).1 } :=
    h.of_line (h.line.hear _ _) (by rw [Line.hear_keeps]) rfl rfl
  exact heard.move (Move.time 1)

theorem State.passBit_line (s : State) : s.passBit.line = (s.line.hear s.nowPair s.lrxLevel).1 := by
  simp [State.passBit]

theorem State.passBit_hears {s : State} (released : s.ctl.phase ≠ .held)
    (event : (s.line.hear s.nowPair s.lrxLevel).2 ≠ .nothing) : s.passBit.hears = true := by
  obtain ⟨b, receiving⟩ := Line.hear_receiving event
  have phase : s.passBit.ctl = s.ctl := by simp [State.passBit]
  simp [State.hears, phase, released, s.passBit_line, Line.hears, receiving]

theorem LineAndRecordsStand.tick {s t : State} (h : LineAndRecordsStand s) (e : tick s = .next t) : LineAndRecordsStand t := by
  have keeps {c : Instr} {u v : State} (h : LineAndRecordsStand u) (e : exec c u = .next v) : LineAndRecordsStand v :=
    exec_keeps (fun _ _ => LineAndRecordsStand.move) LineAndRecordsStand.heldReset h e
  unfold Machine.tick at e
  split at e
  · exact keeps h e
  · split at e
    · cases e
      exact h
    · next released =>
      have bit := h.1.passBit
      by_cases sending : s.line.sendingKind.isSome = true
      · -- While the own driver is on the receiver is off, and a collision is all that a bit time can bring (R24, R32).
        have off : s.passBit.line.receiver = .off := by
          rw [State.passBit_line, Line.hear_off]
          exact h.1.line.receiver.mpr sending
        have stand : LineAndRecordsStand s.passBit := ⟨bit, .of_idle fun b => by simp [off]⟩
        split at e
        · cases e
          exact stand
        · exact keeps stand e
      · unfold State.bitCommand at e
        rw [if_neg sending] at e
        cases event : (s.line.hear s.nowPair s.lrxLevel).2 with
        | nothing =>
          rw [event] at e
          cases e
          exact ⟨bit, by rw [State.passBit_line]; exact h.2.hear event⟩
        | failed why =>
          rw [event] at e
          exact .heard (c := .frameError why) rfl (State.passBit_hears released (by simp [event])) bit e
        | frame rx bytes =>
          rw [event] at e
          exact .heard (fromLine_decodeFrame _ _) (State.passBit_hears released (by simp [event])) bit e

theorem LineAndRecordsStand.step {s t : State} (h : LineAndRecordsStand s) (e : step s = .next t) :
    LineAndRecordsStand t := by
  unfold Machine.step at e
  split at e
  · exact h.tick e
  · have queued (q : List Instr) : LineAndRecordsStand { s with pending := q } :=
      ⟨⟨h.1.line, h.1.counters, h.1.pending, h.1.showTime⟩, h.2⟩
    exact exec_keeps (fun _ _ => LineAndRecordsStand.move) LineAndRecordsStand.heldReset (queued _) e

/-- Settles O53: every move keeps the slots, the transmitter and the records; the receive buffer is sound wherever no frame
has just ended, and a frame that has ended leaves the receiver with the command it brings in the same step. -/
theorem stepKeepsLineAndRecords : Obligations.StepKeepsLineAndRecords := fun _ _ line records e =>
  LineAndRecordsStand.iff.mp ((LineAndRecordsStand.iff.mpr ⟨line, records⟩).step e)

end Sys2Proof.Machine
end

