-- ==== Sys2Proof/Proofs/StepAndReset.lean ====
section
/-! PROOFS. The step itself, reset and start-up (R1, R2, R49). -/

set_option Elab.async false

namespace Sys2Proof.Machine

/-- Settles O1. -/
theorem stepTakesFrontCommand : Obligations.StepTakesFrontCommand := by
  intro c s rest front
  rw [step, front]

/-! ### A step on an empty queue -/

theorem step_of_empty {s : State} (empty : s.pending = []) : step s = tick s := by
  rw [step, empty]

theorem State.passBit_eq {s : State} (released : s.ctl.phase ≠ .held) : s.passBit = { s with
    localTimer := s.localTimer + 1
    clock := { s.clock with showTime := s.passBit.clock.showTime }
    inputs := { s.inputs with lrx := s.inputs.lrx.tail }
    line := (s.line.hear s.nowPair s.lrxLevel).1 } := by
  unfold State.passBit State.passTime
  rw [if_neg released]

theorem clampShowTime_eq (t : Int) : clampShowTime t = max (-2147483648) (min 2147483647 t) := by
  unfold clampShowTime clampInt
  omega

theorem State.passBit_showTime {s : State} (released : s.ctl.phase ≠ .held) : s.passBit.clock.showTime =
    if s.ctl.state = .countdown ∨ s.ctl.state = .running ∨ s.ctl.state = .ending then
      max (-2147483648) (min 2147483647 (s.clock.showTime + 1)) else s.clock.showTime := by
  have runs : s.ctl.state.timeRuns = true ↔ s.ctl.state = .countdown ∨ s.ctl.state = .running ∨ s.ctl.state = .ending := by
    cases s.ctl.state <;> simp [ShowState.timeRuns]
  unfold State.passBit State.passTime
  rw [if_neg released]
  dsimp only
  simp only [runs, clampShowTime_eq]
  rfl

/-- A hunting receiver may recognise a start mark, which is no event yet (R24). -/
theorem Line.hear_hunting {l : Line} (h : l.receiver = .hunting) (now : Rx) (level : Bool) :
    (l.hear now level).2 = .nothing := by
  have edge : (l.edge now level).receiver = .hunting := by simp [Line.edge_receiver, h]
  simp [Line.hear, edge]

/-- Settles O2. -/
theorem idleStepMakesWhatIsDue : Obligations.IdleStepMakesWhatIsDue := by
  intro s empty
  rw [step_of_empty empty]
  refine ⟨fun i due => by rw [tick, due], fun due held => by rw [tick, due, if_pos held], fun due released => ?_, ?_, ?_⟩
  · refine ⟨s.passBit, s.passBit_showTime released, s.passBit_eq released, fun none => ?_, fun i some => ?_⟩
    · rw [tick, due, if_neg released, none]
    · rw [tick, due, if_neg released, some]
  · intro silent quiet
    have heard : s.lrxLevel = s.drivenLevel := by rw [State.lrxLevel, silent]
    rw [State.bitCommand, if_pos heard]
    split
    · rfl
    · next still =>
      rw [Line.hear_hunting (quiet.resolve_right still)]
  · intro level rest sending coming other
    have heard : s.lrxLevel = level := by rw [State.lrxLevel, coming]
    rw [State.bitCommand, if_pos sending, if_neg (by rw [heard]; exact other)]

/-! ### While RESET is held (R1) -/

theorem ResetHeld.pins_inactive {s : State} (h : ResetHeld s) : s.pins.inactive := by
  rw [h]
  have reset : State.reset.pins.inactive := by
    unfold Pins.inactive
    decide
  exact reset

/-- The state that a hard reset leaves with some levels of the pins and some queue. -/
def heldState (i : Inputs) (q : List Instr) : State := { State.reset with inputs := i, pending := q }

theorem ResetHeld.eq {s : State} (h : ResetHeld s) : s = heldState s.inputs s.pending := h

/-- No timer runs while RESET is held, and nothing else is under way. -/
theorem heldState_dueSteps (i : Inputs) (q : List Instr) : ∀ d ∈ (heldState i q).dueSteps, d.1 = false := by
  have control : ∀ d ∈ (heldState i q).dueControl ++ (heldState i q).duePeers ++ (heldState i q).dueClock ++
      (heldState i q).dueJet ++ (heldState i q).duePeriods, d.1 = false := by
    simp [State.dueControl, State.duePeers, State.dueClock, State.dueJet, State.duePeriods, heldState, State.reset,
      State.timeUp, State.frameOver, State.issuing, State.stagedReady, ShowState.cueing, State.operating]
  have pumps (c : Channel) : ∀ d ∈ (heldState i q).duePump c, d.1 = false := by
    simp [State.duePump, heldState, State.reset, State.timeUp]
  have nozzles (z : Nozzle) : ∀ d ∈ (heldState i q).dueNozzle z, d.1 = false := by
    simp [State.dueNozzle, heldState, State.reset, State.pullInOver]
  have heads (h : Head) : ∀ d ∈ (heldState i q).dueHead h, d.1 = false := by
    simp [State.dueHead, heldState, State.reset, State.timeUp, State.legDue]
  intro d mem
  simp only [State.dueSteps, List.mem_append, List.mem_flatMap] at mem control
  rcases mem with (((mem | ⟨c, _, mem⟩) | ⟨z, _, mem⟩) | ⟨h, _, mem⟩) | mem
  · exact control d (.inl mem)
  · exact pumps c d mem
  · exact nozzles z d mem
  · exact heads h d mem
  · exact control d (.inr mem)

theorem ResetHeld.dueNow {s : State} (h : ResetHeld s) : s.dueNow = none := by
  rw [h.eq, State.dueNow, Option.map_eq_none_iff, List.find?_eq_none]
  exact fun d mem => by simp [heldState_dueSteps _ _ d mem]

/-- A command that finds RESET held does no more than note the levels it carries (R1). -/
theorem exec_held {c : Instr} (reset : c ≠ .hardReset) (release : ∀ stn rh, c ≠ .resetRelease stn rh) (i : Inputs)
    (q : List Instr) : ∃ j, exec c (heldState i q) = .next (heldState j q) := by
  have deaf : (heldState i q).hears = false := rfl
  have peer (k : Peer) : (heldState i q).peers.entries[k] = {} := by simp [heldState, State.reset]
  have pump (k : Channel) : (heldState i q).pump.pumps[k] = {} := by simp [heldState, State.reset]
  have nozzle (k : Nozzle) : (heldState i q).pump.nozzles[k] = {} := by simp [heldState, State.reset]
  have head (k : Head) : (heldState i q).head.heads[k] = {} := by simp [heldState, State.reset]
  cases line : fromLine c with
  | true =>
    obtain ⟨j, e, _⟩ := exec_unheard line deaf
    exact ⟨j, e⟩
  | false =>
    cases c with
    | hardReset => exact absurd rfl reset
    | resetRelease stn rh => exact absurd rfl (release stn rh)
    | peerLapse k => exact ⟨i, by rw [exec, execPeerLapse, peer]; rfl⟩
    | peerLost k => exact ⟨i, by rw [exec, execPeerLost, peer]; rfl⟩
    | startTimerExpiry k => exact ⟨i, by rw [exec, execStartTimerExpiry, pump]⟩
    | holdOffExpiry k pflt => exact ⟨_, by rw [exec, execHoldOffExpiry, pump]; rfl⟩
    | flowSilenceTimeout k => exact ⟨i, by rw [exec, execFlowSilenceTimeout, pump]⟩
    | rehearsalStartingExpiry k => exact ⟨i, by rw [exec, execRehearsalStartingExpiry, pump]⟩
    | valvePullInEnd k => exact ⟨i, by rw [exec, execValvePullInEnd, nozzle]⟩
    | nozzleClimbComplete k =>
      refine ⟨i, ?_⟩
      rw [exec, execNozzleClimbComplete, nozzle]
      dsimp only
      split <;> rfl
    | nozzleFallComplete k => exact ⟨i, by rw [exec, execNozzleFallComplete, nozzle]; rfl⟩
    | homeIntervalExpiry k hhom => exact ⟨_, by rw [exec, execHomeIntervalExpiry, head]; rfl⟩
    | stepIntervalExpiry k => exact ⟨i, by rw [exec, execStepIntervalExpiry, head]⟩
    | reversalPauseEnd k => exact ⟨i, by rw [exec, execReversalPauseEnd, head]⟩
    | settlePauseEnd k hhom => exact ⟨_, by rw [exec, execSettlePauseEnd, head]; rfl⟩
    | sweepLegBoundary k => exact ⟨i, by rw [exec, execSweepLegBoundary, head]⟩
    | _ => exact ⟨_, rfl⟩

/-- Settles O4. -/
theorem resetHeldIsInactive : Obligations.ResetHeldIsInactive := by
  have reset (s : State) : ResetHeld s.heldReset := rfl
  refine ⟨fun s => ⟨s.heldReset, rfl, reset s, rfl, (reset s).pins_inactive⟩, fun c s held release => ?_⟩
  have stands (j : Inputs) : ResetHeld (heldState j s.pending) := rfl
  by_cases hard : c = .hardReset
  · subst hard
    exact ⟨s.heldReset, rfl, reset s, (reset s).pins_inactive, (reset s).dueNow⟩
  · obtain ⟨j, e⟩ := exec_held hard release s.inputs s.pending
    exact ⟨_, held.eq ▸ e, stands j, (stands j).pins_inactive, (stands j).dueNow⟩

/-! ### Start-up (R2) -/

theorem State.afterSettling_of_bad {s : State} (bad : ¬ (1 ≤ s.ctl.station ∧ s.ctl.station ≤ 24)) :
    s.afterSettling = { s with ctl := { s.ctl with phase := .done, state := .configFault, reason := 0 } } := by
  have invalid : s.validNumber = false := by simpa [State.validNumber] using bad
  simp [State.afterSettling, State.enterConfigFault, invalid]

theorem State.afterSettling_of_good {s : State} (good : 1 ≤ s.ctl.station ∧ s.ctl.station ≤ 24) :
    s.afterSettling =
      (State.makeRequest .config 0 expectHeader { s with ctl := { s.ctl with phase := .loadingConfig } }).grant :=
  if_pos (by simpa [State.validNumber] using good)

/-- A free port is granted to a request that stands (R69). -/
theorem State.grant_port {s : State} (free : s.store.port = none) (asked : s.store.configReq.isSome) :
    s.grant.store.port.isSome := by
  obtain ⟨r, choice⟩ : ∃ r, s.grantChoice = some r := by
    unfold State.grantChoice
    simp only [if_pos asked]
    split <;> exact ⟨_, rfl⟩
  unfold State.grant
  rw [free, choice]
  rfl

/-- The state in which the settling wait is over. -/
def State.atSettling (t0 : Nat) (s : State) : State :=
  { s.passTo t0 with ctl := { (s.passTo t0).ctl with settleTimer := none } }

theorem State.atSettling_keeps (t0 : Nat) (s : State) :
    (s.atSettling t0).ctl = { s.ctl with settleTimer := none } ∧ (s.atSettling t0).line = s.line ∧
      (s.atSettling t0).clock.paceTimer = s.clock.paceTimer ∧ (s.atSettling t0).store = s.store := by
  simp [State.atSettling]

theorem exec_settlingExpiry {s : State} {t0 : Nat} (timer : s.ctl.settleTimer = some t0) :
    exec .settlingExpiry s = .next (s.atSettling t0).afterSettling := by
  rw [exec, execSettlingExpiry, timer]
  rfl

/-- Settles O5. -/
theorem releaseThenSettling : Obligations.ReleaseThenSettling := by
  refine ⟨fun s stn rh held => ⟨_, by rw [exec, execResetRelease, if_pos held], rfl⟩, fun s t0 timer => ?_⟩
  obtain ⟨ctl, line, pace, store⟩ := s.atSettling_keeps t0
  have station : (s.atSettling t0).ctl.station = s.ctl.station := by rw [ctl]
  refine ⟨_, exec_settlingExpiry timer, ?_⟩
  by_cases good : 1 ≤ s.ctl.station ∧ s.ctl.station ≤ 24
  · rw [State.afterSettling_of_good (by rw [station]; exact good)]
    refine ⟨by simp [ctl], fun bad => absurd good bad, fun _ => ⟨by simp [ctl], by simp, ?_, fun free => ?_⟩⟩
    · rw [State.grant_store]
      simp
    · exact State.grant_port (by simpa [store] using free) (by simp)
  · rw [State.afterSettling_of_bad (by rw [station]; exact good)]
    exact ⟨by simp [ctl], fun _ => ⟨rfl, line, pace, store⟩, fun h => absurd h good⟩

/-! ### The state of hard reset -/

/-- Settles O59: the state of hard reset is what a hard reset makes of itself. -/
theorem resetIsSound : Obligations.ResetIsSound := by
  obtain ⟨line, records⟩ := LineAndRecordsStand.iff.mp (LineAndRecordsStand.heldReset State.reset)
  exact ⟨ControlInv.heldReset State.reset, line, records, .of_empty rfl, .of_unloaded ⟨rfl, rfl, rfl⟩,
    ValvesStand.heldReset State.reset, WaterOff.heldReset State.reset, LampsStand.heldReset State.reset⟩

end Sys2Proof.Machine
end

