-- ==== Sys2Proof/Proofs/StateEntries.lean ====
section
/-! PROOFS. What the changes of the show state leave (R11, R13, R14, R16, R127, R155): the facts that the statements about
commands share. -/

set_option Elab.async false

namespace Sys2Proof.Machine

/-! ### The end of a step -/

/-- Nothing completes at the end of a step outside LOADING and ENDING; a grant is decided. -/
theorem State.settle_of_calm {s : State} (loading : s.ctl.state ≠ .loading) (ending : s.ctl.state ≠ .ending) :
    s.settle = s.grant := State.settle_eq_grant loading ending

/-- Where the end of ENDING has been examined already, the end of the step does not examine it again to any effect. -/
theorem State.checkEnding_settle {s : State} (loading : s.ctl.state ≠ .loading) : s.checkEnding.settle = s.checkEnding.grant := by
  have again : s.checkEnding.checkEnding = s.checkEnding := by
    by_cases done : s.ctl.state = .ending ∧ s.pumpsStopped ∧ s.headsStill ∧ s.ctl.lightRunOut ∧ s.ctl.audioRunOut
    · have ended : s.checkEnding = s.enterIdle false := if_pos done
      rw [ended]
      exact if_neg fun h => by simp at h
    · have going : s.checkEnding = s := if_neg done
      rw [going, going]
  have unarmed : s.checkEnding.checkArmed = s.checkEnding := if_neg fun h => State.checkEnding_not_loading loading h.1
  rw [State.settle, unarmed, again]

theorem State.checkEnding_cases (s : State) :
    s.checkEnding = s ∨ (s.ctl.state = .ending ∧ s.checkEnding = s.enterIdle false) := by
  unfold State.checkEnding
  split
  · next h => exact .inr ⟨h.1, rfl⟩
  · exact .inl rfl

/-! ### Goals outside COUNTDOWN and RUNNING (R115) -/

theorem State.goalOf_of_still {s : State} (still : s.ctl.state.cueing = false) (c : Channel) : s.goalOf c = 0 := by
  simp [State.goalOf, still]

/-- No pump starts without a goal, so none trips. -/
theorem State.actGoal_mon {s : State} (still : s.ctl.state.cueing = false) (b : Bool) (c : Channel) :
    (s.actGoal b c).mon = s.mon := by
  unfold State.actGoal
  rw [State.goalOf_of_still still]
  dsimp only
  (repeat' split) <;> first | rfl | omega

theorem State.workGoals_mon {s : State} (still : s.ctl.state.cueing = false) : s.workGoals.mon = s.mon := by
  have kept : ∀ (l : List Channel) (u : State), u.ctl.state.cueing = false →
      (l.foldl (fun s c => s.actGoal false c) u).mon = u.mon := by
    intro l
    induction l with
    | nil => exact fun _ _ => rfl
    | cons c l ih => exact fun u hu => (ih _ (by simpa using hu)).trans (State.actGoal_mon hu false c)
  simpa [State.workGoals] using kept (List.finRange 4) s still

/-! ### Entry to IDLE (R14) -/

theorem State.enterIdle_mon (soft : Bool) (s : State) : (s.enterIdle soft).mon = s.mon := by
  unfold State.enterIdle
  rw [State.workGoals_mon (by cases soft <;> simp [ShowState.cueing])]
  cases soft <;> simp

/-- Cue Sequencer after the entry to IDLE. -/
theorem State.enterIdle_seq (soft : Bool) (s : State) :
    (s.enterIdle soft).seq.queue = [] ∧ (s.enterIdle soft).seq.table = Vector.replicate 4 none ∧
      (s.enterIdle soft).seq.staged = none ∧ (s.enterIdle soft).seq.partialRec = none := by
  cases soft <;> simp [State.enterIdle, State.clearSequencer, State.resetSection]

theorem State.enterIdle_music (soft : Bool) (s : State) :
    (s.enterIdle soft).music.fifo = [] ∧ (s.enterIdle soft).music.playIndex = 0 := by
  cases soft <;> simp [State.enterIdle, State.flushMusic, Music.flush]

theorem State.enterIdle_requests (soft : Bool) (s : State) :
    (s.enterIdle soft).store.cueReq = none ∧ (s.enterIdle soft).store.audioReq = none := by
  cases soft <;> simp [State.enterIdle]

/-- A peer entry after the entry to IDLE: its offset is absent, and a LOST one is ABSENT (R39, R41). -/
def PeerEntry.idle (e : PeerEntry) : PeerEntry :=
  if e.fresh = .lost then { e with offset := none, fresh := .absent, pace := none } else { e with offset := none }

theorem PeerEntry.idle_alert (e : PeerEntry) : e.idle.alert = e.alert := by
  unfold PeerEntry.idle
  split <;> rfl

theorem PeerEntry.idle_offset (e : PeerEntry) : e.idle.offset = none := by
  unfold PeerEntry.idle
  split <;> rfl

theorem State.idlePeers_entries (s : State) :
    s.idlePeers.peers.entries = Vector.ofFn fun k : Fin 24 => (s.peers.entries[k]).idle := by
  have cleaned : (Vector.ofFn fun k : Fin 24 => (s.peers.entries[k]).idle) = Vector.ofFn fun k : Fin 24 =>
      let e := s.dropOffsets.peers.entries[k]
      if e.fresh = .lost then { e with fresh := .absent, pace := none } else e := by
    ext1 i hi
    simp [State.dropOffsets, PeerEntry.idle]
  rw [cleaned]
  unfold State.idlePeers State.reportPeers
  dsimp only
  split
  · next same => exact same.symm
  · simp

theorem State.enterIdle_entries (s : State) :
    (s.enterIdle false).peers.entries = Vector.ofFn fun k : Fin 24 => (s.peers.entries[k]).idle := by
  unfold State.enterIdle
  simp only [State.workGoals_keeps, Bool.false_eq_true, if_false, State.idlePeers_entries]
  simp

/-- A soft restart keeps Peer View (R19, R41). -/
theorem State.enterIdle_soft_peers (s : State) : (s.enterIdle true).peers = s.peers := by
  simp [State.enterIdle]

end Sys2Proof.Machine
end

