-- ==== Sys2Proof/Proofs/DeskCommands.lean ====
section
/-! PROOFS. The desk commands (R5, R6, R8, R11, R12, R18 to R20). -/

set_option Elab.async false

namespace Sys2Proof.Machine

/-! ### A command that reaches Show Control -/

theorem State.deskCommand_taken {s : State} (h : s.hears = true) (op : s.operating = true) (c : Instr)
    (take : State → State) : s.deskCommand c take = take (s.frameDone c) := by
  rw [State.deskCommand, if_neg (by simp [h])]
  exact if_pos op

/-- What a desk command brings that is heard while the blocks work. -/
theorem next_deskCommand {s t : State} (h : s.hears = true) (op : s.operating = true) (c : Instr) (take : State → State)
    (e : take (s.frameDone c) = t) : Host.Outcome.next (φ := Fault) (ρ := Refusal) (s.deskCommand c take) = .next t := by
  rw [State.deskCommand_taken h op, e]

@[simp] theorem State.frameDone_slots (c : Instr) (s : State) :
    (s.frameDone c).line.tx = s.line.tx ∧ (s.frameDone c).line.alertSlot = s.line.alertSlot ∧
      (s.frameDone c).line.reportSlot = s.line.reportSlot ∧ (s.frameDone c).line.paceSlot = s.line.paceSlot :=
  ⟨rfl, rfl, rfl, rfl⟩

/-- The end of a frame is the receiver's alone. -/
theorem State.frameDone_eq (c : Instr) (s : State) : s.frameDone c = { s with line := (s.frameDone c).line } := rfl

/-- A command that is ignored (R5). -/
theorem State.ignore_frameDone (c : Instr) (code : Nat) (s : State) : (s.frameDone c).ignore code = { s with
    line := (s.frameDone c).line
    mon := s.mon.count { kind := .commandIgnored, time := s.clock.showTime, cueId := none, object := some code } } := rfl

theorem State.selectable_iff (s : State) :
    s.selectable = true ↔ s.ctl.state = .idle ∨ s.ctl.state = .loading ∨ s.ctl.state = .armed := by
  cases h : s.ctl.state <;> simp [State.selectable, h]

/-- The latest of some alert times is old exactly when each of them is (R47). -/
theorem latest_old (now : Nat) (l : List Nat) (first : Option Nat) :
    (∀ t, l.foldl (fun a t => match a with | none => some t | some u => some (max u t)) first = some t → t + 500000 < now) ↔
      (∀ t, first = some t → t + 500000 < now) ∧ ∀ t ∈ l, t + 500000 < now := by
  induction l generalizing first with
  | nil => simp
  | cons x xs ih =>
    rw [List.foldl_cons, ih]
    cases first with
    | none => simp
    | some u =>
      simp only [Option.some.injEq, forall_eq', List.mem_cons, forall_eq_or_imp]
      rw [← and_assoc]
      exact and_congr_left' (by omega)

theorem PeerView.latestAlert_old (v : PeerView) (now : Nat) : (∀ t, v.latestAlert = some t → t + 500000 < now) ↔
    ∀ (k : Peer) (a : Nat), (v.entries[k]).alert = some a → a + 500000 < now := by
  have old := latest_old now (v.entries.toList.filterMap fun e => e.alert) none
  simp only [reduceCtorEq, false_implies, implies_true, true_and, List.mem_filterMap] at old
  refine Iff.trans ?_ (old.trans ?_)
  · unfold PeerView.latestAlert
    exact Iff.rfl
  · constructor
    · intro h k a e
      exact h a ⟨v.entries[k], by simp, e⟩
    · rintro h a ⟨e, mem, alert⟩
      obtain ⟨k, hk, rfl⟩ := List.getElem_of_mem mem
      exact h ⟨k, by simpa using hk⟩ a (by simpa using alert)

/-- The conditions on which a station in SAFE is cleared (R18). -/
theorem State.clearable_iff (s : State) : s.clearable = true ↔ s.ctl.state = .safe ∧ s.inputs.estop = false ∧
    s.inputs.lowlvl = false ∧ ∀ (k : Peer) (a : Nat), (s.peers.entries[k]).alert = some a → a + 500000 < s.localTimer := by
  rw [← PeerView.latestAlert_old]
  unfold State.clearable
  cases s.peers.latestAlert <;> simp [and_assoc]

theorem clampDelay_eq (delay : Nat) : clampDelay delay = max 1000 (min delay 60000) := by
  unfold clampDelay clampNat
  split_ifs <;> omega

theorem State.noteDelay_frameDone (delay : Nat) (c : Instr) (s : State) : (s.frameDone c).noteDelay delay =
    { s with line := (s.frameDone c).line, mon := (s.noteDelay delay).mon } := by
  unfold State.noteDelay
  split <;> rfl

theorem State.takeStop_ignored {s : State} (h : s.ctl.state = .idle ∨ s.ctl.state = .ending ∨ s.ctl.state = .safe) :
    s.takeStop = s.ignore 20 := by
  unfold State.takeStop
  rcases h with h | h | h <;> rw [h]

theorem State.takeRestart_ignored {s : State} (idle : s.ctl.state ≠ .idle) (armed : s.ctl.state ≠ .armed)
    (safe : s.ctl.state ≠ .safe) : s.takeRestart = s.ignore 22 := by
  unfold State.takeRestart
  split <;> simp_all

/-- Settles O13. -/
theorem ignoredCommandsOnlyCount : Obligations.IgnoredCommandsOnlyCount := by
  intro s h op ignored result
  have desk (c : Instr) (take : State → State) (i : Inputs) (code : Nat)
      (refused : take (State.frameDone c { s with inputs := i }) = (State.frameDone c { s with inputs := i }).ignore code) :
      Host.Outcome.next (φ := Fault) (ρ := Refusal) (State.deskCommand c take { s with inputs := i }) =
        .next { s with inputs := i, line := (s.frameDone c).line, mon := ignored s.mon code } := by
    rw [State.deskCommand_taken (s := { s with inputs := i }) h op, refused, State.ignore_frameDone]
    rfl
  refine ⟨fun n hhom no => ?_, fun n delay rx no => ?_, fun no => ?_, fun pflt no => ?_, fun no => ?_, fun estop no => ?_,
    fun target addressed idle armed safe => ?_, fun target clearFlag no => ?_⟩
  · refine desk _ _ _ _ (if_neg fun yes => ?_)
    have selectable := (State.selectable_iff _).mp yes.2
    simp only [State.frameDone_keeps] at selectable
    rcases no with no | no
    · exact yes.1 no
    · tauto
  · refine Eq.trans (congrArg Host.Outcome.next (State.deskCommand_taken h op _ _)) ?_
    have neither (m : ShowState) (hm : m = .armed ∨ m = .loading) :
        ¬ (n.toNat ≠ 0 ∧ n.toNat = s.ctl.selected ∧ s.ctl.state = m) := by
      rintro ⟨shown, selected, state⟩
      rcases no with no | no | no
      · exact shown no
      · exact no selected
      · rcases hm with rfl | rfl
        · exact no.2 state
        · exact no.1 state
    unfold State.takeStart
    dsimp only
    simp only [State.frameDone_keeps, if_neg (neither .armed (.inl rfl)), if_neg (neither .loading (.inr rfl))]
    rw [State.noteDelay_frameDone]
    rfl
  · exact desk .hold _ s.inputs _ (if_neg no)
  · exact desk _ _ _ _ (if_neg no)
  · exact desk .stop _ s.inputs _ (State.takeStop_ignored no)
  · refine desk _ _ _ _ (if_neg fun yes => ?_)
    obtain ⟨safe, quiet, low, old⟩ := (State.clearable_iff _).mp yes
    simp only [State.frameDone_keeps] at safe quiet low old
    rcases no with no | no | no | ⟨k, a, alert, young⟩
    · exact no safe
    · exact absurd (quiet.symm.trans no) (by decide)
    · exact absurd (low.symm.trans no) (by decide)
    · have := old k a alert
      omega
  · refine desk (.restart target) _ s.inputs _ ((if_pos addressed).trans ?_)
    exact State.takeRestart_ignored idle armed safe
  · refine desk (.query target clearFlag) _ s.inputs _ ?_
    rcases no with all | ⟨here, full⟩
    · exact if_pos all
    · by_cases all : target.toNat = 255
      · exact if_pos all
      · exact (if_neg all).trans ((if_neg (not_not.mpr here)).trans (if_pos full))

/-! ### CLEAR (R18) -/

/-- Settles O10. -/
theorem clearLeavesSafe : Obligations.ClearLeavesSafe := by
  intro s h safe low old
  let u : State := State.frameDone (.clear false) { s with inputs := { s.inputs with estop := false } }
  have clearable : u.clearable = true := (State.clearable_iff u).mpr ⟨safe, rfl, low, old⟩
  have op : s.operating = true := by rw [State.operating, safe]
  have next : exec (.clear false) s = .next (u.emptySafe.enterIdle false).grant := by
    refine next_deskCommand (s := { s with inputs := { s.inputs with estop := false } }) h op _ _ ?_
    exact (if_pos clearable).trans (State.settle_of_calm (by simp) (by simp))
  refine ⟨_, next, by simp, by simp [State.emptySafe], by simp [State.emptySafe], by simp, by simp [u], ?_, by simp [u],
    fun k => ?_⟩
  · rw [(State.grant_keeps _).2.2.2.2.2.2.2.2.2.2.2.2.1, State.enterIdle_mon]
    simp [u]
  · have entries : (u.emptySafe.enterIdle false).grant.peers.entries = _ :=
      (congrArg PeerView.entries (by simp)).trans (State.enterIdle_entries u.emptySafe)
    rw [entries]
    simp [PeerEntry.idle_alert, u]

/-! ### QUERY (R20, R169) -/

theorem CounterRec.bytes_length (c : CounterRec) : c.bytes.length = 14 := by
  simp [CounterRec.bytes, bytes16, bytes32]

theorem ReportImage.bytes_length (r : ReportImage) : r.bytes.length = 64 := by
  have counters : (r.counters.toList.flatMap CounterRec.bytes).length = 56 := by
    simp [List.length_flatMap, CounterRec.bytes_length]
  simp [ReportImage.bytes, counters, bytes16]

/-- Settles O12. -/
theorem queryBuildsReport : Obligations.QueryBuildsReport := by
  intro s target clearFlag h op all here empty
  let u : State := State.frameDone (.query target clearFlag) s
  have next : exec (.query target clearFlag) s = .next (u.takeQuery (clearFlag.toNat ≠ 0)) := by
    refine next_deskCommand h op _ _ ?_
    exact (if_neg all).trans ((if_neg (not_not.mpr here)).trans (if_neg (by simp [empty])))
  refine ⟨_, u.buildReport (clearFlag.toNat ≠ 0), next, ?_, rfl, Line.fill_tx _, ?_, ?_, rfl, rfl, rfl, rfl, rfl, rfl, rfl,
    decide_eq_true_iff, ReportImage.bytes_length _, ?_, fun clear => ?_, fun clear => ⟨u.mon.snapshot, ?_, fun i => ?_⟩⟩
  · simp [State.takeQuery, Line.placeReport]
  · simp [State.takeQuery, Line.placeReport, u]
  · simp [State.takeQuery, Line.placeReport, u]
  · unfold State.takeQuery
    dsimp only
    split <;> rfl
  · simp [State.takeQuery, clear, u]
  · simp [State.takeQuery, clear]
  · simp [Monitor.snapshot, u]

end Sys2Proof.Machine
end

