-- ==== Sys2Proof/Proofs/TimersAndFigures.lean ====
section
/-! PROOFS. The timers that set or clear one item (R27, R57, R59, R128), the wind (R97 to R99), the water's flow and the
nozzles (R122 to R125), the ageing of peer entries (R40, R43, R48), and the alerts of an asserted input (R17). -/

set_option Elab.async false

namespace Sys2Proof.Machine

/-! ### Flag timers -/

/-- Settles O27. -/
theorem flagTimersExpire : Obligations.FlagTimersExpire := by
  refine ⟨fun s t0 timer => ⟨_, ?_, rfl⟩, fun s t0 timer => ⟨_, ?_, rfl⟩, fun s t0 timer => ⟨_, ?_, rfl⟩,
    fun s c t0 timer starting => ⟨_, ?_, rfl⟩⟩
  · show execDuplicateTimerExpiry s = _
    simp [execDuplicateTimerExpiry, timer]
  · show execStepRecentTimerExpiry s = _
    simp [execStepRecentTimerExpiry, timer]
  · show execSolitudeTimerExpiry s = _
    simp [execSolitudeTimerExpiry, timer]
  · show execRehearsalStartingExpiry c s = _
    unfold execRehearsalStartingExpiry
    simp only [timer, starting, if_true, State.setPump, State.passTo_keeps]

/-! ### Wind -/

theorem State.askPass_jet (s : State) : s.askPass.jet = { s.jet with passDue := s.jet.passDue || s.operating } := by
  unfold State.askPass
  split
  · next op => simp [op]
  · next op => simp [op]

/-- The filtered wind after a step of the filter (R98). -/
def State.nextWind (s : State) : Nat := if s.jet.wf ≤ s.effectiveWind then s.effectiveWind else s.jet.wf - 1

theorem State.effectiveWind_congr {s t : State} (peers : t.peers = s.peers) (config : t.store.config = s.store.config)
    (wind : t.jet.rawWind = s.jet.rawWind) : t.effectiveWind = s.effectiveWind := by
  unfold State.effectiveWind
  rw [peers, config, wind]

theorem State.operating_congr {s t : State} (state : t.ctl.state = s.ctl.state) : t.operating = s.operating := by
  unfold State.operating
  rw [state]

/-- What the wind filter makes of the figures (R98, R99). -/
theorem State.filterWind_jet (s : State) : s.filterWind.jet = { s.jet with
    wf := s.nextWind
    derate := derateOf s.store.config s.nextWind
    passDue := s.jet.passDue || (s.operating && derateOf s.store.config s.nextWind != s.jet.derate) } := by
  have unfolded : s.filterWind = if derateOf s.store.config s.nextWind = s.jet.derate
      then { s with jet := { s.jet with wf := s.nextWind, derate := derateOf s.store.config s.nextWind } }
      else State.askPass { s with jet := { s.jet with wf := s.nextWind, derate := derateOf s.store.config s.nextWind } } := rfl
  rw [unfolded]
  split
  · next same => simp [same]
  · next other =>
    rw [State.askPass_jet]
    have changed : (derateOf s.store.config s.nextWind != s.jet.derate) = true := bne_iff_ne.mpr other
    simp [changed, State.operating]

/-- Settles O35. -/
theorem windBecomesDerate : Obligations.WindBecomesDerate := by
  refine ⟨fun s op anemometer => ?_, fun s t0 edge => ⟨_, ?_, rfl⟩, fun s t0 timer order => ?_⟩
  · refine ⟨{ s with jet := s.windEdgeAt }, congrArg Host.Outcome.next (if_pos ⟨op, anemometer⟩), ?_, fun t0 edge => ?_, fun edge => ?_⟩
    · simp only [State.windEdgeAt]
      cases s.jet.windEdge <;> rfl
    · simp [State.windEdgeAt, edge]
    · simp [State.windEdgeAt, edge]
  · show execWindCalmTimeout s = _
    simp [execWindCalmTimeout, edge]
  · let u : State := { s.passTo t0 with jet := { s.jet with windFilter := some (t0 + 100000) } }
    have next : exec .windFilterPeriod s = .next u.filterWind := by
      show execWindFilterPeriod s = _
      simp [execWindFilterPeriod, timer, u]
    have jet := u.filterWind_jet
    have config : u.store.config = s.store.config := by simp [u]
    have wind : u.effectiveWind = s.effectiveWind := State.effectiveWind_congr (by simp [u]) config rfl
    have op : u.operating = s.operating := State.operating_congr (by simp [u])
    have wf : u.filterWind.jet.wf = u.nextWind := by rw [jet]
    have derate : u.filterWind.jet.derate = derateOf s.store.config u.filterWind.jet.wf := by rw [jet, config]
    refine ⟨_, next, by rw [jet], by rw [wf, State.nextWind, wind], ⟨fun low => ?_, fun high => ?_, fun above below => ?_⟩, ?_⟩
    · rw [derate, derateOf, if_pos low]
    · rw [derate, derateOf, if_neg (by omega), if_pos high]
    · rw [derate, derateOf, if_neg (by omega), if_neg (by omega)]
    · rw [derate, wf, jet, config, op]

/-! ### Flow, valves and nozzles -/

/-- Settles O39. -/
theorem flowAndNozzlesFollowTheWater : Obligations.FlowAndNozzlesFollowTheWater := by
  refine ⟨fun s c op present rehearsal => ?_, fun s c t0 edge => ⟨_, ?_, rfl⟩, fun s z t0 drive => ⟨_, ?_, rfl⟩,
    fun s z t0 rising settle => ?_, fun s z falling => ?_⟩
  · refine ⟨_, congrArg Host.Outcome.next (if_pos ⟨op, present, rehearsal⟩), fun t0 edge => ?_, fun edge => ?_⟩
    · simp only [edge]
    · simp only [edge]
  · show execFlowSilenceTimeout c s = _
    simp only [execFlowSilenceTimeout, edge]
  · show execValvePullInEnd z s = _
    simp only [execValvePullInEnd, drive]
  · let u : State := (s.passTo (max (s.pump.nozzles[z]).openedAt t0 + flight (s.pumpOf z).hd * 1000)).setNozzle z
      { s.pump.nozzles[z] with state := .wet }
    have next : exec (.nozzleClimbComplete z) s = .next u.regate := by
      show execNozzleClimbComplete z s = _
      simp only [execNozzleClimbComplete, State.climbEnd, settle, rising, if_true, u]
    exact ⟨_, next, by simp [u, flight], by simp [u, State.setNozzle], u.regate_stand⟩
  · let u : State := (s.passTo (s.fallEnd z)).setNozzle z { s.pump.nozzles[z] with state := .dry }
    have next : exec (.nozzleFallComplete z) s = .next u.regate := by
      show execNozzleFallComplete z s = _
      simp only [execNozzleFallComplete, falling, if_true, u]
    exact ⟨_, next, by simp [u, flight, State.fallEnd], by simp [u, State.setNozzle], u.regate_stand⟩

/-! ### Peers that fall silent -/

theorem PeerView.other_eq (v : PeerView) : v.other = (v.entries.toList.map fun e => e.drawTerm).sum :=
  List.sum_eq_foldl.symm

theorem State.reportPeers_jet (s : State) :
    s.reportPeers.jet.other = s.peers.other ∧ (s.operating = true → s.reportPeers.jet.passDue = true) := by
  unfold State.reportPeers
  refine ⟨?_, fun op => ?_⟩
  · unfold State.askPass
    split <;> rfl
  · rw [State.askPass_jet]
    exact Bool.or_eq_true_iff.mpr (.inr op)

theorem PeerView.noneFresh_iff (v : PeerView) : v.noneFresh = true ↔ ∀ j : Peer, (v.entries[j]).fresh ≠ .fresh := by
  simp only [PeerView.noneFresh, List.all_eq_true, bne_iff_ne]
  constructor
  · exact fun h j => h _ (by simp)
  · intro h e mem
    obtain ⟨j, hj, rfl⟩ := List.getElem_of_mem mem
    simpa using h ⟨j, by simpa using hj⟩

/-- Settles O19. -/
theorem silentPeersAge : Obligations.SilentPeersAge := by
  refine ⟨fun s k fresh => ?_, fun s k lapsed => ?_⟩
  · let u : State := s.passTo (s.arrivalOf k + 60000)
    let v : State := (u.setPeer k { s.peers.entries[k] with fresh := .lapsed }).reportPeers
    have next : exec (.peerLapse k) s = .next (u.lapsePeer k) := congrArg Host.Outcome.next (if_pos fresh)
    have lapse : u.lapsePeer k = if v.peers.noneFresh ∧ s.ctl.state.underWay then
        { v with clock := { v.clock with solitude := some (u.localTimer + 2000000) } } else v := by
      unfold State.lapsePeer
      simp [u, v]
    have peers : (u.lapsePeer k).peers = v.peers := by rw [lapse]; split <;> rfl
    have jet : (u.lapsePeer k).jet = v.jet := by rw [lapse]; split <;> rfl
    have entries : v.peers.entries = s.peers.entries.set k { s.peers.entries[k] with fresh := .lapsed } := by simp [v, u]
    obtain ⟨other, pass⟩ := State.reportPeers_jet (u.setPeer k { s.peers.entries[k] with fresh := .lapsed })
    refine ⟨_, next, by rw [peers, entries], ?_, fun op => ?_, fun none underWay => ?_⟩
    · rw [jet, peers, other, PeerView.other_eq]
      simp [v]
    · rw [jet]
      exact pass ((State.operating_congr (by simp [u])).trans op)
    · rw [lapse, if_pos ⟨(PeerView.noneFresh_iff _).mpr (peers ▸ none), underWay⟩]
      simp [v]
  · let u : State := (s.passTo (s.arrivalOf k + 2000000)).setPeer k { s.peers.entries[k] with fresh := .lost }
    have next : exec (.peerLost k) s = .next u.reportPeers :=
      congrArg Host.Outcome.next ((if_pos lapsed).trans (by simp [State.losePeer, u]))
    obtain ⟨other, pass⟩ := u.reportPeers_jet
    refine ⟨_, next, by simp [u], by rw [other, PeerView.other_eq]; simp [u], fun op => ?_⟩
    exact pass ((State.operating_congr (by simp [u])).trans op)

/-! ### Alerts -/

/-- ALERT generation begins (R17, R29). -/
theorem State.startAlerts_slots (cause : AlertCause) (s : State) : (s.startAlerts cause).line.alertSlot = some cause ∧
    (s.startAlerts cause).ctl.alertTimer = some (s.localTimer + 100000) ∧ (s.startAlerts cause).line.tx ≠ .quiet ∧
    (s.startAlerts cause).line.alertTries = s.line.alertTries := by
  unfold State.startAlerts State.queueAlert Line.queueAlert
  refine ⟨by simp, rfl, Line.fill_tx _, ?_⟩
  unfold Line.fill Line.noteReplaced
  dsimp only
  split_ifs <;> rfl

/-- An asserted input brings its ALERT where the blocks work and in CONFIG FAULT with a valid number (R3, R17). -/
theorem State.inputAsserted_alerts {s : State}
    (works : s.operating = true ∨ (s.ctl.state = .configFault ∧ 1 ≤ s.ctl.station ∧ s.ctl.station ≤ 24))
    (cause : SafeCause) (alert : AlertCause) :
    (s.inputAsserted cause alert).line.alertSlot = some alert ∧
      (s.inputAsserted cause alert).ctl.alertTimer = some (s.localTimer + 100000) ∧
      (s.inputAsserted cause alert).line.tx ≠ .quiet ∧
      (s.inputAsserted cause alert).line.alertTries = s.line.alertTries := by
  rcases works with op | ⟨fault, number⟩
  · have begun := State.startAlerts_slots alert (s.enterSafe cause)
    have settled : (s.inputAsserted cause alert) = (s.assertInput cause alert).settle := if_pos op
    have safe : (s.assertInput cause alert).ctl.state = .safe := by
      rw [State.assertInput, State.startAlerts_state, State.enterSafe_state cause op]
    rw [settled, State.settle_ctl_of_safe safe, (State.settle_keeps _).2.2.1]
    simpa [State.assertInput] using begun
  · have idle : ¬ s.operating = true := by simp [State.operating, fault]
    have begun : s.inputAsserted cause alert = s.startAlerts alert :=
      (if_neg idle).trans (if_pos ⟨fault, by simp [State.validNumber, number]⟩)
    rw [begun]
    exact State.startAlerts_slots alert s

/-- Settles O17. -/
theorem alertsWhileAnInputIsAsserted : Obligations.AlertsWhileAnInputIsAsserted := by
  refine ⟨fun s c alert works asserted => ?_, fun s estop t0 timer => ?_⟩
  · rcases asserted with ⟨rfl, rfl⟩ | ⟨rfl, rfl⟩
    · exact ⟨_, rfl, State.inputAsserted_alerts (s := { s with inputs := { s.inputs with estop := true } }) works _ _⟩
    · refine ⟨State.regate _, rfl, ?_⟩
      simpa using State.inputAsserted_alerts (s := { s with inputs := { s.inputs with lowlvl := true } }) works .lowLevel .lowLevel
  · let u : State := State.passTo t0 { s with inputs := { s.inputs with estop := estop } }
    have next : exec (.alertTimerExpiry estop) s = .next u.alertExpiry := by
      show execAlertTimerExpiry estop s = _
      simp only [execAlertTimerExpiry, timer, u]
    have now : u.localTimer = (s.passTo t0).localTimer := by
      unfold u State.passTo State.passTime
      dsimp only
      split <;> rfl
    have estop' : u.inputs.estop = estop := by simp [u]
    have low : u.inputs.lowlvl = s.inputs.lowlvl := by simp [u]
    have causes (cause : AlertCause) : (u.startAlerts cause).ctl.causes = s.ctl.causes := by
      simp [State.startAlerts, State.queueAlert, u]
    have state (cause : AlertCause) : (u.startAlerts cause).ctl.state = s.ctl.state := by
      rw [State.startAlerts_state]
      simp [u]
    refine ⟨_, next, by simp [now], fun e => ?_, fun e l => ?_, fun e l => ?_, ?_, ?_⟩
    · have begun := State.startAlerts_slots .eStop u
      simp only [State.alertExpiry, estop', e, if_true]
      exact ⟨begun.1, by simpa using begun.2.1⟩
    · have begun := State.startAlerts_slots .lowLevel u
      simp only [State.alertExpiry, estop', low, e, l, if_true, Bool.false_eq_true, if_false]
      exact ⟨begun.1, by simpa using begun.2.1⟩
    · simp only [State.alertExpiry, estop', low, e, l, Bool.false_eq_true, if_false]
      simp [u]
    · unfold State.alertExpiry
      split
      · exact state .eStop
      · split
        · exact state .lowLevel
        · simp [u]
    · unfold State.alertExpiry
      split
      · exact causes .eStop
      · split
        · exact causes .lowLevel
        · simp [u]

end Sys2Proof.Machine
end

