-- ==== Sys2Proof/Proofs/FramesOfTheLine.lean ====
section
/-! PROOFS. Frames and their bytes (R23, R26, R171), and the transmitter's attempts, collisions and sent frames (R30 to
R33, R170). -/

set_option Elab.async false

namespace Sys2Proof.Machine

/-! ### Fields and their bytes -/

theorem be16_bytes16 {n : Nat} (h : n < 65536) (before after : List Byte) :
    be16 (before ++ bytes16 n ++ after) before.length = n := by
  have high : (n / 256) % 256 = n / 256 := Nat.mod_eq_of_lt (by omega)
  simp [be16, byteAt, bytes16, high]
  omega

/-- The check of a frame, a length and a payload found where the layout puts them (R23, R171). -/
theorem LineFrame.bytes_parts (f : LineFrame) : f.bytes.length = 5 + f.payload.length ∧
    byteAt f.bytes 2 = f.payload.length % 256 ∧ f.bytes.getD 0 0 = f.sender ∧ f.bytes.getD 1 0 = f.kind ∧
    (f.bytes.drop 3).take f.payload.length = f.payload ∧ f.bytes.take (3 + f.payload.length) = f.body ∧
    be16 f.bytes (3 + f.payload.length) = (crc16 f.body).toNat := by
  have body : f.body.length = 3 + f.payload.length := by simp [LineFrame.body]; omega
  refine ⟨?_, ?_, rfl, rfl, ?_, ?_, ?_⟩
  · simp [LineFrame.bytes, body, bytes16]; omega
  · simp [LineFrame.bytes, LineFrame.body, byteAt]
  · simp [LineFrame.bytes, LineFrame.body]
  · rw [← body, LineFrame.bytes, List.take_left]
  · have check := be16_bytes16 (crc16 f.body).isLt f.body []
    rwa [List.append_nil, body] at check

/-- A frame whose fields are those of its kind passes the receive checks (R26). -/
theorem LineFrame.checkFrame_bytes {f : LineFrame} (length : payloadLength f.kind.toNat = some f.payload.length)
    (short : f.payload.length ≤ 80) (sender : f.sender.toNat ≤ 24) (desk : f.sender.toNat = 0 ↔ 16 ≤ f.kind.toNat)
    (pace : f.kind.toNat = 1 → paceStateCode (f.payload.getD 5 0) = true) : checkFrame f.bytes = .ok f := by
  obtain ⟨whole, third, first, second, payload, covered, check⟩ := LineFrame.bytes_parts f
  rw [Nat.mod_eq_of_lt (by omega)] at third
  unfold checkFrame
  simp only [third, whole, first, second, payload, covered, check, length]
  rw [if_neg (by omega), if_neg (by omega), if_neg (by simp), if_neg (by omega), if_neg (by simp), if_neg (by omega),
    if_neg (by omega), if_neg fun bad => Bool.false_ne_true (bad.2.symm.trans (pace bad.1))]

theorem field16_bytes16 (v : BitVec 16) (before after : List Byte) :
    field16 (before ++ bytes16 v.toNat ++ after) before.length = v := by
  rw [field16, be16_bytes16 v.isLt, BitVec.ofNat_toNat, BitVec.setWidth_eq]

theorem be32_bytes32 {n : Nat} (h : n < 4294967296) (after : List Byte) : be32 (bytes32 n ++ after) 0 = n := by
  have high : be16 (bytes32 n ++ after) 0 = n / 65536 := by
    have := be16_bytes16 (n := n / 65536) (by omega) [] (bytes16 n ++ after)
    simpa [bytes32] using this
  have low : be16 (bytes32 n ++ after) 2 = n % 65536 := by
    have := be16_bytes16 (n := n % 65536) (by omega) (bytes16 (n / 65536)) after
    have same : bytes16 (n % 65536) = bytes16 n := by
      simp only [bytes16, List.cons.injEq, and_true]
      exact ⟨BitVec.eq_of_toNat_eq (by simp; omega), BitVec.eq_of_toNat_eq (by simp)⟩
    rw [same] at this
    exact this
  rw [be32, high, low]
  omega

/-- The PACE payload is read back from its bytes (R171). -/
theorem readPace_bytes (p : PacePayload) : readPace p.bytes = p := by
  have stamp : BitVec.ofNat 32 (be32 p.bytes 0) = p.stamp := by
    have := be32_bytes32 p.stamp.isLt ([p.showNo, p.stateCode, p.sectionNo, p.flags] ++ bytes16 p.planned.toNat ++
      bytes16 p.ceiling.toNat ++ bytes16 p.current.toNat ++ bytes16 p.wind.toNat ++
      [p.outNozzles, p.faultHeads, p.trippedPumps, p.causes])
    have bytes : be32 p.bytes 0 = p.stamp.toNat := by simpa [PacePayload.bytes] using this
    rw [bytes, BitVec.ofNat_toNat, BitVec.setWidth_eq]
  have head : (bytes32 p.stamp.toNat ++ [p.showNo, p.stateCode, p.sectionNo, p.flags]).length = 8 := rfl
  have planned : field16 p.bytes 8 = p.planned :=
    Eq.trans (by simp [PacePayload.bytes, bytes32, bytes16]) (field16_bytes16 p.planned
      (bytes32 p.stamp.toNat ++ [p.showNo, p.stateCode, p.sectionNo, p.flags])
      (bytes16 p.ceiling.toNat ++ bytes16 p.current.toNat ++ bytes16 p.wind.toNat ++
        [p.outNozzles, p.faultHeads, p.trippedPumps, p.causes]))
  have ceiling : field16 p.bytes 10 = p.ceiling :=
    Eq.trans (by simp [PacePayload.bytes, bytes32, bytes16]) (field16_bytes16 p.ceiling
      (bytes32 p.stamp.toNat ++ [p.showNo, p.stateCode, p.sectionNo, p.flags] ++ bytes16 p.planned.toNat)
      (bytes16 p.current.toNat ++ bytes16 p.wind.toNat ++ [p.outNozzles, p.faultHeads, p.trippedPumps, p.causes]))
  have current : field16 p.bytes 12 = p.current :=
    Eq.trans (by simp [PacePayload.bytes, bytes32, bytes16]) (field16_bytes16 p.current
      (bytes32 p.stamp.toNat ++ [p.showNo, p.stateCode, p.sectionNo, p.flags] ++ bytes16 p.planned.toNat ++
        bytes16 p.ceiling.toNat)
      (bytes16 p.wind.toNat ++ [p.outNozzles, p.faultHeads, p.trippedPumps, p.causes]))
  have wind : field16 p.bytes 14 = p.wind :=
    Eq.trans (by simp [PacePayload.bytes, bytes32, bytes16]) (field16_bytes16 p.wind
      (bytes32 p.stamp.toNat ++ [p.showNo, p.stateCode, p.sectionNo, p.flags] ++ bytes16 p.planned.toNat ++
        bytes16 p.ceiling.toNat ++ bytes16 p.current.toNat)
      [p.outNozzles, p.faultHeads, p.trippedPumps, p.causes])
  unfold readPace
  rw [stamp, planned, ceiling, current, wind]
  rfl

theorem PacePayload.bytes_stateCode (p : PacePayload) : p.bytes.getD 5 0 = p.stateCode := rfl

/-- A frame that spells a well-formed command passes the checks. -/
theorem decodeFrame_bytes {c : Instr} {f : LineFrame} (spelling : Laws.Spelling.Statement c) (wf : c.wf = true)
    (frame : commandFrame c = some f) (sender : f.sender.toNat ≤ 24)
    (pace : f.kind.toNat = 1 → paceStateCode (f.payload.getD 5 0) = true) (a : Arrival) :
    decodeFrame a f.bytes = frameCommand a f := by
  obtain ⟨length, short, desk⟩ := spelling wf f frame
  rw [decodeFrame, LineFrame.checkFrame_bytes length short sender desk pace]

/-- The frame of a desk command passes the checks. -/
theorem decodeFrame_desk {c : Instr} {kind : Byte} {payload : List Byte} (spelling : Laws.Spelling.Statement c)
    (wf : c.wf = true) (frame : commandFrame c = some ⟨0, kind, payload⟩) (desk : 16 ≤ kind.toNat) (a : Arrival) :
    decodeFrame a (LineFrame.bytes ⟨0, kind, payload⟩) = frameCommand a ⟨0, kind, payload⟩ :=
  decodeFrame_bytes spelling wf frame (Nat.zero_le 24) (fun pace => by dsimp only at pace; omega) a

theorem stationSender_le {sender : Byte} (h : stationSender sender = true) : sender.toNat ≤ 24 := by
  simp only [stationSender, Bool.and_eq_true, decide_eq_true_eq] at h
  exact h.2

/-- Settles O50. -/
theorem frameDecodesToItsCommand : Obligations.FrameDecodesToItsCommand := by
  intro c a f wf frame
  cases c with
  | paceReceived sender p rx =>
    obtain ⟨station, code⟩ := Bool.and_eq_true_iff.mp wf
    obtain rfl := Option.some.inj frame
    rw [decodeFrame_bytes (Laws.Spelling.paceReceived sender p rx) wf rfl (stationSender_le station) (fun _ => code)]
    exact congrArg (Instr.paceReceived sender · a.rx) (readPace_bytes p)
  | alertReceived sender cause rx =>
    obtain rfl := Option.some.inj frame
    rw [decodeFrame_bytes (Laws.Spelling.alertReceived sender cause rx) wf rfl (stationSender_le wf) (fun pace => nomatch pace)]
    rfl
  | reportReceived sender =>
    obtain rfl := Option.some.inj frame
    rw [decodeFrame_bytes (Laws.Spelling.reportReceived sender) wf rfl (stationSender_le wf) (fun pace => nomatch pace)]
    rfl
  | select n hhom =>
    obtain rfl := Option.some.inj frame
    rw [decodeFrame_desk (Laws.Spelling.select n hhom) wf rfl (by decide)]
    rfl
  | start n delay rx =>
    obtain rfl := Option.some.inj frame
    rw [decodeFrame_desk (Laws.Spelling.start n delay rx) wf rfl (by decide)]
    exact congrArg (Instr.start n · a.rx) (by simpa using field16_bytes16 delay [n] [])
  | hold =>
    obtain rfl := Option.some.inj frame
    rw [decodeFrame_desk Laws.Spelling.hold wf rfl (by decide)]
    rfl
  | resume pflt =>
    obtain rfl := Option.some.inj frame
    rw [decodeFrame_desk (Laws.Spelling.resume pflt) wf rfl (by decide)]
    rfl
  | stop =>
    obtain rfl := Option.some.inj frame
    rw [decodeFrame_desk Laws.Spelling.stop wf rfl (by decide)]
    rfl
  | clear estop =>
    obtain rfl := Option.some.inj frame
    rw [decodeFrame_desk (Laws.Spelling.clear estop) wf rfl (by decide)]
    rfl
  | restart target =>
    obtain rfl := Option.some.inj frame
    rw [decodeFrame_desk (Laws.Spelling.restart target) wf rfl (by decide)]
    rfl
  | query target clearFlag =>
    obtain rfl := Option.some.inj frame
    rw [decodeFrame_desk (Laws.Spelling.query target clearFlag) wf rfl (by decide)]
    rfl
  | _ => exact nomatch frame

/-! ### Slots and attempts -/

theorem Line.tries_setTries (n : Nat) (kind other : FrameKind) (l : Line) :
    (l.setTries n kind).tries other = if other = kind then n else l.tries other := by
  cases kind <;> cases other <;> rfl

theorem Line.tries_empty (kind other : FrameKind) (l : Line) :
    (l.empty kind).tries other = if other = kind then 0 else l.tries other := by
  cases kind <;> cases other <;> rfl

theorem Line.setTries_slots (n : Nat) (kind : FrameKind) (l : Line) : (l.setTries n kind).alertSlot = l.alertSlot ∧
    (l.setTries n kind).reportSlot = l.reportSlot ∧ (l.setTries n kind).paceSlot = l.paceSlot := by
  cases kind <;> exact ⟨rfl, rfl, rfl⟩

theorem Line.setTries_firstFull (n : Nat) (kind : FrameKind) (l : Line) : (l.setTries n kind).firstFull = l.firstFull := by
  cases kind <;> rfl

theorem Line.afterCollision_tries (now : Nat) (kind : FrameKind) (l : Line) :
    (l.afterCollision now).tries kind = l.tries kind := by
  cases kind <;> rfl

theorem Line.afterSend_tries (rise : Nat) (kind : FrameKind) (l : Line) : (l.afterSend rise).tries kind = l.tries kind := by
  cases kind <;> rfl

theorem Line.afterCollision_sendingKind (now : Nat) (l : Line) : (l.afterCollision now).sendingKind = none := by
  unfold Line.afterCollision Line.sendingKind
  dsimp only
  split <;> split at * <;> simp_all

/-- A collision below the eighth counts, and the transmitter backs off (R32). -/
theorem State.collide_below {kind : FrameKind} {s : State} (h : s.line.tries kind < 7) : s.collide kind =
    { s with line := (s.line.setTries (s.line.tries kind + 1) kind).afterCollision s.localTimer } :=
  if_pos (by omega)

/-- The eighth drops the frame (R32). -/
theorem State.collide_eighth {kind : FrameKind} {s : State} (h : s.line.tries kind = 7) : s.collide kind = s.dropFrame kind :=
  if_neg (by omega)

theorem Line.empty_slot (kind : FrameKind) (l : Line) : (kind = .alert → (l.empty kind).alertSlot = none) ∧
    (kind = .report → (l.empty kind).reportSlot = none) ∧ (kind = .pace → (l.empty kind).paceSlot = false) := by
  refine ⟨?_, ?_, ?_⟩ <;> rintro rfl <;> rfl

/-- Settles O21. -/
theorem collisionCountsAndDrops : Obligations.CollisionCountsAndDrops := by
  intro s kind bytes since tx inv
  have next : exec .collision s = .next (s.collide kind) := by
    show execCollision s = _
    simp only [execCollision, tx]
  have full : s.line.firstFull.isSome = true := by
    have awake : s.line.tx ≠ .quiet := by rw [tx]; simp
    exact Option.isSome_iff_ne_none.mpr fun none => awake (inv.quiet.mpr none)
  have bounded : s.line.tries kind < 8 := by
    cases kind
    · exact inv.pace.1
    · exact inv.alert.1
    · exact inv.report.1
  refine ⟨_, next, State.collide_receiver kind s, ?_, fun below => ?_, fun eighth => ?_, fun other ne => ?_, ?_⟩
  · unfold State.collide
    dsimp only
    split
    · exact Line.afterCollision_sendingKind _ _
    · exact Line.afterCollision_sendingKind _ _
  · rw [State.collide_below below]
    refine ⟨?_, ?_, ?_, rfl⟩
    · simp [Line.afterCollision, Line.setTries_firstFull, full]
    · rw [Line.afterCollision_tries, Line.tries_setTries, if_pos rfl]
    · exact Line.setTries_firstFull _ _ _
  · rw [State.collide_eighth eighth]
    obtain ⟨alert, report, pace⟩ := s.line.empty_slot kind
    refine ⟨?_, alert, report, pace, ?_, ?_⟩
    · show ((s.line.empty kind).afterCollision s.localTimer).tries kind = 0
      rw [Line.afterCollision_tries, Line.tries_empty, if_pos rfl]
    · unfold State.dropFrame
      cases kind <;> rfl
    · unfold State.dropFrame
      cases kind <;> rfl
  · unfold State.collide
    dsimp only
    split
    · rw [Line.afterCollision_tries, Line.tries_setTries, if_neg ne]
    · show ((s.line.empty kind).afterCollision s.localTimer).tries other = _
      rw [Line.afterCollision_tries, Line.tries_empty, if_neg ne]
  · unfold State.collide
    dsimp only
    split <;> rfl

/-! ### A frame sent -/

theorem Monitor.clearAfterSend_none {m : Monitor} (h : m.pendingClear = none) : m.clearAfterSend = m := by
  simp [Monitor.clearAfterSend, h]

theorem Monitor.clearAfterSend_some {m : Monitor} {p : PendingClear} (h : m.pendingClear = some p) :
    m.clearAfterSend.pendingClear = none ∧
      ∀ i : Counter, m.clearAfterSend.counters[i] = p.clearCounter i m.counters[i] := by
  simp [Monitor.clearAfterSend, h]

/-- Settles O22. -/
theorem sentFrameEmptiesItsSlot : Obligations.SentFrameEmptiesItsSlot := by
  intro s kind bytes since tx
  let u : State := s.passTo (since + frameTime bytes)
  let l : Line := if s.line.replaced then s.line.setTries 0 kind else s.line.empty kind
  let t : State := u.sent kind (since + frameTime bytes - endHighs bytes)
  have next : exec .frameSent s = .next t := by
    show execFrameSent s = _
    simp only [execFrameSent, tx, t, u]
  have time : since + frameTime bytes = since + 15 + 10 * bytes.length := by
    unfold frameTime
    omega
  have line : t.line = l.afterSend (since + frameTime bytes - endHighs bytes) := by
    simp [t, State.sent, u, l]
  have mon : t.mon = if kind = .report then s.mon.clearAfterSend else s.mon := by simp [t, State.sent, u]
  have tries (other : FrameKind) : t.line.tries other = if other = kind then 0 else s.line.tries other := by
    rw [line, Line.afterSend_tries]
    unfold l
    split
    · exact Line.tries_setTries 0 kind other s.line
    · exact Line.tries_empty kind other s.line
  refine ⟨t, next, by simp [t, u, time], by rw [tries, if_pos rfl], by rw [line]; rfl, by rw [line, ← time]; rfl, ?_,
    fun replaced => ?_, fun fresh => ?_, fun other ne => by rw [tries, if_neg ne], fun quiet => ?_, fun p report pending => ?_⟩
  · have tx' : t.line.tx = if l.firstFull.isSome then .deferring else .quiet := by rw [line]; rfl
    have full : t.line.firstFull = l.firstFull := by rw [line]; rfl
    rw [tx', full]
    cases l.firstFull <;> rfl
  · obtain ⟨alert, _, pace⟩ := Line.setTries_slots 0 kind s.line
    rw [line]
    simp [l, replaced, Line.afterSend, alert, pace]
  · have emptied := s.line.empty_slot kind
    rw [line]
    simpa [l, fresh, Line.afterSend] using emptied
  · rw [mon]
    split
    · next report => exact Monitor.clearAfterSend_none (quiet.resolve_left (not_not.mpr report))
    · rfl
  · obtain ⟨gone, counters⟩ := Monitor.clearAfterSend_some pending
    rw [mon, if_pos report]
    refine ⟨gone, fun i => ?_⟩
    rw [counters]
    unfold PendingClear.clearCounter
    dsimp only
    split <;> simp_all

/-! ### An attempt and its frame (R31, R33) -/

/-- Time moves the local timer and the show clock alone. -/
theorem State.passTo_eq (n : Nat) (s : State) :
    s.passTo n = { s with localTimer := (s.passTo n).localTimer, clock := (s.passTo n).clock } := by
  unfold State.passTo State.passTime
  split <;> rfl

theorem State.passTo_flags (n : Nat) (s : State) :
    (s.passTo n).clock.solo = s.clock.solo ∧ (s.passTo n).clock.stepped = s.clock.stepped := by
  unfold State.passTo State.passTime
  split <;> exact ⟨rfl, rfl⟩

/-- The flags byte of a PACE, bit by bit (R171). -/
theorem paceFlags_bits : ∀ solo pending rehearsal duplicate wind stepped : Bool,
    let b := BitVec.ofNat 8 (paceFlags solo pending rehearsal duplicate wind stepped)
    b.getLsbD 0 = solo ∧ b.getLsbD 1 = pending ∧ b.getLsbD 2 = rehearsal ∧ b.getLsbD 3 = duplicate ∧
      b.getLsbD 4 = wind ∧ b.getLsbD 5 = stepped ∧ b.getLsbD 6 = false ∧ b.getLsbD 7 = false := by decide

theorem faultFlags_eq : ∀ rehearsal duplicate : Bool,
    BitVec.ofNat 8 (paceFlags false false rehearsal duplicate false false) =
      (if rehearsal then 4 else 0) + (if duplicate then 8 else 0) := by decide

theorem countBits_le {w : Nat} (b : BitVec w) : countBits b ≤ w :=
  (List.length_filter_le _ _).trans (by simp)

theorem toNat_countBits {w : Nat} (small : w < 256) (b : BitVec w) : (BitVec.ofNat 8 (countBits b)).toNat = countBits b := by
  have := countBits_le b
  rw [BitVec.toNat_ofNat, Nat.mod_eq_of_lt (by omega)]

theorem Monitor.reportPending_iff (m : Monitor) :
    m.reportPending = true ↔ ∃ i : Counter, (m.counters[i]).crossed = true := by
  simp only [Monitor.reportPending, List.any_eq_true]
  constructor
  · rintro ⟨c, mem, crossed⟩
    obtain ⟨i, hi, rfl⟩ := List.getElem_of_mem mem
    exact ⟨⟨i, by simpa using hi⟩, by simpa using crossed⟩
  · rintro ⟨i, crossed⟩
    exact ⟨_, by simp, crossed⟩

theorem ShowState.code_bounds {n : ShowState} (h : n ≠ .startUp) : 1 ≤ n.code ∧ n.code ≤ 9 := by
  cases n <;> first | exact absurd rfl h | decide

theorem State.paceContents_stateCode {s : State} : s.paceContents.stateCode = BitVec.ofNat 8 s.ctl.state.code := by
  unfold State.paceContents
  split
  · next fault => rw [fault]; rfl
  · rfl

/-- The first full slot holds a frame. -/
theorem Line.firstFull_some {l : Line} {kind : FrameKind} (h : l.firstFull = some kind) :
    (kind = .alert → l.alertSlot.isSome) ∧ (kind = .report → l.reportSlot.isSome) := by
  unfold Line.firstFull at h
  refine ⟨?_, ?_⟩
  · rintro rfl
    split at h
    · assumption
    · split_ifs at h <;> cases h
  · rintro rfl
    split at h
    · cases h
    · split at h
      · assumption
      · split_ifs at h <;> cases h

/-- The frame of a full slot has the payload length of its kind (R26, R171). -/
theorem State.slotPayload_length {s : State} {kind : FrameKind} (full : s.line.firstFull = some kind) :
    payloadLength kind.code = some (s.slotPayload kind).length ∧ (s.slotPayload kind).length ≤ 80 := by
  obtain ⟨alert, report⟩ := Line.firstFull_some full
  cases kind with
  | pace => exact ⟨rfl, Nat.le_add_right 20 60⟩
  | alert =>
    obtain ⟨cause, slot⟩ := Option.isSome_iff_exists.mp (alert rfl)
    simp [State.slotPayload, slot, FrameKind.code, payloadLength]
  | report =>
    obtain ⟨image, slot⟩ := Option.isSome_iff_exists.mp (report rfl)
    simp [State.slotPayload, slot, FrameKind.code, payloadLength, ReportImage.bytes_length]

/-- The frame of a full slot passes the receive checks of the others (R26). -/
theorem State.slotFrame_checked {s : State} {kind : FrameKind} (full : s.line.firstFull = some kind)
    (low : 1 ≤ s.ctl.station) (high : s.ctl.station ≤ 24) (started : s.ctl.state ≠ .startUp) :
    checkFrame (s.slotFrame kind).bytes = .ok (s.slotFrame kind) ∧ (s.slotFrame kind).sender.toNat = s.ctl.station ∧
      (s.slotFrame kind).kind.toNat = kind.code := by
  have sender : (s.slotFrame kind).sender.toNat = s.ctl.station := by simp [State.slotFrame]; omega
  have code : (s.slotFrame kind).kind.toNat = kind.code := by cases kind <;> rfl
  have station : kind.code < 16 := by cases kind <;> decide
  obtain ⟨length, short⟩ := State.slotPayload_length full
  refine ⟨LineFrame.checkFrame_bytes ?_ short (by omega) (by omega) fun pace => ?_, sender, code⟩
  · rw [code]
    exact length
  · obtain rfl : kind = .pace := by cases kind <;> first | rfl | (rw [code] at pace; simp [FrameKind.code] at pace)
    obtain ⟨one, nine⟩ := ShowState.code_bounds started
    have byte : (s.slotFrame .pace).payload.getD 5 0 = BitVec.ofNat 8 s.ctl.state.code :=
      (PacePayload.bytes_stateCode s.paceContents).trans State.paceContents_stateCode
    rw [byte, paceStateCode, BitVec.toNat_ofNat, Nat.mod_eq_of_lt (by omega)]
    simp [one, nine]

/-- An attempt begins (R31). -/
theorem State.beginAttempt_eq {s : State} {kind : FrameKind} (full : s.line.firstFull = some kind) : s.beginAttempt =
    { s with line := { s.line with
      tx := .sending kind (s.slotFrame kind).bytes s.localTimer, receiver := .off, quietSince := none, replaced := false } } := by
  simp [State.beginAttempt, full]

theorem mem_dueSteps_of_dueControl {s : State} {d : Bool × Instr} (h : d ∈ s.dueControl) : d ∈ s.dueSteps := by
  simp only [State.dueSteps, List.mem_append]
  tauto

/-- Settles O20. -/
theorem attemptSendsAWholeFrame : Obligations.AttemptSendsAWholeFrame := by
  intro s c gap condition
  have next : exec c s = .next (s.attemptAfter gap) := by
    rcases condition with ⟨rfl, tx, rfl⟩ | ⟨rfl, tx, rfl⟩
    · exact congrArg Host.Outcome.next (if_pos tx)
    · exact congrArg Host.Outcome.next (if_pos tx)
  have due : (true, c) ∈ s.dueControl ↔ s.line.idleFor gap s.localTimer = true := by
    rcases condition with ⟨rfl, tx, rfl⟩ | ⟨rfl, tx, rfl⟩
    · simp [State.dueControl, tx]
    · simp [State.dueControl, tx, backoffGap]
  refine ⟨fun carrier => ⟨?_, ?_⟩, fun q kind quiet full low high started => ⟨fun past => ?_, fun early => ?_, ?_⟩⟩
  · rw [next, State.attemptAfter, carrier]
  · rw [due, Line.idleFor, carrier]
    simp
  · refine mem_dueSteps_of_dueControl (due.mpr ?_)
    simpa [Line.idleFor, quiet] using past
  · rw [due]
    simpa [Line.idleFor, quiet] using early
  · let u : State := s.passTo (q + gap)
    have later : u = { s with localTimer := u.localTimer, clock := u.clock } := State.passTo_eq (q + gap) s
    have line : u.line = s.line := by simp [u]
    have fullThen : u.line.firstFull = some kind := line ▸ full
    have ctl : u.ctl = s.ctl := by simp [u]
    have begun : s.attemptAfter gap = u.beginAttempt := by rw [State.attemptAfter, quiet]
    obtain ⟨checked, sender, code⟩ := State.slotFrame_checked fullThen (ctl ▸ low) (ctl ▸ high) (ctl ▸ started)
    refine ⟨_, (u.slotFrame kind).bytes, u.slotFrame kind, next.trans (congrArg Host.Outcome.next begun), ?_, checked,
      sender.trans (by rw [ctl]), code, fun cause alert slot => ?_, fun image report slot => ?_, fun pace works => ?_,
      fun pace fault => ?_⟩
    · rw [State.beginAttempt_eq fullThen, line]
    · subst alert
      simp [State.slotFrame, State.slotPayload, line, slot]
    · subst report
      simp [State.slotFrame, State.slotPayload, line, slot]
    · subst pace
      have contents : readPace (u.slotFrame .pace).payload = u.showPace := by
        refine (readPace_bytes _).trans (if_neg ?_)
        rw [ctl]
        exact works
      obtain ⟨solo, stepped⟩ := State.passTo_flags (q + gap) s
      obtain ⟨flag0, flag1, flag2, flag3, flag4, flag5, flag6, flag7⟩ := paceFlags_bits u.clock.solo u.mon.reportPending
        u.ctl.rehearsal u.line.duplicate u.store.config.anemometer u.clock.stepped
      obtain ⟨codeLow, codeHigh⟩ := ShowState.code_bounds started
      have draw : u.currentDraw = s.currentDraw := by rw [later]; rfl
      have out : u.outNozzles = s.outNozzles := by rw [later]; rfl
      have faults : u.faultHeads = s.faultHeads := by rw [later]; rfl
      have latched : u.latchedPumps = s.latchedPumps := by rw [later]; rfl
      dsimp only
      rw [contents]
      refine ⟨rfl, by simp [State.showPace, ctl], ?_, by simp [State.showPace, u], flag0.trans solo, ?_,
        flag2.trans (by rw [ctl]), flag3.trans (by rw [line]), flag4.trans (by simp [u]), flag5.trans stepped, flag6, flag7,
        fun show_ => ?_, fun rehearsal => ?_, by simp [State.showPace, u], ?_, ?_, ?_, by simp [State.showPace, ctl]⟩
      · simp only [State.showPace, ctl, BitVec.toNat_ofNat]
        exact Nat.mod_eq_of_lt (by omega)
      · rw [show u.showPace.flags.getLsbD 1 = u.mon.reportPending from flag1, Monitor.reportPending_iff]
        simp [u]
      · simp [State.showPace, show_, draw, u]
      · simp [State.showPace, ctl, rehearsal]
      · rw [← out]
        exact toNat_countBits (by decide) _
      · rw [← faults]
        exact toNat_countBits (by decide) _
      · rw [← latched]
        exact toNat_countBits (by decide) _
    · subst pace
      have contents : readPace (u.slotFrame .pace).payload = u.faultPace := by
        refine (readPace_bytes _).trans (if_pos ?_)
        rw [ctl]
        exact fault
      rw [contents, State.faultPace, faultFlags_eq, ctl, line]
      rfl

end Sys2Proof.Machine
end

