-- ==== Sys2Proof/Proofs/HeadSteps.lean ====
section
/-! PROOFS. Head records (R131 to R136, R141): what a step, a move and a target make of the record of one head, and the
commands that do nothing further. -/

set_option Elab.async false

namespace Sys2Proof.Machine

/-! ### One head record -/

@[simp] theorem State.setHead_same (h : Head) (r : HeadRec) (s : State) : (s.setHead h r).head.heads[h] = r := by
  simp

theorem State.setHead_other {h k : Head} (ne : k ≠ h) (r : HeadRec) (s : State) :
    (s.setHead h r).head.heads[k] = s.head.heads[k] :=
  Vector.getElem_set_ne h.isLt k.isLt fun e => ne (Fin.ext e.symm)

@[simp] theorem State.setHead_setHead (h : Head) (r q : HeadRec) (s : State) :
    (s.setHead h r).setHead h q = s.setHead h q := by
  simp [State.setHead]

theorem State.setHead_self (h : Head) (s : State) : s.setHead h s.head.heads[h] = s := by
  simp [State.setHead]

/-! ### Steps and moves, as the record of one head sees them -/

/-- The head verifies (R137). -/
def HeadRec.verify (g : HeadCfg) (now : Nat) (r : HeadRec) : HeadRec :=
  { r with state := .verifying, timer := some (now + g.settle * 1000) }

/-- The place one step away. -/
def Direction.from : Direction → Nat → Nat
  | .up, p => p + 1
  | .down, p => p - 1

/-- The head has taken a step (R131), not yet checked for a stall. -/
def HeadRec.moved (g : HeadCfg) (now : Nat) (d : Direction) (r : HeadRec) : HeadRec :=
  { r with
    state := .moving, direction := some d, position := some (d.from (r.position.getD 0)), pulse := some now
    timer := some (now + g.stepInterval) }

/-- The stall check of a head that moves (R139). -/
def HeadRec.stall (g : HeadCfg) (now : Nat) (r : HeadRec) : HeadRec :=
  if (r.state = .moving ∨ r.state = .reversing) ∧
      4 * g.tolerance < (r.encoder - (r.position.getD 0 : Nat) * g.ratio).natAbs then r.verify g now
  else r

/-- The head takes a step (R131, R139). -/
def HeadRec.step (g : HeadCfg) (now : Nat) (d : Direction) (r : HeadRec) : HeadRec := (r.moved g now d).stall g now

/-- The head takes a target that it may stand at already (R132, R136, R138). -/
def HeadRec.goTo (g : HeadCfg) (now : Nat) (t : Target) (r : HeadRec) : HeadRec :=
  if r.position.getD 0 = t.step then { r with target := some t }.verify g now
  else { r with target := some t }.step g now (senseTo (r.position.getD 0) t.step)

/-- A target reaches the head (R134). -/
def HeadRec.take (g : HeadCfg) (now : Nat) (t : Target) (r : HeadRec) : HeadRec :=
  match r.state with
  | .settled => if r.position = some t.step then r else r.goTo g now t
  | .moving => { r with target := some t }
  | .reversing => { r with target := some t }
  | .verifying => { r with pending := some t }
  | .unhomed => { r with pending := some t }
  | .homing => { r with pending := some t, homing := t }
  | .fault => r

theorem State.enterVerifying_eq (h : Head) (s : State) :
    s.enterVerifying h = s.setHead h ((s.head.heads[h]).verify s.store.config.heads[h] s.localTimer) := rfl

theorem State.stallCheck_eq (h : Head) (s : State) :
    s.stallCheck h = s.setHead h ((s.head.heads[h]).stall s.store.config.heads[h] s.localTimer) := by
  unfold State.stallCheck HeadRec.stall
  dsimp only
  split
  · rfl
  · exact (State.setHead_self h s).symm

theorem State.issueStep_eq (h : Head) (d : Direction) (s : State) :
    s.issueStep h d = s.setHead h ((s.head.heads[h]).step s.store.config.heads[h] s.localTimer d) := by
  have moved : s.issueStep h d =
      (s.setHead h ((s.head.heads[h]).moved s.store.config.heads[h] s.localTimer d)).stallCheck h := by
    cases d <;> rfl
  rw [moved, State.stallCheck_eq, State.setHead_setHead, State.setHead_same]
  rfl

theorem State.goTo_eq (h : Head) (t : Target) (s : State) :
    s.goTo h t = s.setHead h ((s.head.heads[h]).goTo s.store.config.heads[h] s.localTimer t) := by
  unfold State.goTo HeadRec.goTo
  dsimp only
  split
  · rw [State.enterVerifying_eq, State.setHead_setHead, State.setHead_same]
    rfl
  · rw [State.issueStep_eq, State.setHead_setHead, State.setHead_same]
    rfl

theorem State.takeTarget_eq (h : Head) (t : Target) (s : State) :
    s.takeTarget h t = s.setHead h ((s.head.heads[h]).take s.store.config.heads[h] s.localTimer t) := by
  unfold State.takeTarget HeadRec.take
  dsimp only
  cases (s.head.heads[h]).state with
  | settled =>
    dsimp only
    split
    · exact (State.setHead_self h s).symm
    · exact State.goTo_eq h t s
  | fault => exact (State.setHead_self h s).symm
  | _ => rfl

theorem State.homeFound_eq (h : Head) (s : State) : s.homeFound h = s.setHead h
    (HeadRec.goTo s.store.config.heads[h] s.localTimer (s.head.heads[h]).homing
      { s.head.heads[h] with position := some 0, encoder := 0, pending := none }) := by
  unfold State.homeFound
  dsimp only
  rw [State.goTo_eq, State.setHead_setHead, State.setHead_same]
  rfl

/-! ### What the record keeps -/

/-- A step moves the place by one in its sense, and leaves the head MOVING unless it stalls. -/
theorem HeadRec.step_spec (g : HeadCfg) (now : Nat) (d : Direction) (r : HeadRec) :
    (r.step g now d).position = some (d.from (r.position.getD 0)) ∧ (r.step g now d).direction = some d ∧
      (r.step g now d).target = r.target ∧ (r.step g now d).encoder = r.encoder ∧
      (r.step g now d).state =
        (if 4 * g.tolerance < (r.encoder - (d.from (r.position.getD 0) * g.ratio : Nat)).natAbs then .verifying else .moving) := by
  unfold HeadRec.step HeadRec.stall HeadRec.moved HeadRec.verify
  simp only [true_or, true_and, Option.getD_some, Nat.cast_mul]
  split <;> simp

/-- What a step leaves as it stands. -/
theorem HeadRec.step_keeps (g : HeadCfg) (now : Nat) (d : Direction) (r : HeadRec) :
    (r.step g now d).pending = r.pending ∧ (r.step g now d).homing = r.homing ∧ (r.step g now d).failures = r.failures ∧
      (r.step g now d).rehomed = r.rehomed ∧ (r.step g now d).sweep = r.sweep ∧ (r.step g now d).marks = r.marks := by
  unfold HeadRec.step HeadRec.stall HeadRec.moved HeadRec.verify
  dsimp only
  split <;> simp

theorem HeadRec.goTo_keeps (g : HeadCfg) (now : Nat) (t : Target) (r : HeadRec) :
    (r.goTo g now t).target = some t ∧ (r.goTo g now t).encoder = r.encoder ∧ (r.goTo g now t).pending = r.pending ∧
      (r.goTo g now t).homing = r.homing ∧ (r.goTo g now t).failures = r.failures ∧
      (r.goTo g now t).rehomed = r.rehomed ∧ (r.goTo g now t).sweep = r.sweep ∧ (r.goTo g now t).marks = r.marks := by
  unfold HeadRec.goTo
  split
  · simp [HeadRec.verify]
  · simp [HeadRec.step_keeps, HeadRec.step_spec]

/-- The head stands at the target it takes. -/
theorem HeadRec.goTo_here {g : HeadCfg} {now p : Nat} {t : Target} {r : HeadRec} (position : r.position = some p)
    (here : p = t.step) : r.goTo g now t = { r with target := some t }.verify g now := by
  simp [HeadRec.goTo, position, here]

theorem HeadRec.goTo_up {g : HeadCfg} {now p : Nat} {t : Target} {r : HeadRec} (position : r.position = some p)
    (above : p < t.step) : r.goTo g now t = { r with target := some t }.step g now .up := by
  simp [HeadRec.goTo, position, above, above.ne, senseTo]

theorem HeadRec.goTo_down {g : HeadCfg} {now p : Nat} {t : Target} {r : HeadRec} (position : r.position = some p)
    (below : t.step < p) : r.goTo g now t = { r with target := some t }.step g now .down := by
  simp [HeadRec.goTo, position, below.not_gt, below.ne', senseTo]

/-- A head that goes up or down to its target has taken its first step. -/
theorem HeadRec.goTo_away {g : HeadCfg} {now p : Nat} {t : Target} {r : HeadRec} (position : r.position = some p) :
    (p < t.step → (r.goTo g now t).position = some (p + 1) ∧ (r.goTo g now t).direction = some .up ∧
      (r.goTo g now t).state =
        if 4 * g.tolerance < (r.encoder - ((p + 1) * g.ratio : Nat)).natAbs then .verifying else .moving) ∧
    (t.step < p → (r.goTo g now t).position = some (p - 1) ∧ (r.goTo g now t).direction = some .down ∧
      (r.goTo g now t).state =
        if 4 * g.tolerance < (r.encoder - ((p - 1) * g.ratio : Nat)).natAbs then .verifying else .moving) := by
  refine ⟨fun above => ?_, fun below => ?_⟩
  · rw [HeadRec.goTo_up position above]
    obtain ⟨place, direction, _, _, state⟩ := HeadRec.step_spec g now .up { r with target := some t }
    rw [place, direction, state, position]
    exact ⟨rfl, rfl, rfl⟩
  · rw [HeadRec.goTo_down position below]
    obtain ⟨place, direction, _, _, state⟩ := HeadRec.step_spec g now .down { r with target := some t }
    rw [place, direction, state, position]
    exact ⟨rfl, rfl, rfl⟩

theorem HeadRec.take_moving {g : HeadCfg} {now : Nat} {t : Target} {r : HeadRec}
    (h : r.state = .moving ∨ r.state = .reversing) : r.take g now t = { r with target := some t } := by
  rcases h with h | h <;> simp [HeadRec.take, h]

theorem HeadRec.take_verifying {g : HeadCfg} {now : Nat} {t : Target} {r : HeadRec} (h : r.state = .verifying) :
    r.take g now t = { r with pending := some t } := by
  simp [HeadRec.take, h]

theorem HeadRec.take_settled {g : HeadCfg} {now : Nat} {t : Target} {r : HeadRec} (h : r.state = .settled)
    (away : r.position ≠ some t.step) : r.take g now t = r.goTo g now t := by
  simp [HeadRec.take, h, away]

theorem HeadRec.take_sweep (g : HeadCfg) (now : Nat) (t : Target) (r : HeadRec) : (r.take g now t).sweep = r.sweep := by
  unfold HeadRec.take
  split
  · split
    · rfl
    · simp [HeadRec.goTo_keeps]
  all_goals rfl

/-! ### Permits worked afresh -/

@[simp] theorem State.refreshPermits_heads (s : State) : s.refreshPermits.head.heads = s.head.heads := by
  rw [State.refreshPermits_head]

theorem State.permitOf_congr {s t : State} (config : t.store.config = s.store.config) (heads : t.head.heads = s.head.heads)
    (z : Nozzle) : t.permitOf z = s.permitOf z := by
  unfold State.permitOf
  rw [config, heads]

/-- After the permits are worked afresh each is what its rule gives (R142). -/
theorem State.refreshPermits_permits (s : State) (z : Nozzle) :
    s.refreshPermits.head.permits[z] = s.refreshPermits.permitOf z := by
  rw [State.permitOf_congr (s := s) (by simp) (by simp), State.refreshPermits_head]
  simp

/-! ### Steps and reversals -/

/-- Settles O41. -/
theorem movesStepAndReverse : Obligations.MovesStepAndReverse := by
  refine ⟨fun s h t0 p g moving timer position target => ?_, fun s h t0 p g reversing timer position target => ?_⟩
  · let u : State := s.passTo t0
    have record : u.head.heads[h] = s.head.heads[h] := by simp [u]
    have config : u.store.config.heads[h] = s.store.config.heads[h] := by simp [u]
    have next : exec (.stepIntervalExpiry h) s = .next
        (if p = g.step then (u.enterVerifying h).refreshPermits
         else if (s.head.heads[h]).direction = some (senseTo p g.step) then (u.issueStep h (senseTo p g.step)).refreshPermits
         else (u.setHead h { s.head.heads[h] with
           state := .reversing, timer := some (u.localTimer + 40000) }).refreshPermits) := by
      show execStepIntervalExpiry h s = _
      simp only [execStepIntervalExpiry, timer, position, target, moving, if_true]
      rfl
    rcases lt_trichotomy p g.step with above | here | below
    · have sense : senseTo p g.step = .up := if_pos above
      rw [if_neg above.ne, sense] at next
      by_cases on : (s.head.heads[h]).direction = some .up
      · rw [if_pos on, State.issueStep_eq, record, config] at next
        have spec := HeadRec.step_spec s.store.config.heads[h] u.localTimer .up s.head.heads[h]
        refine ⟨_, next, ?_⟩
        simp only [State.refreshPermits_heads, State.setHead_same]
        refine ⟨spec.2.2.2.1, spec.2.2.1, fun e => absurd e above.ne, fun _ _ => ?_, fun l => absurd l above.not_gt,
          fun _ d => ?_, fun l => absurd l above.not_gt⟩
        · rw [spec.1, position]
          rfl
        · rw [on] at d
          cases d
      · rw [if_neg on] at next
        refine ⟨_, next, ?_⟩
        simp only [State.refreshPermits_heads, State.setHead_same]
        exact ⟨trivial, trivial, fun e => absurd e above.ne, fun _ d => absurd d on, fun l => absurd l above.not_gt,
          fun _ _ => ⟨trivial, position, rfl⟩, fun l => absurd l above.not_gt⟩
    · rw [if_pos here, State.enterVerifying_eq, record, config] at next
      refine ⟨_, next, ?_⟩
      simp only [State.refreshPermits_heads, State.setHead_same]
      exact ⟨rfl, rfl, fun _ => ⟨rfl, position, rfl⟩, fun l => absurd here l.ne, fun l => absurd here l.ne',
        fun l => absurd here l.ne, fun l => absurd here l.ne'⟩
    · have sense : senseTo p g.step = .down := if_neg below.not_gt
      rw [if_neg below.ne', sense] at next
      by_cases on : (s.head.heads[h]).direction = some .down
      · rw [if_pos on, State.issueStep_eq, record, config] at next
        have spec := HeadRec.step_spec s.store.config.heads[h] u.localTimer .down s.head.heads[h]
        refine ⟨_, next, ?_⟩
        simp only [State.refreshPermits_heads, State.setHead_same]
        refine ⟨spec.2.2.2.1, spec.2.2.1, fun e => absurd e below.ne', fun l => absurd l below.not_gt, fun _ _ => ?_,
          fun l => absurd l below.not_gt, fun _ d => ?_⟩
        · rw [spec.1, position]
          rfl
        · rw [on] at d
          cases d
      · rw [if_neg on] at next
        refine ⟨_, next, ?_⟩
        simp only [State.refreshPermits_heads, State.setHead_same]
        exact ⟨trivial, trivial, fun e => absurd e below.ne', fun l => absurd l below.not_gt, fun _ d => absurd d on,
          fun l => absurd l below.not_gt, fun _ _ => ⟨trivial, position, rfl⟩⟩
  · let u : State := s.passTo t0
    have record : u.head.heads[h] = s.head.heads[h] := by simp [u]
    have next : exec (.reversalPauseEnd h) s = .next (u.goTo h g).refreshPermits := by
      show execReversalPauseEnd h s = _
      simp only [execReversalPauseEnd, timer, target, reversing, if_true]
      rfl
    rw [State.goTo_eq, record] at next
    refine ⟨_, next, ?_⟩
    simp only [State.refreshPermits_heads, State.setHead_same]
    refine ⟨fun here => ?_, fun above => ?_, fun below => ?_⟩
    · rw [HeadRec.goTo_here position here]
      exact ⟨rfl, position⟩
    · obtain ⟨place, direction, _⟩ := (HeadRec.goTo_away position).1 above
      exact ⟨direction, place⟩
    · obtain ⟨place, direction, _⟩ := (HeadRec.goTo_away position).2 below
      exact ⟨direction, place⟩

/-! ### Encoder edges -/

/-- The edge goes forward in the order low-low, high-low, high-high, low-high (R131). -/
def forward (was is : Bool × Bool) : Prop :=
  (was = (false, false) ∧ is = (true, false)) ∨ (was = (true, false) ∧ is = (true, true)) ∨
    (was = (true, true) ∧ is = (false, true)) ∨ (was = (false, true) ∧ is = (false, false))

/-- The edge goes backward in that order. -/
def backward (was is : Bool × Bool) : Prop :=
  (was = (true, false) ∧ is = (false, false)) ∨ (was = (true, true) ∧ is = (true, false)) ∨
    (was = (false, true) ∧ is = (true, true)) ∨ (was = (false, false) ∧ is = (false, true))

theorem encoderCount_forward : ∀ a b a' b' : Bool, forward (a, b) (a', b') → encoderCount a b a' b' = 1 := by
  unfold forward
  decide

theorem encoderCount_backward : ∀ a b a' b' : Bool, backward (a, b) (a', b') → encoderCount a b a' b' = -1 := by
  unfold backward
  decide

theorem encoderCount_ne : ∀ a b a' b' : Bool, encoderCount a b a' b' ≠ 0 → forward (a, b) (a', b') ∨ backward (a, b) (a', b') := by
  unfold forward backward
  decide

theorem HeadRec.stall_encoder (g : HeadCfg) (now : Nat) (r : HeadRec) : (r.stall g now).encoder = r.encoder := by
  unfold HeadRec.stall
  split <;> rfl

/-- Settles O43. -/
theorem encoderCountsEdges : Obligations.EncoderCountsEdges := by
  intro s h a b op present
  let s0 : State := { s with inputs := { s.inputs with
    hena := withBit s.inputs.hena h.val a, henb := withBit s.inputs.henb h.val b } }
  let d := encoderCount (s.inputs.hena.getLsbD h.val) (s.inputs.henb.getLsbD h.val) a b
  have hena : s0.inputs.hena.getLsbD h.val = a := (withBit_getLsbD _ _ _ _ h.isLt).trans (if_pos rfl)
  have henb : s0.inputs.henb.getLsbD h.val = b := (withBit_getLsbD _ _ _ _ h.isLt).trans (if_pos rfl)
  have up : forward _ (a, b) → d = 1 := encoderCount_forward _ _ a b
  have down : backward _ (a, b) → d = -1 := encoderCount_backward _ _ a b
  by_cases still : d = 0
  · have next : exec (.encoderEdge h a b) s = .next s0 := congrArg Host.Outcome.next (if_neg fun k => k.2.2 still)
    have never : ¬ (d = 1 ∨ d = -1) := by omega
    exact ⟨_, next, hena, henb, ⟨fun e => absurd (.inl (up e)) never, fun e => absurd (.inr (down e)) never, fun _ _ => rfl,
      fun e => absurd (e.imp up down) never⟩, fun _ _ => rfl⟩
  · let r : HeadRec := { s.head.heads[h] with encoder := (s.head.heads[h]).encoder + d }
    have next : exec (.encoderEdge h a b) s = .next ((s0.setHead h r).stallCheck h).refreshPermits :=
      congrArg Host.Outcome.next (if_pos ⟨op, present, still⟩)
    rw [State.stallCheck_eq, State.setHead_setHead, State.setHead_same] at next
    have counts : forward _ (a, b) ∨ backward _ (a, b) := encoderCount_ne _ _ a b still
    refine ⟨_, next, by simpa using hena, by simpa using henb, ⟨fun e => ?_, fun e => ?_, fun noUp noDown => ?_,
      fun _ z => State.refreshPermits_permits _ z⟩, fun k ne => ?_⟩
    · rw [State.refreshPermits_heads, State.setHead_same, HeadRec.stall_encoder, ← up e]
    · rw [State.refreshPermits_heads, State.setHead_same, HeadRec.stall_encoder, Int.sub_eq_add_neg, ← down e]
    · exact (counts.elim noUp noDown).elim
    · rw [State.refreshPermits_heads, State.setHead_other ne]

/-! ### Sweeps -/

/-- Settles O44. -/
theorem sweepTakesTheNewLeg : Obligations.SweepTakesTheNewLeg := by
  intro s h w sweep
  dsimp only
  generalize hu : (if s.legIndex w.beats = w.leg then s.passShowTo (s.nextLegAt w) else s) = u
  intro changed
  have record : u.head.heads[h] = s.head.heads[h] := by
    rw [← hu]
    split <;> simp
  have heads : u.head.heads = s.head.heads := by
    rw [← hu]
    split <;> simp
  have next : exec (.sweepLegBoundary h) s = .next (u.takeLeg h).refreshPermits := by
    show execSweepLegBoundary h s = _
    simp only [execSweepLegBoundary, sweep, hu, if_neg changed]
  let r : HeadRec := { s.head.heads[h] with sweep := some { w with leg := u.legIndex w.beats } }
  let goal : Target := { step := w.posOf (u.legIndex w.beats), cueId := some w.cueId }
  have taken : u.takeLeg h = u.setHead h (r.take u.store.config.heads[h] u.localTimer goal) := by
    have leg : u.takeLeg h = (u.setHead h r).takeTarget h goal := by
      unfold State.takeLeg
      simp only [record, sweep]
      rfl
    rw [leg, State.takeTarget_eq, State.setHead_setHead, State.setHead_same]
    rfl
  rw [taken] at next
  refine ⟨_, next, ?_, ?_, ?_, ?_, fun k ne => ?_⟩
  · rw [State.refreshPermits_heads, State.setHead_same, HeadRec.take_sweep]
  · rw [State.refreshPermits_heads, State.setHead_same]
    exact fun moving => congrArg HeadRec.target (HeadRec.take_moving (r := r) moving)
  · rw [State.refreshPermits_heads, State.setHead_same]
    exact fun verifying => congrArg HeadRec.pending (HeadRec.take_verifying (r := r) verifying)
  · rw [State.refreshPermits_heads, State.setHead_same]
    intro settled elsewhere
    rw [HeadRec.take_settled (r := r) settled elsewhere]
    exact (HeadRec.goTo_keeps _ _ _ _).1
  · rw [State.refreshPermits_heads, State.setHead_other ne, heads]

end Sys2Proof.Machine
end

