-- ==== Sys2Proof/Proofs/WaterAtRest.lean ====
section
/-! PROOFS. Goals of 0 (R115) and the end of a step at which no START is held (R7, R13): which items stand through them. -/

set_option Elab.async false

namespace Sys2Proof.Machine

/-! ### Pumps one after another -/

theorem State.setPump_self (c : Channel) (s : State) : s.setPump c s.pump.pumps[c] = s := by
  simp [State.setPump]

@[simp] theorem State.setPump_same (c : Channel) (p : PumpRec) (s : State) : (s.setPump c p).pump.pumps[c] = p := by
  simp

@[simp] theorem State.setPump_setPump (c : Channel) (p q : PumpRec) (s : State) :
    (s.setPump c p).setPump c q = s.setPump c q := by
  simp [State.setPump]

/-- The pump records of some channels change, each by itself. -/
def State.withPumps (g : Channel → PumpRec → PumpRec) (l : List Channel) (s : State) : State :=
  { s with pump := { s.pump with
      pumps := Vector.ofFn fun c : Fin 4 => if c ∈ l then (g c s.pump.pumps[c]) else s.pump.pumps[c] } }

theorem State.withPumps_cons {g : Channel → PumpRec → PumpRec} {c : Channel} {l : List Channel} (fresh : c ∉ l) (s : State) :
    (s.setPump c (g c s.pump.pumps[c])).withPumps g l = s.withPumps g (c :: l) := by
  have pumps : (Vector.ofFn fun d : Fin 4 => if d ∈ l then g d (s.pump.pumps.set c (g c s.pump.pumps[c]))[d]
      else (s.pump.pumps.set c (g c s.pump.pumps[c]))[d]) =
      Vector.ofFn fun d : Fin 4 => if d ∈ c :: l then g d s.pump.pumps[d] else s.pump.pumps[d] := by
    refine Vector.ext fun i hi => ?_
    simp only [Vector.getElem_ofFn, List.mem_cons]
    by_cases same : (⟨i, hi⟩ : Fin 4) = c
    · subst same
      simp [fresh]
    · have ne : c.val ≠ i := fun e => same (Fin.ext e.symm)
      simp [same, ne]
  exact congrArg (fun v => ({ s with pump := { s.pump with pumps := v } } : State)) pumps

/-- A loop over the channels that changes the record of each in its turn. -/
theorem foldl_pumps {f : State → Channel → State} {g : Channel → PumpRec → PumpRec} {P : State → Prop}
    (step : ∀ u c, P u → f u c = u.setPump c (g c u.pump.pumps[c])) (keeps : ∀ u c p, P u → P (u.setPump c p))
    (l : List Channel) (distinct : l.Nodup) {s : State} (h : P s) : l.foldl f s = s.withPumps g l := by
  induction l generalizing s with
  | nil => simp [State.withPumps]
  | cons c l ih =>
    obtain ⟨fresh, distinct⟩ := List.nodup_cons.mp distinct
    rw [List.foldl_cons, step s c h, ih distinct (keeps s c _ h), State.withPumps_cons fresh]

/-! ### Goals outside COUNTDOWN and RUNNING (R115) -/

/-- The pump acts on a goal of 0. -/
def PumpRec.rest (now : Nat) (p : PumpRec) : PumpRec :=
  PumpRec.resettle now
    (match p.state with
     | .starting => { p with goal := 0, state := .stopping, startTimer := none, rehearsalTimer := none }
     | .running => { p with goal := 0, state := .stopping, lowSince := none }
     | _ => { p with goal := 0 })

theorem PumpRec.rest_keeps (now : Nat) (p : PumpRec) : (p.rest now).goal = 0 ∧ (p.rest now).valves = p.valves ∧
    (p.rest now).trips = p.trips ∧ (p.rest now).latched = p.latched ∧ (p.rest now).output = p.output := by
  unfold PumpRec.rest PumpRec.resettle
  split <;> simp

/-- A pump that does not run stays as it stands. -/
theorem PumpRec.rest_state {now : Nat} {p : PumpRec} (h : p.state = .stopped ∨ p.state = .tripped) :
    (p.rest now).state = p.state := by
  rcases h with h | h <;> simp [PumpRec.rest, PumpRec.resettle, h]

/-- The record of a present channel's pump rests; an absent one's stays. -/
def StationConfig.restPump (g : StationConfig) (now : Nat) (c : Channel) (p : PumpRec) : PumpRec :=
  if (g.channels[c]).present then p.rest now else p

theorem StationConfig.restPump_keeps (g : StationConfig) (now : Nat) (c : Channel) (p : PumpRec) :
    (g.restPump now c p).valves = p.valves ∧ (g.restPump now c p).trips = p.trips ∧
      (g.restPump now c p).latched = p.latched := by
  unfold StationConfig.restPump
  split
  · obtain ⟨_, valves, trips, latched, _⟩ := p.rest_keeps now
    exact ⟨valves, trips, latched⟩
  · exact ⟨rfl, rfl, rfl⟩

theorem StationConfig.restPump_state {g : StationConfig} {now : Nat} {c : Channel} {p : PumpRec}
    (h : p.state = .stopped ∨ p.state = .tripped) : (g.restPump now c p).state = p.state := by
  unfold StationConfig.restPump
  split
  · exact PumpRec.rest_state h
  · rfl

theorem State.actGoal_of_still {s : State} (still : s.ctl.state.cueing = false) (b : Bool) (c : Channel) :
    s.actGoal b c = s.setPump c (s.store.config.restPump s.localTimer c s.pump.pumps[c]) := by
  unfold State.actGoal StationConfig.restPump
  rw [State.goalOf_of_still still]
  cases (s.store.config.channels[c]).present with
  | false => exact (State.setPump_self c s).symm
  | true =>
    generalize s.pump.pumps[c] = p
    cases state : p.state <;> simp [PumpRec.rest, state]

/-- Every present pump acts on a goal of 0. -/
def State.restPumps (s : State) : State :=
  s.withPumps (s.store.config.restPump s.localTimer) (List.finRange 4)

theorem State.restPumps_pumps (s : State) (c : Channel) :
    s.restPumps.pump.pumps[c] = s.store.config.restPump s.localTimer c s.pump.pumps[c] := by
  simp [State.restPumps, State.withPumps]

theorem State.workGoals_of_still {s : State} (still : s.ctl.state.cueing = false) :
    s.workGoals = s.restPumps.refreshValves := by
  refine congrArg State.refreshValves (foldl_pumps
    (P := fun u => u.ctl.state.cueing = false ∧ u.store.config = s.store.config ∧ u.localTimer = s.localTimer)
    (fun u c h => ?_) (fun u c p h => h) _ (List.nodup_finRange 4) ⟨still, rfl, rfl⟩)
  rw [State.actGoal_of_still h.1, h.2.1, h.2.2]

theorem State.refreshValves_pump (s : State) (c : Channel) : ∃ timer,
    s.refreshValves.pump.pumps[c] = { s.pump.pumps[c] with startTimer := timer } := by
  have unfolded : s.refreshValves.pump.pumps[c] = State.pumpWithStartTimer
      { s with pump := { s.pump with nozzles := Vector.ofFn fun z : Fin 16 => s.nozzleAfter z } } c := by simp
  rw [unfolded, State.pumpWithStartTimer]
  dsimp only
  split
  · exact ⟨_, rfl⟩
  · exact ⟨_, rfl⟩

/-- The pump of a channel after its goal has been worked to 0. -/
theorem State.workGoals_pump {s : State} (still : s.ctl.state.cueing = false) (c : Channel) : ∃ timer,
    s.workGoals.pump.pumps[c] =
      { s.store.config.restPump s.localTimer c s.pump.pumps[c] with startTimer := timer } := by
  rw [State.workGoals_of_still still]
  obtain ⟨timer, e⟩ := State.refreshValves_pump s.restPumps c
  exact ⟨timer, e.trans (by rw [State.restPumps_pumps])⟩

/-! ### OUT marks (R126) -/

/-- Which nozzles are OUT, and which hold the fault mark. -/
def State.marks (s : State) : Vector (Bool × Bool) 16 :=
  Vector.ofFn fun z : Fin 16 => ((s.pump.nozzles[z]).state == .out, (s.pump.nozzles[z]).faultOut)

theorem State.marks_congr {s t : State} (h : t.pump.nozzles = s.pump.nozzles) : t.marks = s.marks := by
  unfold State.marks
  rw [h]

theorem State.marks_at {s t : State} (h : t.marks = s.marks) (z : Nozzle) :
    ((t.pump.nozzles[z]).state = .out ↔ (s.pump.nozzles[z]).state = .out) ∧
      (t.pump.nozzles[z]).faultOut = (s.pump.nozzles[z]).faultOut := by
  have at_ := congrArg (fun v : Vector (Bool × Bool) 16 => v[z]) h
  simp only [State.marks, Fin.getElem_fin, Vector.getElem_ofFn, Prod.mk.injEq] at at_
  refine ⟨?_, at_.2⟩
  rw [← beq_iff_eq (a := (t.pump.nozzles[z]).state), ← beq_iff_eq (a := (s.pump.nozzles[z]).state)]
  exact Bool.eq_iff_iff.mp at_.1

theorem State.nozzleAfter_faultOut (s : State) (z : Nozzle) :
    (s.nozzleAfter z).faultOut = (s.pump.nozzles[z]).faultOut := by
  unfold State.nozzleAfter
  dsimp only
  split
  · rfl
  · split
    · rfl
    · split <;> rfl

@[simp] theorem State.refreshValves_marks (s : State) : s.refreshValves.marks = s.marks := by
  have out (z : Nozzle) : ((s.nozzleAfter z).state == .out) = ((s.pump.nozzles[z]).state == .out) := by
    rw [Bool.eq_iff_iff, beq_iff_eq, beq_iff_eq]
    exact s.nozzleAfter_out z
  unfold State.marks
  refine Vector.ext fun i hi => ?_
  simpa [State.nozzleAfter_faultOut] using out ⟨i, hi⟩

/-! ### The end of a step with no START held -/

/-- `t` has what matters of the water and the heads as `s` has it. -/
structure Calm (s t : State) : Prop where
  head : t.head = s.head
  mon : t.mon = s.mon
  config : t.store.config = s.store.config
  marks : t.marks = s.marks
  valves : ∀ c : Channel, (t.pump.pumps[c]).valves = (s.pump.pumps[c]).valves
  asked : s.operating = true → t.operating = true ∧ (s.jet.passDue = true → t.jet.passDue = true)

theorem Calm.refl (s : State) : Calm s s := ⟨rfl, rfl, rfl, rfl, fun _ => rfl, fun op => ⟨op, id⟩⟩

theorem Calm.trans {s t u : State} (h : Calm s t) (k : Calm t u) : Calm s u where
  head := k.head.trans h.head
  mon := k.mon.trans h.mon
  config := k.config.trans h.config
  marks := k.marks.trans h.marks
  valves c := (k.valves c).trans (h.valves c)
  asked op := ⟨(k.asked (h.asked op).1).1, fun due => (k.asked (h.asked op).1).2 ((h.asked op).2 due)⟩

theorem Calm.pumpOf {s t : State} (h : Calm s t) (z : Nozzle) : (t.pumpOf z).valves = (s.pumpOf z).valves := by
  unfold State.pumpOf
  rw [h.config]
  exact nthD_congr PumpRec.valves h.valves _ _

/-- A step that changes neither heads, monitor, nozzles nor pumps. -/
theorem Calm.of_parts {s t : State} (head : t.head = s.head) (mon : t.mon = s.mon) (config : t.store.config = s.store.config)
    (pump : t.pump = s.pump)
    (asked : s.operating = true → t.operating = true ∧ (s.jet.passDue = true → t.jet.passDue = true)) : Calm s t :=
  ⟨head, mon, config, State.marks_congr (by rw [pump]), fun c => by rw [pump], asked⟩

theorem State.workGoals_calm {s : State} (still : s.ctl.state.cueing = false) : Calm s s.workGoals where
  head := by simp
  mon := State.workGoals_mon still
  config := by simp
  marks := by
    rw [State.workGoals_of_still still, State.refreshValves_marks]
    exact State.marks_congr rfl
  valves c := by
    obtain ⟨timer, e⟩ := State.workGoals_pump still c
    rw [e]
    exact (StationConfig.restPump_keeps _ _ _ _).1
  asked op := by
    refine ⟨State.operating_of_state_eq op (by simp), fun due => ?_⟩
    rw [State.workGoals_of_still still, (State.refreshValves_keeps _).2.2.2.2.2.2.2.2.1]
    exact due

theorem State.mapPumps_calm {s : State} {f : PumpRec → PumpRec} (h : ∀ p, (f p).valves = p.valves) :
    Calm s (s.mapPumps f) where
  head := rfl
  mon := rfl
  config := rfl
  marks := State.marks_congr rfl
  valves c := by simp [State.mapPumps, h]
  asked op := ⟨op, id⟩

theorem PumpRec.idle_valves (p : PumpRec) : p.idle.valves = p.valves := by
  unfold PumpRec.idle
  dsimp only
  split <;> rfl

theorem State.changeState_passDue (n : ShowState) (s : State) :
    (s.changeState n).jet.passDue = (s.jet.passDue || (s.changeState n).operating) := by
  unfold State.changeState
  dsimp only
  rw [State.askPass_jet]
  simp [State.operating]

theorem State.changeState_calm {n : ShowState} (works : n ≠ .startUp ∧ n ≠ .configFault) (s : State) :
    Calm s (s.changeState n) := by
  refine Calm.of_parts (by simp) (by simp) (by simp) (by simp) fun op => ?_
  have op' : (s.changeState n).operating = true := by
    have state : (s.changeState n).ctl.state = n := by simp
    rw [State.operating, state]
    cases n with
    | startUp => exact absurd rfl works.1
    | configFault => exact absurd rfl works.2
    | _ => rfl
  refine ⟨op', fun due => ?_⟩
  rw [State.changeState_passDue, due, Bool.true_or]

theorem State.idlePeers_calm (s : State) : Calm s s.idlePeers := by
  refine Calm.of_parts (by simp) (by simp) (by simp) (by simp) fun op => ⟨State.operating_of_state_eq op (by simp), fun due => ?_⟩
  unfold State.idlePeers State.reportPeers
  dsimp only
  split
  · exact due
  · rw [State.askPass_jet]
    simp [State.dropOffsets, due]

/-- What Cue Sequencer, Show Store and Music Playback drop. -/
theorem State.dropShow_calm (s : State) : Calm s (((s.clearSequencer.resetSection).dropEntry).flushMusic) := by
  refine Calm.of_parts (by simp) (by simp) (by simp) (by simp) fun op => ⟨State.operating_of_state_eq op (by simp), fun due => ?_⟩
  exact due

/-- Pumps, fixtures and Peer View at the entry to IDLE. -/
theorem State.idleBlocks_calm {s : State} (idle : s.ctl.state = .idle) :
    Calm s (((s.mapPumps PumpRec.idle).resetFixtures).idlePeers).workGoals := by
  have dark : Calm (s.mapPumps PumpRec.idle) (s.mapPumps PumpRec.idle).resetFixtures :=
    Calm.of_parts rfl rfl rfl rfl fun op => ⟨op, id⟩
  have still : (((s.mapPumps PumpRec.idle).resetFixtures).idlePeers).ctl.state.cueing = false := by
    simp [idle, ShowState.cueing]
  exact (((State.mapPumps_calm PumpRec.idle_valves).trans dark).trans (State.idlePeers_calm _)).trans
    (State.workGoals_calm still)

theorem State.enterIdle_calm (s : State) : Calm s (s.enterIdle false) := by
  unfold State.enterIdle
  simp only [Bool.false_eq_true, if_false]
  generalize unselected :
    ({ s with ctl := { s.ctl with selected := 0, held := none, lightRunOut := false, audioRunOut := false } } : State) = s1
  have first : Calm s s1 := by
    rw [← unselected]
    exact Calm.of_parts rfl rfl rfl rfl fun op => ⟨op, id⟩
  have entered := (first.trans (State.changeState_calm (n := .idle) (by decide) s1)).trans (State.dropShow_calm _)
  have idle : ((((s1.changeState .idle).clearSequencer.resetSection).dropEntry).flushMusic).ctl.state = .idle := by simp
  exact entered.trans (State.idleBlocks_calm idle)

theorem State.checkEnding_calm (s : State) : Calm s s.checkEnding := by
  rcases s.checkEnding_cases with e | ⟨_, e⟩
  · rw [e]
    exact Calm.refl s
  · rw [e]
    exact s.enterIdle_calm

theorem State.checkArmed_calm {s : State} (held : s.ctl.held = none) : Calm s s.checkArmed := by
  unfold State.checkArmed
  split
  · rw [State.enterArmed_of_not_held held]
    have dark : Calm (s.changeState .armed) (s.changeState .armed).resetFixtures :=
      Calm.of_parts rfl rfl rfl rfl fun op => ⟨op, id⟩
    exact ((State.changeState_calm (by decide) s).trans dark).trans
      (State.workGoals_calm (by simp [ShowState.cueing]))
  · exact Calm.refl s

theorem State.grant_calm (s : State) : Calm s s.grant := by
  rw [State.grant_eq]
  exact Calm.of_parts rfl rfl rfl rfl fun op => ⟨op, id⟩

/-- The end of a step leaves heads, events and OUT marks alone, whatever completes, when no START is held. -/
theorem State.settle_calm {s : State} (held : s.ctl.held = none) : Calm s s.settle :=
  ((State.checkArmed_calm held).trans (State.checkEnding_calm _)).trans (State.grant_calm _)

/-- Nothing completes at the end of a steady step. -/
theorem State.settle_of_steady {s : State} (h : s.steady) : s.settle = s.grant := by
  have unarmed : s.checkArmed = s := if_neg fun k => h.1 k.1
  have unended : s.checkEnding = s := if_neg fun k => by simp [h.2 k.1] at k
  rw [State.settle, unarmed, unended]

end Sys2Proof.Machine
end

