-- ==== Sys2Proof/Proofs/HomingAndVerification.lean ====
section
/-! PROOFS. Homing (R132, R133), faults (R140) and the ladder of verification (R137, R138). -/

set_option Elab.async false

namespace Sys2Proof.Machine

/-! ### The time at which a timer has run out -/

/-- The levels of the pins do not touch the clocks. -/
theorem State.passTo_inputs (n : Nat) (i : Inputs) (s : State) :
    State.passTo n { s with inputs := i } = { s.passTo n with inputs := i } := by
  unfold State.passTo State.passTime
  dsimp only
  split <;> rfl

/-! ### Fault marks (R126) -/

/-- The nozzle is OUT with the fault mark. -/
def State.Marked (s : State) (z : Nozzle) : Prop :=
  (s.pump.nozzles[z]).state = .out ∧ (s.pump.nozzles[z]).faultOut = true

theorem State.marked_congr {s t : State} (h : t.marks = s.marks) (z : Nozzle) : t.Marked z ↔ s.Marked z := by
  obtain ⟨out, fault⟩ := State.marks_at h z
  rw [State.Marked, State.Marked, out, fault]

theorem State.marked_of_nozzles {s t : State} (h : t.pump.nozzles = s.pump.nozzles) (z : Nozzle) :
    t.Marked z ↔ s.Marked z := State.marked_congr (State.marks_congr h) z

theorem State.setFaultMark_nozzles (z : Nozzle) (s : State) : ∃ n : NozzleRec, n.state = .out ∧ n.faultOut = true ∧
    (s.setFaultMark z).pump.nozzles = s.pump.nozzles.set z n := by
  unfold State.setFaultMark
  dsimp only
  split
  · next out => exact ⟨{ s.pump.nozzles[z] with faultOut := true }, out, rfl, rfl⟩
  · refine ⟨{ s.pump.nozzles[z] with faultOut := true, state := .out, command := false, drive := .off, fallHeight := 0 },
      rfl, rfl, ?_⟩
    simp [State.dropValves]

theorem State.setFaultMark_marked (z y : Nozzle) (s : State) (h : y = z ∨ s.Marked y) : (s.setFaultMark z).Marked y := by
  obtain ⟨n, out, fault, nozzles⟩ := s.setFaultMark_nozzles z
  unfold State.Marked
  rw [nozzles]
  by_cases same : y = z
  · subst same
    simp [out, fault]
  · have ne : z.val ≠ y.val := fun e => same (Fin.ext e.symm)
    simpa [State.Marked, ne] using h.resolve_left same

theorem foldl_setFaultMark_marked (l : List Nozzle) (y : Nozzle) (s : State) (h : y ∈ l ∨ s.Marked y) :
    (l.foldl (fun s z => s.setFaultMark z) s).Marked y := by
  induction l generalizing s with
  | nil => simpa using h
  | cons z l ih =>
    refine ih _ ?_
    rcases h with h | h
    · rcases List.mem_cons.mp h with rfl | h
      · exact .inr (State.setFaultMark_marked _ _ s (.inl rfl))
      · exact .inl h
    · exact .inr (State.setFaultMark_marked _ _ s (.inr h))

theorem State.clearFaultMark_nozzles (z : Nozzle) (s : State) : ∃ n : NozzleRec, n.faultOut = false ∧
    (s.clearFaultMark z).pump.nozzles = s.pump.nozzles.set z n := by
  unfold State.clearFaultMark
  dsimp only
  split
  · refine ⟨{ s.pump.nozzles[z] with faultOut := false, state := .dry }, rfl, ?_⟩
    simp
  · exact ⟨_, rfl, rfl⟩

theorem foldl_clearFaultMark (l : List Nozzle) (y : Nozzle) (s : State)
    (h : y ∈ l ∨ (s.pump.nozzles[y]).faultOut = false) :
    ((l.foldl (fun s z => s.clearFaultMark z) s).pump.nozzles[y]).faultOut = false := by
  induction l generalizing s with
  | nil => simpa using h
  | cons z l ih =>
    refine ih _ ?_
    obtain ⟨n, clear, nozzles⟩ := s.clearFaultMark_nozzles z
    rw [nozzles]
    by_cases same : y = z
    · subst same
      exact .inr (by simp [clear])
    · have ne : z.val ≠ y.val := fun e => same (Fin.ext e.symm)
      rcases h with h | h
      · exact .inl ((List.mem_cons.mp h).resolve_left same)
      · exact .inr (by simpa [ne] using h)

/-! ### FAULT and SETTLED -/

/-- The record of a head in FAULT (R140). -/
def HeadRec.fault (r : HeadRec) : HeadRec :=
  { r with
    state := .fault, position := none, target := none, pending := none, sweep := none, timer := none, marks := true }

/-- The record of a head that has settled (R137). -/
def HeadRec.settle (r : HeadRec) : HeadRec :=
  { r with state := .settled, target := none, pending := none, timer := none, marks := false }

theorem State.headFault_heads (h : Head) (cause : HeadCause) (s : State) :
    (s.headFault h cause).head.heads = s.head.heads.set h (s.head.heads[h]).fault := by
  unfold State.headFault
  simp only [State.refreshValves_keeps, State.raise_keeps]
  rw [foldl_head _ (fun s z => (State.setFaultMark_keeps z s).2.2.2.2.2.2.2.2.1)]
  rfl

theorem State.headFault_mon (h : Head) (cause : HeadCause) (s : State) : (s.headFault h cause).mon =
    s.mon.count { kind := .headFault, time := s.clock.showTime, cueId := none, object := some (h.val + 8 * cause.number) } := by
  unfold State.headFault State.raise
  simp

theorem State.headFault_marked {h : Head} {z : Nozzle} {s : State} (mem : z ∈ s.store.config.swivelsOf h)
    (cause : HeadCause) : (s.headFault h cause).Marked z := by
  unfold State.headFault
  refine (State.marked_congr (State.refreshValves_marks _) z).mpr ?_
  exact foldl_setFaultMark_marked _ z _ (.inl mem)

theorem State.settleHead_heads (h : Head) (s : State) :
    (s.settleHead h).head.heads = s.head.heads.set h (s.head.heads[h]).settle := by
  unfold State.settleHead
  dsimp only
  split
  · simp only [State.refreshValves_keeps]
    rw [foldl_head _ (fun s z => (State.clearFaultMark_keeps z s).2.2.2.2.2.2.2.2.1)]
    rfl
  · rfl

theorem State.settleHead_unmarked {h : Head} {z : Nozzle} {s : State} (marks : (s.head.heads[h]).marks = true)
    (mem : z ∈ s.store.config.swivelsOf h) : ((s.settleHead h).pump.nozzles[z]).faultOut = false := by
  unfold State.settleHead
  dsimp only
  rw [if_pos marks, (State.marks_at (State.refreshValves_marks _) z).2]
  exact foldl_clearFaultMark _ z _ (.inl mem)

/-! ### Permits lost (R142) -/

theorem foldl_withBit {w : Nat} (f : Fin w → Bool) (l : List (Fin w)) (b : BitVec w) (i : Fin w) :
    (l.foldl (fun b i => withBit b i.val (f i)) b).getLsbD i = if i ∈ l then f i else b.getLsbD i := by
  induction l generalizing b with
  | nil => simp
  | cons j l ih =>
    rw [List.foldl_cons, ih, withBit_getLsbD _ _ _ _ j.isLt]
    by_cases same : i = j
    · subst same
      simp
    · have ne : i.val ≠ j.val := fun e => same (Fin.ext e)
      simp [same, ne]

theorem bitsOf_getLsbD {n : Nat} (f : Fin n → Bool) (i : Fin n) : (bitsOf n f).getLsbD i = f i := by
  rw [bitsOf, foldl_withBit, if_pos (List.mem_finRange i)]

theorem nthD_at {α : Type} {n : Nat} (v : Vector α n) (i : Fin n) (d : α) : nthD v i.val d = v[i] := by
  simp [nthD, List.getD_eq_getElem?_getD]

theorem nthD_all {α : Type} {n : Nat} {v : Vector α n} {P : α → Prop} (h : ∀ i : Fin n, P v[i]) {d : α} (hd : P d) (k : Nat) :
    P (nthD v k d) := by
  by_cases inside : k < n
  · rw [nthD_at v ⟨k, inside⟩ d]
    exact h _
  · simpa [nthD, List.getD_eq_getElem?_getD, inside] using hd

theorem mem_swivelsOf {g : StationConfig} {h : Head} {z : Nozzle} :
    z ∈ g.swivelsOf h ↔ (g.nozzles[z]).present = true ∧ (g.nozzles[z]).kind = 1 ∧ (g.nozzles[z]).head = h.val := by
  simp [StationConfig.swivelsOf, and_assoc]

/-- A head out of aim gives no permit (R142). -/
theorem State.permitOf_unaimed {s : State} {h : Head} {z : Nozzle} (mem : z ∈ s.store.config.swivelsOf h)
    (unaimed : (s.head.heads[h]).state.aimed = false) : s.permitOf z = false := by
  obtain ⟨_, kind, head⟩ := mem_swivelsOf.mp mem
  have record : nthD s.head.heads (s.store.config.nozzles[z]).head {} = s.head.heads[h] := by rw [head, nthD_at]
  unfold State.permitOf
  dsimp only
  rw [record, unaimed, kind]
  simp

/-- No channel has the nozzle in its valve set. -/
def State.Dropped (s : State) (z : Nozzle) : Prop := ∀ c : Channel, (s.pump.pumps[c]).valves.getLsbD z.val = false

theorem State.Dropped.refreshValves {s : State} {z : Nozzle} (h : s.Dropped z) : s.refreshValves.Dropped z := fun c => by
  obtain ⟨timer, e⟩ := s.refreshValves_pump c
  rw [e]
  exact h c

theorem State.dropValves_dropped {s : State} {z : Nozzle} (set : NozzleSet) (h : s.Dropped z ∨ set.getLsbD z.val = true) :
    (s.dropValves set).Dropped z := fun c => by
  have valves : ((s.dropValves set).pump.pumps[c]).valves = (s.pump.pumps[c]).valves &&& ~~~set := by
    simp [State.dropValves]
  rw [valves, BitVec.getLsbD_and, BitVec.getLsbD_not]
  rcases h with h | h
  · rw [h c, Bool.false_and]
  · simp [h]

theorem State.Dropped.askPass {s : State} {z : Nozzle} (h : s.Dropped z) : s.askPass.Dropped z := fun c => by
  simpa using h c

/-- Every permit is what its rule gives; the valves are not yet worked. -/
def State.withPermits (s : State) : State :=
  { s with head := { s.head with permits := Vector.ofFn fun z : Fin 16 => s.permitOf z } }

/-- The permits that are lost. -/
def State.lostPermits (s : State) : NozzleSet := bitsOf 16 fun z => s.head.permits[z] && !s.withPermits.head.permits[z]

/-- Permits worked afresh where one of them changes (R142). -/
theorem State.refreshPermits_changed {s : State} {z : Nozzle} (h : s.permitOf z ≠ s.head.permits[z]) :
    s.refreshPermits = (s.withPermits.dropValves s.lostPermits).askPass.refreshValves := by
  refine if_neg fun same => h ?_
  rw [← same]
  simp

/-- What a lost permit brings: the valve is out of its set, and a pass is asked for (R108, R123, R142). -/
theorem State.refreshPermits_lost {s : State} {z : Nozzle} (had : s.head.permits[z] = true) (lost : s.permitOf z = false) :
    s.refreshPermits.Dropped z ∧ (s.operating = true → s.refreshPermits.jet.passDue = true) ∧
      ValvesStand s.refreshPermits := by
  rw [State.refreshPermits_changed (z := z) (by rw [had, lost]; simp)]
  refine ⟨(State.dropValves_dropped _ (.inr ?_)).askPass.refreshValves, fun op => ?_, State.refreshValves_stand _⟩
  · rw [State.lostPermits, bitsOf_getLsbD]
    simpa [State.withPermits, lost] using had
  · have op' : (s.withPermits.dropValves s.lostPermits).operating = true :=
      (State.operating_congr (by simp [State.withPermits])).trans op
    rw [(State.refreshValves_keeps _).2.2.2.2.2.2.2.2.1, State.askPass_jet, op', Bool.or_true]

theorem State.refreshPermits_dropped {s : State} {z : Nozzle} (h : s.Dropped z) : s.refreshPermits.Dropped z := by
  by_cases same : (Vector.ofFn fun z : Fin 16 => s.permitOf z) = s.head.permits
  · have stands : s.refreshPermits = s := if_pos same
    rwa [stands]
  · obtain ⟨y, changed⟩ : ∃ y : Nozzle, s.permitOf y ≠ s.head.permits[y] := by
      by_contra none
      simp only [ne_eq, not_exists, not_not] at none
      exact same (Vector.ext fun i hi => by simpa using none ⟨i, hi⟩)
    rw [State.refreshPermits_changed changed]
    have kept : s.withPermits.Dropped z := h
    exact (State.dropValves_dropped _ (.inl kept)).askPass.refreshValves

theorem State.refreshPermits_passDue {s : State} (h : s.jet.passDue = true) : s.refreshPermits.jet.passDue = true := by
  unfold State.refreshPermits
  dsimp only
  split
  · exact h
  · rw [(State.refreshValves_keeps _).2.2.2.2.2.2.2.2.1, State.askPass_jet]
    simp [h]

theorem State.Dropped.pumpOf {s : State} {z : Nozzle} (h : s.Dropped z) : (s.pumpOf z).valves.getLsbD z.val = false :=
  nthD_all (P := fun p : PumpRec => p.valves.getLsbD z.val = false) h (by simp) _

theorem State.Dropped.command {s : State} {z : Nozzle} (h : s.Dropped z) (stand : ValvesStand s) :
    (s.pump.nozzles[z]).command = false := by
  rw [stand z, State.valveCommand, h.pumpOf]
  simp

/-! ### The end of a step, for the valves -/

theorem State.settle_valves {s : State} (held : s.ctl.held = none) (stand : ValvesStand s) : ValvesStand s.settle := by
  have armed : ValvesStand s.checkArmed := by
    unfold State.checkArmed
    split
    · rw [State.enterArmed_of_not_held held]
      exact (State.workGoals_standing _).1
    · exact stand
  have ended : ValvesStand s.checkArmed.checkEnding := by
    rcases s.checkArmed.checkEnding_cases with e | ⟨_, e⟩
    · rwa [e]
    · rw [e]
      exact (State.enterIdle_standing false _).1
  rw [State.settle, State.grant_eq]
  exact ended

end Sys2Proof.Machine
end

