-- ==== Sys2Proof/Proofs/HomeIntervals.lean ====
section
/-! PROOFS. The end of a home interval (R132, R140), and the cases of the ladder of verification (R137, R138). -/

set_option Elab.async false

namespace Sys2Proof.Machine

/-! ### The end of the step -/

@[simp] theorem State.refreshPermits_marks (s : State) : s.refreshPermits.marks = s.marks := by
  unfold State.refreshPermits
  dsimp only
  split
  · rfl
  · rw [State.refreshValves_marks]
    exact State.marks_congr (by simp [State.dropValves])

/-- Permits worked afresh and the completions at the end of a step leave the head records, the events and the OUT marks. -/
theorem State.finish_heads {w : State} (held : w.ctl.held = none) : w.refreshPermits.settle.head.heads = w.head.heads ∧
    w.refreshPermits.settle.mon = w.mon ∧ w.refreshPermits.settle.marks = w.marks := by
  have calm : Calm w.refreshPermits w.refreshPermits.settle := State.settle_calm (by simpa using held)
  exact ⟨by rw [calm.head, State.refreshPermits_heads], by rw [calm.mon]; simp, by rw [calm.marks, State.refreshPermits_marks]⟩

/-! ### Home found, and the seek that fails -/

/-- The state in which a head's timer has run out, with the level of its home switch. -/
def State.atHeadTimer (h : Head) (hhom : Bool) (t0 : Nat) (s : State) : State :=
  State.passTo t0 { s with inputs := { s.inputs with hhom := withBit s.inputs.hhom h.val hhom } }

theorem State.atHeadTimer_keeps (h : Head) (hhom : Bool) (t0 : Nat) (s : State) :
    (s.atHeadTimer h hhom t0).head = s.head ∧ (s.atHeadTimer h hhom t0).store = s.store ∧
      (s.atHeadTimer h hhom t0).ctl = s.ctl ∧ (s.atHeadTimer h hhom t0).mon = s.mon ∧
      (s.atHeadTimer h hhom t0).localTimer = (s.passTo t0).localTimer ∧
      (s.atHeadTimer h hhom t0).clock = (s.passTo t0).clock := by
  rw [State.atHeadTimer, State.passTo_inputs]
  simp

/-- The record of a head that has found home (R132). -/
def HeadRec.home (g : HeadCfg) (now : Nat) (r : HeadRec) : HeadRec :=
  HeadRec.goTo g now r.homing { r with position := some 0, encoder := 0, pending := none }

/-- Home found: the head verifies at 0, or has taken its first step up. -/
theorem HeadRec.home_spec (g : HeadCfg) (now : Nat) (r : HeadRec) :
    (r.home g now).encoder = 0 ∧ (r.home g now).target = some r.homing ∧ (r.home g now).pending = none ∧
      (r.homing.step = 0 → (r.home g now).state = .verifying ∧ (r.home g now).position = some 0 ∧
        (r.home g now).timer = some (now + g.settle * 1000)) ∧
      (0 < r.homing.step → (r.home g now).position = some 1 ∧ (r.home g now).direction = some .up ∧
        (r.home g now).state = if 4 * g.tolerance < ((0 : Int) - (1 * g.ratio : Nat)).natAbs then .verifying else .moving) := by
  unfold HeadRec.home
  obtain ⟨target, encoder, pending, _⟩ := HeadRec.goTo_keeps g now r.homing { r with position := some 0, encoder := 0, pending := none }
  refine ⟨encoder, target, pending, fun here => ?_, fun above => ?_⟩
  · rw [HeadRec.goTo_here rfl here.symm]
    exact ⟨rfl, rfl, rfl⟩
  · exact (HeadRec.goTo_away (r := { r with position := some 0, encoder := 0, pending := none }) rfl).1 above

theorem HeadRec.home_keeps (g : HeadCfg) (now : Nat) (r : HeadRec) : (r.home g now).homing = r.homing ∧
    (r.home g now).failures = r.failures ∧ (r.home g now).rehomed = r.rehomed := by
  obtain ⟨_, _, _, homing, failures, rehomed, _⟩ :=
    HeadRec.goTo_keeps g now r.homing { r with position := some 0, encoder := 0, pending := none }
  exact ⟨homing, failures, rehomed⟩

theorem State.homeFound_home (h : Head) (s : State) :
    s.homeFound h = s.setHead h ((s.head.heads[h]).home s.store.config.heads[h] s.localTimer) := s.homeFound_eq h

/-- The first step from home does not stall where a step's encoder counts are within the stall bound. -/
theorem HeadCfg.near_home {g : HeadCfg} (near : g.ratio ≤ 4 * g.tolerance) :
    ¬ 4 * g.tolerance < ((0 : Int) - (1 * g.ratio : Nat)).natAbs := by
  omega

/-- What the end of a home interval makes of the state in which it has run out (R132, R140). -/
def State.homeIntervalEnd (h : Head) (hhom : Bool) (u : State) : State :=
  if hhom then ((u.homeFound h).refreshPermits).settle
  else if (u.store.config.heads[h]).range + (u.store.config.heads[h]).range / 8 ≤ (u.head.heads[h]).seekSteps then
    ((u.headFault h .homeFail).refreshPermits).settle
  else u.setHead h { u.head.heads[h] with
    seekSteps := (u.head.heads[h]).seekSteps + 1
    timer := some (u.localTimer + (u.store.config.heads[h]).homeInterval), pulse := some u.localTimer }

theorem exec_homeIntervalExpiry {s : State} {h : Head} {t0 : Nat} (homing : (s.head.heads[h]).state = .homing)
    (timer : (s.head.heads[h]).timer = some t0) (hhom : Bool) :
    exec (.homeIntervalExpiry h hhom) s = .next ((s.atHeadTimer h hhom t0).homeIntervalEnd h hhom) := by
  obtain ⟨head, store, _⟩ := s.atHeadTimer_keeps h hhom t0
  unfold State.homeIntervalEnd
  rw [head, store]
  show execHomeIntervalExpiry h hhom s = _
  simp only [execHomeIntervalExpiry, timer, homing, if_true]
  rfl

theorem State.homeIntervalEnd_found {u : State} {h : Head} (held : u.ctl.held = none) :
    (u.homeIntervalEnd h true).head.heads[h] = (u.head.heads[h]).home u.store.config.heads[h] u.localTimer := by
  have found : u.homeIntervalEnd h true = ((u.homeFound h).refreshPermits).settle := if_pos rfl
  rw [found, (State.finish_heads (w := u.homeFound h) (by simpa using held)).1, State.homeFound_home, State.setHead_same]

theorem State.homeIntervalEnd_steps {u : State} {h : Head}
    (few : (u.head.heads[h]).seekSteps < (u.store.config.heads[h]).range + (u.store.config.heads[h]).range / 8) :
    (u.homeIntervalEnd h false).head.heads[h] = { u.head.heads[h] with
      seekSteps := (u.head.heads[h]).seekSteps + 1
      timer := some (u.localTimer + (u.store.config.heads[h]).homeInterval), pulse := some u.localTimer } := by
  unfold State.homeIntervalEnd
  rw [if_neg Bool.false_ne_true, if_neg few.not_ge, State.setHead_same]

theorem State.homeIntervalEnd_fails {u : State} {h : Head} (held : u.ctl.held = none)
    (spent : (u.store.config.heads[h]).range + (u.store.config.heads[h]).range / 8 ≤ (u.head.heads[h]).seekSteps) :
    (u.homeIntervalEnd h false).head.heads[h] = (u.head.heads[h]).fault ∧
      (∀ z ∈ u.store.config.swivelsOf h, (u.homeIntervalEnd h false).Marked z) ∧
      (u.homeIntervalEnd h false).mon =
        u.mon.count { kind := .headFault, time := u.clock.showTime, cueId := none, object := some h.val } := by
  have fails : u.homeIntervalEnd h false = ((u.headFault h .homeFail).refreshPermits).settle :=
    (if_neg Bool.false_ne_true).trans (if_pos spent)
  obtain ⟨heads, events, marks⟩ := State.finish_heads (w := u.headFault h .homeFail) (by simpa using held)
  rw [fails]
  refine ⟨?_, fun z mem => (State.marked_congr marks z).mpr (State.headFault_marked mem .homeFail), ?_⟩
  · rw [heads, State.headFault_heads]
    exact Vector.getElem_set_self h.isLt
  · rw [events, State.headFault_mon]
    rfl

/-- Settles O40. -/
theorem seekFindsHomeOrFails : Obligations.SeekFindsHomeOrFails := by
  intro s h hhom t0 homing timer held
  obtain ⟨head, store, ctl, mon, now, clock⟩ := s.atHeadTimer_keeps h hhom t0
  have next := exec_homeIntervalExpiry homing timer hhom
  rw [← head, ← store, ← mon, ← now, ← clock]
  have held' := ctl.symm ▸ held
  have homing' := head.symm ▸ homing
  generalize s.atHeadTimer h hhom t0 = u at next held' homing' ⊢
  refine ⟨_, next, ?_⟩
  cases hhom with
  | true =>
    obtain ⟨encoder, target, pending, here, away⟩ := HeadRec.home_spec u.store.config.heads[h] u.localTimer u.head.heads[h]
    dsimp only
    refine ⟨fun _ => ?_, fun e => absurd e (by decide), fun e => absurd e (by decide)⟩
    rw [State.homeIntervalEnd_found held']
    exact ⟨encoder, target, pending, fun e => ⟨(here e).1, (here e).2.1⟩,
      fun above near => ⟨(away above).2.2.trans (if_neg (HeadCfg.near_home near)), (away above).1⟩⟩
  | false =>
    dsimp only
    refine ⟨fun e => absurd e (by decide), fun _ few => ?_, fun _ spent => ?_⟩
    · rw [State.homeIntervalEnd_steps few]
      exact ⟨homing', rfl, rfl⟩
    · obtain ⟨record, marked, events⟩ := State.homeIntervalEnd_fails held' spent
      rw [record]
      exact ⟨rfl, rfl, marked, events⟩

/-! ### Verification -/

/-- The place to which a failed verification corrects the position (R138). -/
def HeadRec.corrected (g : HeadCfg) (r : HeadRec) : Nat := (clampInt 0 ((g.range : Int) - 1) (r.encoderStep g)).toNat

theorem HeadRec.corrected_eq (g : HeadCfg) (r : HeadRec) :
    r.corrected g = (max 0 (min ((g.range : Int) - 1) (Int.fdiv r.encoder g.ratio))).toNat := by
  unfold HeadRec.corrected clampInt HeadRec.encoderStep
  split_ifs <;> omega

theorem State.verifies_iff {s : State} {h : Head} {p : Nat} (position : (s.head.heads[h]).position = some p) :
    s.verifies h = true ↔
      ((s.head.heads[h]).encoder - (p * (s.store.config.heads[h]).ratio : Nat)).natAbs ≤ (s.store.config.heads[h]).tolerance := by
  unfold State.verifies
  dsimp only
  rw [position]
  simp

/-- A passed verification with nothing further to do (R137). -/
theorem State.verifyPass_settles {s : State} {h : Head} (done : (s.head.heads[h]).pending = none ∨
    ∃ t, (s.head.heads[h]).pending = some t ∧ (s.head.heads[h]).position = some t.step) : s.verifyPass h =
    (s.setHead h { s.head.heads[h] with failures := 0, rehomed := false }).settleHead h := by
  unfold State.verifyPass
  dsimp only
  rcases done with none | ⟨t, some, here⟩
  · rw [none]
  · rw [some]
    exact if_pos here

/-- A passed verification with a target pending elsewhere. -/
theorem State.verifyPass_goes {s : State} {h : Head} {t : Target} (pending : (s.head.heads[h]).pending = some t)
    (away : (s.head.heads[h]).position ≠ some t.step) : s.verifyPass h = s.setHead h
    (HeadRec.goTo s.store.config.heads[h] s.localTimer t
      { s.head.heads[h] with failures := 0, rehomed := false, pending := none }) := by
  unfold State.verifyPass
  dsimp only
  rw [pending]
  refine (if_neg away).trans ?_
  rw [State.goTo_eq, State.setHead_setHead, State.setHead_same]
  rfl

/-- The target that the ladder goes on with: the pending one, or the present one (R138). -/
def HeadRec.ladderTarget (g : HeadCfg) (r : HeadRec) : Target :=
  match r.pending with
  | some t => t
  | none => r.target.getD { step := r.corrected g, cueId := none }

/-- The record with the position corrected and the failure counted (R138). -/
def HeadRec.failed (g : HeadCfg) (r : HeadRec) : HeadRec :=
  { r with
    position := some (r.corrected g), target := some (r.ladderTarget g), pending := none, failures := r.failures + 1 }

/-- The event of a retry, and the record with the failure counted (R138). -/
def State.retry (h : Head) (s : State) : State :=
  (s.raise .headRetry ((s.head.heads[h]).ladderTarget s.store.config.heads[h]).cueId (some h.val)).setHead h
    ((s.head.heads[h]).failed s.store.config.heads[h])

@[simp] theorem State.retry_keeps (h : Head) (s : State) : (s.retry h).localTimer = s.localTimer ∧
    (s.retry h).ctl = s.ctl ∧ (s.retry h).store = s.store ∧ (s.retry h).head.permits = s.head.permits := by
  simp [State.retry]

theorem State.retry_head (h : Head) (s : State) :
    (s.retry h).head.heads[h] = (s.head.heads[h]).failed s.store.config.heads[h] := State.setHead_same _ _ _

theorem State.retry_mon (h : Head) (s : State) : (s.retry h).mon = s.mon.count
    { kind := .headRetry, time := s.clock.showTime
      cueId := ((s.head.heads[h]).ladderTarget s.store.config.heads[h]).cueId, object := some h.val } := rfl

/-- The first two failures are retried. -/
theorem State.verifyFail_retries {s : State} {h : Head} (few : (s.head.heads[h]).failures < 2) (asserted : Bool) :
    s.verifyFail h asserted = (s.retry h).goTo h ((s.head.heads[h]).ladderTarget s.store.config.heads[h]) := by
  have fewer : (s.head.heads[h]).failures + 1 < 3 := by omega
  exact if_pos fewer

/-- The third failure homes the head once more. -/
theorem State.verifyFail_rehomes {s : State} {h : Head} (many : 2 ≤ (s.head.heads[h]).failures)
    (first : (s.head.heads[h]).rehomed = false) (asserted : Bool) : s.verifyFail h asserted =
      ((s.retry h).setHead h { (s.retry h).head.heads[h] with failures := 0, rehomed := true }).enterHoming h
          ((s.head.heads[h]).ladderTarget s.store.config.heads[h]) asserted := by
  have third : ¬ (s.head.heads[h]).failures + 1 < 3 := by omega
  exact (if_neg third).trans (if_pos first)

/-- The failure after a re-home is a fault. -/
theorem State.verifyFail_faults {s : State} {h : Head} (many : 2 ≤ (s.head.heads[h]).failures)
    (again : (s.head.heads[h]).rehomed = true) (asserted : Bool) : s.verifyFail h asserted =
      (s.setHead h ((s.head.heads[h]).failed s.store.config.heads[h])).headFault h .slip := by
  have third : ¬ (s.head.heads[h]).failures + 1 < 3 := by omega
  exact (if_neg third).trans (if_neg fun e => Bool.false_ne_true (e.symm.trans again))

/-! ### Homing entry -/

/-- The record of a head that enters HOMING (R132). -/
def HeadRec.seek (g : HeadCfg) (now : Nat) (homing : Target) (asserted : Bool) (r : HeadRec) : HeadRec :=
  { r with
    state := .homing, position := none, target := none, homing := homing
    direction := if asserted then r.direction else some .down
    pulse := if asserted then r.pulse else some now
    seekSteps := if asserted then 0 else 1
    timer := if asserted then none else some (now + g.homeInterval) }

/-- Head Control at HOMING entry, before home is found at once. -/
def State.seeking (h : Head) (homing : Target) (asserted : Bool) (s : State) : State :=
  (s.setHead h ((s.head.heads[h]).seek s.store.config.heads[h] s.localTimer homing asserted)).refreshPermits

theorem State.seeking_head (h : Head) (homing : Target) (asserted : Bool) (s : State) :
    (s.seeking h homing asserted).head.heads[h] =
      (s.head.heads[h]).seek s.store.config.heads[h] s.localTimer homing asserted := by
  rw [State.seeking, State.refreshPermits_heads, State.setHead_same]

theorem State.enterHoming_eq (h : Head) (homing : Target) (asserted : Bool) (s : State) : s.enterHoming h homing asserted =
    if asserted then (s.seeking h homing asserted).homeFound h else s.seeking h homing asserted := by
  unfold State.enterHoming State.seeking HeadRec.seek
  rfl

theorem State.enterHoming_free (h : Head) (homing : Target) (s : State) :
    s.enterHoming h homing false = s.seeking h homing false :=
  (State.enterHoming_eq h homing false s).trans (if_neg Bool.false_ne_true)

theorem State.enterHoming_found (h : Head) (homing : Target) (s : State) : s.enterHoming h homing true =
    (s.seeking h homing true).setHead h (((s.head.heads[h]).seek s.store.config.heads[h] s.localTimer homing true).home
      s.store.config.heads[h] s.localTimer) := by
  have found : s.enterHoming h homing true = (s.seeking h homing true).homeFound h :=
    (State.enterHoming_eq h homing true s).trans (if_pos rfl)
  have config : (s.seeking h homing true).store = s.store := by simp [State.seeking]
  have now : (s.seeking h homing true).localTimer = s.localTimer := by simp [State.seeking]
  rw [found, State.homeFound_home, State.seeking_head, config, now]

theorem State.setHead_permitOf {s : State} {h : Head} {z : Nozzle} {r : HeadRec} (mem : z ∈ s.store.config.swivelsOf h)
    (unaimed : r.state.aimed = false) : (s.setHead h r).permitOf z = false := by
  refine State.permitOf_unaimed (h := h) (by simpa using mem) ?_
  rw [State.setHead_same, unaimed]

/-- What the swivel nozzles lose at HOMING entry that held their permits (R108, R123, R142). -/
theorem State.seeking_lost {s : State} {h : Head} {z : Nozzle} (mem : z ∈ s.store.config.swivelsOf h)
    (had : s.head.permits[z] = true) (homing : Target) (asserted : Bool) :
    (s.seeking h homing asserted).Dropped z ∧
      (s.operating = true → (s.seeking h homing asserted).jet.passDue = true) ∧
      ValvesStand (s.seeking h homing asserted) ∧ (s.seeking h homing asserted).permitOf z = false := by
  unfold State.seeking
  have unaimed : ((s.head.heads[h]).seek s.store.config.heads[h] s.localTimer homing asserted).state.aimed = false := rfl
  generalize (s.head.heads[h]).seek s.store.config.heads[h] s.localTimer homing asserted = r at unaimed ⊢
  have lost := State.setHead_permitOf (r := r) mem unaimed
  obtain ⟨dropped, asked, stand⟩ := State.refreshPermits_lost (z := z) (s := s.setHead h r) had lost
  refine ⟨dropped, fun op => asked op, stand, ?_⟩
  rw [State.permitOf_congr (s := s.setHead h r) (by simp) (by simp), lost]

theorem State.Dropped.setHead {s : State} {z : Nozzle} (dropped : s.Dropped z) (h : Head) (r : HeadRec) :
    (s.setHead h r).Dropped z := dropped

theorem ValvesStand.setHead {s : State} (stand : ValvesStand s) (h : Head) (r : HeadRec) : ValvesStand (s.setHead h r) :=
  stand.of_same (.of_parts rfl rfl rfl rfl)

/-- What is left of that when the step ends, home found at once or not. -/
theorem State.enterHoming_lost {s : State} {h : Head} {z : Nozzle} (mem : z ∈ s.store.config.swivelsOf h)
    (had : s.head.permits[z] = true) (held : s.ctl.held = none) (homing : Target) (asserted : Bool) :
    let t := (s.enterHoming h homing asserted).refreshPermits.settle
    (s.operating = true → t.jet.passDue = true) ∧ (t.pumpOf z).valves.getLsbD z.val = false ∧
      (t.pump.nozzles[z]).command = false ∧ (asserted = false → t.head.permits[z] = false) := by
  obtain ⟨dropped, asked, stand, lost⟩ := State.seeking_lost mem had homing asserted
  have after : ∃ r : HeadRec, s.enterHoming h homing asserted = (s.seeking h homing asserted).setHead h r := by
    cases asserted with
    | false => exact ⟨_, (State.enterHoming_free h homing s).trans (State.setHead_self h _).symm⟩
    | true => exact ⟨_, State.enterHoming_found h homing s⟩
  have free : asserted = false → s.enterHoming h homing asserted = s.seeking h homing asserted := by
    rintro rfl
    exact State.enterHoming_free h homing s
  have works : s.operating = true → (s.enterHoming h homing asserted).operating = true :=
    fun op => (State.operating_congr (by simp)).trans op
  have heldThen : (s.enterHoming h homing asserted).ctl.held = none := by simpa using held
  generalize s.seeking h homing asserted = v at dropped asked stand lost after free
  generalize s.enterHoming h homing asserted = w at after free works heldThen
  obtain ⟨r, rfl⟩ := after
  have calm := State.settle_calm (s := (v.setHead h r).refreshPermits) (by simpa using heldThen)
  have shut : (v.setHead h r).refreshPermits.settle.Dropped z := fun c => by
    rw [calm.valves c]
    exact State.refreshPermits_dropped (dropped.setHead h r) c
  refine ⟨fun op => ?_, shut.pumpOf,
    shut.command (State.settle_valves (by simpa using heldThen) (stand.setHead h r).refreshPermits), fun e => ?_⟩
  · have due : (v.setHead h r).jet.passDue = true := asked op
    have works' : (v.setHead h r).refreshPermits.operating = true :=
      (State.operating_congr (by simp)).trans (works op)
    exact (calm.asked works').2 (State.refreshPermits_passDue due)
  · rw [calm.head, State.refreshPermits_permits, State.permitOf_congr (s := v.setHead h r) (by simp) (by simp), free e, lost]

end Sys2Proof.Machine
end

