-- ==== Sys2Proof/Proofs/VerificationLadder.lean ====
section
/-! PROOFS. The end of a settle pause: each rung of the ladder of verification (R137, R138). -/

set_option Elab.async false

namespace Sys2Proof.Machine

/-- What the end of a settle pause makes of the state in which it has run out. -/
def State.ladder (h : Head) (asserted : Bool) (u : State) : State :=
  ((if u.verifies h then u.verifyPass h else u.verifyFail h asserted).refreshPermits).settle

theorem exec_settlePauseEnd {s : State} {h : Head} {t0 : Nat} (verifying : (s.head.heads[h]).state = .verifying)
    (timer : (s.head.heads[h]).timer = some t0) (hhom : Bool) :
    exec (.settlePauseEnd h hhom) s = .next ((s.atHeadTimer h hhom t0).ladder h hhom) := by
  show execSettlePauseEnd h hhom s = _
  simp only [execSettlePauseEnd, timer, verifying, if_true]
  rfl

section Rungs

variable {u : State} {h : Head} (held : u.ctl.held = none)
include held

/-- Settled: nothing further to do. -/
theorem State.ladder_settles (passes : u.verifies h = true) (done : (u.head.heads[h]).pending = none ∨
    ∃ t, (u.head.heads[h]).pending = some t ∧ (u.head.heads[h]).position = some t.step) (asserted : Bool) :
    (u.ladder h asserted).head.heads[h] = { u.head.heads[h] with failures := 0, rehomed := false }.settle ∧
      (u.ladder h asserted).mon = u.mon ∧
      ((u.head.heads[h]).marks = true → ∀ z ∈ u.store.config.swivelsOf h,
        ((u.ladder h asserted).pump.nozzles[z]).faultOut = false) := by
  have settles : (if u.verifies h then u.verifyPass h else u.verifyFail h asserted) =
      (u.setHead h { u.head.heads[h] with failures := 0, rehomed := false }).settleHead h :=
    (if_pos passes).trans (State.verifyPass_settles done)
  obtain ⟨heads, events, marks⟩ := State.finish_heads
    (w := (u.setHead h { u.head.heads[h] with failures := 0, rehomed := false }).settleHead h) (by simpa using held)
  unfold State.ladder
  rw [settles]
  refine ⟨?_, ?_, fun marked z mem => ?_⟩
  · rw [heads, State.settleHead_heads, State.setHead_same]
    exact Vector.getElem_set_self h.isLt
  · rw [events]
    simp
  · rw [(State.marks_at marks z).2]
    exact State.settleHead_unmarked (by rw [State.setHead_same]; exact marked) (by simpa using mem)

/-- Passed, with a target pending elsewhere. -/
theorem State.ladder_goes {t : Target} (passes : u.verifies h = true) (pending : (u.head.heads[h]).pending = some t)
    (away : (u.head.heads[h]).position ≠ some t.step) (asserted : Bool) :
    (u.ladder h asserted).head.heads[h] = HeadRec.goTo u.store.config.heads[h] u.localTimer t
        { u.head.heads[h] with failures := 0, rehomed := false, pending := none } ∧
      (u.ladder h asserted).mon = u.mon := by
  have goes := (if_pos passes : (if u.verifies h then u.verifyPass h else u.verifyFail h asserted) = _).trans
    (State.verifyPass_goes pending away)
  unfold State.ladder
  rw [goes]
  generalize HeadRec.goTo _ _ _ _ = r
  obtain ⟨heads, events, _⟩ := State.finish_heads (w := u.setHead h r) (by simpa using held)
  exact ⟨by rw [heads, State.setHead_same], by rw [events]; simp⟩

/-- The first two failures. -/
theorem State.ladder_retries (fails : u.verifies h = false) (few : (u.head.heads[h]).failures < 2) (asserted : Bool) :
    (u.ladder h asserted).head.heads[h] = HeadRec.goTo u.store.config.heads[h] u.localTimer
        ((u.head.heads[h]).ladderTarget u.store.config.heads[h]) ((u.head.heads[h]).failed u.store.config.heads[h]) ∧
      (u.ladder h asserted).mon = (u.retry h).mon := by
  have retries : (if u.verifies h then u.verifyPass h else u.verifyFail h asserted) =
      (u.retry h).goTo h ((u.head.heads[h]).ladderTarget u.store.config.heads[h]) :=
    (if_neg (Bool.eq_false_iff.mp fails)).trans (State.verifyFail_retries few asserted)
  obtain ⟨now, ctl, store, _⟩ := u.retry_keeps h
  unfold State.ladder
  rw [retries, State.goTo_eq, State.retry_head, store, now]
  generalize HeadRec.goTo _ _ _ _ = r
  obtain ⟨heads, events, _⟩ := State.finish_heads (w := (u.retry h).setHead h r) (by simpa using held)
  exact ⟨by rw [heads, State.setHead_same], by rw [events]; simp⟩

/-- The failure after a re-home. -/
theorem State.ladder_faults (fails : u.verifies h = false) (many : 2 ≤ (u.head.heads[h]).failures)
    (again : (u.head.heads[h]).rehomed = true) (asserted : Bool) :
    (u.ladder h asserted).head.heads[h] = ((u.head.heads[h]).failed u.store.config.heads[h]).fault ∧
      (∀ z ∈ u.store.config.swivelsOf h, (u.ladder h asserted).Marked z) ∧
      (u.ladder h asserted).mon = u.mon.count
        { kind := .headFault, time := u.clock.showTime, cueId := none, object := some (h.val + 8) } := by
  have faults : (if u.verifies h then u.verifyPass h else u.verifyFail h asserted) = _ :=
    (if_neg (Bool.eq_false_iff.mp fails)).trans (State.verifyFail_faults many again asserted)
  unfold State.ladder
  rw [faults]
  generalize (u.head.heads[h]).failed u.store.config.heads[h] = r
  obtain ⟨heads, events, marks⟩ := State.finish_heads (w := (u.setHead h r).headFault h .slip) (by simpa using held)
  refine ⟨?_, fun z mem => (State.marked_congr marks z).mpr (State.headFault_marked (by simpa using mem) .slip), ?_⟩
  · rw [heads, State.headFault_heads, State.setHead_same]
    exact Vector.getElem_set_self h.isLt
  · rw [events, State.headFault_mon]
    rfl

omit held in
/-- Head Control when the third failure homes the head once more. -/
def State.rehoming (h : Head) (u : State) : State :=
  (u.retry h).setHead h { (u.retry h).head.heads[h] with failures := 0, rehomed := true }

omit held in
theorem State.rehoming_keeps (h : Head) (u : State) : (u.rehoming h).localTimer = u.localTimer ∧
    (u.rehoming h).ctl = u.ctl ∧ (u.rehoming h).store = u.store ∧ (u.rehoming h).head.permits = u.head.permits ∧
    (u.rehoming h).mon = (u.retry h).mon := by
  simp [State.rehoming]

omit held in
theorem State.rehoming_head (h : Head) (u : State) : (u.rehoming h).head.heads[h] =
    { (u.head.heads[h]).failed u.store.config.heads[h] with failures := 0, rehomed := true } := by
  rw [State.rehoming, State.setHead_same, State.retry_head]

omit held in
theorem State.enterHoming_head (h : Head) (homing : Target) (asserted : Bool) (s : State) :
    (s.enterHoming h homing asserted).head.heads[h] =
      (if asserted then ((s.head.heads[h]).seek s.store.config.heads[h] s.localTimer homing asserted).home
          s.store.config.heads[h] s.localTimer
       else (s.head.heads[h]).seek s.store.config.heads[h] s.localTimer homing asserted) := by
  cases asserted with
  | true => rw [State.enterHoming_found, State.setHead_same, if_pos rfl]
  | false => rw [State.enterHoming_free, State.seeking_head, if_neg Bool.false_ne_true]

/-- The third failure. -/
theorem State.ladder_rehomes (fails : u.verifies h = false) (many : 2 ≤ (u.head.heads[h]).failures)
    (first : (u.head.heads[h]).rehomed = false) (asserted : Bool) :
    u.ladder h asserted = ((u.rehoming h).enterHoming h
      ((u.head.heads[h]).ladderTarget u.store.config.heads[h]) asserted).refreshPermits.settle ∧
    (u.ladder h asserted).head.heads[h] = ((u.rehoming h).enterHoming h
      ((u.head.heads[h]).ladderTarget u.store.config.heads[h]) asserted).head.heads[h] ∧
    (u.ladder h asserted).mon = (u.retry h).mon := by
  have rehomes : (if u.verifies h then u.verifyPass h else u.verifyFail h asserted) =
      (u.rehoming h).enterHoming h ((u.head.heads[h]).ladderTarget u.store.config.heads[h]) asserted :=
    (if_neg (Bool.eq_false_iff.mp fails)).trans (State.verifyFail_rehomes many first asserted)
  have same : u.ladder h asserted = ((u.rehoming h).enterHoming h
      ((u.head.heads[h]).ladderTarget u.store.config.heads[h]) asserted).refreshPermits.settle :=
    congrArg (fun w : State => w.refreshPermits.settle) rehomes
  obtain ⟨_, ctl, _, _, mon⟩ := u.rehoming_keeps h
  rw [same]
  generalize (u.head.heads[h]).ladderTarget u.store.config.heads[h] = t
  have events : ((u.rehoming h).enterHoming h t asserted).mon = (u.rehoming h).mon := by simp
  have held' : ((u.rehoming h).enterHoming h t asserted).ctl.held = none := by simpa [ctl] using held
  obtain ⟨heads, events', _⟩ := State.finish_heads held'
  exact ⟨rfl, by rw [heads], by rw [events', events, mon]⟩

/-- What the nozzles of the head lose at the third failure. -/
theorem State.ladder_rehomes_lost (fails : u.verifies h = false) (many : 2 ≤ (u.head.heads[h]).failures)
    (first : (u.head.heads[h]).rehomed = false) {z : Nozzle} (mem : z ∈ u.store.config.swivelsOf h)
    (had : u.head.permits[z] = true) (asserted : Bool) :
    (u.operating = true → (u.ladder h asserted).jet.passDue = true) ∧
      ((u.ladder h asserted).pumpOf z).valves.getLsbD z.val = false ∧
      ((u.ladder h asserted).pump.nozzles[z]).command = false ∧
      (asserted = false → (u.ladder h asserted).head.permits[z] = false) := by
  obtain ⟨_, ctl, store, permits, _⟩ := u.rehoming_keeps h
  have lost := State.enterHoming_lost (s := u.rehoming h) (store.symm ▸ mem) (permits.symm ▸ had) (ctl.symm ▸ held)
    ((u.head.heads[h]).ladderTarget u.store.config.heads[h]) asserted
  rw [(State.ladder_rehomes held fails many first asserted).1]
  have op : (u.rehoming h).operating = u.operating := State.operating_congr (congrArg ShowControl.state ctl)
  rwa [op] at lost

end Rungs

/-- Where a failed verification goes on from the corrected position (R138). -/
theorem HeadRec.retried_spec (g : HeadCfg) (now : Nat) (t : Target) (r : HeadRec) :
    let r' := HeadRec.goTo g now t (r.failed g)
    (r.corrected g = t.step → r'.state = .verifying ∧ r'.position = some (r.corrected g) ∧
        r'.timer = some (now + g.settle * 1000)) ∧
      (r.corrected g < t.step → r'.position = some (r.corrected g + 1) ∧ r'.direction = some .up ∧ r'.target = some t ∧
        r'.state = if 4 * g.tolerance < (r'.encoder - ((r.corrected g + 1) * g.ratio : Nat)).natAbs then .verifying else .moving) ∧
      (t.step < r.corrected g → r'.position = some (r.corrected g - 1) ∧ r'.direction = some .down ∧ r'.target = some t ∧
        r'.state = if 4 * g.tolerance < (r'.encoder - ((r.corrected g - 1) * g.ratio : Nat)).natAbs then .verifying else .moving) := by
  have position : (r.failed g).position = some (r.corrected g) := rfl
  obtain ⟨target, encoder, _⟩ := HeadRec.goTo_keeps g now t (r.failed g)
  obtain ⟨up, down⟩ := HeadRec.goTo_away (g := g) (now := now) (t := t) position
  dsimp only
  rw [target, encoder]
  refine ⟨fun here => ?_, fun above => ?_, fun below => ?_⟩
  · rw [HeadRec.goTo_here position here]
    exact ⟨rfl, rfl, rfl⟩
  · obtain ⟨place, sense, state⟩ := up above
    exact ⟨place, sense, rfl, state⟩
  · obtain ⟨place, sense, state⟩ := down below
    exact ⟨place, sense, rfl, state⟩

theorem State.verifies_false {u : State} {h : Head} {p : Nat} (position : (u.head.heads[h]).position = some p)
    (far : (u.store.config.heads[h]).tolerance <
      ((u.head.heads[h]).encoder - (p * (u.store.config.heads[h]).ratio : Nat)).natAbs) : u.verifies h = false :=
  Bool.eq_false_iff.mpr fun e => absurd ((State.verifies_iff position).mp e) far.not_ge

/-- Settles O42. -/
theorem verificationLadder : Obligations.VerificationLadder := by
  refine ⟨fun s h hhom t0 p g verifying timer position target pending held => ?_,
    fun s h hhom t0 p g verifying timer position pending held => ?_⟩
  · obtain ⟨head, store, ctl, mon, now, clock⟩ := s.atHeadTimer_keeps h hhom t0
    have next := exec_settlePauseEnd verifying timer hhom
    have op : (s.atHeadTimer h hhom t0).operating = s.operating := State.operating_congr (congrArg ShowControl.state ctl)
    rw [← head] at position target pending
    rw [← ctl] at held
    rw [← head, ← store, ← mon, ← now, ← clock, ← op]
    generalize s.atHeadTimer h hhom t0 = u at next held position target pending ⊢
    have aim : (u.head.heads[h]).ladderTarget u.store.config.heads[h] = g := by
      simp only [HeadRec.ladderTarget, pending, target, Option.getD_some]
    have event := u.retry_mon h
    rw [aim] at event
    refine ⟨_, next, ?_⟩
    dsimp only
    rw [← HeadRec.corrected_eq]
    refine ⟨fun near => ?_, fun far few => ?_, fun far many first => ?_, fun far many again => ?_⟩
    · obtain ⟨record, events, unmarked⟩ :=
        State.ladder_settles held ((State.verifies_iff position).mpr near) (.inl pending) hhom
      rw [record, events]
      exact ⟨rfl, position, rfl, rfl, rfl, rfl, rfl, unmarked⟩
    · obtain ⟨record, events⟩ := State.ladder_retries held (State.verifies_false position far) few hhom
      obtain ⟨here, up, down⟩ := HeadRec.retried_spec u.store.config.heads[h] u.localTimer g u.head.heads[h]
      obtain ⟨goal, encoder, _, _, failures, rehomed, _⟩ := HeadRec.goTo_keeps u.store.config.heads[h] u.localTimer g
        ((u.head.heads[h]).failed u.store.config.heads[h])
      rw [aim] at record
      rw [record, events, event]
      exact ⟨failures, goal, rehomed, encoder, rfl, here, up, down⟩
    · have fails := State.verifies_false position far
      obtain ⟨_, record, events⟩ := State.ladder_rehomes held fails many first hhom
      have lost := fun z mem had => State.ladder_rehomes_lost (z := z) held fails many first mem had hhom
      obtain ⟨now', _, store', _⟩ := u.rehoming_keeps h
      rw [aim, State.enterHoming_head, State.rehoming_head, store', now'] at record
      rw [record, events, event]
      cases hhom with
      | false =>
        refine ⟨rfl, rfl, rfl, rfl, fun _ => ⟨rfl, rfl, rfl, rfl, rfl, rfl, rfl⟩, fun e => absurd e (by decide), lost⟩
      | true =>
        rw [if_pos rfl]
        generalize hr : HeadRec.seek _ _ _ _ _ = r
        have homing : r.homing = g := by rw [← hr]; rfl
        have failures : r.failures = 0 := by rw [← hr]; rfl
        have rehomed : r.rehomed = true := by rw [← hr]; rfl
        obtain ⟨homing', failures', rehomed'⟩ := HeadRec.home_keeps u.store.config.heads[h] u.localTimer r
        obtain ⟨encoder, goal, _, here, away⟩ := HeadRec.home_spec u.store.config.heads[h] u.localTimer r
        rw [homing] at goal here away homing'
        refine ⟨rehomed'.trans rehomed, failures'.trans failures, homing', rfl, fun e => absurd e (by decide),
          fun _ => ⟨encoder, goal, here, fun above => ?_⟩, lost⟩
        obtain ⟨place, sense, state⟩ := away above
        rw [encoder]
        exact ⟨place, sense, goal, state⟩
    · obtain ⟨record, marked, events⟩ :=
        State.ladder_faults held (State.verifies_false position far) many again hhom
      rw [record, events]
      exact ⟨rfl, rfl, rfl, rfl, marked⟩
  · obtain ⟨head, store, ctl, mon, now, clock⟩ := s.atHeadTimer_keeps h hhom t0
    have next := exec_settlePauseEnd verifying timer hhom
    rw [← head] at position pending
    rw [← ctl] at held
    rw [← head, ← store, ← mon, ← clock]
    generalize s.atHeadTimer h hhom t0 = u at next held position pending ⊢
    have aim : (u.head.heads[h]).ladderTarget u.store.config.heads[h] = g := by
      simp only [HeadRec.ladderTarget, pending]
    refine ⟨_, next, ?_⟩
    dsimp only
    by_cases passes : u.verifies h = true
    · have near := (State.verifies_iff position).mp passes
      by_cases met : p = g.step
      · obtain ⟨record, events, _⟩ := State.ladder_settles held passes
          (.inr ⟨g, pending, position.trans (congrArg some met)⟩) hhom
        rw [record, events]
        exact ⟨rfl, fun _ => ⟨rfl, rfl, rfl, fun _ => ⟨rfl, rfl, position⟩, fun above => absurd met above.ne,
          fun below => absurd met below.ne'⟩, fun far => absurd near far.not_ge⟩
      · obtain ⟨record, events⟩ := State.ladder_goes held passes pending
          (fun e => met (Option.some.inj (position.symm.trans e))) hhom
        generalize hr : ({ u.head.heads[h] with failures := 0, rehomed := false, pending := none } : HeadRec) = r at record
        have place : r.position = some p := by rw [← hr]; exact position
        obtain ⟨goal, _, none, _, failures, rehomed, _⟩ := HeadRec.goTo_keeps u.store.config.heads[h] u.localTimer g r
        obtain ⟨up, down⟩ := HeadRec.goTo_away (g := u.store.config.heads[h]) (now := u.localTimer) (t := g) place
        rw [record, events, none, failures, rehomed, goal]
        exact ⟨by rw [← hr], fun _ => ⟨by rw [← hr], by rw [← hr], rfl, fun here => absurd here met,
          fun above => ⟨rfl, (up above).1, (up above).2.1⟩, fun below => ⟨rfl, (down below).1, (down below).2.1⟩⟩,
          fun far => absurd near far.not_ge⟩
    · have fails : u.verifies h = false := Bool.eq_false_iff.mpr passes
      have far : ¬ _ := fun near => passes ((State.verifies_iff position).mpr near)
      by_cases few : (u.head.heads[h]).failures < 2
      · obtain ⟨record, events⟩ := State.ladder_retries held fails few hhom
        obtain ⟨goal, _, none, _, failures, _⟩ := HeadRec.goTo_keeps u.store.config.heads[h] u.localTimer g
          ((u.head.heads[h]).failed u.store.config.heads[h])
        have event := u.retry_mon h
        rw [aim] at record event
        rw [record, events, event]
        exact ⟨none, fun near => (far near).elim, fun _ _ => ⟨goal, failures, rfl⟩⟩
      · refine ⟨?_, fun near => (far near).elim, fun _ few' => absurd few' few⟩
        cases again : (u.head.heads[h]).rehomed with
        | false =>
          have record := (State.ladder_rehomes held fails (Nat.le_of_not_lt few) again hhom).2.1
          rw [State.enterHoming_head, State.rehoming_head] at record
          rw [record]
          cases hhom with
          | false => rfl
          | true => exact (HeadRec.home_spec _ _ _).2.2.1
        | true =>
          rw [(State.ladder_faults held fails (Nat.le_of_not_lt few) again hhom).1]
          rfl

end Sys2Proof.Machine
end

