-- ==== Sys2Proof/Proofs/TripsAndRamps.lean ====
section
/-! PROOFS. Pump Control (R115 to R121): trips, hold-offs, and the pump control period. -/

set_option Elab.async false

namespace Sys2Proof.Machine

/-! ### Steady steps -/

theorem State.steady_congr {s t : State} (h : t.ctl = s.ctl) (steady : s.steady) : t.steady := by
  unfold State.steady
  rw [h]
  exact steady

/-- The end of a steady step leaves the water, the heads, the fixtures and the events. -/
theorem State.settle_steady {s : State} (h : s.steady) : s.settle.pump = s.pump ∧ s.settle.mon = s.mon ∧
    s.settle.head = s.head ∧ s.settle.ctl = s.ctl ∧ s.settle.localTimer = s.localTimer ∧ s.settle.lights = s.lights ∧
    s.settle.music = s.music ∧ s.settle.seq = s.seq ∧ s.settle.clock = s.clock := by
  rw [State.settle_of_steady h, State.grant_eq]
  exact ⟨rfl, rfl, rfl, rfl, rfl, rfl, rfl, rfl, rfl⟩

/-! ### Start timers -/

/-- A pump that is not about to start its timer. -/
def PumpRec.timed (p : PumpRec) : Prop := p.state = .starting → p.startTimer.isSome = true

theorem PumpRec.timed_of_state {p : PumpRec} {a : PumpState} (h : p.state = a) (ne : a ≠ .starting) : p.timed :=
  fun e => absurd (h.symm.trans e) ne

theorem State.refreshValves_timed {s : State} {c : Channel} (h : (s.pump.pumps[c]).timed) :
    s.refreshValves.pump.pumps[c] = s.pump.pumps[c] := by
  have unfolded : s.refreshValves.pump.pumps[c] = State.pumpWithStartTimer
      { s with pump := { s.pump with nozzles := Vector.ofFn fun z : Fin 16 => s.nozzleAfter z } } c := by simp
  rw [unfolded, State.pumpWithStartTimer]
  refine if_neg fun k => ?_
  have some := h k.1
  rw [k.2.1] at some
  exact Bool.false_ne_true some

/-! ### Trips (R120, R121) -/

/-- The record of a pump that trips. -/
def PumpRec.trip (now : Nat) (p : PumpRec) : PumpRec :=
  { p with
    state := .tripped, output := 0, valves := 0, startTimer := none, rehearsalTimer := none, lowSince := none
    settle := none, trips := p.trips + 1, latched := decide (1 ≤ p.trips)
    holdOff := if 1 ≤ p.trips then none else some (now + 2000000)
    goal := if 1 ≤ p.trips then 0 else p.goal }

theorem PumpRec.trip_spec (now : Nat) (p : PumpRec) : (p.trip now).state = .tripped ∧ (p.trip now).output = 0 ∧
    (p.trip now).valves = 0 ∧ (p.trip now).trips = p.trips + 1 ∧ (p.trip now).startTimer = none ∧
    (p.trip now).lowSince = none ∧
    (p.trips = 0 → (p.trip now).latched = false ∧ (p.trip now).holdOff = some (now + 2000000)) ∧
    (1 ≤ p.trips → (p.trip now).latched = true ∧ (p.trip now).holdOff = none ∧ (p.trip now).goal = 0) := by
  refine ⟨rfl, rfl, rfl, rfl, rfl, rfl, fun first => ?_, fun again => ?_⟩ <;> simp [PumpRec.trip, *]

/-- A trip, without what the valves make of it. -/
def State.tripped (c : Channel) (cause : TripCause) (s : State) : State :=
  let s1 := (s.setPump c ((s.pump.pumps[c]).trip s.localTimer)).raise .pumpTrip none (some (c.val + 4 * cause.number))
  if 1 ≤ (s.pump.pumps[c]).trips then s1.askPass else s1

theorem State.trip_eq (c : Channel) (cause : TripCause) (s : State) : s.trip c cause = (s.tripped c cause).refreshValves := by
  unfold State.trip State.tripped PumpRec.trip
  simp only

theorem State.tripped_pump (c : Channel) (cause : TripCause) (s : State) :
    (s.tripped c cause).pump = (s.setPump c ((s.pump.pumps[c]).trip s.localTimer)).pump ∧
      (s.tripped c cause).mon = s.mon.count
        { kind := .pumpTrip, time := s.clock.showTime, cueId := none, object := some (c.val + 4 * cause.number) } := by
  unfold State.tripped
  dsimp only
  split
  · exact ⟨by simp, by rw [(State.askPass_keeps _).2.2.2.2.2.2.2.2.2.2.2.2.1]; rfl⟩
  · exact ⟨rfl, rfl⟩

theorem State.trip_pump (c : Channel) (cause : TripCause) (s : State) :
    (s.trip c cause).pump.pumps[c] = (s.pump.pumps[c]).trip s.localTimer ∧
      (∀ d : Channel, d ≠ c → (s.pump.pumps[d]).timed → (s.trip c cause).pump.pumps[d] = s.pump.pumps[d]) ∧
      (∀ d : Channel, d ≠ c → ∃ timer, (s.trip c cause).pump.pumps[d] = { s.pump.pumps[d] with startTimer := timer }) := by
  have pump := (s.tripped_pump c cause).1
  have own : (s.tripped c cause).pump.pumps[c] = (s.pump.pumps[c]).trip s.localTimer := by
    rw [pump, State.setPump_same]
  have other (d : Channel) (ne : d ≠ c) : (s.tripped c cause).pump.pumps[d] = s.pump.pumps[d] := by
    rw [pump, State.setPump_other ne]
  rw [State.trip_eq]
  refine ⟨?_, fun d ne timed => ?_, fun d ne => ?_⟩
  · rw [State.refreshValves_timed (by rw [own]; exact PumpRec.timed_of_state (a := .tripped) rfl (by decide)), own]
  · rw [State.refreshValves_timed (by rw [other d ne]; exact timed), other d ne]
  · rw [← other d ne]
    exact State.refreshValves_pump _ d

theorem State.trip_mon (c : Channel) (cause : TripCause) (s : State) : (s.trip c cause).mon = s.mon.count
    { kind := .pumpTrip, time := s.clock.showTime, cueId := none, object := some (c.val + 4 * cause.number) } := by
  rw [State.trip_eq, (State.refreshValves_keeps _).2.2.2.2.2.2.2.2.2.2.2.1]
  exact (s.tripped_pump c cause).2

/-- No nozzle of a channel without a valve set is open. -/
theorem ValvesStand.shut_channel {s : State} (stand : ValvesStand s) {c : Channel} (none : (s.pump.pumps[c]).valves = 0)
    {z : Nozzle} (on : (s.store.config.nozzles[z]).channel = c.val) : (s.pump.nozzles[z]).command = false := by
  have record : s.pumpOf z = s.pump.pumps[c] := by rw [State.pumpOf, on, nthD_at]
  rw [stand z, State.valveCommand, record, none]
  simp

/-- What a trip leaves when the step is steady (R120, R121). -/
theorem State.trip_settle {u : State} (steady : u.steady) (c : Channel) (cause : TripCause) :
    let t := (u.trip c cause).settle
    t.pump.pumps[c] = (u.pump.pumps[c]).trip u.localTimer ∧
      (∀ z : Nozzle, (u.store.config.nozzles[z]).channel = c.val → (t.pump.nozzles[z]).command = false) ∧
      (∀ d : Channel, d ≠ c → (t.pump.pumps[d]).state = (u.pump.pumps[d]).state ∧
        (t.pump.pumps[d]).output = (u.pump.pumps[d]).output) ∧
      t.mon = u.mon.count
        { kind := .pumpTrip, time := u.clock.showTime, cueId := none, object := some (c.val + 4 * cause.number) } := by
  obtain ⟨pump, mon, _⟩ := State.settle_steady (State.steady_congr (t := u.trip c cause) (by simp) steady)
  obtain ⟨own, _, other⟩ := u.trip_pump c cause
  dsimp only
  rw [pump, mon]
  refine ⟨own, fun z on => ?_, fun d ne => ?_, u.trip_mon c cause⟩
  · refine ValvesStand.shut_channel (c := c) ?_ (by rw [own]; rfl) (by simpa using on)
    rw [State.trip_eq]
    exact State.refreshValves_stand _
  · obtain ⟨timer, e⟩ := other d ne
    rw [e]
    exact ⟨rfl, rfl⟩

/-! ### The end of a hold-off -/

theorem State.startPump_eq (c : Channel) (s : State) : s.startPump c =
    if s.ctl.rehearsal = false ∧ s.inputs.pflt.getLsbD c.val then
      (s.setPump c (PumpRec.resettle s.localTimer { s.pump.pumps[c] with
        state := .starting, output := (s.store.config.channels[c]).nmin, valves := (s.pump.pumps[c]).openSet
        startTimer := none
        rehearsalTimer := if s.ctl.rehearsal then some (s.localTimer + 200000) else none })).trip c .driveFault
    else s.setPump c (PumpRec.resettle s.localTimer { s.pump.pumps[c] with
        state := .starting, output := (s.store.config.channels[c]).nmin, valves := (s.pump.pumps[c]).openSet
        startTimer := none
        rehearsalTimer := if s.ctl.rehearsal then some (s.localTimer + 200000) else none }) := rfl

/-- Settles O38. -/
theorem holdOffRestartsThePump : Obligations.HoldOffRestartsThePump := by
  intro s c pflt t0 steady holdOff tripped latched
  let s1 : State := { s with inputs := { s.inputs with pflt := withBit s.inputs.pflt c.val pflt } }
  let q : PumpRec := { s.pump.pumps[c] with state := .stopped, holdOff := none }
  have next : exec (.holdOffExpiry c pflt) s = .next (((if 0 < (s.pump.pumps[c]).goal then
      ((s1.passTo t0).setPump c q).startPump c else (s1.passTo t0).setPump c q).refreshValves).settle) := by
    show execHoldOffExpiry c pflt s = _
    simp only [execHoldOffExpiry, holdOff]
    exact congrArg Host.Outcome.next (if_pos ⟨tripped, latched⟩)
  have fault : (s1.passTo t0).inputs.pflt.getLsbD c.val = pflt := by
    have level : (withBit s.inputs.pflt c.val pflt).getLsbD c.val = pflt := by
      rw [withBit_getLsbD _ _ _ _ c.isLt, if_pos rfl]
    simpa [s1] using level
  have ctl : (s1.passTo t0).ctl = s.ctl := by simp [s1]
  have mon : (s1.passTo t0).mon = s.mon := by simp [s1]
  have store : (s1.passTo t0).store = s.store := by simp [s1]
  have clock : (s1.passTo t0).clock = (s.passTo t0).clock := by rw [State.passTo_inputs]
  generalize s1.passTo t0 = v at next fault ctl mon store clock
  have steady' : v.steady := State.steady_congr ctl steady
  have ended (w : State) (same : w.ctl = v.ctl) :
      w.refreshValves.settle.pump = w.refreshValves.pump ∧ w.refreshValves.settle.mon = w.mon := by
    obtain ⟨pump, mon, _⟩ := State.settle_steady (State.steady_congr (t := w.refreshValves) (by simp [same]) steady')
    exact ⟨pump, by rw [mon]; simp⟩
  have own : (v.setPump c q).pump.pumps[c] = q := State.setPump_same _ _ _
  refine ⟨_, next, ?_⟩
  dsimp only
  by_cases rest : 0 < (s.pump.pumps[c]).goal
  · refine ⟨fun e => absurd e rest.ne', fun _ sound => ?_, fun _ real fails => ?_⟩
    · have quiet : ¬ ((v.setPump c q).ctl.rehearsal = false ∧ (v.setPump c q).inputs.pflt.getLsbD c.val = true) := by
        rintro ⟨real, asserted⟩
        have real' : s.ctl.rehearsal = false := by simpa [ctl] using real
        have asserted' : pflt = true := fault.symm.trans asserted
        rcases sound with sound | sound
        · exact Bool.false_ne_true (real'.symm.trans sound)
        · exact Bool.false_ne_true (sound.symm.trans asserted')
      rw [if_pos rest, State.startPump_eq, if_neg quiet, own, State.setPump_setPump]
      generalize hr : PumpRec.resettle _ _ = r
      obtain ⟨pump, events⟩ := ended (v.setPump c r) rfl
      obtain ⟨timer, record⟩ := State.refreshValves_pump (v.setPump c r) c
      rw [pump, events, record, State.setPump_same, ← hr]
      exact ⟨rfl, rfl, congrArg (fun g : StationConfig => (g.channels[c]).nmin) (congrArg Store.config store), rfl, mon⟩
    · have asserted : (v.setPump c q).ctl.rehearsal = false ∧ (v.setPump c q).inputs.pflt.getLsbD c.val = true :=
        ⟨(congrArg ShowControl.rehearsal ctl).trans real, fault.trans fails⟩
      rw [if_pos rest, State.startPump_eq, if_pos asserted, own, State.setPump_setPump]
      generalize hr : PumpRec.resettle _ _ = r
      have trips : r.trips = (s.pump.pumps[c]).trips := by rw [← hr]; rfl
      obtain ⟨pump, events⟩ := ended ((v.setPump c r).trip c .driveFault) (by simp)
      have record := (State.trip_pump c .driveFault (v.setPump c r)).1
      rw [State.setPump_same] at record
      rw [pump, events, State.refreshValves_timed (by rw [record]; exact PumpRec.timed_of_state (a := .tripped) rfl (by decide)),
        record, State.trip_mon, ← clock, ← mon, ← trips]
      exact ⟨rfl, rfl, rfl, rfl, rfl⟩
  · rw [if_neg rest]
    obtain ⟨pump, events⟩ := ended (v.setPump c q) rfl
    rw [pump, events, State.refreshValves_timed (by rw [own]; exact PumpRec.timed_of_state (a := .stopped) rfl (by decide)), own]
    exact ⟨fun _ => ⟨rfl, rfl, rfl, mon⟩, fun above => absurd above rest, fun above => absurd above rest⟩

end Sys2Proof.Machine
end

