-- ==== Sys2Proof/Proofs/PumpPeriods.lean ====
section
/-! PROOFS. The pump control period (R116 to R119), channel by channel. -/

set_option Elab.async false

namespace Sys2Proof.Machine

/-! ### The record of one pump -/

/-- What a period makes of a pump's record, the lost-flow check aside (R116 to R118). -/
def PumpRec.period (g : ChannelCfg) (now : Nat) (rehearsal : Bool) (p : PumpRec) : PumpRec :=
  match p.state with
  | .starting =>
    if rehearsal = false ∧ p.startTimer.isSome ∧ g.startThreshold ≤ p.flow * 10 then
      { p with state := .running, startTimer := none }
    else p
  | .running => PumpRec.resettle now { p with output := rampOutput g p.output p.goal }
  | .stopping =>
    if p.output ≤ g.nmin then PumpRec.resettle now { p with state := .stopped, output := 0, valves := 0 }
    else PumpRec.resettle now { p with output := max g.nmin (p.output - g.rampDown) }
  | .stopped => p
  | .tripped => p

theorem rampOutput_up {g : ChannelCfg} {output goal : Nat} (h : output ≤ goal) :
    rampOutput g output goal = min goal (output + g.rampUp) := by
  unfold rampOutput
  split
  · rfl
  · split <;> omega

theorem rampOutput_down {g : ChannelCfg} {output goal : Nat} (h : goal ≤ output) :
    rampOutput g output goal = max goal (output - g.rampDown) := by
  unfold rampOutput
  split
  · omega
  · split <;> omega

theorem PumpRec.period_timed {g : ChannelCfg} {now : Nat} {rehearsal : Bool} {p : PumpRec} (h : p.timed) :
    (p.period g now rehearsal).timed := by
  unfold PumpRec.period
  cases state : p.state with
  | starting =>
    dsimp only
    split
    · exact PumpRec.timed_of_state (a := .running) rfl (by decide)
    · exact h
  | running => exact PumpRec.timed_of_state (a := .running) rfl (by decide)
  | stopping =>
    dsimp only
    split
    · exact PumpRec.timed_of_state (a := .stopped) rfl (by decide)
    · exact PumpRec.timed_of_state (a := .stopping) rfl (by decide)
  | stopped => exact h
  | tripped => exact h

/-- Outside the lost-flow check a period changes one record. -/
theorem State.periodPump_eq {s : State} {c : Channel} (present : (s.store.config.channels[c]).present = true)
    (unchecked : (s.pump.pumps[c]).state = .running → s.ctl.rehearsal = true) : s.periodPump c =
      s.setPump c ((s.pump.pumps[c]).period s.store.config.channels[c] s.localTimer s.ctl.rehearsal) := by
  unfold State.periodPump PumpRec.period
  dsimp only
  rw [if_neg (by rw [present]; decide)]
  cases state : (s.pump.pumps[c]).state with
  | starting =>
    by_cases real : s.ctl.rehearsal = false
    · have flow : s.measuredFlow c = (s.pump.pumps[c]).flow := if_neg (by rw [real]; decide)
      dsimp only
      rw [flow]
      split
      · rfl
      · exact (State.setPump_self c s).symm
    · dsimp only
      rw [if_neg fun k => real k.1, if_neg fun k => real k.1]
      exact (State.setPump_self c s).symm
  | running => exact if_pos (unchecked state)
  | stopping =>
    dsimp only
    split <;> rfl
  | stopped => exact (State.setPump_self c s).symm
  | tripped => exact (State.setPump_self c s).symm

/-- A RUNNING pump outside rehearsal is checked for a lost flow. -/
theorem State.periodPump_checked {s : State} {c : Channel} (present : (s.store.config.channels[c]).present = true)
    (running : (s.pump.pumps[c]).state = .running) (real : s.ctl.rehearsal = false) : s.periodPump c =
      (s.setPump c ((s.pump.pumps[c]).period s.store.config.channels[c] s.localTimer false)).checkLostFlow c := by
  unfold State.periodPump PumpRec.period
  dsimp only
  rw [if_neg (by rw [present]; decide), running]
  exact if_neg (by rw [real]; decide)

/-- The flow of the pump is lost, as its record stands (R119). -/
def State.lostFlow (s : State) (c : Channel) : Bool :=
  s.anyValveOpen c && s.measuredFlow c * 20 < s.expectedFlow c (s.pump.pumps[c]).output

theorem State.checkLostFlow_sound {s : State} {c : Channel} (sound : s.lostFlow c = false) :
    s.checkLostFlow c = s.setPump c { s.pump.pumps[c] with lowSince := none } := if_pos sound

theorem State.checkLostFlow_begins {s : State} {c : Channel} (lost : s.lostFlow c = true)
    (first : (s.pump.pumps[c]).lowSince = none) :
    s.checkLostFlow c = s.setPump c { s.pump.pumps[c] with lowSince := some s.localTimer } := by
  refine (if_neg (Bool.not_eq_false _ ▸ lost)).trans ?_
  rw [first]

theorem State.checkLostFlow_goes_on {s : State} {c : Channel} {l : Nat} (lost : s.lostFlow c = true)
    (since : (s.pump.pumps[c]).lowSince = some l) :
    s.checkLostFlow c = if l + 1000000 ≤ s.localTimer then s.trip c .flowLost else s := by
  refine (if_neg (Bool.not_eq_false _ ▸ lost)).trans ?_
  rw [since]

theorem State.checkLostFlow_other {s : State} {c d : Channel} (ne : c ≠ d) (timed : (s.pump.pumps[c]).timed) :
    (s.checkLostFlow d).pump.pumps[c] = s.pump.pumps[c] := by
  unfold State.checkLostFlow
  dsimp only
  split
  · exact State.setPump_other ne _ s
  · split
    · exact State.setPump_other ne _ s
    · split
      · exact (s.trip_pump d .flowLost).2.1 c ne timed
      · rfl

/-- The period of another channel's pump leaves a pump alone that is not about to start its timer. -/
theorem State.periodPump_other {s : State} {c d : Channel} (ne : c ≠ d) (timed : (s.pump.pumps[c]).timed) :
    (s.periodPump d).pump.pumps[c] = s.pump.pumps[c] := by
  by_cases present : (s.store.config.channels[d]).present = true
  · by_cases unchecked : (s.pump.pumps[d]).state = .running → s.ctl.rehearsal = true
    · rw [State.periodPump_eq present unchecked, State.setPump_other ne]
    · obtain ⟨running, real⟩ := Classical.not_imp.mp unchecked
      rw [State.periodPump_checked present running (Bool.eq_false_iff.mpr real),
        State.checkLostFlow_other ne (by rw [State.setPump_other ne]; exact timed), State.setPump_other ne]
  · have absent : s.periodPump d = s := if_pos (Bool.eq_false_iff.mpr present)
    rw [absent]

theorem State.checkLostFlow_other_state {s : State} {c d : Channel} (ne : d ≠ c) :
    ((s.checkLostFlow c).pump.pumps[d]).state = (s.pump.pumps[d]).state := by
  unfold State.checkLostFlow
  dsimp only
  split
  · rw [State.setPump_other ne]
  · split
    · rw [State.setPump_other ne]
    · split
      · obtain ⟨timer, e⟩ := (s.trip_pump c .flowLost).2.2 d ne
        rw [e]
      · rfl

theorem State.periodPump_other_state {s : State} {c d : Channel} (ne : d ≠ c) :
    ((s.periodPump c).pump.pumps[d]).state = (s.pump.pumps[d]).state := by
  by_cases present : (s.store.config.channels[c]).present = true
  · by_cases unchecked : (s.pump.pumps[c]).state = .running → s.ctl.rehearsal = true
    · rw [State.periodPump_eq present unchecked, State.setPump_other ne]
    · obtain ⟨running, real⟩ := Classical.not_imp.mp unchecked
      rw [State.periodPump_checked present running (Bool.eq_false_iff.mpr real), State.checkLostFlow_other_state ne,
        State.setPump_other ne]
  · have absent : s.periodPump c = s := if_pos (Bool.eq_false_iff.mpr present)
    rw [absent]

/-- A loop over channels, or other parts of the station, of which one matters. -/
theorem foldl_at {α : Type} [DecidableEq α] {f : State → α → State} {P Q : State → Prop} {c : α} (l : List α)
    (distinct : l.Nodup) (mem : c ∈ l) (before : ∀ u d, d ≠ c → P u → P (f u d)) (here : ∀ u, P u → Q (f u c))
    (after : ∀ u d, d ≠ c → Q u → Q (f u d)) {s : State} (h : P s) : Q (l.foldl f s) := by
  have rest (l : List α) (away : c ∉ l) {u : State} (h : Q u) : Q (l.foldl f u) := by
    induction l generalizing u with
    | nil => exact h
    | cons d l ih =>
      obtain ⟨ne, away⟩ := not_or.mp (fun k => away (List.mem_cons.mpr k))
      exact ih away (after u d (fun e => ne e.symm) h)
  induction l generalizing s with
  | nil => cases mem
  | cons d l ih =>
    obtain ⟨fresh, distinct⟩ := List.nodup_cons.mp distinct
    by_cases same : d = c
    · subst same
      exact rest l fresh (here s h)
    · exact ih distinct ((List.mem_cons.mp mem).resolve_left fun e => same e.symm) (before s d same h)

/-- The records of a pump that a period can leave, where no lost flow can trip it. -/
def PumpRec.periodLeaves (g : ChannelCfg) (now : Nat) (rehearsal : Bool) (p q : PumpRec) : Prop :=
  ∃ low, (p.state ≠ .running → low = (p.period g now rehearsal).lowSince) ∧
    q = { p.period g now rehearsal with lowSince := low }

theorem State.periodPump_leaves {s : State} {c : Channel} (present : (s.store.config.channels[c]).present = true)
    (untripped : (s.pump.pumps[c]).state = .running → s.ctl.rehearsal = true ∨ (s.pump.pumps[c]).lowSince = none) :
    (s.pump.pumps[c]).periodLeaves s.store.config.channels[c] s.localTimer s.ctl.rehearsal
      (s.periodPump c).pump.pumps[c] := by
  by_cases unchecked : (s.pump.pumps[c]).state = .running → s.ctl.rehearsal = true
  · rw [State.periodPump_eq present unchecked, State.setPump_same]
    exact ⟨_, fun _ => rfl, rfl⟩
  · obtain ⟨running, real⟩ := Classical.not_imp.mp unchecked
    have real' : s.ctl.rehearsal = false := Bool.eq_false_iff.mpr real
    have none : (s.pump.pumps[c]).lowSince = none := (untripped running).resolve_left real
    have none' : ((s.pump.pumps[c]).period s.store.config.channels[c] s.localTimer false).lowSince = Option.none := by
      rw [PumpRec.period, running]
      exact none
    rw [State.periodPump_checked present running real', real']
    unfold PumpRec.periodLeaves
    generalize (s.pump.pumps[c]).period s.store.config.channels[c] s.localTimer false = r at none' ⊢
    have record : (s.setPump c r).pump.pumps[c] = r := State.setPump_same _ _ _
    cases lost : (s.setPump c r).lostFlow c with
    | false => exact ⟨_, fun e => absurd running e, by rw [State.checkLostFlow_sound lost, State.setPump_same, record]⟩
    | true => exact ⟨_, fun e => absurd running e, by
        rw [State.checkLostFlow_begins lost (by rw [record]; exact none'), State.setPump_same, record]⟩

/-- At a pump control period a pump's record becomes what its own turn leaves. -/
theorem State.pumpPeriod_leaves {s : State} {c : Channel} (present : (s.store.config.channels[c]).present = true)
    (untripped : (s.pump.pumps[c]).state = .running → s.ctl.rehearsal = true ∨ (s.pump.pumps[c]).lowSince = none)
    (timed : (s.pump.pumps[c]).timed) :
    (s.pump.pumps[c]).periodLeaves s.store.config.channels[c] s.localTimer s.ctl.rehearsal s.pumpPeriod.pump.pumps[c] := by
  let p : PumpRec := s.pump.pumps[c]
  let left (q : PumpRec) : Prop := p.periodLeaves s.store.config.channels[c] s.localTimer s.ctl.rehearsal q
  have leftTimed {q : PumpRec} (h : left q) : q.timed := by
    obtain ⟨low, _, rfl⟩ := h
    exact PumpRec.period_timed (g := s.store.config.channels[c]) (now := s.localTimer) (rehearsal := s.ctl.rehearsal) timed
  have all : left ((List.finRange 4).foldl (fun s c => s.periodPump c) s).pump.pumps[c] := by
    refine foldl_at (c := c) (P := fun u => u.pump.pumps[c] = p ∧ u.store = s.store ∧ u.ctl = s.ctl ∧ u.localTimer = s.localTimer)
      (Q := fun u => left u.pump.pumps[c]) _ (List.nodup_finRange 4) (List.mem_finRange c)
      (fun u d ne h => ?_) (fun u h => ?_) (fun u d ne h => ?_) ⟨rfl, rfl, rfl, rfl⟩
    · obtain ⟨record, store, ctl, now⟩ := h
      refine ⟨?_, by simpa using store, by simpa using ctl, by simpa using now⟩
      rw [State.periodPump_other (fun e => ne e.symm) (record ▸ timed), record]
    · obtain ⟨record, store, ctl, now⟩ := h
      have own := State.periodPump_leaves (s := u) (c := c) (store ▸ present) (by rw [record, ctl]; exact untripped)
      rwa [record, store, ctl, now] at own
    · rw [State.periodPump_other (fun e => ne e.symm) (leftTimed h)]
      exact h
  rw [State.pumpPeriod, State.refreshValves_timed (leftTimed all)]
  exact all

/-- The state in which a pump control period is worked. -/
def State.atPeriod (t0 : Nat) (s : State) : State :=
  { s.passTo t0 with pump := { (s.passTo t0).pump with period := some (t0 + 20000) } }

theorem State.atPeriod_keeps (t0 : Nat) (s : State) : (s.atPeriod t0).pump = { s.pump with period := some (t0 + 20000) } ∧
    (s.atPeriod t0).store = s.store ∧ (s.atPeriod t0).ctl = s.ctl ∧ (s.atPeriod t0).mon = s.mon ∧
    (s.atPeriod t0).localTimer = (s.passTo t0).localTimer ∧ (s.atPeriod t0).clock = (s.passTo t0).clock := by
  simp [State.atPeriod]

theorem exec_pumpControlPeriod {s : State} {t0 : Nat} (period : s.pump.period = some t0) :
    exec .pumpControlPeriod s = .next (s.atPeriod t0).pumpPeriod.settle := by
  show execPumpControlPeriod s = _
  simp only [execPumpControlPeriod, period]
  rfl

@[simp] theorem State.refreshValves_period (s : State) : s.refreshValves.pump.period = s.pump.period := by
  simp [State.refreshValves, State.armStartTimers]

@[simp] theorem State.trip_period (c : Channel) (cause : TripCause) (s : State) :
    (s.trip c cause).pump.period = s.pump.period := by
  rw [State.trip_eq, State.refreshValves_period, (s.tripped_pump c cause).1, State.setPump_period]

theorem State.checkLostFlow_period (s : State) (c : Channel) : (s.checkLostFlow c).pump.period = s.pump.period := by
  unfold State.checkLostFlow
  dsimp only
  split
  · rfl
  · split
    · rfl
    · split <;> simp

theorem State.periodPump_period (s : State) (c : Channel) : (s.periodPump c).pump.period = s.pump.period := by
  by_cases present : (s.store.config.channels[c]).present = true
  · by_cases unchecked : (s.pump.pumps[c]).state = .running → s.ctl.rehearsal = true
    · rw [State.periodPump_eq present unchecked, State.setPump_period]
    · obtain ⟨running, real⟩ := Classical.not_imp.mp unchecked
      rw [State.periodPump_checked present running (Bool.eq_false_iff.mpr real), State.checkLostFlow_period, State.setPump_period]
  · have absent : s.periodPump c = s := if_pos (Bool.eq_false_iff.mpr present)
    rw [absent]

theorem State.pumpPeriod_period (s : State) : s.pumpPeriod.pump.period = s.pump.period := by
  have loop := foldl_proj (fun s : State => s.pump.period) (fun s c => s.periodPump c) (fun s c => s.periodPump_period c)
    (List.finRange 4) s
  rw [State.pumpPeriod, State.refreshValves_period]
  exact loop

/-- Settles O36. -/
theorem pumpsRamp : Obligations.PumpsRamp := by
  intro s c t0 period steady present
  obtain ⟨pump, store, ctl, _, now, _⟩ := s.atPeriod_keeps t0
  have next := exec_pumpControlPeriod period
  have record : (s.atPeriod t0).pump.pumps[c] = s.pump.pumps[c] := by rw [pump]
  have armed : (s.atPeriod t0).pump.period = some (t0 + 20000) := by rw [pump]
  rw [← store] at present
  rw [← record, ← store, ← ctl]
  have steady' := State.steady_congr ctl steady
  generalize s.atPeriod t0 = u at *
  have ended := (State.settle_steady (State.steady_congr (t := u.pumpPeriod) (by simp) steady')).1
  refine ⟨_, next, ?_, ?_⟩
  · rw [ended, State.pumpPeriod_period, armed]
  · dsimp only
    rw [ended]
    have leaves := State.pumpPeriod_leaves (s := u) (c := c) present
    generalize u.pumpPeriod.pump.pumps[c] = q at leaves
    generalize u.pump.pumps[c] = p at leaves
    have timed {a : PumpState} (h : p.state = a) (ne : a ≠ .starting) : p.timed := PumpRec.timed_of_state h ne
    refine ⟨fun starting real begun flow => ?_, fun running untripped => ?_, fun stopping slow => ?_,
      fun stopping fast => ?_, fun still => ?_⟩
    · obtain ⟨low, _, rfl⟩ := leaves (fun e => by rw [starting] at e; cases e) (fun _ => begun)
      rw [PumpRec.period, starting]
      dsimp only
      rw [if_pos ⟨real, begun, flow⟩]
      exact ⟨rfl, rfl, rfl⟩
    · obtain ⟨low, _, rfl⟩ := leaves (fun _ => untripped) (timed running (by decide))
      rw [PumpRec.period, running]
      exact ⟨rfl, rfl, rampOutput_up, rampOutput_down⟩
    · obtain ⟨low, _, rfl⟩ := leaves (fun e => by rw [stopping] at e; cases e) (timed stopping (by decide))
      rw [PumpRec.period, stopping]
      dsimp only
      rw [if_pos slow]
      exact ⟨rfl, rfl, rfl⟩
    · obtain ⟨low, _, rfl⟩ := leaves (fun e => by rw [stopping] at e; cases e) (timed stopping (by decide))
      rw [PumpRec.period, stopping]
      dsimp only
      rw [if_neg fast.not_ge]
      exact ⟨rfl, rfl⟩
    · rcases still with still | still
      · obtain ⟨low, same, rfl⟩ := leaves (fun e => by rw [still] at e; cases e) (timed still (by decide))
        rw [same (by rw [still]; decide), PumpRec.period, still]
      · obtain ⟨low, same, rfl⟩ := leaves (fun e => by rw [still] at e; cases e) (timed still (by decide))
        rw [same (by rw [still]; decide), PumpRec.period, still]

/-! ### Trips of one pump -/

/-- What a period makes of the pumps that are not RUNNING: each record by itself. -/
def StationConfig.periodPump (g : StationConfig) (now : Nat) (rehearsal : Bool) (c : Channel) (p : PumpRec) : PumpRec :=
  if (g.channels[c]).present then p.period g.channels[c] now rehearsal else p

theorem State.periodPump_quiet {s : State} {c : Channel} (quiet : (s.pump.pumps[c]).state ≠ .running) : s.periodPump c =
    s.setPump c (s.store.config.periodPump s.localTimer s.ctl.rehearsal c s.pump.pumps[c]) := by
  by_cases present : (s.store.config.channels[c]).present = true
  · rw [State.periodPump_eq present fun e => absurd e quiet, StationConfig.periodPump, if_pos present]
  · have absent : s.periodPump c = s := if_pos (Bool.eq_false_iff.mpr present)
    rw [absent, StationConfig.periodPump, if_neg present, State.setPump_self]

/-- Channels without a RUNNING pump are worked each by itself. -/
theorem foldl_periodPump_quiet (l : List Channel) (distinct : l.Nodup) {s : State}
    (quiet : ∀ d ∈ l, (s.pump.pumps[d]).state ≠ .running) : l.foldl (fun s c => s.periodPump c) s =
      s.withPumps (s.store.config.periodPump s.localTimer s.ctl.rehearsal) l := by
  induction l generalizing s with
  | nil => simp [State.withPumps]
  | cons c l ih =>
    obtain ⟨fresh, distinct⟩ := List.nodup_cons.mp distinct
    have own := State.periodPump_quiet (quiet c List.mem_cons_self)
    rw [List.foldl_cons, own, ih distinct, ← State.withPumps_cons fresh]
    · rfl
    · intro d mem
      have ne : d ≠ c := fun e => fresh (e ▸ mem)
      rw [State.setPump_other ne]
      exact quiet d (List.mem_cons_of_mem c mem)

theorem State.withPumps_other {g : Channel → PumpRec → PumpRec} {l : List Channel} {c : Channel} (away : c ∉ l) (s : State) :
    (s.withPumps g l).pump.pumps[c] = s.pump.pumps[c] := by
  simp [State.withPumps, away]

/-- A period in which one pump at most is RUNNING: what the turn of that pump leaves of it, and of the events. -/
theorem State.pumpPeriod_of_one {s : State} {c : Channel} (others : ∀ d : Channel, d ≠ c → (s.pump.pumps[d]).state ≠ .running) :
    ∃ v : State, v.pump.pumps[c] = s.pump.pumps[c] ∧ v.pump.nozzles = s.pump.nozzles ∧ v.mon = s.mon ∧ v.ctl = s.ctl ∧
      v.store = s.store ∧ v.localTimer = s.localTimer ∧ v.clock = s.clock ∧
      ((v.periodPump c).pump.pumps[c].timed → s.pumpPeriod.pump.pumps[c] = (v.periodPump c).pump.pumps[c]) ∧
      s.pumpPeriod.mon = (v.periodPump c).mon := by
  obtain ⟨l, r, split⟩ := List.append_of_mem (List.mem_finRange c)
  have distinct := List.nodup_finRange 4
  rw [split] at distinct
  obtain ⟨distinctL, distinctR, apart⟩ := List.nodup_append.mp distinct
  obtain ⟨freshR, distinctR⟩ := List.nodup_cons.mp distinctR
  have freshL : c ∉ l := fun mem => apart c mem c List.mem_cons_self rfl
  have first := foldl_periodPump_quiet l distinctL (s := s) fun d mem => others d fun e => freshL (e ▸ mem)
  let v : State := s.withPumps (s.store.config.periodPump s.localTimer s.ctl.rehearsal) l
  have last := foldl_periodPump_quiet r distinctR (s := v.periodPump c) fun d mem => by
    have ne : d ≠ c := fun e => freshR (e ▸ mem)
    have away : d ∉ l := fun k => apart d k d (List.mem_cons_of_mem c mem) rfl
    rw [State.periodPump_other_state ne, State.withPumps_other away]
    exact others d ne
  have period : s.pumpPeriod = ((v.periodPump c).withPumps ((v.periodPump c).store.config.periodPump
      (v.periodPump c).localTimer (v.periodPump c).ctl.rehearsal) r).refreshValves := by
    rw [State.pumpPeriod, split, List.foldl_append, first, List.foldl_cons, last]
  refine ⟨v, State.withPumps_other freshL s, rfl, rfl, rfl, rfl, rfl, rfl, fun timed => ?_, ?_⟩
  · rw [period, State.refreshValves_timed, State.withPumps_other freshR]
    rwa [State.withPumps_other freshR]
  · rw [period, (State.refreshValves_keeps _).2.2.2.2.2.2.2.2.2.2.2.1]
    rfl

/-- The lost-flow check of a RUNNING pump reads the valves, its flow and what its record would have flow (R119). -/
theorem State.lostFlow_iff {s : State} {c : Channel} (real : s.ctl.rehearsal = false) : s.lostFlow c = true ↔
    (∃ z ∈ s.store.config.nozzlesOf c, (s.pump.nozzles[z]).command = true) ∧
      (s.pump.pumps[c]).flow * 20 < (s.store.config.channels[c]).qfull * (s.pump.pumps[c]).output *
        countBits (s.pump.pumps[c]).openSet / (1000 * s.store.config.nc c) := by
  have flow : s.measuredFlow c = (s.pump.pumps[c]).flow := if_neg (by rw [real]; decide)
  rw [State.lostFlow, State.anyValveOpen, flow, State.expectedFlow]
  simp only [Bool.and_eq_true, decide_eq_true_eq, List.any_eq_true]

/-- The commands by which a timer or the drive trips a pump, and the moment of the trip. -/
theorem exec_trips {s : State} {c : Channel} {i : Instr} {u : State} {cause : TripCause}
    (which : (i = .startTimerExpiry c ∧ cause = .noFlow ∧ (s.pump.pumps[c]).state = .starting ∧
        (∃ t0, (s.pump.pumps[c]).startTimer = some t0 ∧ u = s.passTo t0)) ∨
      (i = .driveFault c ∧ cause = .driveFault ∧ u = s ∧ s.operating = true ∧
        (s.store.config.channels[c]).present = true ∧ s.ctl.rehearsal = false ∧
        ((s.pump.pumps[c]).state = .starting ∨ (s.pump.pumps[c]).state = .running ∨
          (s.pump.pumps[c]).state = .stopping))) :
    ∃ v : State, exec i s = .next (v.trip c cause).settle ∧ v.pump = s.pump ∧ v.store = s.store ∧ v.ctl = s.ctl ∧
      v.mon = s.mon ∧ v.localTimer = u.localTimer ∧ v.clock = u.clock := by
  rcases which with ⟨rfl, rfl, starting, t0, timer, rfl⟩ | ⟨rfl, rfl, rfl, op, present, real, runs⟩
  · refine ⟨s.passTo t0, ?_, by simp, by simp, by simp, by simp, rfl, rfl⟩
    show execStartTimerExpiry c s = _
    simp only [execStartTimerExpiry, timer]
    exact congrArg Host.Outcome.next (if_pos starting)
  · have runs' : (u.pump.pumps[c]).state.runs = true := by
      rcases runs with runs | runs | runs <;> rw [runs] <;> rfl
    exact ⟨{ u with inputs := { u.inputs with pflt := withBit u.inputs.pflt c.val true } },
      congrArg Host.Outcome.next (if_pos ⟨op, present, real, runs'⟩), rfl, rfl, rfl, rfl, rfl, rfl⟩

/-- What the period makes of a RUNNING pump before its check (R117). -/
theorem PumpRec.period_running {g : ChannelCfg} {now : Nat} {p : PumpRec} (running : p.state = .running) :
    (p.period g now false).state = .running ∧
      (p.period g now false).output =
        (if p.output ≤ p.goal then min p.goal (p.output + g.rampUp) else max p.goal (p.output - g.rampDown)) ∧
      (p.period g now false).lowSince = p.lowSince ∧ (p.period g now false).flow = p.flow ∧
      (p.period g now false).openSet = p.openSet ∧ (p.period g now false).trips = p.trips := by
  have ramped : p.period g now false = PumpRec.resettle now { p with output := rampOutput g p.output p.goal } := by
    rw [PumpRec.period, running]
  rw [ramped]
  refine ⟨running, ?_, rfl, rfl, rfl, rfl⟩
  show rampOutput g p.output p.goal = _
  split
  · next up => exact rampOutput_up up
  · next down => exact rampOutput_down (Nat.le_of_not_le down)

/-- Settles O37. -/
theorem tripsStopThePump : Obligations.TripsStopThePump := by
  refine ⟨fun s c i u cause steady which => ?_, fun s c t0 period steady present real running others => ?_⟩
  · obtain ⟨v, next, pump, store, ctl, mon, now, clock⟩ := exec_trips which
    obtain ⟨record, shut, other, events⟩ := State.trip_settle (State.steady_congr ctl steady) c cause
    obtain ⟨state, output, valves, trips, timer, _, first, again⟩ := PumpRec.trip_spec u.localTimer s.pump.pumps[c]
    rw [pump, now] at record
    rw [store] at shut
    rw [pump] at other
    rw [mon, clock] at events
    refine ⟨_, next, ?_⟩
    dsimp only
    rw [record]
    exact ⟨state, output, valves, trips, timer, first, again, shut, other, events⟩
  · obtain ⟨pump, store, ctl, mon, now, clock⟩ := s.atPeriod_keeps t0
    have next := exec_pumpControlPeriod period
    have steady' := State.steady_congr ctl steady
    have records : (s.atPeriod t0).pump.pumps = s.pump.pumps := by rw [pump]
    have nozzles : (s.atPeriod t0).pump.nozzles = s.pump.nozzles := by rw [pump]
    rw [← ctl] at real
    rw [← store] at present
    rw [← records] at running others
    refine ⟨_, next, ?_⟩
    dsimp only
    rw [← records, ← nozzles, ← store, ← mon, ← now, ← clock]
    generalize s.atPeriod t0 = u at steady' real present running others ⊢
    obtain ⟨ended, events, _⟩ := State.settle_steady (State.steady_congr (t := u.pumpPeriod) (by simp) steady')
    obtain ⟨v, record, openings, monV, ctlV, storeV, nowV, clockV, own, count⟩ := State.pumpPeriod_of_one others
    have turn := State.periodPump_checked (s := v) (c := c) (storeV ▸ present) (record ▸ running) (ctlV ▸ real)
    rw [record, storeV, nowV] at turn
    obtain ⟨state, output, since, flow, openSet, trips⟩ := PumpRec.period_running (g := u.store.config.channels[c])
      (now := u.localTimer) running
    generalize (u.pump.pumps[c]).period u.store.config.channels[c] u.localTimer false = r at turn state output since flow openSet trips
    have lost := State.lostFlow_iff (s := v.setPump c r) (c := c) (show v.ctl.rehearsal = false from ctlV ▸ real)
    have own' : (v.setPump c r).pump.pumps[c] = r := State.setPump_same _ _ _
    rw [own', flow, openSet, output] at lost
    have configW : (v.setPump c r).store = u.store := storeV
    have nozzlesW : (v.setPump c r).pump.nozzles = u.pump.nozzles := openings
    have nowW : (v.setPump c r).localTimer = u.localTimer := nowV
    have clockW : (v.setPump c r).clock = u.clock := clockV
    have monW : (v.setPump c r).mon = u.mon := monV
    rw [configW, nozzlesW] at lost
    generalize v.setPump c r = w at turn lost own' configW nozzlesW nowW clockW monW
    rw [ended, events, count, ← lost]
    refine ⟨fun sound => ?_, fun low first => ?_, fun l low begun early => ?_, fun l low begun late => ?_⟩
    · rw [turn, State.checkLostFlow_sound (Bool.eq_false_iff.mpr sound), State.setPump_same, own'] at own
      rw [own (PumpRec.timed_of_state (a := .running) state (by decide)), turn,
        State.checkLostFlow_sound (Bool.eq_false_iff.mpr sound)]
      exact ⟨state, output, rfl, monW⟩
    · rw [turn, State.checkLostFlow_begins low (by rw [own', since]; exact first), State.setPump_same, own', nowW] at own
      rw [own (PumpRec.timed_of_state (a := .running) state (by decide)), turn,
        State.checkLostFlow_begins low (by rw [own', since]; exact first)]
      exact ⟨state, output, rfl, monW⟩
    · have stands : w.checkLostFlow c = w :=
        (State.checkLostFlow_goes_on low (by rw [own', since]; exact begun)).trans (if_neg (by rw [nowW]; omega))
      rw [turn, stands, own'] at own
      rw [own (PumpRec.timed_of_state (a := .running) state (by decide)), turn, stands]
      exact ⟨state, output, since.trans begun, monW⟩
    · have trip : w.checkLostFlow c = w.trip c .flowLost :=
        (State.checkLostFlow_goes_on low (by rw [own', since]; exact begun)).trans (if_pos (by rw [nowW]; exact late))
      rw [turn, trip, (w.trip_pump c .flowLost).1, own', nowW] at own
      obtain ⟨state, output, valves, trips', timer, low', first, again⟩ := PumpRec.trip_spec u.localTimer r
      have own'' := own (PumpRec.timed_of_state (a := .tripped) rfl (by decide))
      rw [own'', turn, trip, State.trip_mon, clockW, monW, ← trips]
      refine ⟨state, output, valves, trips', low', first, again, fun z on => ?_, rfl⟩
      refine ValvesStand.shut_channel (c := c) (State.refreshValves_stand _) ?_ (by simpa using on)
      exact (congrArg PumpRec.valves own'').trans valves

end Sys2Proof.Machine
end

