-- ==== Sys2Proof/Proofs/MusicSteps.lean ====
section
/-! PROOFS. Music Playback (R158 to R164): what the filling, a frame slot, a sync check and a gain step make of the music. -/

set_option Elab.async false

namespace Sys2Proof.Machine

/-! ### Steps after which something of ENDING is still to come -/

/-- No load is under way, and in ENDING one of the two run-outs is still to come. -/
def State.outstanding (s : State) : Prop :=
  s.ctl.state ≠ .loading ∧ (s.ctl.state = .ending → s.ctl.lightRunOut = false ∨ s.ctl.audioRunOut = false)

theorem State.outstanding_congr {s t : State} (h : t.ctl = s.ctl) (out : s.outstanding) : t.outstanding := by
  unfold State.outstanding
  rw [h]
  exact out

theorem State.settle_of_outstanding {s : State} (h : s.outstanding) : s.settle = s.grant := by
  have unarmed : s.checkArmed = s := if_neg fun k => h.1 k.1
  have unended : s.checkEnding = s := if_neg fun k => by
    obtain ⟨ending, _, _, light, audio⟩ := k
    rcases h.2 ending with e | e
    · exact Bool.false_ne_true (e.symm.trans light)
    · exact Bool.false_ne_true (e.symm.trans audio)
  rw [State.settle, unarmed, unended]

/-- The end of such a step leaves music, events, Show Control and fixtures. -/
theorem State.settle_outstanding {s : State} (h : s.outstanding) : s.settle.music = s.music ∧ s.settle.mon = s.mon ∧
    s.settle.ctl = s.ctl ∧ s.settle.lights = s.lights ∧ s.settle.store.audioPos = s.store.audioPos ∧
    s.settle.store.audioReq = s.store.audioReq := by
  rw [State.settle_of_outstanding h, State.grant_eq]
  exact ⟨rfl, rfl, rfl, rfl, rfl, rfl⟩

/-! ### Filling (R158) -/

/-- No block that the filling would ask for next lies beyond the flash. -/
def State.withinFlash (s : State) : Prop :=
  s.hasAudio = false ∨ s.store.audioReq.isSome = true ∨
    ∀ e k, s.store.entry = some e → s.store.audioPos = some k → audioBlocks e.frames ≤ k ∨ e.firstAudio + k ≤ maxBlock

/-- The filling adds frames to the FIFO; of the music it changes nothing else. -/
theorem askAudio_music (n : Nat) (s : State) : ∃ fifo, (askAudio n s).music = { s.music with fifo := fifo } := by
  induction n generalizing s with
  | zero => exact ⟨_, rfl⟩
  | succ n ih =>
    unfold askAudio
    split
    · split
      · split
        · obtain ⟨fifo, e⟩ := ih ((s.raise .blockLost none (some Reader.audio.object)).deliverAudio _)
          exact ⟨fifo, e.trans rfl⟩
        · exact ⟨_, rfl⟩
      · exact ⟨_, rfl⟩
    · exact ⟨_, rfl⟩

theorem State.fillAudio_music (s : State) : ∃ fifo, s.fillAudio.music = { s.music with fifo := fifo } := askAudio_music _ s

/-- Where nothing is lost at once, the filling only makes a request. -/
theorem State.fillAudio_of_within {s : State} (h : s.withinFlash) :
    s.fillAudio.music = s.music ∧ s.fillAudio.mon = s.mon := by
  unfold State.fillAudio askAudio
  split
  · next e k entry pos =>
    split
    · next asks =>
      split
      · next beyond =>
        obtain ⟨audio, inside, free, _⟩ := asks
        rcases h with h | h | h
        · exact absurd (h.symm.trans audio) Bool.false_ne_true
        · rw [free] at h
          exact absurd h Bool.false_ne_true
        · have := h e k entry pos
          omega
      · exact ⟨rfl, rfl⟩
    · exact ⟨rfl, rfl⟩
  · exact ⟨rfl, rfl⟩

/-- Outside the show states of R158 nothing is asked for. -/
theorem State.fillAudio_of_not_filling {s : State} (h : s.filling = false) : s.fillAudio = s := by
  unfold State.fillAudio askAudio
  split
  · exact if_neg fun k => Bool.false_ne_true (h.symm.trans k.2.2.2.2)
  · rfl

/-! ### Frame slots (R159) -/

section Slots

variable {s : State}

theorem State.audioSlot_silent (h : s.emitting = false) :
    s.audioSlot = { s with music := { s.music with repeatDue := false, lastLeft := 0, lastRight := 0 } } := if_pos h

variable (emits : s.emitting = true)
include emits

/-- What an emission makes of the state, as the music decides it. -/
theorem State.audioSlot_repeats (due : s.music.repeatDue = true) : s.audioSlot = { s with music := { s.music with
    repeatDue := false, fifo := s.music.fifo.dropWhile fun f => f.index < s.music.playIndex } } :=
  (if_neg (by rw [emits]; decide)).trans (if_pos due)

variable (due : s.music.repeatDue = false)
include due

theorem State.audioSlot_past (past : s.hasAudio = false ∨ s.frameCount ≤ s.music.playIndex) :
    s.audioSlot = { s with music := { s.music with
      repeatDue := false, fifo := s.music.fifo.dropWhile fun f => f.index < s.music.playIndex
      lastLeft := 0, lastRight := 0, playIndex := s.music.playIndex + 1, resync := false, underrun := false } } :=
  (if_neg (by rw [emits]; decide)).trans ((if_neg (by rw [due]; decide)).trans (if_pos past))

variable (sounds : ¬ (s.hasAudio = false ∨ s.frameCount ≤ s.music.playIndex))
include sounds

theorem State.audioSlot_frame {f : AudioFrame} {rest : List AudioFrame}
    (kept : (s.music.fifo.dropWhile fun f => f.index < s.music.playIndex) = f :: rest) (here : f.index = s.music.playIndex) :
    s.audioSlot = { s with music := { s.music with
      repeatDue := false, fifo := rest, lastLeft := scaleSample f.left s.music.gain
      lastRight := scaleSample f.right s.music.gain, playIndex := s.music.playIndex + 1, resync := false
      underrun := false } } := by
  refine (if_neg (by rw [emits]; decide)).trans ((if_neg (by rw [due]; decide)).trans ((if_neg sounds).trans ?_))
  dsimp only
  rw [kept]
  exact if_pos here

theorem State.audioSlot_later {f : AudioFrame} {rest : List AudioFrame}
    (kept : (s.music.fifo.dropWhile fun f => f.index < s.music.playIndex) = f :: rest) (later : f.index ≠ s.music.playIndex) :
    s.audioSlot = { s with music := { s.music with
      repeatDue := false, fifo := f :: rest, lastLeft := 0, lastRight := 0, playIndex := s.music.playIndex + 1 } } := by
  refine (if_neg (by rw [emits]; decide)).trans ((if_neg (by rw [due]; decide)).trans ((if_neg sounds).trans ?_))
  dsimp only
  rw [kept]
  exact if_neg later

theorem State.audioSlot_empty (kept : (s.music.fifo.dropWhile fun f => f.index < s.music.playIndex) = []) :
    s.audioSlot =
      if s.music.resync then { s with music := { s.music with
        repeatDue := false, fifo := [], lastLeft := 0, lastRight := 0, playIndex := s.music.playIndex + 1 } }
      else if s.music.underrun then { s with music := { s.music with
        repeatDue := false, fifo := [], lastLeft := 0, lastRight := 0, playIndex := s.music.playIndex + 1, underrun := true } }
      else State.raise .underrun none none { s with music := { s.music with
        repeatDue := false, fifo := [], lastLeft := 0, lastRight := 0, playIndex := s.music.playIndex + 1
        underrun := true } } := by
  refine (if_neg (by rw [emits]; decide)).trans ((if_neg (by rw [due]; decide)).trans ((if_neg sounds).trans ?_))
  dsimp only
  rw [kept]
  rfl

end Slots

/-- The state in which a frame slot is worked. -/
def State.atSlot (b : Nat) (s : State) : State :=
  let s1 := s.passTo (slotAt b (s.music.slots + 1))
  { s1 with music := { s1.music with slots := s1.music.slots + 1 } }

theorem State.atSlot_keeps (b : Nat) (s : State) : (s.atSlot b).music = { s.music with slots := s.music.slots + 1 } ∧
    (s.atSlot b).ctl = s.ctl ∧ (s.atSlot b).store = s.store ∧ (s.atSlot b).mon = s.mon ∧
    (s.atSlot b).clock = (s.passTo (slotAt b (s.music.slots + 1))).clock := by
  simp [State.atSlot]

theorem exec_audioFrameSlot {s : State} {b : Nat} (base : s.music.slotBase = some b) :
    exec .audioFrameSlot s = .next ((s.atSlot b).audioSlot.fillAudio).settle := by
  show execAudioFrameSlot s = _
  simp only [execAudioFrameSlot, base]
  rfl

theorem State.emitting_iff (s : State) :
    s.emitting = true ↔ s.ctl.state = .running ∨ (s.ctl.state = .ending ∧ s.music.runOut = true) := by
  unfold State.emitting
  cases s.ctl.state <;> simp

theorem State.frameCount_congr {s t : State} (h : t.store = s.store) : t.frameCount = s.frameCount := by
  unfold State.frameCount
  rw [h]

theorem State.hasAudio_congr {s t : State} (h : t.store = s.store) : t.hasAudio = s.hasAudio := by
  rw [State.hasAudio, State.hasAudio, State.frameCount_congr h, h]

theorem State.withinFlash_congr {s t : State} (h : t.store = s.store) : t.withinFlash ↔ s.withinFlash := by
  rw [State.withinFlash, State.withinFlash, State.hasAudio_congr h, h]

/-- What the filling and the end of the step leave of a slot's work. -/
theorem State.fill_settle {u w : State} (out : u.outstanding) (ctl : w.ctl = u.ctl) (store : w.store = u.store) :
    (∃ fifo, w.fillAudio.settle.music = { w.music with fifo := fifo }) ∧
      (u.withinFlash → w.fillAudio.settle.music = w.music ∧ w.fillAudio.settle.mon = w.mon) ∧
      (w.filling = false → w.fillAudio.settle.music = w.music ∧ w.fillAudio.settle.mon = w.mon) := by
  obtain ⟨music, mon, _⟩ := State.settle_outstanding (State.outstanding_congr (t := w.fillAudio) (by simp [ctl]) out)
  rw [music, mon]
  refine ⟨State.fillAudio_music w, fun within => State.fillAudio_of_within ((State.withinFlash_congr store).mpr within),
    fun h => ?_⟩
  rw [State.fillAudio_of_not_filling h]
  exact ⟨rfl, rfl⟩

/-- What a slot's work leaves as the step ends, in the music's own words. -/
theorem State.fill_settle_fields {u w : State} (out : u.outstanding) (ctl : w.ctl = u.ctl) (store : w.store = u.store) :
    let m := w.fillAudio.settle.music
    m.lastLeft = w.music.lastLeft ∧ m.lastRight = w.music.lastRight ∧ m.playIndex = w.music.playIndex ∧
      m.resync = w.music.resync ∧ m.underrun = w.music.underrun ∧ m.repeatDue = w.music.repeatDue ∧
      m.slots = w.music.slots := by
  obtain ⟨⟨fifo, e⟩, _⟩ := State.fill_settle out ctl store
  dsimp only
  rw [e]
  exact ⟨rfl, rfl, rfl, rfl, rfl, rfl, rfl⟩

theorem State.audioSlot_slots (s : State) : s.audioSlot.music.slots = s.music.slots := by
  unfold State.audioSlot
  dsimp only
  (repeat' split) <;> rfl

theorem State.audioSlot_playIndex {s : State} (emits : s.emitting = true) (due : s.music.repeatDue = false) :
    s.audioSlot.music.playIndex = s.music.playIndex + 1 := by
  unfold State.audioSlot
  dsimp only
  rw [if_neg (by rw [emits]; decide), if_neg (by rw [due]; decide)]
  (repeat' split) <;> rfl

theorem State.filling_of_silent {s : State} (silent : s.emitting = false) (armed : s.ctl.state ≠ .armed)
    (countdown : s.ctl.state ≠ .countdown) (hold : s.ctl.state ≠ .hold) (loading : s.ctl.state ≠ .loading) :
    s.filling = false := by
  unfold State.emitting at silent
  unfold State.filling
  cases state : s.ctl.state <;> simp_all

/-- Settles O47. -/
theorem frameSlotEmits : Obligations.FrameSlotEmits := by
  intro s b base loading ending
  obtain ⟨music, ctl, store, mon, clock⟩ := s.atSlot_keeps b
  have next := exec_audioFrameSlot base
  have out : (s.atSlot b).outstanding := State.outstanding_congr ctl ⟨loading, ending⟩
  have keepCtl : (s.atSlot b).audioSlot.ctl = (s.atSlot b).ctl := by simp
  have keepStore : (s.atSlot b).audioSlot.store = (s.atSlot b).store := by simp
  obtain ⟨left, right, index, resync, underrun, again, slots⟩ := State.fill_settle_fields out keepCtl keepStore
  obtain ⟨_, within, unfilled⟩ := State.fill_settle out keepCtl keepStore
  have ctlW := keepCtl.trans ctl
  refine ⟨_, next, ?_⟩
  dsimp only
  rw [left, right, index, resync, underrun, again, slots, ← clock, ← State.hasAudio_congr store, ← State.frameCount_congr store,
    ← store]
  generalize (s.atSlot b).audioSlot.fillAudio.settle = t at within unfilled ⊢
  generalize s.atSlot b = u at music ctl store mon keepCtl within unfilled ctlW ⊢
  have emission := u.emitting_iff
  have sounds_iff : (u.hasAudio = true ∧ u.music.playIndex < u.frameCount) ↔
      ¬ (u.hasAudio = false ∨ u.frameCount ≤ u.music.playIndex) := by
    rw [not_or, Bool.not_eq_false, not_le]
  have fifo : u.music.fifo = s.music.fifo := by rw [music]
  have playIndex : u.music.playIndex = s.music.playIndex := by rw [music]
  have repeatDue : u.music.repeatDue = s.music.repeatDue := by rw [music]
  have resync : u.music.resync = s.music.resync := by rw [music]
  have underrun : u.music.underrun = s.music.underrun := by rw [music]
  have gain : u.music.gain = s.music.gain := by rw [music]
  have runOut : u.music.runOut = s.music.runOut := by rw [music]
  have slots : u.music.slots = s.music.slots + 1 := by rw [music]
  have lastLeft : u.music.lastLeft = s.music.lastLeft := by rw [music]
  have lastRight : u.music.lastRight = s.music.lastRight := by rw [music]
  rw [ctl, runOut] at emission
  rw [← emission, ← fifo, ← playIndex, ← repeatDue, ← resync, ← underrun, ← gain, ← slots, ← lastLeft, ← lastRight, ← mon]
  refine ⟨?_, fun silent => ?_, fun emits due => ⟨?_, fun f rest kept here sounds => ?_, fun kept whole sounds => ?_,
    fun which sounds => ?_, fun quiet => ?_⟩, fun emits due => ?_⟩
  · exact u.audioSlot_slots
  · have silent' : u.emitting = false := Bool.eq_false_iff.mpr silent
    rw [State.audioSlot_silent silent'] at within unfilled ⊢
    refine ⟨rfl, rfl, rfl, fun armed countdown hold => ?_, fun noLoss => ?_⟩
    · obtain ⟨m, e⟩ := unfilled (State.filling_of_silent silent' (ctl ▸ armed) (ctl ▸ countdown) (ctl ▸ hold) (ctl ▸ loading))
      rw [m, e]
      exact ⟨rfl, rfl⟩
    · obtain ⟨m, e⟩ := within noLoss
      rw [m, e]
      exact ⟨rfl, rfl⟩
  · exact State.audioSlot_playIndex emits due
  · rw [State.audioSlot_frame emits due (sounds_iff.mp sounds) kept here] at within ⊢
    refine ⟨rfl, rfl, rfl, rfl, fun noLoss => ?_⟩
    obtain ⟨m, e⟩ := within noLoss
    rw [m, e]
    exact ⟨rfl, rfl⟩
  · rw [State.audioSlot_empty emits due (sounds_iff.mp sounds) kept, if_neg (by rw [whole]; decide)] at within ⊢
    cases raised : u.music.underrun with
    | true =>
      rw [raised, if_pos rfl] at within
      rw [if_pos rfl]
      refine ⟨rfl, rfl, whole, rfl, fun noLoss => ?_⟩
      obtain ⟨m, e⟩ := within noLoss
      rw [m, e]
      exact ⟨rfl, rfl⟩
    | false =>
      rw [raised, if_neg Bool.false_ne_true] at within
      rw [if_neg Bool.false_ne_true]
      refine ⟨rfl, rfl, whole, rfl, fun noLoss => ?_⟩
      obtain ⟨m, e⟩ := within noLoss
      rw [m, e]
      exact ⟨rfl, rfl⟩
  · rcases which with ⟨kept, hasty⟩ | ⟨f, rest, kept, later⟩
    · rw [State.audioSlot_empty emits due (sounds_iff.mp sounds) kept, if_pos hasty] at within ⊢
      refine ⟨rfl, rfl, rfl, rfl, fun noLoss => ?_⟩
      obtain ⟨m, e⟩ := within noLoss
      rw [m, e, kept]
      exact ⟨rfl, rfl⟩
    · rw [State.audioSlot_later emits due (sounds_iff.mp sounds) kept later] at within ⊢
      refine ⟨rfl, rfl, rfl, rfl, fun noLoss => ?_⟩
      obtain ⟨m, e⟩ := within noLoss
      rw [m, e, kept]
      exact ⟨rfl, rfl⟩
  · rw [State.audioSlot_past emits due (Decidable.not_not.mp fun k => quiet (sounds_iff.mpr k))] at within ⊢
    refine ⟨rfl, rfl, rfl, rfl, fun noLoss => ?_⟩
    obtain ⟨m, e⟩ := within noLoss
    rw [m, e]
    exact ⟨rfl, rfl⟩
  · rw [State.audioSlot_repeats emits due] at within ⊢
    refine ⟨rfl, rfl, rfl, rfl, rfl, rfl, fun noLoss => ?_⟩
    obtain ⟨m, e⟩ := within noLoss
    rw [m, e]
    exact ⟨rfl, rfl⟩

end Sys2Proof.Machine
end

