-- ==== Sys2Proof/Proofs/SyncAndGain.lean ====
section
/-! PROOFS. Sync checks (R160, R161) and gain steps (R162, R164), and the IDLE that the last report of ENDING brings (R13,
R14). -/

set_option Elab.async false

namespace Sys2Proof.Machine

/-! ### The fixtures through the water's steps -/

@[simp] theorem State.regate_fixtures (s : State) : s.regate.lights.fixtures = s.lights.fixtures := by
  unfold State.regate
  split <;> rfl

@[simp] theorem State.refreshValves_fixtures (s : State) : s.refreshValves.lights.fixtures = s.lights.fixtures := by
  rw [State.refreshValves, State.regate_fixtures]
  rfl

@[simp] theorem State.trip_fixtures (c : Channel) (cause : TripCause) (s : State) :
    (s.trip c cause).lights.fixtures = s.lights.fixtures := by
  rw [State.trip_eq, State.refreshValves_fixtures]
  unfold State.tripped
  dsimp only
  split <;> simp

@[simp] theorem State.startPump_fixtures (c : Channel) (s : State) :
    (s.startPump c).lights.fixtures = s.lights.fixtures := by
  rw [State.startPump_eq]
  split
  · rw [State.trip_fixtures, State.setPump_lights]
  · rfl

@[simp] theorem State.actGoal_fixtures (b : Bool) (c : Channel) (s : State) :
    (s.actGoal b c).lights.fixtures = s.lights.fixtures := by
  unfold State.actGoal
  dsimp only
  (repeat' split) <;> simp

@[simp] theorem State.workGoals_fixtures (s : State) : s.workGoals.lights.fixtures = s.lights.fixtures := by
  rw [State.workGoals, State.refreshValves_fixtures]
  exact foldl_proj (fun u : State => u.lights.fixtures) _ (fun u c => u.actGoal_fixtures false c) _ s

@[simp] theorem State.refreshPermits_fixtures (s : State) : s.refreshPermits.lights.fixtures = s.lights.fixtures := by
  unfold State.refreshPermits
  dsimp only
  split
  · rfl
  · simp

/-! ### Sync checks -/

/-- A sync check that is made. -/
theorem State.checkSync_eq {s : State} (emits : s.emitting = true) (begun : 0 ≤ s.clock.showTime) (audio : s.hasAudio = true) :
    s.checkSync =
      let e : Int := (dueFrame s.clock.showTime : Int) - s.music.playIndex
      if -1 ≤ e ∧ e ≤ 1 then s
      else if 2 ≤ e ∧ e ≤ 320 then
        State.raise .audioSlip none (some 0) { s with music := { s.music with playIndex := s.music.playIndex + 1 } }
      else if -320 ≤ e ∧ e ≤ -2 then
        State.raise .audioSlip none (some 1) { s with music := { s.music with repeatDue := true } }
      else s.resyncAudio (dueFrame s.clock.showTime) := by
  refine if_neg ?_
  rw [emits, audio]
  simp [begun]

/-- Where a resync places the reader (R161). -/
def resyncBlock (frames due : Nat) : Nat := if due + 2048 < frames then (due + 2048) / 1016 else audioBlocks frames

/-- A resync before the filling. -/
def State.resynced (due : Nat) (s : State) : State :=
  State.raise .audioResync none none
    { s with
      music := { s.music with fifo := [], playIndex := due, resync := true, underrun := false, repeatDue := false }
      store := { s.store.withdraw .audio with audioPos := some (resyncBlock s.frameCount due) } }

theorem State.resyncAudio_eq (due : Nat) (s : State) : s.resyncAudio due = (s.resynced due).fillAudio := rfl

theorem State.resynced_store (due : Nat) (s : State) : (s.resynced due).store.entry = s.store.entry ∧
    (s.resynced due).store.audioPos = some (resyncBlock s.frameCount due) ∧ (s.resynced due).store.audioReq = none ∧
    (s.resynced due).store.config = s.store.config := by
  unfold State.resynced State.raise Store.withdraw Store.setRequest
  dsimp only
  split
  · split <;> exact ⟨rfl, rfl, rfl, rfl⟩
  · exact ⟨rfl, rfl, rfl, rfl⟩

theorem resyncBlock_lt {frames due : Nat} (h : due + 2048 < frames) : resyncBlock frames due < audioBlocks frames := by
  rw [resyncBlock, if_pos h, audioBlocks]
  omega

/-- What the filling asks for at a resync, the stream's blocks within the flash. -/
theorem State.resyncAudio_asks {s : State} {due : Nat} {a : ShowSection} (entry : s.store.entry = some a)
    (audio : s.hasAudio = true) (fills : s.filling = true) (inside : a.firstAudio + audioBlocks a.frames ≤ maxBlock + 1) :
    (s.resyncAudio due).music.fifo = [] ∧ (s.resyncAudio due).store.audioPos = some (resyncBlock a.frames due) ∧
      ((s.resyncAudio due).store.audioReq.map fun q => q.block) =
        (if due + 2048 < a.frames then some (a.firstAudio + (due + 2048) / 1016) else none) ∧
      (s.resyncAudio due).mon = (s.resynced due).mon := by
  have frames : s.frameCount = a.frames := by rw [State.frameCount, entry]
  obtain ⟨entry', pos, req, config⟩ := s.resynced_store due
  have audio' : (s.resynced due).hasAudio = true := by
    rw [← audio, State.hasAudio, State.hasAudio, State.frameCount, State.frameCount, entry', config]
  have fills' : (s.resynced due).filling = true := fills
  have fifo : (s.resynced due).music.fifo = [] := rfl
  rw [State.resyncAudio_eq]
  rw [frames] at pos
  rw [entry] at entry'
  generalize s.resynced due = v at *
  by_cases more : due + 2048 < a.frames
  · have asked : v.fillAudio = v.makeRequest .audio (a.firstAudio + resyncBlock a.frames due)
        (v.expectAudio a.frames (resyncBlock a.frames due)) := by
      unfold State.fillAudio askAudio
      rw [entry', pos]
      have lt := resyncBlock_lt more
      dsimp only
      rw [if_pos ⟨audio', lt, req, by rw [fifo]; decide, fills'⟩, if_neg (by omega)]
    rw [asked, if_pos more]
    refine ⟨fifo, pos, ?_, rfl⟩
    rw [resyncBlock, if_pos more]
    rfl
  · have asked : v.fillAudio = v := by
      unfold State.fillAudio askAudio
      rw [entry', pos]
      refine if_neg fun k => ?_
      have := k.2.1
      rw [resyncBlock, if_neg more] at this
      exact lt_irrefl _ this
    rw [asked, if_neg more, req]
    exact ⟨fifo, pos, rfl, rfl⟩

/-- The state in which a sync check is made. -/
def State.atSync (t0 : Nat) (s : State) : State :=
  { s.passTo t0 with music := { (s.passTo t0).music with syncTimer := some (t0 + 5000) } }

theorem State.atSync_keeps (t0 : Nat) (s : State) : (s.atSync t0).music = { s.music with syncTimer := some (t0 + 5000) } ∧
    (s.atSync t0).ctl = s.ctl ∧ (s.atSync t0).store = s.store ∧ (s.atSync t0).mon = s.mon ∧
    (s.atSync t0).clock = (s.passTo t0).clock := by
  simp [State.atSync]

theorem exec_syncCheck {s : State} {t0 : Nat} (timer : s.music.syncTimer = some t0) :
    exec .syncCheck s = .next (s.atSync t0).checkSync.settle := by
  show execSyncCheck s = _
  simp only [execSyncCheck, timer]
  rfl

theorem State.resyncAudio_music (due : Nat) (s : State) : ∃ fifo, (s.resyncAudio due).music =
    { s.music with fifo := fifo, playIndex := due, resync := true, underrun := false, repeatDue := false } := by
  obtain ⟨fifo, e⟩ := (s.resynced due).fillAudio_music
  exact ⟨fifo, (congrArg State.music (State.resyncAudio_eq due s)).trans e⟩

theorem State.checkSync_syncTimer (s : State) : s.checkSync.music.syncTimer = s.music.syncTimer := by
  unfold State.checkSync
  dsimp only
  split
  · rfl
  · split
    · rfl
    · split
      · rfl
      · split
        · rfl
        · obtain ⟨fifo, e⟩ := s.resyncAudio_music (dueFrame s.clock.showTime)
          rw [e]

/-- Settles O48. -/
theorem syncCheckKeepsStep : Obligations.SyncCheckKeepsStep := by
  intro s t0 timer running audio begun
  obtain ⟨music, ctl, store, mon, clock⟩ := s.atSync_keeps t0
  have next := exec_syncCheck timer
  have emits : (s.atSync t0).emitting = true := (State.emitting_iff _).mpr (.inl (ctl ▸ running))
  have fills : (s.atSync t0).filling = true := by rw [State.filling, ctl, running]
  have audio' : (s.atSync t0).hasAudio = true := (State.hasAudio_congr store).trans audio
  have armed : (s.atSync t0).music.syncTimer = some (t0 + 5000) := by rw [music]
  have playIndex : (s.atSync t0).music.playIndex = s.music.playIndex := by rw [music]
  have fifo : (s.atSync t0).music.fifo = s.music.fifo := by rw [music]
  have out : (s.atSync t0).checkSync.outstanding :=
    State.outstanding_congr (s := s) (by simp [ctl]) ⟨by rw [running]; decide, fun e => by rw [running] at e; cases e⟩
  obtain ⟨endMusic, endMon, _, _, endPos, endReq⟩ := State.settle_outstanding out
  refine ⟨_, next, ?_⟩
  dsimp only
  rw [← clock] at begun ⊢
  rw [endMusic, endMon, endPos, endReq, ← playIndex, ← fifo, ← mon, ← store]
  generalize s.atSync t0 = u at emits fills audio' armed begun ⊢
  refine ⟨u.checkSync_syncTimer.trans armed, fun low high => ?_, fun low high => ?_, fun low high => ?_, fun far => ?_⟩
  · have stands := (State.checkSync_eq emits begun audio').trans (if_pos ⟨low, high⟩)
    rw [stands]
    exact ⟨rfl, rfl, rfl⟩
  · have skips := (State.checkSync_eq emits begun audio').trans ((if_neg (by unfold dueFrame; omega)).trans (if_pos ⟨low, high⟩))
    rw [skips]
    exact ⟨rfl, rfl⟩
  · have repeats := (State.checkSync_eq emits begun audio').trans ((if_neg (by unfold dueFrame; omega)).trans
      ((if_neg (by unfold dueFrame; omega)).trans (if_pos ⟨low, high⟩)))
    rw [repeats]
    exact ⟨rfl, rfl, rfl⟩
  · have resyncs := (State.checkSync_eq emits begun audio').trans ((if_neg (by unfold dueFrame; omega)).trans
      ((if_neg (by unfold dueFrame; omega)).trans (if_neg (by unfold dueFrame; omega))))
    obtain ⟨fifo, e⟩ := u.resyncAudio_music (dueFrame u.clock.showTime)
    rw [resyncs]
    refine ⟨by rw [e]; rfl, by rw [e], by rw [e], fun a entry inside => ?_⟩
    exact State.resyncAudio_asks entry audio' fills inside

/-! ### Gain steps -/

theorem State.gainStep_done {s : State} (done : s.music.fadeLen ≤ s.music.elapsed) : s.gainStep = s := if_pos done

/-- A fade that goes on. -/
theorem State.gainStep_goes {s : State} (going : s.music.elapsed + 10 < s.music.fadeLen) :
    s.gainStep = { s with music := { s.music with
      elapsed := s.music.elapsed + 10
      gain := ((s.music.startGain : Int) +
        Int.tdiv (((s.music.targetGain : Int) - s.music.startGain) * (s.music.elapsed + 10 : Nat)) s.music.fadeLen).toNat } } := by
  have short : min (s.music.elapsed + 10) s.music.fadeLen = s.music.elapsed + 10 := by omega
  unfold State.gainStep
  dsimp only
  rw [if_neg (by omega), short, if_neg (by omega)]

/-- A fade that completes, and the report of a run-out. -/
theorem State.gainStep_ends {s : State} (going : s.music.elapsed < s.music.fadeLen)
    (last : s.music.fadeLen ≤ s.music.elapsed + 10) : s.gainStep =
      { s with
        ctl := { s.ctl with audioRunOut := s.ctl.audioRunOut || s.music.runOut }
        music := { s.music with elapsed := s.music.fadeLen, gain := s.music.targetGain, runOut := false } } := by
  have full : min (s.music.elapsed + 10) s.music.fadeLen = s.music.fadeLen := by omega
  unfold State.gainStep
  dsimp only
  rw [if_neg (by omega), full, if_pos rfl]
  cases s.music.runOut with
  | true => simp
  | false => simp

/-- The state in which a gain step is made. -/
def State.atGain (t0 : Nat) (s : State) : State :=
  { s.passTo t0 with music := { (s.passTo t0).music with gainTimer := some (t0 + 10000) } }

theorem State.atGain_keeps (t0 : Nat) (s : State) : (s.atGain t0).music = { s.music with gainTimer := some (t0 + 10000) } ∧
    (s.atGain t0).ctl = s.ctl ∧ (s.atGain t0).store = s.store ∧ (s.atGain t0).mon = s.mon ∧
    (s.atGain t0).clock = (s.passTo t0).clock ∧ (s.atGain t0).pump = s.pump ∧ (s.atGain t0).head = s.head ∧
    (s.atGain t0).peers = s.peers := by
  simp [State.atGain]

theorem exec_gainStep {s : State} {t0 : Nat} (timer : s.music.gainTimer = some t0) :
    exec .gainStep s = .next (s.atGain t0).gainStep.settle := by
  show execGainStep s = _
  simp only [execGainStep, timer]
  rfl

/-! ### The end of ENDING (R13, R14) -/

/-- The station enters IDLE when nothing of ENDING is left. -/
theorem State.settle_of_complete {s : State} (ending : s.ctl.state = .ending) (light : s.ctl.lightRunOut = true)
    (audio : s.ctl.audioRunOut = true) (still : s.pumpsStopped = true) (rest : s.headsStill = true) :
    s.settle = (s.enterIdle false).grant := by
  have unarmed : s.checkArmed = s := if_neg fun k => by
    rw [ending] at k
    cases k.1
  have ended : s.checkEnding = s.enterIdle false := if_pos ⟨ending, still, rest, light, audio⟩
  rw [State.settle, unarmed, ended]

theorem State.pumpsStopped_iff (s : State) : s.pumpsStopped = true ↔
    ∀ c : Channel, (s.pump.pumps[c]).state = .stopped ∨ (s.pump.pumps[c]).state = .tripped := by
  simp only [State.pumpsStopped, List.all_eq_true, List.mem_finRange, true_implies]
  refine forall_congr' fun c => ?_
  generalize s.pump.pumps[c] = p
  cases p.state <;> simp [PumpState.runs]

theorem State.headsStill_iff (s : State) : s.headsStill = true ↔
    ∀ h : Head, (s.head.heads[h]).state ≠ .moving ∧ (s.head.heads[h]).state ≠ .reversing ∧
      (s.head.heads[h]).state ≠ .verifying := by
  simp only [State.headsStill, List.all_eq_true, List.mem_finRange, true_implies]
  refine forall_congr' fun h => ?_
  generalize s.head.heads[h] = r
  cases r.state <;> simp

theorem PumpRec.idle_spec {p : PumpRec} (still : p.state = .stopped ∨ p.state = .tripped) :
    p.idle.state = .stopped ∧ p.idle.trips = 0 ∧ p.idle.latched = false := by
  rcases still with h | h <;> simp [PumpRec.idle, h]

/-- A pump that stands, after goals have been worked outside COUNTDOWN and RUNNING. -/
theorem State.workGoals_stands {v : State} {c : Channel} (still : v.ctl.state.cueing = false)
    (stands : (v.pump.pumps[c]).state = .stopped ∨ (v.pump.pumps[c]).state = .tripped) :
    (v.workGoals.pump.pumps[c]).state = (v.pump.pumps[c]).state ∧
      (v.workGoals.pump.pumps[c]).trips = (v.pump.pumps[c]).trips ∧
      (v.workGoals.pump.pumps[c]).latched = (v.pump.pumps[c]).latched := by
  obtain ⟨timer, e⟩ := State.workGoals_pump still c
  obtain ⟨_, trips, latched⟩ := StationConfig.restPump_keeps v.store.config v.localTimer c v.pump.pumps[c]
  rw [e]
  exact ⟨StationConfig.restPump_state stands, trips, latched⟩

/-- The pumps after the entry to IDLE of a station whose pumps stand (R121, R127). -/
theorem State.enterIdle_pumps {s : State} {c : Channel}
    (still : (s.pump.pumps[c]).state = .stopped ∨ (s.pump.pumps[c]).state = .tripped) :
    ((s.enterIdle false).pump.pumps[c]).state = .stopped ∧ ((s.enterIdle false).pump.pumps[c]).trips = 0 ∧
      ((s.enterIdle false).pump.pumps[c]).latched = false := by
  obtain ⟨stopped, trips, latched⟩ := PumpRec.idle_spec still
  have shape : ∃ v : State, s.enterIdle false = v.workGoals ∧ v.ctl.state = .idle ∧
      v.pump = (s.mapPumps PumpRec.idle).pump := by
    unfold State.enterIdle
    simp only [Bool.false_eq_true, if_false]
    exact ⟨_, rfl, by simp, by simp [State.mapPumps]⟩
  obtain ⟨v, shape, idle, pumps⟩ := shape
  have pump : v.pump.pumps[c] = (s.pump.pumps[c]).idle := by
    rw [pumps]
    simp [State.mapPumps]
  rw [shape]
  rw [← pump] at stopped trips latched
  obtain ⟨state', trips', latched'⟩ := State.workGoals_stands (v := v) (c := c) (by rw [idle]; rfl) (.inl stopped)
  exact ⟨state'.trans stopped, trips'.trans trips, latched'.trans latched⟩

theorem State.enterIdle_dark (s : State) : (s.enterIdle false).lights.fixtures = Vector.replicate 12 {} := by
  unfold State.enterIdle
  simp only [Bool.false_eq_true, if_false, State.workGoals_fixtures, State.idlePeers_keeps]
  rfl

theorem State.enterIdle_runOut (soft : Bool) (s : State) : (s.enterIdle soft).music.runOut = false := by
  cases soft <;> simp [State.enterIdle, State.flushMusic, Music.flush]

theorem PeerEntry.idle_fresh (e : PeerEntry) : e.idle.fresh = if e.fresh = .lost then .absent else e.fresh := by
  unfold PeerEntry.idle
  split <;> rfl

/-- Settles O49. -/
theorem gainStepAdvancesTheFade : Obligations.GainStepAdvancesTheFade := by
  refine ⟨fun s t0 timer steady => ?_, fun s t0 timer ending light runOut going last pumps heads => ?_⟩
  · obtain ⟨music, ctl, _, _, _, _, _, _⟩ := s.atGain_keeps t0
    have next := exec_gainStep timer
    have timer' : (s.atGain t0).music.gainTimer = some (t0 + 10000) := by rw [music]
    have same : (s.atGain t0).music.gain = s.music.gain ∧ (s.atGain t0).music.startGain = s.music.startGain ∧
        (s.atGain t0).music.targetGain = s.music.targetGain ∧ (s.atGain t0).music.fadeLen = s.music.fadeLen ∧
        (s.atGain t0).music.elapsed = s.music.elapsed ∧ (s.atGain t0).music.runOut = s.music.runOut := by
      rw [music]
      exact ⟨rfl, rfl, rfl, rfl, rfl, rfl⟩
    obtain ⟨gain, start, target, len, elapsed, runOut⟩ := same
    rw [← ctl]
    have steady' := State.steady_congr ctl steady
    refine ⟨_, next, ?_⟩
    dsimp only
    rw [← gain, ← start, ← target, ← len, ← elapsed, ← runOut]
    generalize s.atGain t0 = u at steady' timer' ⊢
    by_cases done : u.music.fadeLen ≤ u.music.elapsed
    · rw [State.gainStep_done done]
      obtain ⟨_, _, _, ctl, _, _, music, _⟩ := State.settle_steady steady'
      rw [ctl, music]
      exact ⟨timer', fun _ => ⟨rfl, rfl⟩, fun going => absurd done going.not_ge⟩
    · have going : u.music.elapsed < u.music.fadeLen := Nat.lt_of_not_le done
      by_cases last : u.music.fadeLen ≤ u.music.elapsed + 10
      · have full : min (u.music.elapsed + 10) u.music.fadeLen = u.music.fadeLen := Nat.min_eq_right last
        rw [State.gainStep_ends going last, full]
        obtain ⟨_, _, _, ctl, _, _, music, _⟩ := State.settle_steady (s := { u with
          ctl := { u.ctl with audioRunOut := u.ctl.audioRunOut || u.music.runOut }
          music := { u.music with elapsed := u.music.fadeLen, gain := u.music.targetGain, runOut := false } }) steady'
        rw [ctl, music]
        exact ⟨timer', fun e => absurd e done, fun _ => ⟨rfl, fun e => absurd e (lt_irrefl _), fun _ => ⟨rfl, rfl, rfl⟩⟩⟩
      · have short : min (u.music.elapsed + 10) u.music.fadeLen = u.music.elapsed + 10 :=
          Nat.min_eq_left (Nat.le_of_not_le last)
        rw [State.gainStep_goes (Nat.lt_of_not_le last), short]
        generalize Int.toNat _ = g
        obtain ⟨_, _, _, ctl, _, _, music, _⟩ := State.settle_steady (s := { u with
          music := { u.music with elapsed := u.music.elapsed + 10, gain := g } }) steady'
        rw [ctl, music]
        exact ⟨timer', fun e => absurd e done, fun _ => ⟨rfl, fun _ => ⟨rfl, rfl⟩,
          fun e => absurd (Nat.le_of_eq e.symm) last⟩⟩
  · obtain ⟨music, ctl, _, mon, clock, pump, head, peers⟩ := s.atGain_keeps t0
    have next := exec_gainStep timer
    have same : (s.atGain t0).music.fadeLen = s.music.fadeLen ∧ (s.atGain t0).music.elapsed = s.music.elapsed ∧
        (s.atGain t0).music.runOut = s.music.runOut := by
      rw [music]
      exact ⟨rfl, rfl, rfl⟩
    obtain ⟨len, elapsed, marked⟩ := same
    rw [← len, ← elapsed] at going
    rw [← len, ← elapsed] at last
    rw [← marked] at runOut
    rw [← pump] at pumps
    rw [← head] at heads
    rw [← ctl] at ending light
    refine ⟨_, next, ?_⟩
    rw [← ctl, ← head, ← mon, ← clock, ← peers]
    generalize s.atGain t0 = u at going last runOut pumps heads ending light ⊢
    obtain ⟨w, hw⟩ : ∃ w : State, w = { u with
      ctl := { u.ctl with audioRunOut := u.ctl.audioRunOut || u.music.runOut }
      music := { u.music with elapsed := u.music.fadeLen, gain := u.music.targetGain, runOut := false } } := ⟨_, rfl⟩
    rw [State.gainStep_ends going last, ← hw, State.settle_of_complete (by rw [hw]; exact ending) (by rw [hw]; exact light)
      (by rw [hw, runOut]; simp) ((State.pumpsStopped_iff w).mpr (by rw [hw]; exact pumps))
      ((State.headsStill_iff w).mpr (by rw [hw]; exact heads))]
    obtain ⟨queue, table, _, _⟩ := w.enterIdle_seq false
    obtain ⟨fifo, playIndex⟩ := w.enterIdle_music false
    have cause : w.ctl.endingCause = u.ctl.endingCause := by rw [hw]
    have headW : w.head = u.head := by rw [hw]
    have monW : w.mon = u.mon := by rw [hw]
    have clockW : w.clock = u.clock := by rw [hw]
    have pumpW : w.pump = u.pump := by rw [hw]
    have peersW : w.peers = u.peers := by rw [hw]
    have runOut' := w.enterIdle_runOut false
    have dark := w.enterIdle_dark
    have events := w.enterIdle_mon false
    have idle : (w.enterIdle false).ctl.state = .idle ∧ (w.enterIdle false).ctl.selected = 0 ∧
        (w.enterIdle false).ctl.endingCause = w.ctl.endingCause := by
      rw [State.enterIdle_ctl]
      exact ⟨rfl, rfl, rfl⟩
    have headI : (w.enterIdle false).head = w.head := by simp
    have entryI : (w.enterIdle false).store.entry = none := by simp
    have clockI : (w.enterIdle false).clock.showTime = w.clock.showTime := by simp
    have pumpsI := fun c => State.enterIdle_pumps (s := w) (c := c) (by rw [pumpW]; exact pumps c)
    have entries (k : Peer) : (w.enterIdle false).peers.entries[k] = (u.peers.entries[k]).idle := by
      rw [State.enterIdle_entries, peersW]
      simp
    generalize w.enterIdle false = t at *
    rw [State.grant_eq]
    refine ⟨idle.1, idle.2.1, idle.2.2.trans cause, queue, table, fifo, playIndex, runOut', entryI, dark,
      congrArg HeadControl.heads (headI.trans headW), events.trans monW, clockI.trans (congrArg Clock.showTime clockW), pumpsI,
      fun k => ?_⟩
    dsimp only
    rw [entries k]
    exact ⟨PeerEntry.idle_offset _, PeerEntry.idle_alert _, PeerEntry.idle_fresh _⟩

end Sys2Proof.Machine
end

