-- ==== Sys2Proof/Proofs/LightSteps.lean ====
section
/-! PROOFS. Light steps (R147, R149, R151, R154): the record of one fixture, and the report of the run-out. -/

set_option Elab.async false

namespace Sys2Proof.Machine

/-! ### The record of one fixture -/

theorem FixtureRec.advance_spec (r : FixtureRec) :
    r.advance.current =
        (if r.fadeLen ≤ r.elapsed then r.current
         else if min (r.elapsed + 10) r.fadeLen = r.fadeLen then r.target
         else fadeColour r.start r.target (min (r.elapsed + 10) r.fadeLen) r.fadeLen) ∧
      r.advance.elapsed = (if r.fadeLen ≤ r.elapsed then r.elapsed else min (r.elapsed + 10) r.fadeLen) ∧
      r.advance.start = r.start ∧ r.advance.target = r.target ∧ r.advance.fadeLen = r.fadeLen ∧
      r.advance.pattern = r.pattern ∧ r.advance.ending = r.ending := by
  unfold FixtureRec.advance FixtureRec.fadeComplete
  simp only [decide_eq_true_eq]
  split <;> exact ⟨rfl, rfl, rfl, rfl, rfl, rfl, rfl⟩

theorem FixtureRec.advance_complete (r : FixtureRec) : r.advance.fadeComplete = true ↔ r.fadeLen ≤ r.elapsed + 10 := by
  obtain ⟨_, elapsed, _, _, len, _⟩ := r.advance_spec
  rw [FixtureRec.fadeComplete, decide_eq_true_eq, elapsed, len]
  split <;> omega

theorem State.chase_ending (s : State) (r : FixtureRec) : (s.chase r).ending = r.ending := by
  unfold State.chase
  split
  · rfl
  · dsimp only
    split <;> rfl

/-- A fixture without a chase, or within its beat group, does not step. -/
theorem State.chase_still {s : State} {r : FixtureRec}
    (still : r.pattern = none ∨ ∃ p, r.pattern = some p ∧ s.beatGroup p.divisor = p.group) : s.chase r = r := by
  unfold State.chase
  rcases still with none | ⟨p, some, group⟩
  · rw [none]
  · rw [some]
    exact if_pos group

/-- A chase steps to its next colour. -/
theorem State.chase_steps {s : State} {r : FixtureRec} {p : Pattern} (pattern : r.pattern = some p)
    (changed : s.beatGroup p.divisor ≠ p.group) : s.chase r =
      FixtureRec.beginFade (p.colours.getD (if p.index + 1 < p.colours.length then p.index + 1 else 0) {}) p.stepFade
        { r with pattern := some { p with
          group := s.beatGroup p.divisor, index := if p.index + 1 < p.colours.length then p.index + 1 else 0 } } := by
  unfold State.chase
  rw [pattern]
  exact if_neg changed

/-! ### The run-out (R154) -/

/-- A present fixture in its run-out. -/
def State.inRunOut (s : State) (f : Fixture) : Prop :=
  (s.store.config.fixtures[f]).present = true ∧ (s.lights.fixtures[f]).ending = true

/-- The run-out is reported. -/
def State.reportRunOut (s : State) : State :=
  { s with
    ctl := { s.ctl with lightRunOut := true }
    lights := { s.lights with fixtures := Vector.ofFn fun f : Fin 12 => { s.lights.fixtures[f] with ending := false } } }

theorem State.checkLightRunOut_eq (s : State) : s.checkLightRunOut = s ∨ s.checkLightRunOut = s.reportRunOut := by
  unfold State.checkLightRunOut
  dsimp only
  split
  · exact .inr rfl
  · exact .inl rfl

theorem State.checkLightRunOut_reports {s : State} (some : ∃ f, s.inRunOut f)
    (complete : ∀ f, s.inRunOut f → (s.lights.fixtures[f]).fadeComplete = true) : s.checkLightRunOut = s.reportRunOut := by
  refine if_pos ⟨?_, ?_⟩
  · obtain ⟨f, present, ending⟩ := some
    exact List.ne_nil_of_mem (a := f) (List.mem_filter.mpr ⟨List.mem_finRange f, by rw [present, ending]; rfl⟩)
  · rw [List.all_eq_true]
    intro f mem
    have marked := (List.mem_filter.mp mem).2
    rw [Bool.and_eq_true] at marked
    exact complete f marked

theorem State.checkLightRunOut_waits {s : State}
    (waits : (∃ f, s.inRunOut f ∧ (s.lights.fixtures[f]).fadeComplete = false) ∨ ∀ f, ¬ s.inRunOut f) :
    s.checkLightRunOut = s := by
  refine if_neg fun k => ?_
  obtain ⟨some, complete⟩ := k
  rcases waits with ⟨f, ⟨present, ending⟩, going⟩ | none
  · have done := List.all_eq_true.mp complete f (List.mem_filter.mpr ⟨List.mem_finRange f, by rw [present, ending]; rfl⟩)
    exact Bool.false_ne_true (going.symm.trans done)
  · refine some (List.filter_eq_nil_iff.mpr fun f _ marked => ?_)
    rw [Bool.and_eq_true] at marked
    exact none f marked

/-! ### The light step -/

theorem State.advanceFixtures_at {s : State} {f : Fixture} (present : (s.store.config.fixtures[f]).present = true) :
    s.advanceFixtures.lights.fixtures[f] = s.chase (s.lights.fixtures[f]).advance := by
  have whole : s.advanceFixtures.lights.fixtures[f] = (if (s.store.config.fixtures[f]).present then
      s.chase (s.lights.fixtures[f]).advance else s.lights.fixtures[f]) := by simp [State.advanceFixtures]
  rw [whole, if_pos present]

theorem State.advanceFixtures_inRunOut (s : State) (f : Fixture) : s.advanceFixtures.inRunOut f ↔ s.inRunOut f := by
  refine and_congr_right fun present => ?_
  rw [State.advanceFixtures_at (s := s) present, State.chase_ending, (FixtureRec.advance_spec _).2.2.2.2.2.2]

/-- A light step leaves a record as its fade and its chase make it, but for the mark of the run-out. -/
theorem State.lightStep_at {s : State} {f : Fixture} (present : (s.store.config.fixtures[f]).present = true) :
    ∃ ending, s.lightStep.lights.fixtures[f] = { s.chase (s.lights.fixtures[f]).advance with ending := ending } := by
  rw [State.lightStep, State.regate_fixtures, ← State.advanceFixtures_at present]
  rcases s.advanceFixtures.checkLightRunOut_eq with e | e
  · rw [e]
    exact ⟨_, rfl⟩
  · rw [e]
    exact ⟨false, by simp [State.reportRunOut]⟩

theorem State.lightStep_reports {s : State} (some : ∃ f, s.inRunOut f) (last : ∀ f, s.inRunOut f →
    (s.lights.fixtures[f]).pattern = none ∧ (s.lights.fixtures[f]).fadeLen ≤ (s.lights.fixtures[f]).elapsed + 10) :
    s.lightStep.ctl = { s.ctl with lightRunOut := true } ∧ ∀ f : Fixture, (s.lightStep.lights.fixtures[f]).ending = false := by
  have reports := State.checkLightRunOut_reports (s := s.advanceFixtures)
    (some.imp fun f => (s.advanceFixtures_inRunOut f).mpr) fun f h => by
      have marked := (s.advanceFixtures_inRunOut f).mp h
      obtain ⟨pattern, len⟩ := last f marked
      rw [State.advanceFixtures_at marked.1,
        State.chase_still (.inl ((FixtureRec.advance_spec _).2.2.2.2.2.1.trans pattern))]
      exact (FixtureRec.advance_complete _).mpr len
  rw [State.lightStep, State.regate_fixtures, (State.regate_keeps _).2.2.1, reports]
  exact ⟨rfl, fun f => by simp [State.reportRunOut]⟩

theorem State.lightStep_waits {s : State} (waits : (∃ f, s.inRunOut f ∧ (s.lights.fixtures[f]).pattern = none ∧
    (s.lights.fixtures[f]).elapsed + 10 < (s.lights.fixtures[f]).fadeLen) ∨ ∀ f, ¬ s.inRunOut f) :
    s.lightStep.ctl = s.ctl := by
  have stands := State.checkLightRunOut_waits (s := s.advanceFixtures) (waits.imp
    (fun ⟨f, marked, pattern, short⟩ => ⟨f, (s.advanceFixtures_inRunOut f).mpr marked, by
      rw [State.advanceFixtures_at marked.1,
        State.chase_still (.inl ((FixtureRec.advance_spec _).2.2.2.2.2.1.trans pattern))]
      exact Bool.eq_false_iff.mpr fun done => absurd ((FixtureRec.advance_complete _).mp done) short.not_ge⟩)
    fun none f marked => none f ((s.advanceFixtures_inRunOut f).mp marked))
  rw [State.lightStep, (State.regate_keeps _).2.2.1, stands]
  rfl

/-- The state in which a light step is worked. -/
def State.atLight (t0 : Nat) (s : State) : State :=
  { s.passTo t0 with lights := { (s.passTo t0).lights with lightTimer := some (t0 + 10000) } }

theorem State.atLight_keeps (t0 : Nat) (s : State) : (s.atLight t0).lights = { s.lights with lightTimer := some (t0 + 10000) } ∧
    (s.atLight t0).ctl = s.ctl ∧ (s.atLight t0).store = s.store ∧ (s.atLight t0).seq = s.seq ∧
    (s.atLight t0).clock = (s.passTo t0).clock := by
  simp [State.atLight]

theorem exec_lightStep_at {s : State} {t0 : Nat} (timer : s.lights.lightTimer = some t0) :
    exec .lightStep s = .next (s.atLight t0).lightStep.settle := by
  show execLightStep s = _
  simp only [execLightStep, timer]
  rfl

theorem State.lightStep_timer (s : State) : s.lightStep.lights.lightTimer = s.lights.lightTimer := by
  have regated (u : State) : u.regate.lights.lightTimer = u.lights.lightTimer := by
    unfold State.regate
    split <;> rfl
  rw [State.lightStep, regated]
  rcases s.advanceFixtures.checkLightRunOut_eq with e | e <;> rw [e] <;> rfl

/-- Settles O45. -/
theorem lightStepAdvancesFades : Obligations.LightStepAdvancesFades := by
  intro s t0 timer loading ending
  obtain ⟨lights, ctl, store, seq, clock⟩ := s.atLight_keeps t0
  have next := exec_lightStep_at timer
  have fixtures : (s.atLight t0).lights.fixtures = s.lights.fixtures := by rw [lights]
  have armed : (s.atLight t0).lights.lightTimer = some (t0 + 10000) := by rw [lights]
  have out : (s.atLight t0).lightStep.outstanding := by
    unfold State.outstanding
    rw [State.lightStep_ctl, ctl]
    exact ⟨loading, fun e => .inr (ending e)⟩
  obtain ⟨_, _, endCtl, endLights, _⟩ := State.settle_outstanding out
  refine ⟨_, next, ?_⟩
  rw [endCtl, endLights, ← clock, ← fixtures, ← seq, ← store, ← ctl]
  generalize s.atLight t0 = u at armed ⊢
  refine ⟨u.lightStep_timer.trans armed, fun f present => ?_, fun some last => ?_, fun waits => ?_⟩
  · obtain ⟨mark, record⟩ := State.lightStep_at present
    obtain ⟨current, elapsed, start, target, len, pattern, _⟩ := FixtureRec.advance_spec u.lights.fixtures[f]
    dsimp only
    rw [record]
    refine ⟨fun still => ?_, fun p some changed => ?_⟩
    · rw [State.chase_still (r := (u.lights.fixtures[f]).advance) (by rw [pattern]; exact still)]
      exact ⟨current, elapsed, start, target, len, pattern⟩
    · rw [State.chase_steps (r := (u.lights.fixtures[f]).advance) (pattern.trans some) changed]
      refine ⟨rfl, current, rfl, rfl, rfl, ?_⟩
      exact congrArg (fun c => if p.stepFade = 0 then _ else c) current
  · exact State.lightStep_reports some last
  · exact State.lightStep_waits waits

end Sys2Proof.Machine
end

