-- ==== Sys2Proof/Proofs/ShowsUnderWay.lean ====
section
/-! PROOFS. The show under way (R10 to R14, R56): endings, HOLD and RESUME, the crossings of show time, and what reading ahead
(R83) can change. -/

set_option Elab.async false

namespace Sys2Proof.Machine

/-! ### Jet Computation through the water's steps -/

theorem State.refreshPermits_chans (s : State) : s.refreshPermits.jet.chans = s.jet.chans := by
  unfold State.refreshPermits
  dsimp only
  split
  · rfl
  · rw [(State.refreshValves_keeps _).2.2.2.2.2.2.2.2.1, State.askPass_jet]
    simp

theorem State.trip_passDue {c : Channel} {cause : TripCause} {s : State} (h : s.jet.passDue = true) :
    (s.trip c cause).jet.passDue = true := by
  rw [State.trip_eq, (State.refreshValves_keeps _).2.2.2.2.2.2.2.2.1]
  unfold State.tripped
  dsimp only
  split
  · rw [State.askPass_jet]
    exact Bool.or_eq_true_iff.mpr (.inl h)
  · exact h

theorem State.startPump_passDue {c : Channel} {s : State} (h : s.jet.passDue = true) : (s.startPump c).jet.passDue = true := by
  rw [State.startPump_eq]
  split
  · exact State.trip_passDue h
  · exact h

theorem State.actGoal_passDue {b : Bool} {c : Channel} {s : State} (h : s.jet.passDue = true) :
    (s.actGoal b c).jet.passDue = true := by
  unfold State.actGoal
  dsimp only
  split
  · exact h
  · split
    · split
      · exact State.startPump_passDue h
      · exact h
    · split <;> exact h
    · split <;> exact h
    · split <;> exact h
    · exact h

theorem State.workGoals_passDue {s : State} (h : s.jet.passDue = true) : s.workGoals.jet.passDue = true := by
  have kept (l : List Channel) (u : State) (hu : u.jet.passDue = true) :
      (l.foldl (fun s c => s.actGoal false c) u).jet.passDue = true := by
    induction l generalizing u with
    | nil => exact hu
    | cons c l ih => exact ih _ (State.actGoal_passDue hu)
  rw [State.workGoals, (State.refreshValves_keeps _).2.2.2.2.2.2.2.2.1]
  exact kept _ s h

/-! ### ENDING and what may follow it at once (R13, R14) -/

/-- What an ending leaves, whether the run-outs are still to come or the station is in IDLE already. -/
structure Ended (cause : EndingCause) (s t : State) : Prop where
  state : t.ctl.state = .ending ∨ t.ctl.state = .idle
  cause : t.ctl.endingCause = some cause
  queue : t.seq.queue = []
  staged : t.seq.staged = none
  table : t.seq.table = Vector.replicate 4 none
  planned : t.jet.planned = 0
  showTime : t.clock.showTime = s.clock.showTime
  targets : ∀ c : Channel, (t.jet.chans[c]).nt = 0

theorem State.parkHeads_chans (s : State) : s.parkHeads.jet.chans = s.jet.chans := by
  rw [State.parkHeads, State.refreshPermits_chans]
  exact foldl_proj (fun u : State => u.jet.chans) _ (fun u h => by
    unfold State.parkHead
    dsimp only
    split
    · rfl
    · split <;> simp) _ s

theorem State.zeroTargets_nt (s : State) (c : Channel) : (s.zeroTargets.jet.chans[c]).nt = 0 := by
  simp [State.zeroTargets]

/-- Light and audio run-outs, heads sent to park and goals worked leave the targets of the pass. -/
theorem State.runOuts_chans (b : Bool) (s : State) :
    ((s.beginLightRunOut.beginAudioRunOut b).parkHeads.workGoals).jet.chans = s.jet.chans := by
  rw [State.chans_of_figures (State.workGoals_figures _), State.parkHeads_chans]
  simp

/-- The entry to ENDING, as the steps that the blocks take. -/
theorem State.endingEntry_shape (cause : EndingCause) (s : State) : ∃ (v : State) (b : Bool), s.endingEntry cause =
    ((((v.changeState .ending).clearSequencer.zeroTargets).beginLightRunOut).beginAudioRunOut b).parkHeads.workGoals ∧
      v.clock = s.clock := ⟨_, _, rfl, rfl⟩

theorem State.endingEntry_targets (cause : EndingCause) (s : State) (c : Channel) :
    ((s.endingEntry cause).jet.chans[c]).nt = 0 := by
  obtain ⟨v, b, shape, _⟩ := s.endingEntry_shape cause
  rw [shape, State.runOuts_chans, State.zeroTargets_nt]

theorem State.endingEntry_seq (cause : EndingCause) (s : State) : (s.endingEntry cause).seq.staged = none ∧
    (s.endingEntry cause).seq.table = Vector.replicate 4 none ∧
    (s.endingEntry cause).clock.showTime = s.clock.showTime := by
  obtain ⟨v, b, shape, clock⟩ := s.endingEntry_shape cause
  rw [shape, ← clock]
  simp [State.zeroTargets, State.clearSequencer]

theorem State.endingEntry_planned (cause : EndingCause) (s : State) : (s.endingEntry cause).jet.planned = 0 := by
  obtain ⟨v, b, shape, _⟩ := s.endingEntry_shape cause
  rw [shape]
  simp [State.zeroTargets, ShowState.underWay]

theorem State.endingEntry_state (cause : EndingCause) (s : State) : (s.endingEntry cause).ctl.state = .ending ∧
    (s.endingEntry cause).ctl.endingCause = some cause := by
  have ctl := State.endingEntry_ctl cause s
  generalize s.endingEntry cause = t at ctl ⊢
  rw [ctl]
  exact ⟨rfl, rfl⟩

theorem State.endingEntry_ended (cause : EndingCause) (s : State) : Ended cause s (s.endingEntry cause) := by
  obtain ⟨state, ending⟩ := s.endingEntry_state cause
  obtain ⟨staged, table, showTime⟩ := s.endingEntry_seq cause
  have queue := State.endingEntry_queue cause s
  have planned := s.endingEntry_planned cause
  have targets := s.endingEntry_targets cause
  generalize s.endingEntry cause = t at *
  exact ⟨.inl state, ending, queue, staged, table, planned, showTime, targets⟩

theorem State.figures_chans (s : State) : s.figures.chans = s.jet.chans := rfl

theorem Ended.enterIdle {cause : EndingCause} {s t : State} (h : Ended cause s t) : Ended cause s (t.enterIdle false) where
  state := .inr (by simp)
  cause := by
    rw [State.enterIdle_ctl]
    exact h.cause
  queue := (t.enterIdle_seq false).1
  staged := (t.enterIdle_seq false).2.2.1
  table := (t.enterIdle_seq false).2.1
  planned := by simp
  showTime := by simpa using h.showTime
  targets c := by
    rw [← State.figures_chans, State.enterIdle_figures]
    exact h.targets c

theorem Ended.grant {cause : EndingCause} {s t : State} (h : Ended cause s t) : Ended cause s t.grant := by
  rw [State.grant_eq]
  exact ⟨h.state, h.cause, h.queue, h.staged, h.table, h.planned, h.showTime, h.targets⟩

theorem State.enterEnding_ended (cause : EndingCause) (s : State) : Ended cause s (s.enterEnding cause) := by
  rw [State.enterEnding_eq]
  have ended := s.endingEntry_ended cause
  rcases (s.endingEntry cause).checkEnding_cases with e | ⟨_, e⟩
  · rwa [e]
  · rw [e]
    exact ended.enterIdle

/-- An ending, and the end of the step that brings it. -/
theorem State.enterEnding_settle (cause : EndingCause) (s : State) : Ended cause s (s.enterEnding cause).settle := by
  have state := (s.endingEntry_state cause).1
  rw [State.enterEnding_eq, State.checkEnding_settle (by rw [state]; decide), ← State.enterEnding_eq]
  exact (s.enterEnding_ended cause).grant

/-! ### STOP (R12) -/

/-- Settles O9. -/
theorem stopEndsTheShow : Obligations.StopEndsTheShow := by
  intro s h
  let u : State := s.frameDone .stop
  refine ⟨fun state => ?_, fun state => ?_⟩
  · have op : s.operating = true := by rw [State.operating]; rcases state with e | e | e <;> rw [e]
    have taken : u.takeStop = (u.enterEnding .stop).settle := by
      unfold State.takeStop
      have same : u.ctl.state = s.ctl.state := rfl
      rw [same]
      rcases state with e | e | e <;> rw [e]
    have ended := u.enterEnding_settle .stop
    exact ⟨_, next_deskCommand h op .stop _ taken, ended.state, ended.cause, ended.queue, ended.staged, ended.table,
      ended.planned, ended.showTime, ended.targets⟩
  · have op : s.operating = true := by rw [State.operating]; rcases state with e | e <;> rw [e]
    have taken : u.takeStop = (u.enterIdle false).grant := by
      refine Eq.trans ?_ (State.settle_of_calm (by simp) (by simp))
      unfold State.takeStop
      have same : u.ctl.state = s.ctl.state := rfl
      rw [same]
      rcases state with e | e <;> rw [e]
    refine ⟨_, next_deskCommand h op .stop _ taken, ?_⟩
    have ctl := State.enterIdle_ctl false u
    have fifo := (u.enterIdle_music false).1
    obtain ⟨entry, directory, _⟩ := State.enterIdle_store false u
    obtain ⟨cue, audio⟩ := u.enterIdle_requests false
    have head : (u.enterIdle false).head = s.head := by simp [u]
    have clock : (u.enterIdle false).clock.showTime = s.clock.showTime := by simp [u]
    generalize u.enterIdle false = t at *
    rw [State.grant_eq]
    dsimp only
    rw [ctl]
    exact ⟨rfl, rfl, rfl, fifo, entry, directory, cue, audio, congrArg HeadControl.heads head, clock⟩

/-! ### Reading ahead (R83) -/

/-- What reading ahead outside a scan can change: the sequencer's place in the stream, the cue request, and the events. -/
structure ReadAhead (s t : State) : Prop where
  localTimer : t.localTimer = s.localTimer
  ctl : t.ctl = s.ctl
  peers : t.peers = s.peers
  clock : t.clock = s.clock
  jet : t.jet = s.jet
  pump : t.pump = s.pump
  head : t.head = s.head
  lights : t.lights = s.lights
  music : t.music = s.music
  seq : t.seq = { s.seq with
    current := t.seq.current, partialRec := t.seq.partialRec, staged := t.seq.staged, lastId := t.seq.lastId
    nextOrder := t.seq.nextOrder, endSeen := t.seq.endSeen }
  store : t.store = { s.store with cueReq := t.store.cueReq, cuePos := t.store.cuePos }

theorem ReadAhead.refl (s : State) : ReadAhead s s := ⟨rfl, rfl, rfl, rfl, rfl, rfl, rfl, rfl, rfl, rfl, rfl⟩

theorem ReadAhead.trans {s t u : State} (h : ReadAhead s t) (k : ReadAhead t u) : ReadAhead s u where
  localTimer := k.localTimer.trans h.localTimer
  ctl := k.ctl.trans h.ctl
  peers := k.peers.trans h.peers
  clock := k.clock.trans h.clock
  jet := k.jet.trans h.jet
  pump := k.pump.trans h.pump
  head := k.head.trans h.head
  lights := k.lights.trans h.lights
  music := k.music.trans h.music
  seq := by
    rw [k.seq, h.seq]
  store := by
    rw [k.store, h.store]

theorem ReadAhead.queue {s t : State} (h : ReadAhead s t) : t.seq.queue = s.seq.queue ∧ t.seq.table = s.seq.table ∧
    t.seq.catchUp = s.seq.catchUp := by
  rw [h.seq]
  exact ⟨rfl, rfl, rfl⟩

/-- An event is counted. -/
theorem State.raise_reads (kind : EventKind) (cueId object : Option Nat) (s : State) : ReadAhead s (s.raise kind cueId object) :=
  ⟨rfl, rfl, rfl, rfl, rfl, rfl, rfl, rfl, rfl, rfl, rfl⟩

/-- The sequencer's place in the stream changes. -/
theorem ReadAhead.of_seq {s : State} {q : Sequencer} (h : q = { s.seq with
    current := q.current, partialRec := q.partialRec, staged := q.staged, lastId := q.lastId
    nextOrder := q.nextOrder, endSeen := q.endSeen }) : ReadAhead s { s with seq := q } :=
  ⟨rfl, rfl, rfl, rfl, rfl, rfl, rfl, rfl, rfl, h, rfl⟩

theorem State.checkRecord_reads (r : List Byte) (s : State) : ReadAhead s (s.checkRecord r) := by
  unfold State.checkRecord
  dsimp only
  split
  · exact s.raise_reads _ _ _
  · split
    · exact s.raise_reads _ _ _
    · split
      · exact .trans (.of_seq rfl) (State.raise_reads _ _ _ _)
      · exact .of_seq rfl

theorem State.blockUnreadable_reads (s : State) : ReadAhead s s.blockUnreadable :=
  .trans (.of_seq rfl) (State.raise_reads _ _ _ _)

theorem State.discardPartial_reads (s : State) : ReadAhead s s.discardPartial := by
  unfold State.discardPartial
  split
  · exact .refl s
  · exact .trans (.of_seq rfl) (State.raise_reads _ _ _ _)

theorem State.decodeOne_reads (s : State) : ReadAhead s s.decodeOne := by
  unfold State.decodeOne
  split
  · exact .refl s
  · exact .refl s
  · dsimp only
    split
    · exact s.blockUnreadable_reads
    · split
      · exact .of_seq rfl
      · exact .trans (.of_seq rfl) (State.checkRecord_reads _ _)

theorem State.endOfStream_reads (s : State) : ReadAhead s s.endOfStream :=
  .trans s.discardPartial_reads (.of_seq rfl)

/-- Outside a scan reading on only reads ahead. -/
theorem readOnN_reads (n : Nat) {s : State} (h : s.seq.catchUp = false) : ReadAhead s (readOnN n s) := by
  induction n generalizing s with
  | zero => exact .refl s
  | succ n ih =>
    have on {t : State} (first : ReadAhead s t) : ReadAhead s (readOnN n t) :=
      first.trans (ih (first.queue.2.2.trans h))
    unfold readOnN
    split
    · exact .refl s
    · split
      · exact .refl s
      · split
        · exact on s.decodeOne_reads
        · split
          · rw [if_neg (by rw [h]; decide)]
            exact .refl s
          · split
            · exact .refl s
            · split
              · split
                · exact on s.endOfStream_reads
                · split
                  · exact on ((s.raise_reads _ _ _).trans (.trans (.of_seq rfl)
                      ⟨rfl, rfl, rfl, rfl, rfl, rfl, rfl, rfl, rfl, rfl, rfl⟩))
                  · exact ⟨rfl, rfl, rfl, rfl, rfl, rfl, rfl, rfl, rfl, rfl, rfl⟩
              · exact .refl s

theorem State.readOn_reads {s : State} (h : s.seq.catchUp = false) : ReadAhead s s.readOn := readOnN_reads _ h

/-! ### HOLD and RESUME (R11) -/

/-- The entry to HOLD before goals are worked. -/
def State.holding (s : State) : State :=
  { s.changeState .hold with
    seq := { (s.changeState .hold).seq with catchUp := false }, jet := { (s.changeState .hold).jet with view := none } }

theorem State.enterHold_eq (s : State) : s.enterHold = s.holding.workGoals := rfl

theorem State.holding_keeps (s : State) : s.holding.ctl.state = .hold ∧ s.holding.seq = { s.seq with catchUp := false } ∧
    s.holding.jet.planned = s.jet.planned ∧ s.holding.lights = s.lights ∧ s.holding.store = s.store ∧
    s.holding.mon = s.mon := by
  simp [State.holding, ShowState.underWay]

/-- What the entry to HOLD keeps, and the goals it works. -/
theorem State.enterHold_leaves (s : State) : s.enterHold.ctl.state = .hold ∧ s.enterHold.seq = { s.seq with catchUp := false } ∧
    s.enterHold.jet.planned = s.jet.planned ∧ s.enterHold.lights.fixtures = s.lights.fixtures ∧
    ∀ c : Channel, (s.store.config.channels[c]).present = true → (s.enterHold.pump.pumps[c]).goal = 0 := by
  obtain ⟨state, seq, planned, lights, store, _⟩ := s.holding_keeps
  rw [State.enterHold_eq, State.planned_of_figures (State.workGoals_figures _), State.workGoals_fixtures,
    (State.workGoals_keeps _).2.2.1, (State.workGoals_keeps _).2.2.2.2.2.2.2.1]
  refine ⟨state, seq, planned, congrArg Lights.fixtures lights, fun c present => ?_⟩
  rw [← store] at present
  obtain ⟨timer, e⟩ := State.workGoals_pump (s := s.holding) (by rw [state]; rfl) c
  rw [e, StationConfig.restPump, if_pos present]
  exact (PumpRec.rest_keeps s.holding.localTimer _).1

theorem State.checkTimeLimit_below {s : State} (h : s.clock.showTime < 1800000000) : s.checkTimeLimit = s :=
  if_neg fun k => absurd k.2 (by unfold timeLimitUs; omega)

/-- The entry to RUNNING below the time limit. -/
theorem State.enterRunning_below {s : State} (h : s.clock.showTime < 1800000000) :
    s.enterRunning = ((s.changeState .running).workGoals).checkSync :=
  State.checkTimeLimit_below (by simpa using h)

/-- What the entry to RUNNING below the time limit leaves. -/
theorem State.enterRunning_leaves {s : State} (h : s.clock.showTime < 1800000000) : s.enterRunning.ctl.state = .running ∧
    s.enterRunning.ctl.selected = s.ctl.selected ∧ s.enterRunning.ctl.followRunning = 0 ∧ s.enterRunning.seq = s.seq ∧
    s.enterRunning.head = s.head ∧ s.enterRunning.clock.showTime = s.clock.showTime ∧
    s.enterRunning.jet.passDue = true ∧ s.enterRunning.peers = s.peers ∧ s.enterRunning.clock.stepped = s.clock.stepped := by
  have due : (s.changeState .running).workGoals.jet.passDue = true := by
    refine State.workGoals_passDue ?_
    rw [State.changeState_passDue, State.operating]
    simp
  rw [State.enterRunning_below h]
  refine ⟨by simp, by simp, by simp, by simp, by simp, by simp, by simpa using due, by simp, ?_⟩
  simp only [State.checkSync_keeps, State.workGoals_keeps]
  unfold State.changeState
  dsimp only
  rw [(State.askPass_keeps _).2.2.2.2.2.1]
  dsimp only
  split
  · rfl
  · split <;> rfl

theorem issueDueN_of_not_due {s : State} (h : s.headDue = false) (n : Nat) : issueDueN n s = s := by
  cases n with
  | zero => rfl
  | succ n => exact if_neg fun k => Bool.false_ne_true (h.symm.trans k.2)

theorem State.headDue_congr {s t : State} (seq : t.seq = s.seq) (clock : t.clock.showTime = s.clock.showTime) :
    t.headDue = s.headDue := by
  unfold State.headDue
  rw [seq, clock]

/-- RESUME with nothing due: RUNNING, and reading ahead. -/
theorem State.resumeShow_leaves {s : State} (below : s.clock.showTime < 1800000000) (undue : s.headDue = false)
    (clear : s.seq.catchUp = false) : ReadAhead s.enterRunning s.resumeShow := by
  obtain ⟨_, _, _, seq, _, clock, _⟩ := State.enterRunning_leaves below
  have still : s.enterRunning.issueDue = s.enterRunning :=
    issueDueN_of_not_due ((State.headDue_congr seq clock).trans undue) _
  rw [State.resumeShow, still]
  exact State.readOn_reads (by rw [seq]; exact clear)

/-- Settles O8. -/
theorem holdThenResume : Obligations.HoldThenResume := by
  refine ⟨fun s h running => ?_, fun s pflt h hold clear undue below => ?_⟩
  · let u : State := s.frameDone .hold
    have op : s.operating = true := by rw [State.operating, running]
    obtain ⟨state, seq, planned, fixtures, goals⟩ := u.enterHold_leaves
    have taken : (if u.ctl.state = .running then u.enterHold.settle else u.ignore 18) = u.enterHold.grant :=
      (if_pos running).trans (State.settle_of_calm (by rw [state]; decide) (by rw [state]; decide))
    refine ⟨_, next_deskCommand h op .hold _ taken, ?_⟩
    have clock : u.enterHold.clock.showTime = s.clock.showTime := by simp [u]
    have music : u.enterHold.music = s.music := by simp [u]
    have head : u.enterHold.head = s.head := by simp [u]
    generalize u.enterHold = t at *
    rw [State.grant_eq]
    dsimp only
    rw [seq]
    exact ⟨state, clock, rfl, rfl, rfl, music, congrArg HeadControl.heads head, planned, fixtures, goals⟩
  · let u : State := State.frameDone (.resume pflt) { s with inputs := { s.inputs with pflt := pflt } }
    have op : s.operating = true := by rw [State.operating, hold]
    have reads : ReadAhead u.enterRunning u.resumeShow := State.resumeShow_leaves below undue clear
    obtain ⟨state, _, _, seq, head, clock, due, _⟩ := State.enterRunning_leaves (s := u) below
    have running : u.resumeShow.ctl.state = .running := by rw [reads.ctl, state]
    have taken : (if u.ctl.state = .hold then u.resumeShow.settle else u.ignore 19) = u.resumeShow.grant :=
      (if_pos hold).trans (State.settle_of_calm (by rw [running]; decide) (by rw [running]; decide))
    obtain ⟨queue, table, _⟩ := reads.queue
    have clockR := congrArg Clock.showTime reads.clock
    have headR := congrArg HeadControl.heads reads.head
    have jetR := congrArg Jet.passDue reads.jet
    rw [seq] at queue table
    rw [clock] at clockR
    rw [head] at headR
    rw [due] at jetR
    refine ⟨_, next_deskCommand (s := { s with inputs := { s.inputs with pflt := pflt } }) h op (.resume pflt) _ taken, ?_⟩
    generalize u.resumeShow = t at *
    rw [State.grant_eq]
    exact ⟨running, clockR, queue, table, headR, jetR⟩

/-! ### Crossings of show time (R10, R56) -/

theorem State.passShowTo_showTime {s : State} (started : s.ctl.phase ≠ .held) (runs : s.ctl.state.timeRuns = true) (t : Int) :
    (s.passShowTo t).clock.showTime = clampShowTime (max t s.clock.showTime) := by
  have sum : s.clock.showTime + ((t - s.clock.showTime).toNat : Int) = max t s.clock.showTime := by omega
  rw [State.passShowTo, if_pos runs, State.passTime, if_neg started, ← sum]
  exact if_pos runs

theorem clampShowTime_of_range {t : Int} (low : -2147483648 ≤ t) (high : t ≤ 2147483647) : clampShowTime t = t := by
  unfold clampShowTime clampInt
  split_ifs <;> omega

/-- Settles O25. -/
theorem crossingsChangeTheState : Obligations.CrossingsChangeTheState := by
  refine ⟨fun s started countdown below => ?_, fun s started running => ?_⟩
  · have time : (s.passShowTo 0).clock.showTime = max 0 s.clock.showTime := by
      rw [State.passShowTo_showTime started (by rw [countdown]; rfl), clampShowTime_of_range (by omega) (by omega)]
    have crossed : (s.passShowTo 0).checkZero = (s.passShowTo 0).enterRunning :=
      if_pos ⟨by simpa using countdown, by rw [time]; omega⟩
    obtain ⟨state, selected, _, seq, _, clock, _⟩ := State.enterRunning_leaves (s := s.passShowTo 0) (by rw [time]; omega)
    have next : exec .showTimeZeroCrossing s = .next (s.passShowTo 0).enterRunning.grant := by
      refine congrArg Host.Outcome.next ((if_pos countdown).trans ?_)
      rw [crossed]
      exact State.settle_of_calm (by rw [state]; decide) (by rw [state]; decide)
    have seqS : (s.passShowTo 0).seq = s.seq := by simp
    have selectedS : (s.passShowTo 0).ctl.selected = s.ctl.selected := by simp
    rw [seqS] at seq
    rw [selectedS] at selected
    rw [time] at clock
    refine ⟨_, next, ?_⟩
    generalize (s.passShowTo 0).enterRunning = t at *
    rw [State.grant_eq]
    exact ⟨state, clock, congrArg Sequencer.queue seq, congrArg Sequencer.table seq, selected⟩
  · have late : timeLimitUs ≤ (s.passShowTo timeLimitUs).clock.showTime := by
      rw [State.passShowTo_showTime started (by rw [running]; rfl)]
      unfold clampShowTime clampInt timeLimitUs
      split_ifs <;> omega
    have crossed : (s.passShowTo timeLimitUs).checkTimeLimit = (s.passShowTo timeLimitUs).enterEnding .timeLimit :=
      if_pos ⟨by simpa using running, late⟩
    have next : exec .timeLimit s = .next ((s.passShowTo timeLimitUs).enterEnding .timeLimit).settle := by
      refine congrArg Host.Outcome.next ((if_pos running).trans ?_)
      rw [crossed]
    have ended := (s.passShowTo timeLimitUs).enterEnding_settle .timeLimit
    exact ⟨_, next, ended.state, ended.cause, ended.queue⟩

end Sys2Proof.Machine
end

