-- ==== Sys2Proof/Proofs/LoadingAndRestart.lean ====
section
/-! PROOFS. SELECT and the homing it brings (R6, R7, R133), and the soft restart (R19). -/

set_option Elab.async false

namespace Sys2Proof.Machine

/-! ### The soft restart (R19) -/

theorem State.unhomeHeads_heads (s : State) (h : Head) : s.unhomeHeads.head.heads[h] = (s.head.heads[h]).unhome := by
  rw [State.unhomeHeads, State.refreshPermits_heads]
  simp

/-- What a soft restart leaves, from whatever state it is taken in. -/
structure Restarted (s t : State) : Prop where
  queue : t.seq.queue = []
  table : t.seq.table = Vector.replicate 4 none
  staged : t.seq.staged = none
  partialRec : t.seq.partialRec = none
  fifo : t.music.fifo = []
  entry : t.store.entry = none
  heads : ∀ h : Head, t.head.heads[h] = (s.head.heads[h]).unhome
  config : t.store.config = s.store.config
  peers : t.peers = s.peers
  mon : t.mon = s.mon
  station : t.ctl.station = s.ctl.station
  rehearsal : t.ctl.rehearsal = s.ctl.rehearsal
  fixtures : t.lights.fixtures = s.lights.fixtures
  causes : t.ctl.causes = s.ctl.causes
  firstCause : t.ctl.firstCause = s.ctl.firstCause
  safe : s.ctl.state = .safe → t.ctl.state = .safe
  idle : s.ctl.state ≠ .safe → t.ctl.state = .idle ∧ t.ctl.selected = 0

theorem State.unhomeHeads_fixtures (s : State) : s.unhomeHeads.lights.fixtures = s.lights.fixtures := by
  rw [State.unhomeHeads, State.refreshPermits_fixtures]

theorem State.enterIdle_soft_fixtures (s : State) : (s.enterIdle true).lights.fixtures = s.lights.fixtures := by
  unfold State.enterIdle
  simp only [if_true, State.workGoals_fixtures]
  simp [State.mapPumps, State.flushMusic]

theorem State.softRestart_restarted (s : State) : Restarted s s.softRestart := by
  by_cases safe : s.ctl.state = .safe
  · have shape : s.softRestart = (((s.clearSequencer.resetSection).dropEntry.flushMusic).unhomeHeads).askPass := if_pos safe
    rw [shape]
    have heads (h : Head) : ((((s.clearSequencer.resetSection).dropEntry.flushMusic).unhomeHeads).askPass).head.heads[h] =
        (s.head.heads[h]).unhome := by
      rw [(State.askPass_keeps _).2.2.2.2.2.2.2.2.2.1, State.unhomeHeads_heads]
      simp
    have fixtures : ((((s.clearSequencer.resetSection).dropEntry.flushMusic).unhomeHeads).askPass).lights.fixtures =
        s.lights.fixtures := by
      rw [(State.askPass_keeps _).2.2.2.2.2.2.2.2.2.2.1, State.unhomeHeads_fixtures]
      simp [State.flushMusic]
    refine ⟨?_, ?_, ?_, ?_, ?_, ?_, heads, ?_, ?_, ?_, ?_, ?_, fixtures, ?_, ?_, ?_, ?_⟩
    all_goals simp [State.clearSequencer, State.resetSection, State.flushMusic, Music.flush, safe]
  · have shape : s.softRestart = s.unhomeHeads.enterIdle true := if_neg safe
    obtain ⟨queue, table, staged, partialRec⟩ := s.unhomeHeads.enterIdle_seq true
    have ctl := State.enterIdle_ctl true s.unhomeHeads
    have fifo := (s.unhomeHeads.enterIdle_music true).1
    have entry := (State.enterIdle_store true s.unhomeHeads).1
    have head : (s.unhomeHeads.enterIdle true).head = s.unhomeHeads.head := by simp
    have config : (s.unhomeHeads.enterIdle true).store.config = s.store.config := by simp
    have peers : (s.unhomeHeads.enterIdle true).peers = s.peers := (State.enterIdle_soft_peers _).trans (by simp)
    have mon : (s.unhomeHeads.enterIdle true).mon = s.mon := (State.enterIdle_mon true _).trans (by simp)
    have fixtures := (State.enterIdle_soft_fixtures s.unhomeHeads).trans s.unhomeHeads_fixtures
    have ctlU : s.unhomeHeads.ctl = s.ctl := by simp
    have heads := s.unhomeHeads_heads
    rw [shape]
    generalize s.unhomeHeads.enterIdle true = t at *
    rw [ctlU] at ctl
    refine ⟨queue, table, staged, partialRec, fifo, entry, fun h => by rw [head, heads], config, peers, mon, ?_, ?_, fixtures, ?_, ?_,
      fun e => absurd e safe, fun _ => ?_⟩
    all_goals rw [ctl]
    exact ⟨rfl, rfl⟩

/-- Settles O11. -/
theorem restartDiscardsAndKeeps : Obligations.RestartDiscardsAndKeeps := by
  intro s target h state addressed
  let u : State := s.frameDone (.restart target)
  have op : s.operating = true := by rw [State.operating]; rcases state with e | e | e <;> rw [e]
  have restarted : Restarted u u.softRestart := u.softRestart_restarted
  have calm : u.softRestart.ctl.state ≠ .loading ∧ u.softRestart.ctl.state ≠ .ending := by
    by_cases safe : u.ctl.state = .safe
    · rw [restarted.safe safe]
      decide
    · rw [(restarted.idle safe).1]
      decide
  have taken : (if target.toNat = u.ctl.station ∨ target.toNat = 255 then u.takeRestart else u) = u.softRestart.grant := by
    refine (if_pos addressed).trans (Eq.trans ?_ (State.settle_of_calm calm.1 calm.2))
    have same : u.ctl.state = s.ctl.state := rfl
    unfold State.takeRestart
    rw [same]
    rcases state with e | e | e <;> rw [e]
  refine ⟨_, next_deskCommand h op (.restart target) _ taken, ?_⟩
  generalize u.softRestart = t at *
  rw [State.grant_eq]
  refine ⟨restarted.queue, restarted.table, restarted.staged, restarted.partialRec, restarted.fifo, restarted.entry,
    fun k => ?_, restarted.config, restarted.peers, restarted.mon, restarted.station, restarted.rehearsal, restarted.fixtures,
    restarted.causes, restarted.firstCause, restarted.safe, restarted.idle⟩
  dsimp only
  rw [restarted.heads k]
  exact ⟨rfl, rfl, rfl, rfl⟩

/-! ### Homing for a load (R7, R133) -/

theorem State.enterHoming_other {s : State} {h k : Head} (ne : k ≠ h) (homing : Target) (asserted : Bool) :
    (s.enterHoming h homing asserted).head.heads[k] = s.head.heads[k] := by
  have sought : (s.seeking h homing asserted).head.heads[k] = s.head.heads[k] := by
    rw [State.seeking, State.refreshPermits_heads, State.setHead_other ne]
  cases asserted with
  | true => rw [State.enterHoming_found, State.setHead_other ne, sought]
  | false => rw [State.enterHoming_free, sought]

/-- A head whose homing has begun is out of UNHOMED and FAULT. -/
theorem State.enterHoming_begun (h : Head) (homing : Target) (asserted : Bool) (s : State) :
    ((s.enterHoming h homing asserted).head.heads[h]).state ≠ .unhomed ∧
      ((s.enterHoming h homing asserted).head.heads[h]).state ≠ .fault := by
  rw [State.enterHoming_head]
  cases asserted with
  | false => exact ⟨nofun, nofun⟩
  | true =>
    rw [if_pos rfl]
    generalize HeadRec.seek _ _ _ _ _ = r
    obtain ⟨_, _, _, here, away⟩ := HeadRec.home_spec s.store.config.heads[h] s.localTimer r
    rcases Nat.eq_zero_or_pos r.homing.step with zero | above
    · rw [(here zero).1]
      exact ⟨nofun, nofun⟩
    · rw [(away above).2.2]
      split <;> exact ⟨nofun, nofun⟩

/-- The head must be homed for a load. -/
def State.mustHome (s : State) (h : Head) : Prop :=
  (s.store.config.heads[h]).present = true ∧ ((s.head.heads[h]).state = .unhomed ∨ (s.head.heads[h]).state = .fault)

theorem State.homeForLoading_other {s : State} {h k : Head} (ne : k ≠ h) :
    (s.homeForLoading h).head.heads[k] = s.head.heads[k] := by
  unfold State.homeForLoading
  dsimp only
  split
  · rw [State.enterHoming_other ne, State.setHead_other ne]
  · rfl

theorem State.homeForLoading_homes {s : State} {h : Head} (must : s.mustHome h) :
    ((s.homeForLoading h).head.heads[h]).state ≠ .unhomed ∧ ((s.homeForLoading h).head.heads[h]).state ≠ .fault := by
  unfold State.homeForLoading
  dsimp only
  split
  · exact State.enterHoming_begun _ _ _ _
  · next ready => exact absurd must ready

theorem State.homeForLoading_leaves {s : State} {h : Head} (ready : ¬ s.mustHome h) : s.homeForLoading h = s := by
  unfold State.homeForLoading
  dsimp only
  split
  · next must => exact absurd must ready
  · rfl

theorem State.enterHoming_fixtures (h : Head) (homing : Target) (asserted : Bool) (s : State) :
    (s.enterHoming h homing asserted).lights.fixtures = s.lights.fixtures := by
  have sought : (s.seeking h homing asserted).lights.fixtures = s.lights.fixtures := by
    rw [State.seeking, State.refreshPermits_fixtures, State.setHead_lights]
  cases asserted with
  | true => rw [State.enterHoming_found, State.setHead_lights, sought]
  | false => rw [State.enterHoming_free, sought]

theorem State.homeHeads_fixtures (s : State) : s.homeHeads.lights.fixtures = s.lights.fixtures := by
  rw [State.homeHeads, State.refreshPermits_fixtures]
  exact foldl_proj (fun u : State => u.lights.fixtures) _ (fun u h => by
    unfold State.homeForLoading
    dsimp only
    split
    · rw [State.enterHoming_fixtures, State.setHead_lights]
    · rfl) _ s

/-- What the loop over the heads makes of one of them is what its own turn makes of it. -/
theorem State.homeHeads_turn (s : State) (h : Head) : ∃ u : State, u.head.heads[h] = s.head.heads[h] ∧ u.store = s.store ∧
    s.homeHeads.head.heads[h] = (u.homeForLoading h).head.heads[h] := by
  rw [State.homeHeads, State.refreshPermits_heads]
  have all := foldl_at (f := fun s h => s.homeForLoading h) (c := h)
    (P := fun u : State => u.head.heads[h] = s.head.heads[h] ∧ u.store = s.store)
    (Q := fun v : State => ∃ u : State, u.head.heads[h] = s.head.heads[h] ∧ u.store = s.store ∧
      v.head.heads[h] = (u.homeForLoading h).head.heads[h]) (List.finRange 8) (List.nodup_finRange 8) (List.mem_finRange h)
    (fun u k ne e => ⟨(State.homeForLoading_other fun e => ne e.symm).trans e.1, by simpa using e.2⟩)
    (fun u e => ⟨u, e.1, e.2, rfl⟩)
    (fun v k ne ⟨u, record, store, e⟩ => ⟨u, record, store, (State.homeForLoading_other fun e => ne e.symm).trans e⟩)
    (s := s) ⟨rfl, rfl⟩
  obtain ⟨u, record, store, e⟩ := all
  refine ⟨u, record, store, ?_⟩
  rw [e]

/-- Every head that must be homed begins its homing; the others stay as they stand. -/
theorem State.homeHeads_at (s : State) (h : Head) :
    (s.mustHome h → (s.homeHeads.head.heads[h]).state ≠ .unhomed ∧ (s.homeHeads.head.heads[h]).state ≠ .fault) ∧
      (¬ s.mustHome h → s.homeHeads.head.heads[h] = s.head.heads[h]) := by
  obtain ⟨u, record, store, turn⟩ := s.homeHeads_turn h
  have must : u.mustHome h ↔ s.mustHome h := by rw [State.mustHome, State.mustHome, record, store]
  rw [turn, ← must]
  refine ⟨State.homeForLoading_homes, fun ready => ?_⟩
  rw [State.homeForLoading_leaves ready, record]

/-! ### SELECT (R6, R7) -/

/-- Nothing is armed before the directory entry is found. -/
theorem State.settle_of_no_entry {s : State} (loading : s.ctl.state = .loading) (entry : s.store.entry = none) :
    s.settle = s.grant := by
  have unarmed : s.checkArmed = s := if_neg fun k => by
    have done := k.2.1
    rw [State.prefillDone, entry] at done
    exact Bool.false_ne_true done
  have unended : s.checkEnding = s := if_neg fun k => by
    have ending := k.1
    rw [loading] at ending
    cases ending
  rw [State.settle, unarmed, unended]

theorem State.loadingEntry_leaves (n : Nat) (s : State) : (s.loadingEntry n).ctl.state = .loading ∧
    (s.loadingEntry n).ctl.selected = n ∧ (s.loadingEntry n).ctl.held = none ∧ (s.loadingEntry n).music.fifo = [] ∧
    (s.loadingEntry n).music.playIndex = 0 ∧ (s.loadingEntry n).store.entry = none ∧
    (s.loadingEntry n).store.cuePos = none ∧ (s.loadingEntry n).store.audioPos = none ∧
    (s.loadingEntry n).store.audioReq = none ∧ (s.loadingEntry n).head = s.head ∧
    (s.loadingEntry n).store.config = s.store.config ∧ (s.loadingEntry n).store.header = s.store.header ∧
    (s.loadingEntry n).clock.showTime = s.clock.showTime ∧ (s.loadingEntry n).peers = s.peers := by
  simp [State.loadingEntry, State.flushMusic, Music.flush, State.dropEntry]

theorem State.loadingEntry_dark (n : Nat) (s : State) :
    (s.loadingEntry n).lights.fixtures = Vector.replicate 12 {} ∧ (s.loadingEntry n).mon = s.mon := by
  unfold State.loadingEntry
  refine ⟨State.workGoals_fixtures _, ?_⟩
  dsimp only
  rw [State.workGoals_mon]
  · simp [State.flushMusic]
  · simp [ShowState.cueing]

theorem State.beginDirectory_within {s : State} (within : s.dirBlock 0 ≤ 131071) : s.beginDirectory =
    State.makeRequest .directory (s.dirBlock 0) (expectDirectory 0) { s with store := { s.store with dirStep := .block 0 } } :=
  if_neg (by unfold maxBlock; omega)

/-- Settles O6. -/
theorem selectBeginsLoading : Obligations.SelectBeginsLoading := by
  intro s n hhom h state shown within
  let u : State := State.frameDone (.select n hhom) { s with inputs := { s.inputs with hhom := hhom } }
  have op : s.operating = true := by rw [State.operating]; rcases state with e | e | e <;> rw [e]
  obtain ⟨loading, selected, held, fifo, playIndex, entry, cuePos, audioPos, audioReq, head, config, header, clock, peers⟩ :=
    State.loadingEntry_leaves n.toNat u
  obtain ⟨dark, mon⟩ := State.loadingEntry_dark n.toNat u
  generalize hv : u.loadingEntry n.toNat = v at *
  have within' : v.homeHeads.dirBlock 0 ≤ 131071 := by
    have same : v.homeHeads.dirBlock 0 = s.dirBlock 0 := by
      unfold State.dirBlock
      rw [(State.homeHeads_keeps _).2.2.2.2.2.2.1, header]
      rfl
    rw [same]
    exact within
  have begins := State.beginDirectory_within within'
  have stands : (v.homeHeads.beginDirectory).settle = v.homeHeads.beginDirectory.grant := by
    refine State.settle_of_no_entry ?_ ?_
    · rw [begins, State.makeRequest]
      dsimp only
      rw [(State.homeHeads_keeps v).2.2.1, loading]
    · rw [begins, State.makeRequest]
      dsimp only
      rw [(State.homeHeads_keeps v).2.2.2.2.2.2.1]
      exact entry
  have taken : (if n.toNat ≠ 0 ∧ u.selectable = true then u.takeSelect n.toNat else u.ignore 16) =
      v.homeHeads.beginDirectory.grant := by
    refine (if_pos ⟨shown, (State.selectable_iff u).mpr state⟩).trans ?_
    rw [State.takeSelect_eq, hv, stands]
  refine ⟨_, next_deskCommand (s := { s with inputs := { s.inputs with hhom := hhom } }) h op (.select n hhom) _ taken, ?_⟩
  have homed := v.homeHeads_at
  have fixturesH : v.homeHeads.lights.fixtures = v.lights.fixtures := v.homeHeads_fixtures
  obtain ⟨_, _, ctlH, _, peersH, clockH, storeH, _, musicH, monH, _⟩ := v.homeHeads_keeps
  have dirBlock : v.homeHeads.dirBlock 0 = s.dirBlock 0 := by
    unfold State.dirBlock
    rw [storeH, header]
    rfl
  have must (k : Head) : v.mustHome k ↔ s.mustHome k := by
    rw [State.mustHome, State.mustHome, head, config]
    rfl
  rw [begins, State.grant_eq]
  generalize v.homeHeads = w at *
  unfold State.makeRequest
  dsimp only
  rw [ctlH, storeH, musicH, peersH, clockH, monH, fixturesH, dirBlock]
  refine ⟨loading, selected, held, fifo, playIndex, entry, cuePos, audioPos, audioReq, rfl, dark, fun k present needs => ?_,
    fun k notUnhomed notFault => ?_, clock, peers, mon, config, header⟩
  · exact (homed k).1 ((must k).mpr ⟨present, needs⟩)
  · have kept := (homed k).2 fun m => ((must k).mp m).2.elim notUnhomed notFault
    rw [kept, head]
    rfl

end Sys2Proof.Machine
end

