-- ==== Sys2Proof/Proofs/StartAndJoin.lean ====
section
/-! PROOFS. START and late join (R8, R51, R60, R61): what the run that they begin leaves of the setting of show time. -/

set_option Elab.async false

namespace Sys2Proof.Machine

/-! ### Steps that leave a setting of show time -/

/-- Every entry that is not LOST keeps its freshness and its PACE fields, and every entry its alert time. -/
def Vouches (s t : State) : Prop :=
  ∀ k : Peer, (t.peers.entries[k]).alert = (s.peers.entries[k]).alert ∧ ((s.peers.entries[k]).fresh ≠ .lost →
    (t.peers.entries[k]).fresh = (s.peers.entries[k]).fresh ∧ (t.peers.entries[k]).pace = (s.peers.entries[k]).pace)

theorem Vouches.of_peers {s t : State} (h : t.peers = s.peers) : Vouches s t := fun k => by
  rw [h]
  exact ⟨rfl, fun _ => ⟨rfl, rfl⟩⟩

theorem Vouches.refl (s : State) : Vouches s s := .of_peers rfl

theorem Vouches.trans {s t u : State} (h : Vouches s t) (k : Vouches t u) : Vouches s u := fun p => by
  obtain ⟨alert, kept⟩ := h p
  obtain ⟨alert', kept'⟩ := k p
  refine ⟨alert'.trans alert, fun found => ?_⟩
  obtain ⟨fresh, pace⟩ := kept found
  obtain ⟨fresh', pace'⟩ := kept' (by rw [fresh]; exact found)
  exact ⟨fresh'.trans fresh, pace'.trans pace⟩

/-- `t` has the show time and the setting that `s` has, no offset where `s` has none, and has not gone back to a load or to
HOLD. -/
structure Onward (s t : State) : Prop where
  showTime : t.clock.showTime = s.clock.showTime
  stepped : t.clock.stepped = s.clock.stepped
  recent : t.clock.stepRecent = s.clock.stepRecent
  setting : t.peers.lastSetting = s.peers.lastSetting
  offsets : (∀ k : Peer, (s.peers.entries[k]).offset = none) → ∀ k : Peer, (t.peers.entries[k]).offset = none
  state : s.ctl.state ≠ .armed ∧ s.ctl.state ≠ .loading → t.ctl.state ≠ .armed ∧ t.ctl.state ≠ .loading
  unheld : s.ctl.state ≠ .hold → t.ctl.state ≠ .hold
  entries : Vouches s t

theorem Onward.of_parts {s t : State} (clock : t.clock = s.clock) (peers : t.peers = s.peers) (ctl : t.ctl.state = s.ctl.state) :
    Onward s t := ⟨by rw [clock], by rw [clock], by rw [clock], by rw [peers], by rw [peers]; exact id, by rw [ctl]; exact id,
    by rw [ctl]; exact id, .of_peers peers⟩

theorem Onward.refl (s : State) : Onward s s := .of_parts rfl rfl rfl

theorem Onward.trans {s t u : State} (h : Onward s t) (k : Onward t u) : Onward s u :=
  ⟨k.showTime.trans h.showTime, k.stepped.trans h.stepped, k.recent.trans h.recent, k.setting.trans h.setting, fun e => k.offsets (h.offsets e),
    fun e => k.state (h.state e), fun e => k.unheld (h.unheld e), h.entries.trans k.entries⟩

theorem ReadAhead.onward {s t : State} (h : ReadAhead s t) : Onward s t :=
  .of_parts h.clock h.peers (congrArg ShowControl.state h.ctl)

theorem State.changeState_stepped (n : ShowState) (s : State) : (s.changeState n).clock.stepped = s.clock.stepped ∧
    (s.changeState n).clock.stepRecent = s.clock.stepRecent := by
  unfold State.changeState
  dsimp only
  rw [(State.askPass_keeps _).2.2.2.2.2.1]
  dsimp only
  split
  · exact ⟨rfl, rfl⟩
  · split <;> exact ⟨rfl, rfl⟩

theorem State.changeState_onward {n : ShowState} (h : (n ≠ .armed ∧ n ≠ .loading) ∧ n ≠ .hold) (s : State) : Onward s (s.changeState n) :=
  ⟨by simp, (State.changeState_stepped n s).1, (State.changeState_stepped n s).2, by simp, by simp,
    fun _ => by simpa using h.1, fun _ => by simpa using h.2, .of_peers (by simp)⟩

theorem State.idlePeers_setting (s : State) : s.idlePeers.peers.lastSetting = s.peers.lastSetting := by
  unfold State.idlePeers State.reportPeers
  dsimp only
  split
  · simp [State.dropOffsets]
  · simp [State.dropOffsets]

theorem State.enterIdle_setting (s : State) : (s.enterIdle false).peers.lastSetting = s.peers.lastSetting := by
  unfold State.enterIdle
  simp only [Bool.false_eq_true, if_false]
  rw [(State.workGoals_keeps _).2.2.2.2.1, State.idlePeers_setting]
  simp

theorem State.enterIdle_stepped (s : State) : (s.enterIdle false).clock.stepped = s.clock.stepped ∧
    (s.enterIdle false).clock.stepRecent = s.clock.stepRecent := by
  unfold State.enterIdle
  simp only [Bool.false_eq_true, if_false, State.workGoals_keeps, State.idlePeers_keeps]
  simp [State.changeState_stepped, State.flushMusic]

theorem PeerEntry.idle_pace {e : PeerEntry} (found : e.fresh ≠ .lost) : e.idle.pace = e.pace := by
  rw [PeerEntry.idle, if_neg found]

theorem State.enterIdle_entry (s : State) (k : Peer) : (s.enterIdle false).peers.entries[k] = (s.peers.entries[k]).idle := by
  rw [State.enterIdle_entries]
  simp

theorem State.enterIdle_vouches (s : State) : Vouches s (s.enterIdle false) := fun k => by
  rw [State.enterIdle_entry]
  exact ⟨PeerEntry.idle_alert _, fun found => ⟨(PeerEntry.idle_fresh _).trans (if_neg found), PeerEntry.idle_pace found⟩⟩

theorem State.enterIdle_onward (s : State) : Onward s (s.enterIdle false) := by
  refine ⟨by simp, s.enterIdle_stepped.1, s.enterIdle_stepped.2, s.enterIdle_setting, fun _ k => ?_, fun _ => by simp, fun _ => by simp, s.enterIdle_vouches⟩
  rw [State.enterIdle_entry, PeerEntry.idle_offset]

theorem State.checkEnding_onward (s : State) : Onward s s.checkEnding := by
  rcases s.checkEnding_cases with e | ⟨_, e⟩
  · rw [e]
    exact .refl s
  · rw [e]
    exact s.enterIdle_onward

theorem State.endingEntry_onward (cause : EndingCause) (s : State) : Onward s (s.endingEntry cause) := by
  obtain ⟨stepped, recent⟩ : (s.endingEntry cause).clock.stepped = s.clock.stepped ∧
      (s.endingEntry cause).clock.stepRecent = s.clock.stepRecent := by
    obtain ⟨v, b, shape, clock⟩ := s.endingEntry_shape cause
    rw [shape, ← clock]
    simp [State.changeState_stepped, State.zeroTargets]
  refine ⟨(s.endingEntry_seq cause).2.2, stepped, recent, by simp [State.endingEntry], by simp [State.endingEntry], fun _ => ?_,
    fun _ => ?_, .of_peers (by simp [State.endingEntry])⟩ <;>
  · rw [(s.endingEntry_state cause).1]
    decide

theorem State.enterEnding_onward (cause : EndingCause) (s : State) : Onward s (s.enterEnding cause) := by
  rw [State.enterEnding_eq]
  exact (s.endingEntry_onward cause).trans (State.checkEnding_onward _)

theorem State.checkTimeLimit_onward (s : State) : Onward s s.checkTimeLimit := by
  unfold State.checkTimeLimit
  split
  · exact s.enterEnding_onward _
  · exact .refl s

/-- A step that the Laws say leaves clock, peers and Show Control. -/
theorem State.workGoals_onward (s : State) : Onward s s.workGoals := .of_parts (by simp) (by simp) (by simp)

theorem State.checkSync_onward (s : State) : Onward s s.checkSync := .of_parts (by simp) (by simp) (by simp)

theorem State.enterRunning_onward (s : State) : Onward s s.enterRunning :=
  (((State.changeState_onward (by decide) s).trans (State.workGoals_onward _)).trans (State.checkSync_onward _)).trans
    (State.checkTimeLimit_onward _)

theorem State.checkZero_onward (s : State) : Onward s s.checkZero := by
  unfold State.checkZero
  split
  · exact s.enterRunning_onward
  · exact .refl s

theorem State.startRun_onward (s : State) : Onward s s.startRun := .of_parts (by simp) (by simp) (by simp)

theorem State.grant_onward (s : State) : Onward s s.grant := by
  rw [State.grant_eq]
  exact .of_parts rfl rfl rfl

/-- The end of a step after which no load stands. -/
theorem State.settle_onward {s : State} (loading : s.ctl.state ≠ .loading) : Onward s s.settle := by
  have unarmed : s.checkArmed = s := if_neg fun k => loading k.1
  rw [State.settle, unarmed]
  exact s.checkEnding_onward.trans (State.grant_onward _)

/-! ### A catch-up scan leaves the setting -/

theorem State.handOn_onward (c : CueRec) (scan : Bool) (s : State) : Onward s (s.handOn c scan) := by
  unfold State.handOn
  split
  · dsimp only
    split <;> exact .of_parts (by simp) (by simp) (by simp)
  · exact .of_parts (by simp) (by simp) (by simp)
  · exact .of_parts (by simp) (by simp) (by simp)
  · exact .of_parts (by simp) (by simp) (by simp)
  · exact .of_parts (by simp) (by simp) (by simp)
  · split
    · exact s.enterEnding_onward _
    · exact .refl s

theorem State.predict_onward (c : CueRec) (s : State) : Onward s (s.predict c) := .of_parts (by simp) (by simp) (by simp)

theorem State.takeStaged_onward (s : State) : Onward s s.takeStaged := by
  unfold State.takeStaged
  split
  · exact .refl s
  · next st _ =>
    dsimp only
    have unstaged : Onward s (s.unstage.predict st.cue) := .trans (t := s.unstage) (.of_parts rfl rfl rfl) (State.predict_onward _ _)
    split
    · exact (unstaged.trans (State.raise_reads _ _ _ _).onward).trans (State.handOn_onward _ _ _)
    · split
      · exact unstaged.trans (State.handOn_onward _ _ _)
      · split
        · split
          · exact (unstaged.trans (.of_parts rfl rfl rfl)).trans (.of_parts (by simp) (by simp) (by simp))
          · exact unstaged.trans (.of_parts rfl rfl rfl)
        · split
          · exact .refl s
          · exact .of_parts rfl rfl rfl

theorem State.retake_onward (s : State) : Onward s s.retake := by
  unfold State.retake
  split
  · exact .refl s
  · split
    · exact s.takeStaged_onward
    · exact .refl s

theorem State.endScan_onward (s : State) : Onward s s.endScan := by
  unfold State.endScan
  exact .trans (.of_parts (by simp) (by simp) (by simp)) (State.retake_onward _)

theorem State.applyCue_onward (c : CueRec) (s : State) : Onward s (s.applyCue c) :=
  (s.predict_onward c).trans (State.handOn_onward _ _ _)

theorem State.applyEntry_onward (e : QueueEntry) (s : State) : Onward s (s.applyEntry e) := by
  unfold State.applyEntry
  split
  · exact s.applyCue_onward _
  · exact .refl s

theorem readOnN_onward (n : Nat) (s : State) : Onward s (readOnN n s) := by
  induction n generalizing s with
  | zero => exact .refl s
  | succ n ih =>
    unfold readOnN
    split
    · exact .refl s
    · split
      · split
        · exact .refl s
        · split
          · exact (Onward.trans (s := s) (t := s.unstage) (.of_parts rfl rfl rfl) (State.applyCue_onward _ _)).trans (ih _)
          · exact s.endScan_onward.trans (ih _)
      · split
        · exact s.decodeOne_reads.onward.trans (ih _)
        · split
          · split
            · exact s.endScan_onward
            · exact .refl s
          · split
            · exact .refl s
            · split
              · split
                · exact s.endOfStream_reads.onward.trans (ih _)
                · split
                  · refine Onward.trans ?_ (ih _)
                    exact .of_parts rfl rfl rfl
                  · exact .of_parts rfl rfl rfl
              · exact .refl s

theorem State.startScan_onward (s : State) : Onward s s.startScan := by
  have entries (l : List QueueEntry) (u : State) : Onward u (l.foldl (fun s e => s.applyEntry e) u) := by
    induction l generalizing u with
    | nil => exact .refl u
    | cons e l ih =>
      exact (u.applyEntry_onward e).trans (ih _)
  unfold State.startScan
  split
  · exact .refl s
  · dsimp only
    refine Onward.trans ?_ (readOnN_onward _ _)
    refine Onward.trans ?_ (entries _ _)
    exact .of_parts rfl rfl rfl

/-- From ARMED to COUNTDOWN, and on where show time stands at 0 or above already. -/
theorem State.enterCountdown_onward (s : State) : Onward s s.enterCountdown :=
  ((((State.changeState_onward (by decide) s).trans (State.startRun_onward _)).trans (State.workGoals_onward _)).trans
    (readOnN_onward _ _)).trans (State.checkZero_onward _)

theorem State.joinRunning_onward (s : State) : Onward s s.joinRunning :=
  (((((State.changeState_onward (by decide) s).trans (State.startRun_onward _)).trans (State.workGoals_onward _)).trans
    (State.checkSync_onward _)).trans (State.startScan_onward _)).trans (State.checkTimeLimit_onward _)

/-! ### The setting itself (R49, R51, R61) -/

theorem State.setShowTime_sets (t : Int) (s : State) : (s.setShowTime t).clock.showTime = clampShowTime t ∧
    (s.setShowTime t).clock.stepped = s.clock.stepped ∧ (s.setShowTime t).peers.lastSetting = some s.localTimer ∧
    ∀ k : Peer, ((s.setShowTime t).peers.entries[k]).offset = none := by
  refine ⟨by simp [State.setShowTime, State.recordSetting, State.dropOffsets],
    by simp [State.setShowTime, State.recordSetting, State.dropOffsets],
    by simp [State.setShowTime, State.recordSetting, State.dropOffsets], fun k => ?_⟩
  simp [State.setShowTime, State.recordSetting, State.dropOffsets]

/-! ### START (R8) -/

theorem State.checkZero_before {s : State} (h : s.clock.showTime < 0) : s.checkZero = s :=
  if_neg fun k => absurd k.2 h.not_ge

/-- A run that counts down: reading ahead from the start of the run. -/
theorem State.enterCountdown_before {s : State} (before : s.clock.showTime < 0) (clear : s.seq.catchUp = false) :
    ReadAhead ((s.changeState .countdown).startRun.workGoals) s.enterCountdown := by
  have reads : ReadAhead ((s.changeState .countdown).startRun.workGoals) ((s.changeState .countdown).startRun.workGoals).readOn :=
    State.readOn_reads (by simpa [State.startRun, State.resetSection] using clear)
  have still : s.enterCountdown = ((s.changeState .countdown).startRun.workGoals).readOn :=
    State.checkZero_before (by rw [reads.clock]; simpa using before)
  rw [still]
  exact reads

theorem State.startRun_leaves (s : State) : s.startRun.seq.sectionNo = 0 ∧ s.startRun.seq.beatLen = 500 ∧
    s.startRun.seq.sectionStart = 0 ∧ s.startRun.music.gain = 255 ∧ s.startRun.music.playIndex = 0 ∧
    s.startRun.music.fifo = s.music.fifo ∧ s.startRun.seq.table = s.seq.table ∧ s.startRun.seq.queue = s.seq.queue := by
  simp [State.startRun, State.resetSection, Music.fullGain]

theorem State.enterCountdown_not_loading (s : State) : s.enterCountdown.ctl.state ≠ .loading := by
  have first : Onward ((s.changeState .countdown).startRun.workGoals) s.enterCountdown :=
    (readOnN_onward _ _).trans (State.checkZero_onward _)
  have state : ((s.changeState .countdown).startRun.workGoals).ctl.state = .countdown := by simp
  exact (first.state (by rw [state]; decide)).2

/-- The event that a clamped delay brings (R8). -/
theorem State.noteDelay_mon (delay : Nat) (s : State) : (s.noteDelay delay).mon =
    if 1000 ≤ delay ∧ delay ≤ 60000 then s.mon
    else s.mon.count { kind := .valueClamp, time := s.clock.showTime, cueId := none, object := none } := by
  have same : clampDelay delay = delay ↔ 1000 ≤ delay ∧ delay ≤ 60000 := by
    rw [clampDelay_eq]
    omega
  unfold State.noteDelay
  by_cases inside : 1000 ≤ delay ∧ delay ≤ 60000
  · rw [if_pos (same.mpr inside), if_pos inside]
  · rw [if_neg fun e => inside (same.mp e), if_neg inside]
    rfl

/-- Settles O7. -/
theorem startCountsDownOrIsHeld : Obligations.StartCountsDownOrIsHeld := by
  intro s n delay rx h shown selected
  let u : State := s.frameDone (.start n delay rx)
  refine ⟨fun armed clear => ?_, fun loading => ?_⟩
  · have op : s.operating = true := by rw [State.operating, armed]
    let v : State := u.noteDelay delay.toNat
    let w : State := v.setShowTime (v.startTime (clampDelay delay.toNat) rx.moment)
    have taken : u.takeStart n.toNat delay.toNat rx.moment = w.enterCountdown.settle := if_pos ⟨shown, selected, armed⟩
    have next := next_deskCommand h op (.start n delay rx) _ taken
    obtain ⟨time, _, setting, offsets⟩ := v.setShowTime_sets (v.startTime (clampDelay delay.toNat) rx.moment)
    have vTimer : v.localTimer = s.localTimer := by simp [v, u]
    have vSeq : v.seq = s.seq := by simp [v, u]
    have vMusic : v.music = s.music := by simp [v, u]
    have moment : v.startTime (clampDelay delay.toNat) rx.moment =
        -((max 1000 (min delay.toNat 60000) : Nat) * 1000) + ((s.localTimer : Int) - rx.moment) := by
      rw [State.startTime, vTimer, clampDelay_eq]
    rw [vTimer] at setting
    have wSeq : w.seq = s.seq := by simp [w, vSeq]
    have wMusic : w.music = s.music := by simp [w, vMusic]
    have wTime : w.clock.showTime = clampShowTime (v.startTime (clampDelay delay.toNat) rx.moment) := time
    have wSetting : w.peers.lastSetting = some s.localTimer := setting
    have wOffsets : ∀ k : Peer, (w.peers.entries[k]).offset = none := offsets
    have onward := w.enterCountdown_onward.trans (State.settle_onward w.enterCountdown_not_loading)
    refine ⟨_, next, onward.showTime.trans (wTime.trans (congrArg clampShowTime moment)), onward.setting.trans wSetting, onward.offsets wOffsets, fun before => ?_⟩
    rw [onward.showTime] at before
    have reads := State.enterCountdown_before before (by rw [wSeq]; exact clear)
    obtain ⟨section_, beat, start, gain, index, fifo, table, queue⟩ := (w.changeState .countdown).startRun_leaves
    have counting : w.enterCountdown.ctl.state = .countdown := by
      rw [reads.ctl]
      simp
    rw [State.settle_of_calm (by rw [counting]; decide) (by rw [counting]; decide), State.grant_eq]
    have seqR := reads.seq
    have musicR := reads.music
    rw [(State.workGoals_keeps _).2.2.2.2.2.2.2.1] at seqR
    rw [(State.workGoals_keeps _).2.2.2.2.2.2.2.2.2.1] at musicR
    dsimp only
    rw [seqR, musicR]
    have seqC : (w.changeState .countdown).seq = s.seq := by rw [(State.changeState_keeps _ _).2.2.2.2.2.1, wSeq]
    have musicC : (w.changeState .countdown).music = s.music := by
      rw [(State.changeState_keeps _ _).2.2.2.2.2.2.2.2.2.1, wMusic]
    rw [seqC] at table queue
    rw [musicC] at fifo
    exact ⟨counting, section_, beat, start, gain, index, fifo, table, queue⟩
  · have op : s.operating = true := by rw [State.operating, loading]
    have other : ¬ (n.toNat ≠ 0 ∧ n.toNat = u.ctl.selected ∧ u.ctl.state = .armed) := by
      rintro ⟨_, _, armed⟩
      have : s.ctl.state = .armed := armed
      rw [loading] at this
      cases this
    have taken : u.takeStart n.toNat delay.toNat rx.moment = { u.noteDelay delay.toNat with
        ctl := { (u.noteDelay delay.toNat).ctl with
          held := some { delay := clampDelay delay.toNat, moment := rx.moment } } } :=
      (if_neg other).trans (if_pos ⟨shown, selected, loading⟩)
    refine ⟨_, next_deskCommand h op (.start n delay rx) _ taken, ?_⟩
    rw [State.noteDelay_frameDone, State.noteDelay_mon, clampDelay_eq]

end Sys2Proof.Machine
end

