-- ==== Sys2Proof/Proofs/SafeEntry.lean ====
section
/-! PROOFS. The SAFE latch (R16) and what an ALERT of a peer leaves in Peer View (R42). -/

set_option Elab.async false

namespace Sys2Proof.Machine

/-! ### Entry to SAFE (R16) -/

/-- The entry to SAFE from another state, before the heads' positions are given up. -/
def State.safeStop (cause : SafeCause) (s : State) : State :=
  State.dropOffsets (State.resetFixtures (State.mapPumps PumpRec.safe
    (((State.changeState .safe { s with ctl := { s.ctl with
          firstCause := some cause, causes := CauseSet.insert {} cause, selected := 0, held := none
          lightRunOut := false, audioRunOut := false } }).clearSequencer.resetSection).dropEntry.flushMusic)))

/-- The entry to SAFE from another state, before goals are worked. -/
def State.safeEntry (cause : SafeCause) (s : State) : State := (s.safeStop cause).unhomeHeads

theorem State.enterSafe_eq {s : State} (op : s.operating = true) (away : s.ctl.state ≠ .safe) (cause : SafeCause) :
    s.enterSafe cause = (s.safeEntry cause).workGoals :=
  (if_neg (by rw [op]; decide)).trans (if_neg away)

theorem State.safeEntry_ctl (cause : SafeCause) (s : State) : (s.safeEntry cause).ctl =
    { s.ctl with
      state := .safe, firstCause := some cause, causes := CauseSet.insert {} cause, selected := 0, held := none
      lightRunOut := false, audioRunOut := false, followHold := 0, followRunning := 0, followEnding := 0 } := by
  simp [State.safeEntry, State.safeStop]

theorem State.safeEntry_entries (cause : SafeCause) (s : State) (k : Peer) :
    (s.safeEntry cause).peers.entries[k] = { s.peers.entries[k] with offset := none } := by
  simp [State.safeEntry, State.safeStop, State.dropOffsets]

theorem State.safeEntry_heads (cause : SafeCause) (s : State) (h : Head) :
    (s.safeEntry cause).head.heads[h] = (s.head.heads[h]).unhome := by
  rw [State.safeEntry, State.unhomeHeads_heads]
  simp [State.safeStop]

theorem State.safeEntry_shows (cause : SafeCause) (s : State) :
    (s.safeEntry cause).seq.queue = [] ∧ (s.safeEntry cause).seq.table = Vector.replicate 4 none ∧
      (s.safeEntry cause).music.fifo = [] := by
  simp [State.safeEntry, State.safeStop, State.clearSequencer, State.resetSection, State.flushMusic, Music.flush]

theorem State.safeEntry_fixtures (cause : SafeCause) (s : State) :
    (s.safeEntry cause).lights.fixtures = Vector.replicate 12 {} := by
  rw [State.safeEntry, State.unhomeHeads_fixtures]
  rfl

/-- A change of permits leaves of a pump all but its valve set and its start timer. -/
theorem State.refreshPermits_pump (s : State) (c : Channel) :
    (s.refreshPermits.pump.pumps[c]).state = (s.pump.pumps[c]).state ∧
      (s.refreshPermits.pump.pumps[c]).output = (s.pump.pumps[c]).output ∧
      (s.refreshPermits.pump.pumps[c]).latched = (s.pump.pumps[c]).latched := by
  unfold State.refreshPermits
  dsimp only
  split
  · exact ⟨rfl, rfl, rfl⟩
  · obtain ⟨timer, e⟩ := State.refreshValves_pump (s.withPermits.dropValves s.lostPermits).askPass c
    have dropped : (s.withPermits.dropValves s.lostPermits).askPass.pump =
        (s.withPermits.dropValves s.lostPermits).pump := by simp
    rw [dropped] at e
    refine ⟨(congrArg PumpRec.state e).trans ?_, (congrArg PumpRec.output e).trans ?_, (congrArg PumpRec.latched e).trans ?_⟩ <;>
      simp [State.dropValves, State.withPermits]

theorem State.unhomeHeads_pump (s : State) (c : Channel) :
    (s.unhomeHeads.pump.pumps[c]).state = (s.pump.pumps[c]).state ∧
      (s.unhomeHeads.pump.pumps[c]).output = (s.pump.pumps[c]).output ∧
      (s.unhomeHeads.pump.pumps[c]).latched = (s.pump.pumps[c]).latched := State.refreshPermits_pump _ c

theorem State.safeEntry_pump (cause : SafeCause) (s : State) (c : Channel) :
    ((s.safeEntry cause).pump.pumps[c]).state = .stopped ∧ ((s.safeEntry cause).pump.pumps[c]).output = 0 ∧
      ((s.safeEntry cause).pump.pumps[c]).latched = false := by
  obtain ⟨state, output, latched⟩ := (s.safeStop cause).unhomeHeads_pump c
  rw [State.safeEntry, state, output, latched]
  simp [State.safeStop, State.mapPumps, PumpRec.safe]

/-- Everything stands still: what an entry to SAFE from another state leaves. -/
structure Stopped (cause : SafeCause) (t : State) : Prop where
  firstCause : t.ctl.firstCause = some cause
  causes : t.ctl.causes = CauseSet.insert {} cause
  selected : t.ctl.selected = 0
  held : t.ctl.held = none
  pumps : ∀ c : Channel, (t.pump.pumps[c]).state = .stopped ∧ (t.pump.pumps[c]).output = 0 ∧ (t.pump.pumps[c]).latched = false
  valves : ∀ z : Nozzle, (t.pump.nozzles[z]).command = false
  heads : ∀ h : Head, (t.head.heads[h]).state = .unhomed
  queue : t.seq.queue = []
  table : t.seq.table = Vector.replicate 4 none
  fifo : t.music.fifo = []
  fixtures : t.lights.fixtures = Vector.replicate 12 {}

theorem State.enterSafe_stopped {s : State} (op : s.operating = true) (away : s.ctl.state ≠ .safe) (cause : SafeCause) :
    Stopped cause (s.enterSafe cause) ∧
      ∀ k : Peer, (s.enterSafe cause).peers.entries[k] = { s.peers.entries[k] with offset := none } := by
  have ctl := s.safeEntry_ctl cause
  have entries := s.safeEntry_entries cause
  have heads := s.safeEntry_heads cause
  obtain ⟨queue, table, fifo⟩ := s.safeEntry_shows cause
  have fixtures := s.safeEntry_fixtures cause
  have pumps := s.safeEntry_pump cause
  have atRest := State.enterSafe_atRest cause op away
  rw [State.enterSafe_eq op away] at atRest ⊢
  generalize s.safeEntry cause = v at *
  have safe : v.ctl.state = .safe := by rw [ctl]
  have valves := (State.workGoals_standing v).1
  have latched (c : Channel) : (v.workGoals.pump.pumps[c]).latched = false :=
    (State.workGoals_stands (v := v) (by rw [safe]; rfl) (.inl (pumps c).1)).2.2.trans (pumps c).2.2
  obtain ⟨_, _, ctlW, _, peersW, _, _, seqW, headW, musicW, _⟩ := v.workGoals_keeps
  have fixturesW := v.workGoals_fixtures
  generalize v.workGoals = t at *
  refine ⟨⟨by rw [ctlW, ctl], by rw [ctlW, ctl], by rw [ctlW, ctl], by rw [ctlW, ctl],
    fun c => ⟨(atRest c).1, (atRest c).2, latched c⟩, fun z => valves.shut ?_ z, fun h => by rw [headW, heads h]; rfl,
    by rw [seqW, queue], by rw [seqW, table], by rw [musicW, fifo], fixturesW.trans fixtures⟩, fun k => by rw [peersW, entries k]⟩
  rw [State.valvesAllowed, ctlW, safe]

/-- What an assertion of an input or an ALERT of a peer brings of the state before (R16), whose entries of Peer View read
as given but for their offsets. -/
structure ReachesSafe (cause : SafeCause) (s : State) (entries : Vector PeerEntry 24) (t : State) : Prop where
  state : t.ctl.state = .safe
  showTime : t.clock.showTime = s.clock.showTime
  entered : s.ctl.state ≠ .safe → Stopped cause t
  joined : s.ctl.state = .safe →
    t.ctl.firstCause = s.ctl.firstCause ∧ t.ctl.causes = s.ctl.causes.insert cause ∧ t.pump = s.pump ∧
      t.head = s.head ∧ t.seq = s.seq ∧ t.music = s.music ∧ t.lights.fixtures = s.lights.fixtures
  entries : ∀ k : Peer, (t.peers.entries[k]).alert = (entries[k]).alert ∧
    (t.peers.entries[k]).fresh = (entries[k]).fresh ∧ (t.peers.entries[k]).pace = (entries[k]).pace

theorem State.enterSafe_reaches {s : State} (op : s.operating = true) (cause : SafeCause) :
    ReachesSafe cause s s.peers.entries (s.enterSafe cause) := by
  by_cases safe : s.ctl.state = .safe
  · have e : s.enterSafe cause = { s with ctl := { s.ctl with causes := s.ctl.causes.insert cause } } :=
      (if_neg (by rw [op]; decide)).trans (if_pos safe)
    rw [e]
    exact ⟨safe, rfl, fun away => absurd safe away, fun _ => ⟨rfl, rfl, rfl, rfl, rfl, rfl, rfl⟩, fun _ => ⟨rfl, rfl, rfl⟩⟩
  · obtain ⟨stopped, entries⟩ := State.enterSafe_stopped op safe cause
    refine ⟨State.enterSafe_state cause op, by simp, fun _ => stopped, fun e => absurd e safe, fun k => ?_⟩
    rw [entries k]
    exact ⟨rfl, rfl, rfl⟩

/-- What neither the alert timer nor the line nor the ports have to do with stays as it is. -/
theorem ReachesSafe.then {cause : SafeCause} {s t u : State} {e : Vector PeerEntry 24} (h : ReachesSafe cause s e t)
    (ctl : ∃ timer, u.ctl = { t.ctl with alertTimer := timer }) (clock : u.clock = t.clock) (pump : u.pump = t.pump)
    (head : u.head = t.head) (seq : u.seq = t.seq) (music : u.music = t.music)
    (fixtures : u.lights.fixtures = t.lights.fixtures) (peers : u.peers = t.peers) : ReachesSafe cause s e u := by
  obtain ⟨timer, ctl⟩ := ctl
  obtain ⟨state, showTime, entered, joined, entries⟩ := h
  refine ⟨by rw [ctl]; exact state, by rw [clock]; exact showTime, fun away => ?_, fun safe => ?_, fun k => by rw [peers]; exact entries k⟩
  · obtain ⟨first, causes, selected, held, pumps, valves, heads, queue, table, fifo, dark⟩ := entered away
    constructor <;> simpa only [ctl, pump, head, seq, music, fixtures]
  · rw [ctl, pump, head, seq, music, fixtures]
    exact joined safe

/-- Nor do they in the state before. -/
theorem ReachesSafe.of_before {cause : SafeCause} {s t u : State} {e : Vector PeerEntry 24} (h : ReachesSafe cause u e t)
    (ctl : u.ctl = s.ctl) (clock : u.clock = s.clock) (pump : u.pump = s.pump) (head : u.head = s.head) (seq : u.seq = s.seq)
    (music : u.music = s.music) (lights : u.lights = s.lights) : ReachesSafe cause s e t := by
  obtain ⟨state, showTime, entered, joined, entries⟩ := h
  rw [ctl] at entered joined
  rw [pump, head, seq, music, lights] at joined
  exact ⟨state, by rw [showTime, clock], entered, joined, entries⟩

theorem ReachesSafe.settle {cause : SafeCause} {s t : State} {e : Vector PeerEntry 24} (h : ReachesSafe cause s e t) :
    ReachesSafe cause s e t.settle := by
  rw [State.settle_of_calm (by rw [h.state]; decide) (by rw [h.state]; decide), State.grant_eq]
  exact h.then ⟨_, rfl⟩ rfl rfl rfl rfl rfl rfl rfl

theorem ReachesSafe.startAlerts {cause : SafeCause} {s t : State} {e : Vector PeerEntry 24} (h : ReachesSafe cause s e t)
    (alert : AlertCause) : ReachesSafe cause s e (t.startAlerts alert) := by
  obtain ⟨_, _, peers, clock, _, seq, _, pump, head, lights, music, _⟩ := t.startAlerts_keeps alert
  refine h.then ⟨some (t.localTimer + 100000), ?_⟩ clock pump head seq music (congrArg Lights.fixtures lights) peers
  simp [State.startAlerts]

theorem ReachesSafe.regate {cause : SafeCause} {s t : State} {e : Vector PeerEntry 24} (h : ReachesSafe cause s e t) :
    ReachesSafe cause s e t.regate :=
  h.then ⟨t.ctl.alertTimer, by simp⟩ (by simp) (by simp) (by simp) (by simp) (by simp) (by simp) (by simp)

theorem State.inputAsserted_reaches {s : State} (op : s.operating = true) (cause : SafeCause) (alert : AlertCause) :
    ReachesSafe cause s s.peers.entries (s.inputAsserted cause alert) := by
  rw [State.inputAsserted, if_pos op, State.assertInput]
  exact ((State.enterSafe_reaches op cause).startAlerts alert).settle

theorem State.estopAsserted_reaches {s : State} (op : s.operating = true) :
    ∃ t, exec .estopAsserted s = .next t ∧ ReachesSafe .eStop s s.peers.entries t := by
  have reached := State.inputAsserted_reaches (s := { s with inputs := { s.inputs with estop := true } }) op .eStop .eStop
  exact ⟨_, rfl, reached.of_before rfl rfl rfl rfl rfl rfl rfl⟩

theorem State.lowLevelAsserted_reaches {s : State} (op : s.operating = true) :
    ∃ t, exec .lowLevelAsserted s = .next t ∧ ReachesSafe .lowLevel s s.peers.entries t := by
  have reached :=
    State.inputAsserted_reaches (s := { s with inputs := { s.inputs with lowlvl := true } }) op .lowLevel .lowLevel
  exact ⟨_, rfl, reached.regate.of_before rfl rfl rfl rfl rfl rfl rfl⟩

/-! ### Frames of a peer (R26 to R28) -/

theorem State.stationFrame_taken {s : State} (c : Instr) {sender : Byte} (take : State → State) (hears : s.hears = true)
    (op : s.operating = true) (other : sender.toNat ≠ s.ctl.station) : s.stationFrame c sender take = take (s.frameDone c) := by
  rw [State.stationFrame, if_neg (by rw [hears]; decide)]
  exact (if_neg fun h => other h.2).trans (if_pos op)

theorem exec_alertReceived {s : State} {sender : Byte} (code : Byte) (rx : Rx) (hears : s.hears = true)
    (op : s.operating = true) (low : 1 ≤ sender.toNat) (high : sender.toNat ≤ 24) (other : sender.toNat ≠ s.ctl.station) :
    exec (.alertReceived sender code rx) s =
      .next ((s.frameDone (.alertReceived sender code rx)).takeAlert (peerOf sender) rx) := by
  refine congrArg Host.Outcome.next ?_
  rw [if_neg (by rw [hears]; decide), if_neg (by omega), if_neg (by omega),
    State.stationFrame_taken _ (State.takeAlert (peerOf sender) rx) hears op other]

theorem State.alertReceived_reaches {s : State} {sender : Byte} (code : Byte) (rx : Rx) (hears : s.hears = true)
    (op : s.operating = true) (low : 1 ≤ sender.toNat) (high : sender.toNat ≤ 24) (other : sender.toNat ≠ s.ctl.station) :
    ∃ t, exec (.alertReceived sender code rx) s = .next t ∧ ReachesSafe .peerAlert s
      (s.peers.entries.set (peerOf sender) { s.peers.entries[peerOf sender] with alert := some rx.moment }) t := by
  have reached := State.enterSafe_reaches (s := (s.frameDone (.alertReceived sender code rx)).setPeer (peerOf sender)
    { s.peers.entries[peerOf sender] with alert := some rx.moment }) op .peerAlert
  exact ⟨_, exec_alertReceived code rx hears op low high other, reached.settle.of_before rfl rfl rfl rfl rfl rfl rfl⟩

/-- Settles O16. -/
theorem safeEntryStopsEverything : Obligations.SafeEntryStopsEverything := by
  intro s c cause op why
  have reached : ∃ t e, exec c s = .next t ∧ ReachesSafe cause s e t ∧ ∀ sender code rx, c = .alertReceived sender code rx →
      e = s.peers.entries.set (peerOf sender) { s.peers.entries[peerOf sender] with alert := some rx.moment } := by
    rcases why with ⟨rfl, rfl⟩ | ⟨rfl, rfl⟩ | ⟨sender, code, rx, rfl, rfl, hears, low, high, other⟩
    · obtain ⟨t, next, reached⟩ := State.estopAsserted_reaches op
      exact ⟨t, _, next, reached, nofun⟩
    · obtain ⟨t, next, reached⟩ := State.lowLevelAsserted_reaches op
      exact ⟨t, _, next, reached, nofun⟩
    · obtain ⟨t, next, reached⟩ := State.alertReceived_reaches code rx hears op low high other
      refine ⟨t, _, next, reached, fun sender' code' rx' e => ?_⟩
      cases e
      rfl
  obtain ⟨t, e, next, reached, heard⟩ := reached
  refine ⟨t, next, reached.state, reached.showTime, fun away => ?_, reached.joined, fun sender code rx h => ?_⟩
  · obtain ⟨first, causes, selected, held, pumps, valves, heads, queue, table, fifo, dark⟩ := reached.entered away
    exact ⟨first, causes, selected, held, pumps, valves, heads, queue, table, fifo, dark⟩
  · have entries := reached.entries
    rw [heard sender code rx h] at entries
    obtain ⟨alert, fresh, pace⟩ := entries (peerOf sender)
    refine ⟨alert.trans (by simp), fresh.trans (by simp), pace.trans (by simp), fun k ne => (entries k).1.trans ?_⟩
    simp [Vector.getElem_set_ne _ _ (fun e => ne (Fin.ext e.symm))]

end Sys2Proof.Machine
end

