-- ==== Sys2Proof/Proofs/Paces.lean ====
section
/-! PROOFS. Hearing a PACE (R37, R38) and the late join (R60, R61). -/

set_option Elab.async false

namespace Sys2Proof.Machine

/-! ### The entry of the sender -/

/-- The entry that Peer View makes of a PACE (R37). -/
def State.heardEntry (s : State) (k : Peer) (p : PacePayload) (rx : Rx) : PeerEntry :=
  { s.peers.entries[k] with
    fresh := .fresh, pace := some (keptPace p rx)
    offset := match s.measureOffset p rx with
      | some o => some o
      | none => (s.peers.entries[k]).offset }

/-- A PACE ends the solitude of a station whose sender was not FRESH, and Peer View reports what changed. -/
theorem State.hearPace_shape (s : State) (k : Peer) (p : PacePayload) (rx : Rx) :
    ∃ (clock : Clock) (t : State), t = { s.setPeer k (s.heardEntry k p rx) with clock := clock } ∧
      clock.showTime = s.clock.showTime ∧ clock.stepped = s.clock.stepped ∧
      (s.hearPace k p rx = t ∨ s.hearPace k p rx = t.reportPeers) := by
  have shape : s.hearPace k p rx =
      let s1 := s.setPeer k (s.heardEntry k p rx)
      let s2 := if (s.peers.entries[k]).fresh = .fresh then s1 else { s1 with clock := { s1.clock with solitude := none, solo := false } }
      if (s.peers.entries[k]).fresh ≠ .fresh ∨ (s.peers.entries[k]).drawTerm ≠ (s.heardEntry k p rx).drawTerm then s2.reportPeers
      else s2 := rfl
  rw [shape]
  generalize s.heardEntry k p rx = e
  dsimp only
  by_cases fresh : (s.peers.entries[k]).fresh = .fresh
  · refine ⟨s.clock, s.setPeer k e, rfl, rfl, rfl, ?_⟩
    rw [if_pos fresh]
    split
    · exact .inr rfl
    · exact .inl rfl
  · refine ⟨_, { s.setPeer k e with clock := { s.clock with solitude := none, solo := false } }, rfl, rfl, rfl, .inr ?_⟩
    rw [if_neg fresh, if_pos (.inl fresh)]
    rfl

theorem State.hearPace_peers (s : State) (k : Peer) (p : PacePayload) (rx : Rx) :
    (s.hearPace k p rx).peers = { s.peers with entries := s.peers.entries.set k (s.heardEntry k p rx) } := by
  obtain ⟨clock, t, e, _, _, h | h⟩ := s.hearPace_shape k p rx <;> rw [h, e]
  · rfl
  · rw [(State.reportPeers_keeps _).2.2.2.2.1]
    rfl

theorem State.hearPace_entry (s : State) (k : Peer) (p : PacePayload) (rx : Rx) :
    (s.hearPace k p rx).peers.entries[k] = s.heardEntry k p rx := by
  rw [State.hearPace_peers]
  exact Vector.getElem_set_self _

theorem State.hearPace_leaves (s : State) (k : Peer) (p : PacePayload) (rx : Rx) :
    (s.hearPace k p rx).ctl = s.ctl ∧ (s.hearPace k p rx).store = s.store ∧ (s.hearPace k p rx).seq = s.seq ∧
      (s.hearPace k p rx).localTimer = s.localTimer ∧ (s.hearPace k p rx).clock.showTime = s.clock.showTime ∧
      (s.hearPace k p rx).clock.stepped = s.clock.stepped := by
  obtain ⟨clock, t, e, showTime, stepped, h | h⟩ := s.hearPace_shape k p rx <;> rw [h, e]
  · exact ⟨rfl, rfl, rfl, rfl, showTime, stepped⟩
  · simp [showTime, stepped, State.setPeer]

/-- The offset measured where nothing speaks against it (R38). -/
theorem State.measureOffset_of {s : State} {p : PacePayload} {rx : Rx} (under : s.ctl.state.underWay = true)
    (named : p.showNo.toNat ≠ 0) (show_ : p.showNo.toNat = s.ctl.selected)
    (code : p.stateCode.toNat = 4 ∨ p.stateCode.toNat = 5 ∨ p.stateCode.toNat = 6)
    (set : ∀ a, s.peers.lastSetting = some a → a < rx.moment)
    (adjusted : ∀ a, s.peers.lastAdjust = some a → a.time ≤ rx.moment) :
    s.measureOffset p rx =
      some { value := p.stamp.toInt + s.store.config.lineDelay - rx.latch, time := rx.moment } := by
  have coded : codeUnderWay p.stateCode.toNat = true := by simpa [codeUnderWay, or_assoc] using code
  have later : (match s.peers.lastSetting with
      | none => true
      | some t => decide (t < rx.moment)) = true := by
    cases e : s.peers.lastSetting with
    | none => rfl
    | some a => simpa using set a e
  refine (if_pos ⟨under, named, show_, coded, later⟩).trans ?_
  cases e : s.peers.lastAdjust with
  | none => simp only [Int.sub_zero]
  | some a => simp only [if_neg (adjusted a e).not_gt, Int.sub_zero]

/-! ### What the end of the step leaves of the entries -/

theorem State.setShowTime_vouches (t : Int) (s : State) : Vouches s (s.setShowTime t) := fun k => by
  simp [State.setShowTime, State.recordSetting, State.dropOffsets]

theorem State.lateJoin_vouches (k : Peer) (p : PacePayload) (rx : Rx) (s : State) : Vouches s (s.lateJoin k p rx) := by
  unfold State.lateJoin
  split
  · dsimp only
    split
    · exact (State.setShowTime_vouches _ s).trans (State.enterCountdown_onward _).entries
    · exact (State.setShowTime_vouches _ s).trans (State.joinRunning_onward _).entries
  · exact .refl s

theorem State.enterArmed_vouches (s : State) : Vouches s s.enterArmed := by
  have armed : Vouches s ((s.changeState .armed).resetFixtures).workGoals := .of_peers (by simp)
  unfold State.enterArmed
  dsimp only
  split
  · exact armed
  · have set (t : Int) (u : State) (h : u.peers = s.peers) : Vouches s (u.setShowTime t) :=
      (Vouches.of_peers h).trans (State.setShowTime_vouches t u)
    split
    · exact (set _ _ (by simp)).trans (State.enterCountdown_onward _).entries
    · exact (set _ _ (by simp)).trans (State.joinRunning_onward _).entries

theorem State.settle_vouches (s : State) : Vouches s s.settle := by
  have armed : Vouches s s.checkArmed := by
    unfold State.checkArmed
    split
    · exact s.enterArmed_vouches
    · exact .refl s
  exact (armed.trans (State.checkEnding_onward _).entries).trans (State.grant_onward _).entries

/-! ### The PACE of a peer -/

theorem exec_paceReceived {s : State} {sender : Byte} {p : PacePayload} (rx : Rx) (hears : s.hears = true)
    (op : s.operating = true) (low : 1 ≤ sender.toNat) (high : sender.toNat ≤ 24) (other : sender.toNat ≠ s.ctl.station)
    (least : 1 ≤ p.stateCode.toNat) (most : p.stateCode.toNat ≤ 9) :
    exec (.paceReceived sender p rx) s =
      .next ((s.frameDone (.paceReceived sender p rx)).takePace (peerOf sender) p rx) := by
  have coded : paceStateCode p.stateCode = true := by simp [paceStateCode, least, most]
  refine congrArg Host.Outcome.next ?_
  rw [if_neg (by rw [hears]; decide), if_neg (by omega), if_neg (by omega), if_neg (by rw [coded]; decide),
    State.stationFrame_taken _ (fun s => s.takePace (peerOf sender) p rx) hears op other]

theorem State.takePace_under {s : State} {k : Peer} {p : PacePayload} {rx : Rx} (under : s.ctl.state.underWay = true) :
    s.takePace k p rx = (s.hearPace k p rx).grant := by
  have ctl := (s.hearPace_leaves k p rx).1
  have unjoined : (s.hearPace k p rx).joins k p = false := by
    have unarmed : s.ctl.state ≠ .armed := fun e => by
      rw [e] at under
      cases under
    simp [State.joins, unarmed]
  rw [State.takePace, State.lateJoin, unjoined, if_neg (by decide)]
  refine State.settle_of_calm ?_ ?_ <;>
  · rw [ctl]
    intro e
    rw [e] at under
    cases under

/-- Settles O14. -/
theorem paceRefreshesItsEntry : Obligations.PaceRefreshesItsEntry := by
  intro s sender p rx hears op low high other least most
  have next := exec_paceReceived (p := p) rx hears op low high other least most
  generalize peers : s.frameDone (.paceReceived sender p rx) = u at next
  have entry := u.hearPace_entry (peerOf sender) p rx
  have vouched := ((State.lateJoin_vouches (peerOf sender) p rx (u.hearPace (peerOf sender) p rx)).trans
    (State.settle_vouches _)) (peerOf sender)
  rw [entry] at vouched
  obtain ⟨alert, kept⟩ := vouched
  obtain ⟨fresh, pace⟩ := kept nofun
  have number : (peerOf sender).val = sender.toNat - 1 := by
    rw [peerOf, Fin.val_ofNat]
    omega
  refine ⟨_, next, number, fresh, ?_, pace, fun under named show_ code set adjusted => ?_⟩
  · subst peers
    exact alert
  · subst peers
    rw [State.takePace_under (s := s.frameDone (.paceReceived sender p rx)) under, State.grant_eq]
    refine (congrArg PeerEntry.offset entry).trans ?_
    have measured := State.measureOffset_of (s := s.frameDone (.paceReceived sender p rx)) under named show_ code set adjusted
    rw [State.heardEntry, measured]
    rfl

/-! ### The cue reader while the music catches up -/

/-- The place of the cue reader, its request and the directory entry are those of `s`. -/
def CueReaderStands (s t : State) : Prop :=
  t.store.entry = s.store.entry ∧ t.store.cuePos = s.store.cuePos ∧ t.store.cueReq = s.store.cueReq

theorem askAudio_cueReader (n : Nat) (s : State) : CueReaderStands s (askAudio n s) := by
  induction n generalizing s with
  | zero => exact ⟨rfl, rfl, rfl⟩
  | succ n ih =>
    unfold askAudio
    split
    · split
      · split
        · next e k _ _ _ _ =>
          exact ih ((s.raise .blockLost none (some Reader.audio.object)).deliverAudio
            (silentFrames k (audioBlockFrames e.frames k)))
        · exact ⟨rfl, rfl, rfl⟩
      · exact ⟨rfl, rfl, rfl⟩
    · exact ⟨rfl, rfl, rfl⟩

theorem State.checkSync_cueReader (s : State) : CueReaderStands s s.checkSync := by
  unfold State.checkSync
  dsimp only
  split
  · exact ⟨rfl, rfl, rfl⟩
  split
  · exact ⟨rfl, rfl, rfl⟩
  split
  · exact ⟨rfl, rfl, rfl⟩
  split
  · exact ⟨rfl, rfl, rfl⟩
  · obtain ⟨entry, pos, req⟩ := askAudio_cueReader (audioBlocks (s.resynced (dueFrame s.clock.showTime)).frameCount + 1)
      (s.resynced (dueFrame s.clock.showTime))
    rw [State.resyncAudio_eq, State.fillAudio]
    refine ⟨entry.trans (State.resynced_store _ s).1, pos.trans ?_, req.trans ?_⟩ <;> simp [State.resynced]

/-! ### A scan of a stream of which nothing is read yet -/

/-- The state in which such a scan reads on: the view is taken, and the catch-up flag set. -/
def State.scanning (s : State) : State :=
  { s with
    jet := { s.jet with view := some { table := s.seq.table, jets := queuedJets s.seq.queue } }
    seq := { s.seq with catchUp := true, queue := [] } }

/-- It asks for the next block. -/
theorem State.startScan_asks {s : State} {e : ShowSection} {j : Nat} (cueing : s.ctl.state.cueing = true)
    (clear : s.seq.catchUp = false) (queue : s.seq.queue = []) (staged : s.seq.staged = none) (current : s.seq.current = none)
    (more : s.seq.endSeen = false) (free : s.store.cueReq = none) (entry : s.store.entry = some e)
    (place : s.store.cuePos = some j) (left : j < e.cueCount) (inside : e.firstCue + j ≤ 131071) :
    s.startScan = s.scanning.makeRequest .cue (e.firstCue + j) (s.expectCue j) := by
  have scan : s.startScan = s.scanning.readOn := by
    refine (if_neg (by rw [clear]; decide)).trans ?_
    dsimp only
    rw [queue]
    rw [State.scanning, queue]
    rfl
  obtain ⟨n, steps⟩ : ∃ n, s.scanning.readSteps = n + 1 := ⟨_, rfl⟩
  rw [scan, State.readOn, steps, readOnN, if_neg (by rw [show s.scanning.ctl = s.ctl from rfl, cueing]; decide)]
  simp only [State.scanning, staged, current, more, free, entry, place]
  simp only [Bool.false_eq_true, if_false, Option.isSome_none]
  rw [if_neg (by omega), if_neg (by rw [maxBlock]; omega)]
  rfl

/-! ### The late join (R60, R61) -/

theorem State.joinRunning_not_loading (s : State) :
    s.joinRunning.ctl.state ≠ .armed ∧ s.joinRunning.ctl.state ≠ .loading := by
  have last : Onward (((s.changeState .running).startRun.workGoals).checkSync) s.joinRunning :=
    (State.startScan_onward _).trans (State.checkTimeLimit_onward _)
  have state : (((s.changeState .running).startRun.workGoals).checkSync).ctl.state = .running := by simp
  exact last.state (by rw [state]; decide)

theorem State.enterCountdown_left (s : State) :
    s.enterCountdown.ctl.state ≠ .armed ∧ s.enterCountdown.ctl.state ≠ .loading := by
  have last : Onward ((s.changeState .countdown).startRun.workGoals) s.enterCountdown :=
    (readOnN_onward _ _).trans (State.checkZero_onward _)
  have state : ((s.changeState .countdown).startRun.workGoals).ctl.state = .countdown := by simp
  exact last.state (by rw [state]; decide)

/-- COUNTDOWN at a show time of 0 or above, below the time limit, is RUNNING (R56). -/
theorem State.enterCountdown_begun {s : State} (begun : 0 ≤ s.clock.showTime) (below : s.clock.showTime < 1800000000)
    (clear : s.seq.catchUp = false) : s.enterCountdown.ctl.state = .running := by
  have reads : ReadAhead ((s.changeState .countdown).startRun.workGoals) ((s.changeState .countdown).startRun.workGoals).readOn :=
    State.readOn_reads (by simpa [State.startRun, State.resetSection] using clear)
  have state := congrArg ShowControl.state reads.ctl
  have showTime := congrArg Clock.showTime reads.clock
  rw [show s.enterCountdown = (((s.changeState .countdown).startRun.workGoals).readOn).checkZero from rfl]
  generalize ((s.changeState .countdown).startRun.workGoals).readOn = t at *
  have showTime' : t.clock.showTime = s.clock.showTime := showTime.trans (by simp)
  have zero : t.checkZero = t.enterRunning := if_pos ⟨state.trans (by simp), by rw [showTime']; exact begun⟩
  rw [zero]
  exact (State.enterRunning_leaves (by rw [showTime']; exact below)).1

/-- RUNNING joined with nothing of the stream read: the scan asks for the first block, and the time limit is examined. -/
theorem State.joinRunning_asks {s : State} {e : ShowSection} {j : Nat}
    (clear : s.seq.catchUp = false) (queue : s.seq.queue = []) (staged : s.seq.staged = none) (current : s.seq.current = none)
    (more : s.seq.endSeen = false) (free : s.store.cueReq = none) (entry : s.store.entry = some e)
    (place : s.store.cuePos = some j) (left : j < e.cueCount) (inside : e.firstCue + j ≤ 131071) :
    ∃ v : State, s.joinRunning = v.checkTimeLimit ∧ v.ctl = (s.changeState .running).ctl ∧ v.clock.showTime = s.clock.showTime ∧
      v.seq.catchUp = true ∧ v.store.cueReq = some { block := e.firstCue + j, expect := s.expectCue j, attempts := 0 } := by
  have stands := ((s.changeState .running).startRun.workGoals).checkSync_cueReader
  rw [show s.joinRunning = ((((s.changeState .running).startRun.workGoals).checkSync).startScan).checkTimeLimit from rfl]
  have ctl : ((s.changeState .running).startRun.workGoals).checkSync.ctl = (s.changeState .running).ctl := by simp
  have seq : ((s.changeState .running).startRun.workGoals).checkSync.seq = (s.changeState .running).startRun.seq := by simp
  have showTime : ((s.changeState .running).startRun.workGoals).checkSync.clock.showTime = s.clock.showTime := by simp
  have store : ((s.changeState .running).startRun.workGoals).store = s.store := by simp
  obtain ⟨entry', place', req'⟩ := stands
  rw [store] at entry' place' req'
  generalize ((s.changeState .running).startRun.workGoals).checkSync = t at *
  have seq' : t.seq.catchUp = s.seq.catchUp ∧ t.seq.queue = s.seq.queue ∧ t.seq.staged = s.seq.staged ∧
      t.seq.current = s.seq.current ∧ t.seq.endSeen = s.seq.endSeen := by
    rw [seq]
    simp [State.startRun, State.resetSection]
  obtain ⟨clear', queue', staged', current', more'⟩ := seq'
  have asks := State.startScan_asks (s := t) (e := e) (j := j) (by rw [ctl]; simp [ShowState.cueing]) (clear'.trans clear)
    (queue'.trans queue) (staged'.trans staged) (current'.trans current) (more'.trans more) (req'.trans free)
    (entry'.trans entry) (place'.trans place) left inside
  refine ⟨_, rfl, ?_, ?_, ?_, ?_⟩ <;> rw [asks]
  · exact ctl
  · exact showTime
  · rfl
  · refine congrArg some (congrArg (fun x => Request.mk (e.firstCue + j) x 0) ?_)
    rw [State.expectCue, ctl]
    simp [State.expectCue]

theorem State.joins_of {s : State} {k : Peer} {p : PacePayload} (rx : Rx) (armed : s.ctl.state = .armed)
    (show_ : p.showNo.toNat = s.ctl.selected) (code : p.stateCode.toNat = 4 ∨ p.stateCode.toNat = 5) :
    (s.hearPace k p rx).joins k p = true := by
  have ctl := (s.hearPace_leaves k p rx).1
  have entry := s.hearPace_entry k p rx
  rw [State.joins, ctl, entry, armed, show_]
  rcases code with e | e <;> simp [e, State.heardEntry]

/-- The run that a late join begins, at its show time (R61). -/
def State.joinRun (countdown : Prop) [Decidable countdown] (s : State) : State :=
  if countdown then s.enterCountdown else s.joinRunning

theorem State.joinRun_left (countdown : Prop) [Decidable countdown] (s : State) :
    Onward s (s.joinRun countdown) ∧ (s.joinRun countdown).ctl.state ≠ .armed ∧ (s.joinRun countdown).ctl.state ≠ .loading := by
  unfold State.joinRun
  split
  · exact ⟨s.enterCountdown_onward, s.enterCountdown_left⟩
  · exact ⟨s.joinRunning_onward, s.joinRunning_not_loading⟩

/-- The join itself: the setting of show time, then the run. -/
theorem State.takePace_joins {s : State} {k : Peer} {p : PacePayload} (rx : Rx) (armed : s.ctl.state = .armed)
    (show_ : p.showNo.toNat = s.ctl.selected) (code : p.stateCode.toNat = 4 ∨ p.stateCode.toNat = 5) :
    ∃ w : State, s.takePace k p rx = (w.joinRun (p.stateCode.toNat = 4)).settle ∧
      w.clock.showTime =
        clampShowTime (p.stamp.toInt + s.store.config.lineDelay + ((s.localTimer : Int) - rx.moment)) ∧
      w.clock.stepped = s.clock.stepped ∧ w.peers.lastSetting = some s.localTimer ∧
      (∀ k : Peer, (w.peers.entries[k]).offset = none) ∧ w.ctl = s.ctl ∧ w.store = s.store ∧ w.seq = s.seq := by
  have joins := State.joins_of (k := k) rx armed show_ code
  obtain ⟨ctl, store, seq, timer, _, stepped⟩ := s.hearPace_leaves k p rx
  rw [State.takePace]
  generalize s.hearPace k p rx = v at *
  refine ⟨v.setShowTime (v.joinTime p rx), congrArg State.settle (if_pos joins), ?_⟩
  obtain ⟨set, stepped', setting, offsets⟩ := v.setShowTime_sets (v.joinTime p rx)
  have time : v.joinTime p rx = p.stamp.toInt + s.store.config.lineDelay + ((s.localTimer : Int) - rx.moment) := by
    rw [State.joinTime, store, timer]
  have keeps : (v.setShowTime (v.joinTime p rx)).ctl = v.ctl ∧ (v.setShowTime (v.joinTime p rx)).store = v.store ∧
      (v.setShowTime (v.joinTime p rx)).seq = v.seq := by simp
  obtain ⟨ctl', store', seq'⟩ := keeps
  exact ⟨by rw [set, time], stepped'.trans stepped, by rw [setting, timer], offsets, ctl'.trans ctl, store'.trans store,
    seq'.trans seq⟩

/-- Settles O15. -/
theorem lateJoinTakesThePeersTime : Obligations.LateJoinTakesThePeersTime := by
  intro s sender p rx hears armed clear low high other show_ code
  have op : s.operating = true := by rw [State.operating, armed]
  have next := exec_paceReceived (p := p) rx hears op low high other (by omega) (by omega)
  obtain ⟨w, taken, showTime, stepped, setting, offsets, ctl, store, seq⟩ :=
    State.takePace_joins (s := s.frameDone (.paceReceived sender p rx)) (k := peerOf sender) rx armed show_ code
  obtain ⟨run, unarmed, loaded⟩ := w.joinRun_left (p.stateCode.toNat = 4)
  have all := run.trans (State.settle_onward loaded)
  refine ⟨_, next.trans (congrArg Host.Outcome.next taken), all.showTime.trans showTime,
    ((State.settle_onward loaded).state ⟨unarmed, loaded⟩).1, all.stepped.trans stepped, all.setting.trans setting,
    all.offsets offsets, ?_⟩
  rw [all.showTime]
  have ctl : w.ctl = s.ctl := ctl
  have store : w.store = s.store := store
  have seq : w.seq = s.seq := seq
  have clear' : w.seq.catchUp = false := by rw [seq, clear]
  clear showTime stepped setting offsets taken next all run
  refine ⟨fun four before => ?_, fun four begun below => ?_,
    fun e j five queue staged current more free entry place left inside => ?_⟩
  · have counts : (w.joinRun (p.stateCode.toNat = 4)).ctl.state = .countdown := by
      rw [State.joinRun, if_pos four, (State.enterCountdown_before before clear').ctl]
      simp
    rw [(State.settle_steady ⟨loaded, fun e => absurd (counts.symm.trans e) (by decide)⟩).2.2.2.1, counts]
  · have runs : (w.joinRun (p.stateCode.toNat = 4)).ctl.state = .running := by
      rw [State.joinRun, if_pos four]
      exact State.enterCountdown_begun begun below clear'
    rw [(State.settle_steady ⟨loaded, fun e => absurd (runs.symm.trans e) (by decide)⟩).2.2.2.1, runs]
  · obtain ⟨v, joined, control, time, scan, req⟩ := State.joinRunning_asks (s := w) (e := e) (j := j) clear'
      (by rw [seq, queue]) (by rw [seq, staged]) (by rw [seq, current]) (by rw [seq, more]) (by rw [store, free])
      (by rw [store, entry]) (by rw [store, place]) left inside
    have state : v.ctl.state = .running := (congrArg ShowControl.state control).trans (by simp)
    have joins : w.joinRun (p.stateCode.toNat = 4) = v.checkTimeLimit := (if_neg (by omega)).trans joined
    rw [joins]
    refine ⟨fun below => ?_, fun late => ?_⟩
    · rw [State.checkTimeLimit_below (by rw [time]; exact below),
        State.settle_of_calm (by rw [state]; decide) (by rw [state]; decide), State.grant_eq]
      refine ⟨state, scan, req.trans ?_⟩
      rw [State.expectCue, State.expectCue, ctl]
    · have limit : v.checkTimeLimit = v.enterEnding .timeLimit := if_pos ⟨state, by rw [timeLimitUs, time]; exact late⟩
      rw [limit]
      exact ⟨(State.enterEnding_settle .timeLimit v).state, (State.enterEnding_settle .timeLimit v).cause⟩

end Sys2Proof.Machine
end

