-- ==== Sys2Proof/Proofs/FramesHeard.lean ====
section
/-! PROOFS. Frames that bring no command (R24, R26 to R28), and the counting of an event (R167, R168). -/

set_option Elab.async false

namespace Sys2Proof.Machine

/-! ### Duplicates (R27) -/

theorem State.stationFrame_duplicate {s : State} (c : Instr) {sender : Byte} (take : State → State) (hears : s.hears = true)
    (low : 1 ≤ sender.toNat) (high : sender.toNat ≤ 24) (own : sender.toNat = s.ctl.station) :
    s.stationFrame c sender take = (s.frameDone c).duplicateHeard := by
  have valid : s.validNumber = true := by simp [State.validNumber, ← own, low, high]
  rw [State.stationFrame, if_neg (by rw [hears]; decide)]
  exact if_pos ⟨valid, own⟩

theorem exec_duplicate {s : State} {c : Instr} {sender : Byte} (hears : s.hears = true) (low : 1 ≤ sender.toNat)
    (high : sender.toNat ≤ 24) (own : sender.toNat = s.ctl.station)
    (is : c = .reportReceived sender ∨ (∃ cause rx, c = .alertReceived sender cause rx) ∨
      ∃ p rx, c = .paceReceived sender p rx ∧ 1 ≤ p.stateCode.toNat ∧ p.stateCode.toNat ≤ 9) :
    exec c s = .next (s.frameDone c).duplicateHeard := by
  have heard : ¬ s.hears = false := by rw [hears]; decide
  rcases is with rfl | ⟨cause, rx, rfl⟩ | ⟨p, rx, rfl, least, most⟩ <;> refine congrArg Host.Outcome.next ?_
  · rw [if_neg heard, if_neg (by omega), if_neg (by omega), State.stationFrame_duplicate _ (fun s => s) hears low high own]
  · rw [if_neg heard, if_neg (by omega), if_neg (by omega),
      State.stationFrame_duplicate _ (fun s => s.takeAlert (peerOf sender) rx) hears low high own]
  · have coded : paceStateCode p.stateCode = true := by simp [paceStateCode, least, most]
    rw [if_neg heard, if_neg (by omega), if_neg (by omega), if_neg (by rw [coded]; decide),
      State.stationFrame_duplicate _ (fun s => s.takePace (peerOf sender) p rx) hears low high own]

theorem State.duplicateHeard_eq (s : State) : s.duplicateHeard = { s with
    line := { s.line with duplicate := true, dupTimer := some (s.localTimer + 2000000) }
    mon :=
      if s.ctl.state = .startUp then s.mon
      else s.mon.count { kind := .duplicateStation, time := s.clock.showTime, cueId := none, object := none } } := by
  unfold State.duplicateHeard
  dsimp only
  split <;> rfl

/-! ### A REPORT of another station (R28) -/

theorem exec_reportReceived {s : State} {sender : Byte} (hears : s.hears = true) (low : 1 ≤ sender.toNat)
    (high : sender.toNat ≤ 24) (other : sender.toNat ≠ s.ctl.station) :
    exec (.reportReceived sender) s = .next (s.frameDone (.reportReceived sender)) := by
  refine congrArg Host.Outcome.next ?_
  rw [if_neg (by rw [hears]; decide), if_neg (by omega), if_neg (by omega), State.stationFrame, if_neg (by rw [hears]; decide)]
  exact (if_neg fun h => other h.2).trans (ite_self _)

/-! ### The end of a frame (R24, R31) -/

theorem commandHighs_of_frame {c : Instr} {f : LineFrame} (frame : commandFrame c = some f)
    (whole : ∀ n, c ≠ .reportReceived n) : commandHighs c = endHighs f.bytes := by
  unfold commandHighs
  split
  · next n => exact absurd rfl (whole n)
  · cases frame
  · rw [frame]

theorem State.frameDone_rise {s : State} {c : Instr} {b : RxBuffer} {q : Nat} (receiving : s.line.receiver = .receiving b)
    (rise : s.line.quietSince = some q) : (s.frameDone c).line.quietSince = some q := by
  refine congrArg some ?_
  rw [State.lastRise]
  simp only [receiving, rise, Option.getD_some]

theorem State.frameDone_whole {s : State} {c : Instr} {f : LineFrame} (hunting : s.line.receiver = .hunting)
    (frame : commandFrame c = some f) (whole : ∀ n, c ≠ .reportReceived n) :
    (s.frameDone c).line.quietSince = some (s.localTimer - endHighs f.bytes) := by
  refine congrArg some ?_
  rw [State.lastRise]
  simp only [hunting, commandHighs_of_frame frame whole]

/-! ### Frame errors (R24, R26) -/

theorem receiverAfter_hunting {why : RxFailure} (mark : why ≠ .markTooLong) (low : ∀ r, why ≠ .lowRun r) :
    receiverAfter why = .hunting := by
  cases why with
  | markTooLong => exact absurd rfl mark
  | lowRun r => exact absurd rfl (low r)
  | _ => rfl

theorem State.frameFails_eq (c : Instr) (why : RxFailure) (s : State) : s.frameFails c why = { s with
    line := { s.line with receiver := receiverAfter why, quietSince := quietAfter (s.lastRise c) why }
    mon :=
      if s.ctl.state = .startUp then s.mon
      else s.mon.count { kind := .frameError, time := s.clock.showTime, cueId := none, object := none } } := by
  unfold State.frameFails
  dsimp only
  split <;> rfl

/-! ### What is not heard (R24) -/

theorem fromLine_of_frame {c : Instr} (h : (commandFrame c).isSome = true) : fromLine c = true := by
  cases c with
  | select n hhom => rfl
  | start n delay rx => rfl
  | hold => rfl
  | resume pflt => rfl
  | stop => rfl
  | clear estop => rfl
  | restart target => rfl
  | query target clearFlag => rfl
  | paceReceived sender p rx => rfl
  | alertReceived sender cause rx => rfl
  | reportReceived sender => rfl
  | _ => exact absurd h Bool.false_ne_true

/-! ### Counting (R167, R168) -/

theorem CounterRec.count_own {e : Sample} {c : CounterRec} (h : c.kind = some e.kind) :
    c.count e = if 0 < c.threshold ∧ c.crossed = false ∧ c.threshold ≤ min 65535 (c.value + 1)
      then { c with value := min 65535 (c.value + 1), crossed := true, sample := some e }
      else { c with value := min 65535 (c.value + 1) } := by
  have value : (if c.value < 65535 then c.value + 1 else 65535) = min 65535 (c.value + 1) := by
    split <;> omega
  rw [CounterRec.count, if_pos h, value]

theorem CounterRec.count_spec {e : Sample} {c : CounterRec} (h : c.kind = some e.kind) :
    (c.count e).kind = c.kind ∧ (c.count e).threshold = c.threshold ∧ (c.count e).value = min 65535 (c.value + 1) ∧
      (c.crossed = false → 0 < c.threshold → c.threshold ≤ min 65535 (c.value + 1) →
        (c.count e).crossed = true ∧ (c.count e).sample = some e) ∧
      (c.crossed = true ∨ c.threshold = 0 ∨ min 65535 (c.value + 1) < c.threshold →
        (c.count e).crossed = c.crossed ∧ (c.count e).sample = c.sample) := by
  rw [CounterRec.count_own h]
  by_cases crosses : 0 < c.threshold ∧ c.crossed = false ∧ c.threshold ≤ min 65535 (c.value + 1)
  · rw [if_pos crosses]
    obtain ⟨above, clear, reached⟩ := crosses
    refine ⟨rfl, rfl, rfl, fun _ _ _ => ⟨rfl, rfl⟩, fun stays => ?_⟩
    rcases stays with e | e | e
    · exact absurd (clear.symm.trans e) (by decide)
    · omega
    · omega
  · rw [if_neg crosses]
    exact ⟨rfl, rfl, rfl, fun clear above reached => absurd ⟨above, clear, reached⟩ crosses, fun _ => ⟨rfl, rfl⟩⟩

/-- Settles O18. -/
theorem duplicatesReportsAndErrors : Obligations.DuplicatesReportsAndErrors := by
  refine ⟨fun s c sender hears low high own is => ?_, fun s sender hears low high other => ?_, fun s c => ⟨rfl, ?_, ?_⟩,
    fun s why hears => ?_, fun s c deaf is => ?_, fun m e i => ?_⟩
  · have heard := exec_duplicate hears low high own is
    rw [State.duplicateHeard_eq] at heard
    exact ⟨_, heard, rfl, rfl, rfl⟩
  · exact ⟨_, exec_reportReceived hears low high other, rfl⟩
  · exact fun b q => State.frameDone_rise
  · exact fun f => State.frameDone_whole
  · have fails : exec (.frameError why) s = .next (s.frameFails (.frameError why) why) :=
      congrArg Host.Outcome.next (if_neg (by rw [hears]; decide))
    rw [State.frameFails_eq] at fails
    refine ⟨_, fails, ?_, ?_, receiverAfter_hunting, rfl⟩
    · rintro rfl
      rfl
    · rintro r rfl
      rfl
  · have heard : fromLine c = true := by
      rcases is with frame | ⟨why, rfl⟩
      · exact fromLine_of_frame frame
      · rfl
    obtain ⟨i, next, lowlvl, lrx⟩ := exec_unheard heard deaf
    exact ⟨_, next, rfl, lowlvl, lrx⟩
  · have counted : (m.count e).counters[i] = (m.counters[i]).count e := by simp [Monitor.count]
    dsimp only
    rw [counted]
    exact ⟨CounterRec.count_of_kind_ne, CounterRec.count_spec, rfl⟩

end Sys2Proof.Machine
end

