-- ==== Sys2Proof/Proofs/Configurations.lean ====
section
/-! PROOFS. What a configuration that passes validation guarantees (R76). -/

set_option Elab.async false

namespace Sys2Proof.Machine

/-- A configuration without a failed field passes every check. -/
theorem StationConfig.reason_none {g : StationConfig} (h : g.reason = none) {c : Bool × Nat} (mem : c ∈ g.checks) :
    c.1 = true := by
  rw [StationConfig.reason, Option.map_eq_none_iff, List.find?_eq_none] at h
  simpa using h c mem

/-- What is found at a number by an item that the default lacks is one of the records. -/
theorem nthD_found {α : Type} {n : Nat} {v : Vector α n} {k : Nat} {d : α} (item : α → Bool) (lacks : item d = false)
    (found : item (nthD v k d) = true) : ∃ i : Fin n, i.val = k ∧ nthD v k d = v[i] := by
  by_cases inside : k < n
  · exact ⟨⟨k, inside⟩, rfl, nthD_at v ⟨k, inside⟩ d⟩
  · have beyond : nthD v k d = d := by
      rw [nthD, List.getD_eq_getElem?_getD, List.getElem?_eq_none (by simpa using inside), Option.getD_none]
    rw [beyond, lacks] at found
    cases found

section
variable {g : StationConfig} (h : g.reason = none)
include h

theorem StationConfig.nozzle_passes (z : Nozzle) : g.nozzleOk g.nozzles[z] = true :=
  g.reason_none h (c := (g.nozzleOk g.nozzles[z], 48 + z.val))
    (List.mem_append_left _ (List.mem_append_left _ (List.mem_append_right _ (List.mem_map.mpr ⟨z, List.mem_finRange z, rfl⟩))))

theorem StationConfig.fixture_passes (f : Fixture) : g.fixtureOk g.fixtures[f] = true :=
  g.reason_none h (c := (g.fixtureOk g.fixtures[f], 64 + f.val))
    (List.mem_append_left _ (List.mem_append_right _ (List.mem_map.mpr ⟨f, List.mem_finRange f, rfl⟩)))

theorem StationConfig.channel_passes (c : Channel) : g.channelHasNozzle c = true :=
  g.reason_none h (c := (g.channelHasNozzle c, 80 + c.val))
    (List.mem_append_right _ (List.mem_map.mpr ⟨c, List.mem_finRange c, rfl⟩))

theorem StationConfig.ceiling_passes : g.ceiling ≤ g.capacity := by
  have passes := g.reason_none h (c := (within 1 65535 g.ceiling && g.ceiling ≤ g.capacity, 10)) (by simp [StationConfig.checks])
  simp only [Bool.and_eq_true, decide_eq_true_eq] at passes
  exact passes.2

theorem StationConfig.wind_passes : g.wLo < g.wHi := by
  have passes := g.reason_none h (c := (within 0 600 g.wLo && within 0 600 g.wHi && g.wLo < g.wHi, 13))
    (by simp [StationConfig.checks])
  simp only [Bool.and_eq_true, decide_eq_true_eq] at passes
  exact passes.2

/-- A present nozzle's channel, and a swivel nozzle's head. -/
theorem StationConfig.present_nozzle {z : Nozzle} (present : (g.nozzles[z]).present = true) :
    ∃ c : Channel, c.val = (g.nozzles[z]).channel ∧ (g.channels[c]).present = true ∧
      (g.nozzles[z]).hmax ≤ (g.channels[c]).hfull ∧
      ((g.nozzles[z]).kind = 1 → ∃ k : Head, k.val = (g.nozzles[z]).head ∧ (g.heads[k]).present = true ∧
        (g.nozzles[z]).envMin ≤ (g.nozzles[z]).envMax ∧ (g.nozzles[z]).envMax < (g.heads[k]).range) := by
  have passes := g.nozzle_passes h z
  rw [StationConfig.nozzleOk, present] at passes
  simp only [Bool.not_true, Bool.false_or, Bool.and_eq_true, Bool.or_eq_true, bne_iff_ne, decide_eq_true_eq, within] at passes
  obtain ⟨⟨⟨channel, _⟩, swivel⟩, _, height⟩ := passes
  obtain ⟨c, number, at_⟩ := nthD_found ChannelCfg.present rfl channel
  have at_ : g.channelOf g.nozzles[z] = g.channels[c] := at_
  rw [at_] at channel height
  refine ⟨c, number, channel, height, fun kind => ?_⟩
  rcases swivel with other | ⟨⟨head, ordered⟩, inside⟩
  · exact absurd kind other
  · obtain ⟨k, index, on⟩ := nthD_found HeadCfg.present rfl head
    have on : g.headOf g.nozzles[z] = g.heads[k] := on
    rw [on] at head inside
    exact ⟨k, index, head, ordered, inside⟩

theorem StationConfig.present_channel {c : Channel} (present : (g.channels[c]).present = true) : 1 ≤ g.nc c := by
  have passes := g.channel_passes h c
  rw [StationConfig.channelHasNozzle, present, Bool.not_true, Bool.false_or, List.any_eq_true] at passes
  obtain ⟨n, mem, on⟩ := passes
  obtain ⟨i, inside, rfl⟩ := Vector.getElem_of_mem (Vector.mem_toList_iff.mp mem)
  have named : (⟨i, inside⟩ : Nozzle) ∈ g.nozzlesOf c := List.mem_filter.mpr ⟨List.mem_finRange _, on⟩
  exact List.length_pos_of_mem named

theorem StationConfig.jet_fixture {f : Fixture} (present : (g.fixtures[f]).present = true) (role : (g.fixtures[f]).role = 0) :
    ∃ z : Nozzle, z.val = (g.fixtures[f]).nozzle ∧ (g.nozzles[z]).present = true := by
  have passes := g.fixture_passes h f
  rw [StationConfig.fixtureOk, present, role] at passes
  simp only [Bool.not_true, Bool.false_or, Bool.and_eq_true, bne_self_eq_false] at passes
  obtain ⟨z, number, at_⟩ := nthD_found NozzleCfg.present rfl passes.2
  exact ⟨z, number, by rw [← at_]; exact passes.2⟩

end

/-- Settles O30. -/
theorem validConfigurationGuarantees : Obligations.ValidConfigurationGuarantees := fun g h =>
  ⟨fun _ => g.present_nozzle h, fun _ => g.present_channel h, fun _ => g.jet_fixture h, g.wind_passes h, g.ceiling_passes h⟩

end Sys2Proof.Machine
end

