-- ==== Sys2Proof/Proofs/StartUpLoads.lean ====
section
/-! PROOFS. The verdict on a flash read that stands (R67), and the configuration block that ends start-up (R3, R4, R71). -/

set_option Elab.async false

namespace Sys2Proof.Machine

/-! ### The verdict on an attempt (R67, R70) -/

/-- The state in which a read is judged: the input level that it carries has been seen, and the port is free. -/
def State.portFreed (estop : Bool) (s : State) : State :=
  { s with inputs := { s.inputs with estop := estop }, store := { s.store with port := none } }

theorem exec_flashReadComplete {s : State} {data : List Byte} {estop : Bool} {r : Reader} {q : Request}
    (port : s.store.port = some { reader := r, withdrawn := false }) (standing : s.store.request r = some q) :
    exec (.flashReadComplete data estop) s = .next ((s.portFreed estop).judge r q data).settle := by
  have standing' : { s.store with port := none }.request r = some q := by
    cases r <;> exact standing
  refine congrArg Host.Outcome.next ((if_neg (by rw [port]; exact nofun)).trans (congrArg State.settle ?_))
  unfold State.readCompletes
  simp only [port, Bool.false_eq_true, if_false, standing']
  rfl

/-- The state in which an accepted or lost block is dealt with: its request is ended. -/
def State.requestEnded (estop : Bool) (r : Reader) (s : State) : State :=
  { s with inputs := { s.inputs with estop := estop }, store := { s.store with port := none }.setRequest none r }

theorem State.judge_good {s : State} {r : Reader} {q : Request} {data : List Byte} (estop : Bool)
    (good : goodRead q.expect data = true) :
    (s.portFreed estop).judge r q data = (s.requestEnded estop r).deliver r q.expect.seq (blockPayload data) := if_pos good

theorem State.judge_lost {s : State} {r : Reader} {q : Request} {data : List Byte} (estop : Bool)
    (bad : goodRead q.expect data = false) (last : 2 ≤ q.attempts) :
    (s.portFreed estop).judge r q data = (s.requestEnded estop r).lose r q.expect.seq :=
  (if_neg (by rw [bad]; decide)).trans (if_neg (by omega))

/-! ### The first failed field (R71) -/

/-- Reason 8 is that of the monitor fields, and theirs alone. -/
theorem StationConfig.reason_monitor (g : StationConfig) : g.reason = some 8 ↔ g.monitorOk = false := by
  constructor
  · intro h
    rw [StationConfig.reason, Option.map_eq_some_iff] at h
    obtain ⟨⟨b, n⟩, found, number⟩ := h
    have number : n = 8 := number
    have failed : b = false := by simpa using List.find?_some found
    have mem := List.mem_of_find?_eq_some found
    subst number failed
    simp only [StationConfig.checks, List.mem_append, List.mem_cons, List.mem_map, List.mem_finRange, List.not_mem_nil,
      Prod.mk.injEq, true_and, or_false] at mem
    simp only [show (8 : Nat) ≠ 9 by decide, show (8 : Nat) ≠ 10 by decide, show (8 : Nat) ≠ 11 by decide,
      show (8 : Nat) ≠ 12 by decide, show (8 : Nat) ≠ 13 by decide, show (8 : Nat) ≠ 14 by decide,
      show (8 : Nat) ≠ 15 by decide, show (8 : Nat) ≠ 16 by decide, and_false, or_false, and_true] at mem
    rcases mem with ((((h | ⟨c, _, h⟩) | ⟨c, _, h⟩) | ⟨c, _, h⟩) | ⟨c, _, h⟩) | ⟨c, _, h⟩
    · exact h.symm
    all_goals omega
  · intro h
    simp [StationConfig.reason, StationConfig.checks, h]

theorem State.adopted_thresholds (g : StationConfig) (s : State) (i : Counter) :
    ((s.adoptMonitor g).mon.counters[i]).threshold = g.thresholds[i] := by
  simp [State.adoptMonitor]

/-! ### CONFIG FAULT (R3) -/

theorem State.enterConfigFault_eq {s : State} (reason : Nat) (estop : s.inputs.estop = false)
    (lowlvl : s.inputs.lowlvl = false) (valid : s.validNumber = true) : s.enterConfigFault reason =
      { s with
        ctl := { s.ctl with phase := .done, state := .configFault, reason := reason }
        clock := { s.clock with paceTimer := some (s.localTimer + 20000) } } := by
  refine (if_pos valid).trans ?_
  exact (if_neg (by simp [estop])).trans (if_neg (by simp [lowlvl]))

/-! ### SAFE with POWER-UP (R4) -/

theorem State.completeStartUp_eq {s : State} (g : StationConfig) (estop : s.inputs.estop = false)
    (lowlvl : s.inputs.lowlvl = false) : s.completeStartUp g = ((s.powerUp g).refreshPermits).regate := by
  have low : (((s.powerUp g).refreshPermits).regate).inputs.lowlvl = false := by simpa [State.powerUp] using lowlvl
  have stop : (((s.powerUp g).refreshPermits).regate).inputs.estop = false := by simpa [State.powerUp] using estop
  have calm : (if (((s.powerUp g).refreshPermits).regate).inputs.lowlvl
      then (((s.powerUp g).refreshPermits).regate).assertInput .lowLevel .lowLevel
      else ((s.powerUp g).refreshPermits).regate) = ((s.powerUp g).refreshPermits).regate := if_neg (by rw [low]; decide)
  refine Eq.trans (if_neg ?_) calm
  rw [calm, stop]
  decide

theorem startNozzle_out (n : NozzleCfg) : (startNozzle n).state = .out ↔ n.present = true ∧ n.out = true := by
  unfold startNozzle
  split
  · next marked => exact iff_of_true rfl marked
  · next unmarked => exact iff_of_false nofun unmarked

theorem State.powerUp_out (g : StationConfig) (s : State) (z : Nozzle) :
    ((((s.powerUp g).refreshPermits).regate).pump.nozzles[z]).state = .out ↔
      (g.nozzles[z]).present = true ∧ (g.nozzles[z]).out = true := by
  have marks : (((s.powerUp g).refreshPermits).regate).marks = (s.powerUp g).marks :=
    (State.marks_congr (by simp)).trans (State.refreshPermits_marks _)
  rw [(State.marks_at marks z).1, ← startNozzle_out]
  simp [State.powerUp]

/-- The monitor fields are adopted first, unless it is they that fail (R71). -/
theorem State.takeConfig_shape (s : State) (p : List Byte) : ∃ m : Monitor,
    (∀ r, (readConfig p).reason = some r → s.takeConfig p = State.enterConfigFault r { s with mon := m }) ∧
      ((readConfig p).reason = none → s.takeConfig p = State.completeStartUp (readConfig p) { s with mon := m }) ∧
      ((readConfig p).reason ≠ some 8 → ∀ i : Counter, (m.counters[i]).threshold = (readConfig p).thresholds[i]) ∧
      ((readConfig p).reason = some 8 → m = s.mon) := by
  unfold State.takeConfig
  dsimp only
  generalize readConfig p = g
  cases ok : g.monitorOk with
  | true =>
    refine ⟨(s.adoptMonitor g).mon, fun r fails => ?_, fun passes => ?_, fun _ => State.adopted_thresholds g s, fun fails => ?_⟩
    · rw [fails]
      rfl
    · rw [passes]
      rfl
    · rw [g.reason_monitor.mp fails] at ok
      cases ok
  | false =>
    refine ⟨s.mon, fun r fails => ?_, fun passes => ?_, fun passes => ?_, fun _ => rfl⟩
    · rw [fails]
      rfl
    · rw [passes]
      rfl
    · exact absurd (g.reason_monitor.mpr ok) passes

/-- Settles O29. -/
theorem configurationDecidesStartUp : Obligations.ConfigurationDecidesStartUp := by
  intro s data q startUp phase port standing header good lowlvl least most
  have valid : s.validNumber = true := by simp [State.validNumber, least, most]
  have next := exec_flashReadComplete (data := data) (estop := false) port standing
  rw [State.judge_good false good] at next
  have header : s.store.header ≠ none := by
    intro e
    rw [e] at header
    cases header
  have taken : (s.requestEnded false .config).deliver .config q.expect.seq (blockPayload data) =
      (s.requestEnded false .config).takeConfig (blockPayload data) := if_neg header
  obtain ⟨m, fault, completes, thresholds, untouched⟩ := (s.requestEnded false .config).takeConfig_shape (blockPayload data)
  rw [taken] at next
  refine ⟨_, next, ?_⟩
  dsimp only
  generalize readConfig (blockPayload data) = g at *
  cases reason : g.reason with
  | some r =>
    rw [fault r reason, State.enterConfigFault_eq r (by rfl) (by exact lowlvl) (by exact valid),
      State.settle_of_calm (by exact nofun) (by exact nofun), State.grant_eq]
    rw [reason] at thresholds untouched
    refine ⟨rfl, rfl, rfl, nofun, fun r' e => ?_⟩
    cases e
    exact ⟨rfl, rfl, rfl, rfl, fun other => thresholds fun e => other (Option.some.inj e), fun e => untouched (by rw [e])⟩
  | none =>
    have out := fun z => State.powerUp_out g { s.requestEnded false .config with mon := m } z
    rw [completes reason, State.completeStartUp_eq g (by rfl) (by exact lowlvl)]
    have keeps : ((State.powerUp g { s.requestEnded false .config with mon := m }).refreshPermits).regate.ctl =
        (State.powerUp g { s.requestEnded false .config with mon := m }).ctl ∧
      ((State.powerUp g { s.requestEnded false .config with mon := m }).refreshPermits).regate.clock =
        (State.powerUp g { s.requestEnded false .config with mon := m }).clock ∧
      ((State.powerUp g { s.requestEnded false .config with mon := m }).refreshPermits).regate.store =
        (State.powerUp g { s.requestEnded false .config with mon := m }).store ∧
      ((State.powerUp g { s.requestEnded false .config with mon := m }).refreshPermits).regate.mon = m := by
      simp [State.powerUp]
    obtain ⟨ctl, clock, store, mon⟩ := keeps
    generalize ((State.powerUp g { s.requestEnded false .config with mon := m }).refreshPermits).regate = t at *
    rw [State.settle_of_calm (by rw [ctl]; exact nofun) (by rw [ctl]; exact nofun), State.grant_eq]
    refine ⟨by dsimp only; rw [ctl]; rfl, by dsimp only; rw [clock]; rfl, by dsimp only; rw [store]; rfl, fun _ => ?_, nofun⟩
    rw [reason] at thresholds
    dsimp only
    rw [ctl, store, mon]
    exact ⟨rfl, rfl, rfl, rfl, thresholds nofun, out⟩

end Sys2Proof.Machine
end

