-- ==== Sys2Proof/Proofs/Following.lean ====
section
/-! PROOFS. The expiry of the pace timer and following the majority (R15, R50, R54, R55). -/

set_option Elab.async false

namespace Sys2Proof.Machine

/-! ### Majorities (R15, R46) -/

/-- The PACE fields that an entry contributes to the majorities of a show. -/
def PeerEntry.sameShow (e : PeerEntry) (selected : Nat) : Option PeerPace :=
  match e.fresh, e.pace with
  | .fresh, some p => if p.showNo ≠ 0 ∧ p.showNo = selected then some p else none
  | _, _ => none

theorem State.sameShowPeers_eq (s : State) :
    s.sameShowPeers = (s.peers.entries.toList.map fun e => e.sameShow s.ctl.selected).filterMap id := by
  rw [List.filterMap_map]
  rfl

theorem State.sameShowPeers_congr {s t : State} (selected : t.ctl.selected = s.ctl.selected)
    (entries : ∀ k : Peer, (t.peers.entries[k]).fresh = (s.peers.entries[k]).fresh ∧
      (t.peers.entries[k]).pace = (s.peers.entries[k]).pace) : t.sameShowPeers = s.sameShowPeers := by
  rw [State.sameShowPeers_eq, State.sameShowPeers_eq, selected]
  refine congrArg (List.filterMap id) (List.ext_getElem (by simp) fun i hi _ => ?_)
  have inside : i < 24 := by simpa using hi
  obtain ⟨fresh, pace⟩ := entries ⟨i, inside⟩
  simp only [Fin.getElem_fin] at fresh pace
  simp only [List.getElem_map, Vector.getElem_toList, PeerEntry.sameShow, fresh, pace]

/-- Two states cannot both have a majority. -/
theorem State.majorityCount_add_le (s : State) {a b : Nat} (ne : a ≠ b) :
    s.majorityCount a + s.majorityCount b ≤ s.sameShowPeers.length := by
  unfold State.majorityCount
  generalize s.sameShowPeers = l
  have split := List.length_eq_length_filter_add (l := l) fun p => p.stateCode == a
  have inside : (l.filter fun p => p.stateCode == b).length ≤ (l.filter fun p => !(p.stateCode == a)).length := by
    refine (List.monotone_filter_right l fun p hp => ?_).length_le
    have code : p.stateCode = b := by simpa using hp
    simpa [code] using ne.symm
  omega

/-! ### The follow counters (R15) -/

/-- The follow counters have been counted at an agreement. -/
def State.followed (s : State) : State :=
  { s with ctl := { s.ctl with
      followHold := followCount (s.majorityCount 6) s.sameShowPeers.length s.ctl.followHold
      followRunning := followCount (s.majorityCount 5) s.sameShowPeers.length s.ctl.followRunning
      followEnding := followCount (s.majorityCount 7) s.sameShowPeers.length s.ctl.followEnding } }

theorem State.follow_eq {s : State} (under : s.ctl.state.underWay = true) : s.follow =
    if s.ctl.state = .running ∧ 3 ≤ s.followed.ctl.followHold then s.followed.enterHold
    else if s.ctl.state = .hold ∧ 3 ≤ s.followed.ctl.followRunning then s.followed.resumeShow
    else if 3 ≤ s.followed.ctl.followEnding then s.followed.enterEnding .follow
    else s.followed := if_neg (by rw [under]; decide)

theorem three_le_followCount {count total n : Nat} : 3 ≤ followCount count total n ↔ total < 2 * count ∧ 2 ≤ n := by
  unfold followCount
  split <;> omega

theorem followCount_none {count total n : Nat} (h : 2 * count ≤ total) : followCount count total n = 0 :=
  if_neg h.not_gt

/-! ### What follows an agreement leaves the setting of show time -/

theorem issueDueN_onward (n : Nat) (s : State) : Onward s (issueDueN n s) := by
  induction n generalizing s with
  | zero => exact .refl s
  | succ n ih =>
    unfold issueDueN
    split
    · refine .trans ?_ (ih _)
      unfold State.issueHead
      split
      · exact .refl s
      · next e rest _ =>
        exact .trans (t := { s with seq := { s.seq with queue := rest } }) (.of_parts rfl rfl rfl)
          ((State.handOn_onward _ _ _).trans (State.retake_onward _))
    · exact .refl s

theorem State.resumeShow_onward (s : State) : Onward (s.changeState .running) s.resumeShow :=
  ((((State.workGoals_onward _).trans (State.checkSync_onward _)).trans (State.checkTimeLimit_onward _)).trans
    (issueDueN_onward _ _)).trans (readOnN_onward _ _)

theorem State.resumeShow_unheld (s : State) : s.resumeShow.ctl.state ≠ .hold ∧ s.resumeShow.ctl.state ≠ .loading :=
  ⟨s.resumeShow_onward.unheld (by simp), (s.resumeShow_onward.state (by simp)).2⟩

/-! ### The end of an agreement (R15, R55) -/

/-- `w` stands at an agreement of `s`: counters, show and peers are those of `s`. -/
structure AtAgreement (s w : State) : Prop where
  ctl : w.ctl = s.ctl
  seq : w.seq = s.seq
  head : w.head = s.head
  peers : w.sameShowPeers = s.sameShowPeers

namespace AtAgreement
variable {s w : State} (at_ : AtAgreement s w)
include at_

theorem state : w.followed.ctl.state = s.ctl.state := by
  rw [← at_.ctl]
  rfl

theorem majority (code : Nat) : w.majorityCount code = s.majorityCount code := by
  rw [State.majorityCount, State.majorityCount, at_.peers]

theorem hold_iff : 3 ≤ w.followed.ctl.followHold ↔
    s.sameShowPeers.length < 2 * s.majorityCount 6 ∧ 2 ≤ s.ctl.followHold := by
  rw [State.followed, three_le_followCount, at_.majority, at_.peers, at_.ctl]

theorem running_iff : 3 ≤ w.followed.ctl.followRunning ↔
    s.sameShowPeers.length < 2 * s.majorityCount 5 ∧ 2 ≤ s.ctl.followRunning := by
  rw [State.followed, three_le_followCount, at_.majority, at_.peers, at_.ctl]

theorem ending_iff : 3 ≤ w.followed.ctl.followEnding ↔
    s.sameShowPeers.length < 2 * s.majorityCount 7 ∧ 2 ≤ s.ctl.followEnding := by
  rw [State.followed, three_le_followCount, at_.majority, at_.peers, at_.ctl]

/-- No counter that the state follows has reached its third. -/
theorem stays (under : s.ctl.state.underWay = true)
    (hold : s.ctl.state = .running → s.sameShowPeers.length < 2 * s.majorityCount 6 → s.ctl.followHold < 2)
    (running : s.ctl.state = .hold → s.sameShowPeers.length < 2 * s.majorityCount 5 → s.ctl.followRunning < 2)
    (ending : s.sameShowPeers.length < 2 * s.majorityCount 7 → s.ctl.followEnding < 2) :
    w.follow.settle.ctl = w.followed.ctl := by
  have still : w.follow = w.followed := by
    have unheld : ¬ (w.ctl.state = .running ∧ 3 ≤ w.followed.ctl.followHold) := by
      rw [at_.hold_iff, at_.ctl]
      exact fun h => absurd h.2.2 (hold h.1 h.2.1).not_ge
    have paused : ¬ (w.ctl.state = .hold ∧ 3 ≤ w.followed.ctl.followRunning) := by
      rw [at_.running_iff, at_.ctl]
      exact fun h => absurd h.2.2 (running h.1 h.2.1).not_ge
    have going : ¬ 3 ≤ w.followed.ctl.followEnding := by
      rw [at_.ending_iff]
      exact fun h => absurd h.2 (ending h.1).not_ge
    rw [State.follow_eq (by rw [at_.ctl]; exact under), if_neg unheld, if_neg paused, if_neg going]
  have state : w.followed.ctl.state = s.ctl.state := at_.state
  rw [still, State.settle_of_calm, State.grant_eq]
  all_goals
    rw [state]
    intro e
    rw [e] at under
    cases under

/-- The counters of an agreement at which the station stays. -/
theorem counts : w.followed.ctl.state = s.ctl.state ∧
    w.followed.ctl.followHold = followCount (s.majorityCount 6) s.sameShowPeers.length s.ctl.followHold ∧
    w.followed.ctl.followRunning = followCount (s.majorityCount 5) s.sameShowPeers.length s.ctl.followRunning ∧
    w.followed.ctl.followEnding = followCount (s.majorityCount 7) s.sameShowPeers.length s.ctl.followEnding := by
  refine ⟨at_.state, ?_, ?_, ?_⟩ <;>
    simp only [State.followed, at_.majority, at_.peers, at_.ctl]

theorem follows_hold (runs : s.ctl.state = .running) (majority : s.sameShowPeers.length < 2 * s.majorityCount 6)
    (third : 2 ≤ s.ctl.followHold) : w.follow.settle.ctl.state = .hold ∧ w.follow.settle.ctl.followHold = 0 ∧
      w.follow.settle.seq.queue = s.seq.queue ∧ w.follow.settle.seq.table = s.seq.table ∧
      w.follow.settle.head.heads = s.head.heads := by
  have runs' : w.ctl.state = .running := (congrArg ShowControl.state at_.ctl).trans runs
  have holds : w.follow = w.followed.enterHold := by
    rw [State.follow_eq (by rw [runs']; rfl), if_pos ⟨runs', at_.hold_iff.mpr ⟨majority, third⟩⟩]
  obtain ⟨state, seq, _⟩ := w.followed.enterHold_leaves
  have zero : w.followed.enterHold.ctl.followHold = 0 := by simp [State.enterHold]
  have head : w.followed.enterHold.head = w.head := by simp [State.followed]
  rw [holds]
  generalize w.followed.enterHold = t at *
  rw [State.settle_of_calm (by rw [state]; decide) (by rw [state]; decide), State.grant_eq]
  have seq' : w.followed.seq = s.seq := at_.seq
  dsimp only
  rw [seq, seq', head, at_.head]
  exact ⟨state, zero, rfl, rfl, rfl⟩

theorem follows_running (holds : s.ctl.state = .hold) (majority : s.sameShowPeers.length < 2 * s.majorityCount 5)
    (third : 2 ≤ s.ctl.followRunning) : w.follow = w.followed.resumeShow := by
  have holds' : w.ctl.state = .hold := (congrArg ShowControl.state at_.ctl).trans holds
  rw [State.follow_eq (by rw [holds']; rfl), if_neg (by rw [holds']; exact fun h => nomatch h.1),
    if_pos ⟨holds', at_.running_iff.mpr ⟨majority, third⟩⟩]

theorem follows_ending (under : s.ctl.state.underWay = true) (majority : s.sameShowPeers.length < 2 * s.majorityCount 7)
    (third : 2 ≤ s.ctl.followEnding) : w.follow = w.followed.enterEnding .follow := by
  have alone (code : Nat) (other : code ≠ 7) : ¬ s.sameShowPeers.length < 2 * s.majorityCount code := by
    have both := s.majorityCount_add_le other
    omega
  rw [State.follow_eq (by rw [at_.ctl]; exact under), if_neg fun h => alone 6 (by decide) (at_.hold_iff.mp h.2).1,
    if_neg fun h => alone 5 (by decide) (at_.running_iff.mp h.2).1, if_pos (at_.ending_iff.mpr ⟨majority, third⟩)]

end AtAgreement

/-! ### The state at an expiry (R50) -/

/-- The state in which the agreement is made: the timer runs on, and a PACE is queued. -/
def State.paced (pflt : BitVec 4) (t0 : Nat) (s : State) : State := (s.atPaceExpiry pflt t0).queuePace

theorem State.passTo_clock (t0 : Nat) (s : State) : (s.passTo t0).clock.stepped = s.clock.stepped ∧
    (s.ctl.state = .hold → (s.passTo t0).clock.showTime = s.clock.showTime) := by
  unfold State.passTo State.passTime
  split
  · exact ⟨rfl, fun _ => rfl⟩
  · exact ⟨rfl, fun hold => by simp [hold, ShowState.timeRuns]⟩

theorem State.paced_keeps (pflt : BitVec 4) (t0 : Nat) (s : State) :
    (s.paced pflt t0).ctl = s.ctl ∧ (s.paced pflt t0).seq = s.seq ∧ (s.paced pflt t0).head = s.head ∧
      (s.paced pflt t0).peers = s.peers ∧ (s.paced pflt t0).mon = s.mon ∧ (s.paced pflt t0).jet = s.jet ∧
      (s.paced pflt t0).clock = { (s.passTo t0).clock with paceTimer := some (t0 + 20000) } ∧
      (s.paced pflt t0).localTimer = (s.passTo t0).localTimer := by
  unfold State.paced State.atPaceExpiry
  dsimp only
  simp only [State.queuePace_keeps, State.passTo_keeps]
  refine ⟨trivial, trivial, trivial, trivial, trivial, trivial, ?_, ?_⟩ <;>
  · unfold State.passTo State.passTime
    split <;> rfl

theorem State.paced_offsets (pflt : BitVec 4) (t0 : Nat) (s : State) :
    (s.paced pflt t0).usableOffsets = (s.passTo t0).usableOffsets := by
  obtain ⟨ctl, _, _, peers, _, _, _, timer⟩ := s.paced_keeps pflt t0
  rw [State.usableOffsets, State.usableOffsets, ctl, peers, timer, (State.passTo_keeps _ _).2.1, (State.passTo_keeps _ _).2.2.2.1]

theorem State.atAgreement_of_paced (pflt : BitVec 4) (t0 : Nat) (s : State) : AtAgreement s (s.paced pflt t0) := by
  obtain ⟨ctl, seq, head, peers, _⟩ := s.paced_keeps pflt t0
  exact ⟨ctl, seq, head, State.sameShowPeers_congr (by rw [ctl]) fun k => by rw [peers]; exact ⟨rfl, rfl⟩⟩

/-! ### An agreement that brings no step and no crossing (R54) -/

/-- Show time is adjusted, and the offsets with it. -/
def State.adjusted (s : State) : State :=
  let t := adjustedTime s.ctl.state s.clock.showTime (adjustmentOf (agreementOf s.usableOffsets))
  State.shiftOffsets (t - s.clock.showTime) { s with clock := { s.clock with showTime := t } }

theorem State.adjusted_showTime (s : State) : s.adjusted.clock.showTime =
    adjustedTime s.ctl.state s.clock.showTime (adjustmentOf (agreementOf s.usableOffsets)) := by
  simp [State.adjusted]

theorem State.agree_slews {s : State} (small : (agreementOf s.usableOffsets).natAbs ≤ 20000) :
    s.agree = s.adjusted.checkZero.checkTimeLimit := by
  have slew : isStep (agreementOf s.usableOffsets) = false := by simpa [isStep] using small
  unfold State.agree
  dsimp only
  rw [slew]
  rfl

theorem State.atAgreement_of_adjusted {s w : State} (at_ : AtAgreement s w) : AtAgreement s w.adjusted := by
  refine ⟨by simp [State.adjusted, at_.ctl], by simp [State.adjusted, at_.seq], by simp [State.adjusted, at_.head], ?_⟩
  rw [← at_.peers]
  refine State.sameShowPeers_congr (by simp [State.adjusted]) fun k => ?_
  simp [State.adjusted, State.shiftOffsets]

/-- In HOLD there is no agreement, and otherwise an agreement of at most 20 ms that brings no crossing only adjusts. -/
theorem State.paceExpiry_small {s : State} (pflt : BitVec 4) (t0 : Nat)
    (under : s.ctl.state = .countdown ∨ s.ctl.state = .running ∨ s.ctl.state = .hold)
    (small : s.ctl.state ≠ .hold → (agreementOf (s.passTo t0).usableOffsets).natAbs ≤ 20000)
    (before : s.ctl.state = .countdown → adjustedTime s.ctl.state (s.passTo t0).clock.showTime
      (adjustmentOf (agreementOf (s.passTo t0).usableOffsets)) < 0)
    (below : s.ctl.state ≠ .hold → adjustedTime s.ctl.state (s.passTo t0).clock.showTime
      (adjustmentOf (agreementOf (s.passTo t0).usableOffsets)) < 1800000000) :
    ∃ w : State, (s.atPaceExpiry pflt t0).paceExpiry = w.follow.settle ∧ AtAgreement s w ∧ w.clock.showTime =
      if s.ctl.state = .hold then s.clock.showTime else adjustedTime s.ctl.state (s.passTo t0).clock.showTime
        (adjustmentOf (agreementOf (s.passTo t0).usableOffsets)) := by
  have at_ := s.atAgreement_of_paced pflt t0
  have offsets := s.paced_offsets pflt t0
  obtain ⟨_, _, _, _, _, _, clock, _⟩ := s.paced_keeps pflt t0
  by_cases hold : s.ctl.state = .hold
  · refine ⟨s.paced pflt t0, ?_, at_, ?_⟩
    · have state : (s.paced pflt t0).ctl.state = .hold := by rw [at_.ctl, hold]
      rw [State.paceExpiry, ← State.paced]
      simp only [state]
    · rw [if_pos hold, clock]
      exact (s.passTo_clock t0).2 hold
  · have time : (s.paced pflt t0).adjusted.clock.showTime = adjustedTime s.ctl.state (s.passTo t0).clock.showTime
        (adjustmentOf (agreementOf (s.passTo t0).usableOffsets)) := by
      rw [State.adjusted_showTime, at_.ctl, clock, offsets]
    have adjusts := State.atAgreement_of_adjusted at_
    refine ⟨(s.paced pflt t0).adjusted, ?_, adjusts, by rw [if_neg hold, time]⟩
    have zero : (s.paced pflt t0).adjusted.checkZero = (s.paced pflt t0).adjusted :=
      if_neg fun h => absurd (before (by rw [← adjusts.ctl]; exact h.1)) (by rw [← time]; exact h.2.not_gt)
    have agrees : (s.paced pflt t0).agree = (s.paced pflt t0).adjusted := by
      rw [State.agree_slews (by rw [offsets]; exact small hold), zero, State.checkTimeLimit_below (by rw [time]; exact below hold)]
    rw [← agrees, State.paceExpiry, ← State.paced]
    have state : (s.paced pflt t0).ctl.state = s.ctl.state := by rw [at_.ctl]
    rcases under with e | e | e
    · simp only [state, e]
    · simp only [state, e]
    · exact absurd e hold

/-- The end of a step leaves show time, where no load stands. -/
theorem State.follow_settle_showTime {w : State} (loaded : w.ctl.state ≠ .loading) :
    w.follow.settle.clock.showTime = w.clock.showTime := by
  rw [State.settle_showTime (State.follow_not_loading loaded)]
  simp

/-- Settles O26. -/
theorem holdFollowsTheMajority : Obligations.HoldFollowsTheMajority := by
  refine ⟨fun s pflt t0 timer hold => ?_, fun s pflt t0 timer under => ?_⟩
  · obtain ⟨w, expires, at_, time⟩ := State.paceExpiry_small (s := s) pflt t0 (.inr (.inr hold)) (fun h => absurd hold h)
      (fun h => by rw [hold] at h; cases h) (fun h => absurd hold h)
    have next := exec_paceTimerExpiry pflt timer
    rw [if_pos hold] at time
    rw [expires] at next
    have loaded : w.ctl.state ≠ .loading := by rw [at_.ctl, hold]; decide
    have underWay : s.ctl.state.underWay = true := by rw [hold]; rfl
    have unrun : s.ctl.state = .running → s.sameShowPeers.length < 2 * s.majorityCount 6 → s.ctl.followHold < 2 := fun e => by
      rw [hold] at e
      cases e
    refine ⟨_, next, (State.follow_settle_showTime loaded).trans time, fun majority third => ?_, fun fewRun fewEnd => ?_,
      fun noRun noEnd => ?_⟩
    · obtain ⟨unheld, unloaded⟩ := w.followed.resumeShow_unheld
      rw [at_.follows_running hold majority third]
      refine ⟨(State.settle_onward unloaded).unheld unheld, fun clear undue below => ?_⟩
      have seq : w.followed.seq = s.seq := at_.seq
      have clock : w.followed.clock.showTime = s.clock.showTime := time
      have reads : ReadAhead w.followed.enterRunning w.followed.resumeShow := State.resumeShow_leaves (by rw [clock]; exact below)
        ((State.headDue_congr seq clock).trans undue) (by rw [seq]; exact clear)
      obtain ⟨state, _, zero, seqR, _⟩ := State.enterRunning_leaves (s := w.followed) (by rw [clock]; exact below)
      have running : w.followed.resumeShow.ctl.state = .running := by rw [reads.ctl, state]
      rw [State.settle_of_calm (by rw [running]; decide) (by rw [running]; decide), State.grant_eq]
      dsimp only
      rw [reads.seq, seqR, seq, reads.ctl]
      exact ⟨state, zero, rfl, rfl⟩
    · rw [at_.stays underWay unrun (fun _ h => absurd h fewRun.not_gt) (fun h => absurd h fewEnd.not_gt)]
      obtain ⟨state, _, running, ending⟩ := at_.counts
      exact ⟨state.trans hold, running.trans (followCount_none fewRun), ending.trans (followCount_none fewEnd)⟩
    · beta_reduce
      rw [at_.stays underWay unrun (fun _ => noRun) noEnd]
      exact at_.counts
  · intro u A T small before below
    have underWay : s.ctl.state.underWay = true := by rcases under with e | e | e <;> rw [e] <;> rfl
    obtain ⟨w, expires, at_, time⟩ := State.paceExpiry_small (s := s) pflt t0 under small
      (fun e => by have t := before e; rwa [show T = _ from if_neg (by rw [e]; decide)] at t)
      (fun e => by rwa [show T = _ from if_neg e] at below)
    have next := exec_paceTimerExpiry pflt timer
    rw [expires] at next
    have loaded : w.ctl.state ≠ .loading := by
      rw [at_.ctl]
      intro e
      rw [e] at underWay
      cases underWay
    refine ⟨_, next, (State.follow_settle_showTime loaded).trans time, fun runs majority third => ?_, fun majority third => ?_,
      fun fewEnd fewHold fewRun => ?_, fun noHold noRun noEnd => ?_⟩
    · exact at_.follows_hold runs majority third
    · rw [at_.follows_ending underWay majority third]
      have ended := State.enterEnding_settle .follow w.followed
      exact ⟨ended.state, ended.cause, ended.queue⟩
    · rw [at_.stays underWay (fun _ h => absurd h fewHold.not_gt) (fun _ h => absurd h fewRun.not_gt)
        (fun h => absurd h fewEnd.not_gt)]
      obtain ⟨state, hold, running, ending⟩ := at_.counts
      exact ⟨state, hold.trans (followCount_none fewHold), running.trans (followCount_none fewRun),
        ending.trans (followCount_none fewEnd)⟩
    · beta_reduce
      rw [at_.stays underWay noHold noRun noEnd]
      exact at_.counts

end Sys2Proof.Machine
end

