-- ==== Sys2Proof/Proofs/ClockSteps.lean ====
section
/-! PROOFS. Slews and steps of show time (R54, R57), and the catch-up scan of a forward step (R91 to R94). -/

set_option Elab.async false

namespace Sys2Proof.Machine

/-! ### The PACE that an expiry queues (R29, R50) -/

theorem Line.fill_spec (l : Line) : l.fill.tx ≠ .quiet ∧ l.fill.paceSlot = l.paceSlot ∧ l.fill.paceTries = l.paceTries := by
  unfold Line.fill
  split
  · exact ⟨nofun, rfl, rfl⟩
  · next awake => exact ⟨awake, rfl, rfl⟩

theorem Line.queuePace_spec (l : Line) :
    l.queuePace.paceSlot = true ∧ l.queuePace.tx ≠ .quiet ∧ l.queuePace.paceTries = l.paceTries := by
  have tries : (l.noteReplaced .pace).paceTries = l.paceTries := by
    unfold Line.noteReplaced
    split <;> rfl
  obtain ⟨awake, slot, kept⟩ := Line.fill_spec { l.noteReplaced .pace with paceSlot := true }
  exact ⟨slot, awake, kept.trans tries⟩

theorem State.paceExpiry_line (s : State) : s.paceExpiry.line = s.line.queuePace := by
  unfold State.paceExpiry
  dsimp only
  split <;> simp [State.queuePace]

/-! ### What stays of a setting (R49, R57) -/

/-- Show time, the STEPPED flag and its timer are those of `s`. -/
def SettingStands (s t : State) : Prop :=
  t.clock.showTime = s.clock.showTime ∧ t.clock.stepped = s.clock.stepped ∧ t.clock.stepRecent = s.clock.stepRecent

theorem Onward.setting_stands {s t : State} (h : Onward s t) : SettingStands s t := ⟨h.showTime, h.stepped, h.recent⟩

theorem SettingStands.trans {s t u : State} (h : SettingStands s t) (k : SettingStands t u) : SettingStands s u := by
  obtain ⟨showTime, stepped, recent⟩ := h
  obtain ⟨showTime', stepped', recent'⟩ := k
  exact ⟨showTime'.trans showTime, stepped'.trans stepped, recent'.trans recent⟩

theorem State.changeState_setting (n : ShowState) (s : State) : SettingStands s (s.changeState n) :=
  ⟨by simp, State.changeState_stepped n s⟩

theorem State.follow_setting (s : State) : SettingStands s s.follow := by
  cases under : s.ctl.state.underWay with
  | false => rw [show s.follow = s from if_pos under]; exact ⟨rfl, rfl, rfl⟩
  | true =>
    have counted : SettingStands s s.followed := ⟨rfl, rfl, rfl⟩
    rw [State.follow_eq under]
    split
    · have held : SettingStands s.followed s.followed.enterHold :=
        (State.changeState_setting .hold s.followed).trans (by rw [State.enterHold]; simp [SettingStands])
      exact counted.trans held
    split
    · exact counted.trans ((State.changeState_setting .running s.followed).trans s.followed.resumeShow_onward.setting_stands)
    split
    · exact counted.trans (State.enterEnding_onward _ _).setting_stands
    · exact counted

/-- The end of an agreement leaves the setting. -/
theorem State.crossings_setting {s : State} (loaded : s.ctl.state ≠ .loading) :
    SettingStands s (s.checkZero.checkTimeLimit).follow.settle := by
  have crossed : SettingStands s s.checkZero.checkTimeLimit :=
    ((State.checkZero_onward s).trans (State.checkTimeLimit_onward _)).setting_stands
  have loaded' : s.checkZero.checkTimeLimit.ctl.state ≠ .loading :=
    State.checkTimeLimit_not_loading (State.checkZero_not_loading loaded)
  exact crossed.trans ((State.follow_setting _).trans (State.settle_onward (State.follow_not_loading loaded')).setting_stands)

theorem adjustmentOf_small {a : Int} (small : a.natAbs ≤ 20000) : adjustmentOf a = max (-100) (min 100 (Int.tdiv a 4)) := by
  rw [adjustmentOf, if_neg (by simpa [isStep] using small), clampInt_eq _ _ _ (by decide), Int.min_comm]

theorem adjustmentOf_step {a : Int} (large : 20000 < a.natAbs) : adjustmentOf a = a := if_pos (by simpa [isStep] using large)

/-! ### A step (R57, R91) -/

theorem State.stepReported_onward (a : Int) (s : State) : Onward s (s.stepReported a) := by
  unfold State.stepReported
  split
  · exact .refl s
  split
  · exact s.startScan_onward
  split
  · exact (issueDueN_onward _ _).trans (readOnN_onward _ _)
  · exact .refl s

/-- A step is noted: CLOCK STEP, the STEPPED flag and its timer. -/
def State.stepNoted (s : State) : State :=
  { s.raise .clockStep none none with
    clock := { s.clock with stepped := true, stepRecent := some (s.localTimer + 1000000) } }

theorem State.noteStep_eq (applied : Int) (s : State) : s.noteStep applied = s.stepNoted.stepReported applied := rfl

theorem State.agree_steps {s : State} (large : 20000 < (agreementOf s.usableOffsets).natAbs) : s.agree =
    (s.adjusted.stepNoted.stepReported
      (adjustedTime s.ctl.state s.clock.showTime (agreementOf s.usableOffsets) - s.clock.showTime)).checkZero.checkTimeLimit := by
  have step : isStep (agreementOf s.usableOffsets) = true := by simpa [isStep] using large
  unfold State.agree
  dsimp only
  rw [if_pos step, State.noteStep_eq, adjustmentOf_step large, State.adjusted, adjustmentOf_step large]

/-! ### JETs applied in a scan (R93) -/

/-- What a JET makes of the channel table (R88). -/
def QueueEntry.applyTo (table : Vector (Option TableEntry) 4) (e : QueueEntry) : Vector (Option TableEntry) 4 :=
  match e.cue.body with
  | .jet c height openSet => table.set c (some { height := height, openSet := openSet, cueId := e.cue.id, seen := false })
  | _ => table

theorem CueRec.isJet_iff (c : CueRec) : c.isJet = true ↔ ∃ ch height set, c.body = .jet ch height set := by
  unfold CueRec.isJet
  cases c.body <;> simp

/-- A scan applies a JET to the channel table alone (R88, R93). -/
theorem State.applyEntry_jet {s : State} {e : QueueEntry} (cueing : s.ctl.state.cueing = true) (jet : e.cue.isJet = true) :
    s.applyEntry e = { s with seq := { s.seq with table := e.applyTo s.seq.table } } := by
  obtain ⟨c, height, set, body⟩ := e.cue.isJet_iff.mp jet
  have unpredicted : s.predict e.cue = s := by rw [State.predict, body]
  rw [State.applyEntry, if_pos cueing, State.applyCue, unpredicted, State.handOn, QueueEntry.applyTo, body]
  rfl

theorem foldl_applyEntry_jets (l : List QueueEntry) {s : State} (cueing : s.ctl.state.cueing = true)
    (jets : ∀ e ∈ l, e.cue.isJet = true) : l.foldl (fun s e => s.applyEntry e) s =
      { s with seq := { s.seq with table := l.foldl QueueEntry.applyTo s.seq.table } } := by
  induction l generalizing s with
  | nil => rfl
  | cons e l ih =>
    have first := State.applyEntry_jet cueing (jets e List.mem_cons_self)
    rw [List.foldl_cons, List.foldl_cons, first]
    exact ih (s := { s with seq := { s.seq with table := e.applyTo s.seq.table } }) cueing
      fun e h => jets e (List.mem_cons_of_mem _ h)

theorem QueueEntry.applyTo_other {e : QueueEntry} {c : Channel} (other : ∀ height set, e.cue.body ≠ .jet c height set)
    (table : Vector (Option TableEntry) 4) : (e.applyTo table)[c] = table[c] := by
  unfold QueueEntry.applyTo
  split
  · next d height set body =>
    have ne : d ≠ c := fun h => other height set (h ▸ body)
    simp [Vector.getElem_set_ne _ _ fun h => ne (Fin.ext h)]
  · rfl

theorem QueueEntry.applyTo_own {e : QueueEntry} {c : Channel} {height : Nat} {set : NozzleSet}
    (body : e.cue.body = .jet c height set) (table : Vector (Option TableEntry) 4) :
    (e.applyTo table)[c] = some { height := height, openSet := set, cueId := e.cue.id, seen := false } := by
  rw [QueueEntry.applyTo, body]
  simp

theorem foldl_applyTo_other {l : List QueueEntry} {c : Channel}
    (other : ∀ e ∈ l, ∀ height set, e.cue.body ≠ .jet c height set) (table : Vector (Option TableEntry) 4) :
    (l.foldl QueueEntry.applyTo table)[c] = table[c] := by
  induction l generalizing table with
  | nil => rfl
  | cons e l ih =>
    rw [List.foldl_cons, ih (fun e h => other e (List.mem_cons_of_mem _ h)),
      QueueEntry.applyTo_other (other e List.mem_cons_self)]

/-- The last JET of a channel decides its table entry. -/
theorem foldl_applyTo_last {post : List QueueEntry} {e : QueueEntry} {c : Channel} {height : Nat} {set : NozzleSet}
    (body : e.cue.body = .jet c height set) (last : ∀ d ∈ post, (∃ height set, d.cue.body = .jet c height set) → d = e)
    (table : Vector (Option TableEntry) 4)
    (stands : table[c] = some { height := height, openSet := set, cueId := e.cue.id, seen := false }) :
    (post.foldl QueueEntry.applyTo table)[c] = some { height := height, openSet := set, cueId := e.cue.id, seen := false } := by
  induction post generalizing table with
  | nil => exact stands
  | cons d post ih =>
    refine ih (fun d h => last d (List.mem_cons_of_mem _ h)) _ ?_
    by_cases own : ∃ height set, d.cue.body = .jet c height set
    · rw [last d List.mem_cons_self own]
      exact QueueEntry.applyTo_own body _
    · rw [QueueEntry.applyTo_other fun height set h => own ⟨height, set, h⟩]
      exact stands

/-! ### The order of application (R92) -/

/-- The order of beats, ties in stream order. -/
def QueueEntry.beatBefore (a b : QueueEntry) : Prop :=
  a.cue.beat < b.cue.beat ∨ (a.cue.beat = b.cue.beat ∧ a.cue.order < b.cue.order)

theorem QueueEntry.beatBefore_asymm {a b : QueueEntry} (h : a.beatBefore b) : ¬ b.beatBefore a := by
  unfold QueueEntry.beatBefore at *
  omega

theorem QueueEntry.beatBefore_trans {a b c : QueueEntry} (h : a.beatBefore b) (k : b.beatBefore c) : a.beatBefore c := by
  unfold QueueEntry.beatBefore at *
  omega

theorem mem_insertByBeat (e x : QueueEntry) (l : List QueueEntry) : x ∈ insertByBeat e l ↔ x = e ∨ x ∈ l := by
  induction l with
  | nil => simp [insertByBeat]
  | cons y l ih =>
    unfold insertByBeat
    split
    · simp
    · simp only [List.mem_cons, ih]
      tauto

/-- No entry comes after one that it goes before. -/
def InBeatOrder (l : List QueueEntry) : Prop := l.Pairwise fun a b => ¬ b.beatBefore a

theorem InBeatOrder.insert (e : QueueEntry) {l : List QueueEntry} (h : InBeatOrder l) : InBeatOrder (insertByBeat e l) := by
  induction l with
  | nil => exact List.pairwise_singleton _ _
  | cons x l ih =>
    obtain ⟨first, rest⟩ := List.pairwise_cons.mp h
    unfold insertByBeat
    split
    · next before =>
      have before : e.beatBefore x := before
      refine List.pairwise_cons.mpr ⟨fun y hy after => ?_, h⟩
      rcases List.mem_cons.mp hy with rfl | hy
      · exact QueueEntry.beatBefore_asymm before after
      · exact first y hy (QueueEntry.beatBefore_trans after before)
    · next after =>
      refine List.pairwise_cons.mpr ⟨fun y hy => ?_, ih rest⟩
      rcases (mem_insertByBeat e y l).mp hy with rfl | hy
      · exact after
      · exact first y hy

/-- The entries in the order in which a scan applies them. -/
def inBeatOrder (l : List QueueEntry) : List QueueEntry := l.foldl (fun l e => insertByBeat e l) []

theorem foldl_insertByBeat (l : List QueueEntry) {acc : List QueueEntry} (h : InBeatOrder acc) :
    InBeatOrder (l.foldl (fun l e => insertByBeat e l) acc) ∧
      ∀ x, x ∈ l.foldl (fun l e => insertByBeat e l) acc ↔ x ∈ l ∨ x ∈ acc := by
  induction l generalizing acc with
  | nil => exact ⟨h, fun x => by simp⟩
  | cons e l ih =>
    obtain ⟨order, mem⟩ := ih (h.insert e)
    refine ⟨order, fun x => ?_⟩
    rw [List.foldl_cons, mem, mem_insertByBeat, List.mem_cons]
    tauto

theorem inBeatOrder_spec (l : List QueueEntry) : InBeatOrder (inBeatOrder l) ∧ ∀ x, x ∈ inBeatOrder l ↔ x ∈ l := by
  obtain ⟨order, mem⟩ := foldl_insertByBeat l (acc := []) List.Pairwise.nil
  exact ⟨order, fun x => (mem x).trans (by simp)⟩

/-- The JET of a channel that goes after all others of that channel decides its entry. -/
theorem inBeatOrder_table {l : List QueueEntry} {e : QueueEntry} {c : Channel} {height : Nat} {set : NozzleSet}
    (mem : e ∈ l) (body : e.cue.body = .jet c height set)
    (last : ∀ d ∈ l, (∃ height set, d.cue.body = .jet c height set) → d = e ∨ d.beatBefore e)
    (table : Vector (Option TableEntry) 4) : ((inBeatOrder l).foldl QueueEntry.applyTo table)[c] =
      some { height := height, openSet := set, cueId := e.cue.id, seen := false } := by
  obtain ⟨order, members⟩ := inBeatOrder_spec l
  obtain ⟨pre, post, split⟩ := List.append_of_mem ((members e).mpr mem)
  rw [split] at order ⊢
  rw [List.foldl_append, List.foldl_cons]
  refine foldl_applyTo_last body (fun d hd own => ?_) _ (QueueEntry.applyTo_own body _)
  have after : ¬ d.beatBefore e := (List.pairwise_cons.mp (List.pairwise_append.mp order).2.1).1 d hd
  have inside : d ∈ l := (members d).mp (by rw [split]; exact List.mem_append_right _ (List.mem_cons_of_mem _ hd))
  exact (last d inside own).resolve_right after

/-! ### The scan (R92 to R94) -/

/-- The entries that a scan applies, and those that it leaves. -/
def State.dueByBeat (s : State) (e : QueueEntry) : Bool := decide ((e.cue.beat : Int) * 1000 ≤ s.clock.showTime)

/-- The state in which a scan applies the due entries. -/
def State.scanBegun (s : State) : State :=
  { s with
    jet := { s.jet with view := some { table := s.seq.table, jets := queuedJets s.seq.queue } }
    seq := { s.seq with catchUp := true, queue := s.seq.queue.filter fun e => !s.dueByBeat e } }

theorem State.startScan_eq {s : State} (clear : s.seq.catchUp = false) : s.startScan =
    ((inBeatOrder (s.seq.queue.filter s.dueByBeat)).foldl (fun s e => s.applyEntry e) s.scanBegun).readOn :=
  if_neg (by rw [clear]; decide)

/-- A record that lies ahead ends the scan, and stays staged (R93, R94). -/
theorem State.readOn_ends {s : State} {st : Staged} (cueing : s.ctl.state.cueing = true) (scan : s.seq.catchUp = true)
    (staged : s.seq.staged = some st) (fresh : st.stalled = false) (ahead : s.clock.showTime < (st.cue.beat : Int) * 1000) :
    s.readOn = State.askPass { s with seq := { s.seq with catchUp := false }, jet := { s.jet with view := none } } := by
  have ended : s.endScan = State.askPass { s with seq := { s.seq with catchUp := false }, jet := { s.jet with view := none } } := by
    unfold State.endScan State.retake
    simp only [State.askPass_keeps, staged, fresh]
    simp
  obtain ⟨n, steps⟩ : ∃ n, s.readSteps = n + 2 := ⟨_, rfl⟩
  have cueing' : s.endScan.ctl.state.cueing = true := by rw [ended]; simpa using cueing
  have staged' : s.endScan.seq.staged = some st := by rw [ended]; simpa using staged
  have clear' : s.endScan.seq.catchUp = false := by rw [ended]; simp
  rw [State.readOn, steps, readOnN, if_neg (by rw [cueing]; decide), staged]
  dsimp only
  rw [if_neg (by rw [scan]; decide), if_neg ahead.not_ge, readOnN, if_neg (by rw [cueing']; decide), staged']
  dsimp only
  rw [if_pos clear', ended]

/-- The state after a scan that applies JETs alone. -/
def State.scanned (s : State) : State :=
  State.askPass { s with
    seq := { s.seq with
      catchUp := false
      queue := s.seq.queue.filter fun e => !s.dueByBeat e
      table := (inBeatOrder (s.seq.queue.filter s.dueByBeat)).foldl QueueEntry.applyTo s.seq.table }
    jet := { s.jet with view := none } }

theorem State.scanned_leaves (s : State) : s.scanned.ctl = s.ctl ∧ s.scanned.mon = s.mon ∧
    s.scanned.seq = { s.seq with
      catchUp := false
      queue := s.seq.queue.filter fun e => !s.dueByBeat e
      table := (inBeatOrder (s.seq.queue.filter s.dueByBeat)).foldl QueueEntry.applyTo s.seq.table } ∧
    s.scanned.jet.view = none ∧ (s.operating = true → s.scanned.jet.passDue = true) := by
  rw [State.scanned, State.askPass_jet]
  simp only [State.askPass_keeps]
  exact ⟨trivial, trivial, trivial, trivial, fun op => Bool.or_eq_true_iff.mpr (.inr op)⟩

/-- A scan of due JETs that a record ahead ends. -/
theorem State.startScan_of_jets {s : State} {st : Staged} (cueing : s.ctl.state.cueing = true) (clear : s.seq.catchUp = false)
    (staged : s.seq.staged = some st) (fresh : st.stalled = false) (ahead : s.clock.showTime < (st.cue.beat : Int) * 1000)
    (jets : ∀ e ∈ s.seq.queue, s.dueByBeat e = true → e.cue.isJet = true) :
    s.startScan = s.scanned := by
  have dueJets : ∀ e ∈ inBeatOrder (s.seq.queue.filter s.dueByBeat), e.cue.isJet = true := fun e mem => by
    obtain ⟨inside, due⟩ := List.mem_filter.mp (((inBeatOrder_spec _).2 e).mp mem)
    exact jets e inside due
  rw [State.startScan_eq clear, foldl_applyEntry_jets _ (s := s.scanBegun) cueing dueJets]
  refine Eq.trans (State.readOn_ends (st := st) ?_ ?_ ?_ fresh ?_) ?_
  · exact cueing
  · rfl
  · exact staged
  · exact ahead
  · rfl

/-- What an expiry does by the show state (R50). -/
theorem State.paceExpiry_running {s : State} (pflt : BitVec 4) (t0 : Nat)
    (runs : s.ctl.state = .countdown ∨ s.ctl.state = .running) :
    (s.atPaceExpiry pflt t0).paceExpiry = (s.paced pflt t0).agree.follow.settle := by
  have state : (s.paced pflt t0).ctl.state = s.ctl.state := congrArg ShowControl.state (s.paced_keeps pflt t0).1
  rw [State.paceExpiry, ← State.paced]
  rcases runs with e | e <;> simp only [state, e]

theorem State.paceExpiry_still {s : State} (pflt : BitVec 4) (t0 : Nat) (counting : s.ctl.state ≠ .countdown)
    (running : s.ctl.state ≠ .running) : SettingStands (s.paced pflt t0) (s.atPaceExpiry pflt t0).paceExpiry := by
  have state : (s.paced pflt t0).ctl.state = s.ctl.state := congrArg ShowControl.state (s.paced_keeps pflt t0).1
  rw [State.paceExpiry, ← State.paced]
  split
  · next e => exact absurd (state.symm.trans e) counting
  · next e => exact absurd (state.symm.trans e) running
  · next hold =>
    exact (State.follow_setting _).trans (State.settle_onward (State.follow_not_loading (by rw [hold]; decide))).setting_stands
  · exact ⟨rfl, rfl, rfl⟩

/-- Below the time limit, a forward step of more than 4 s is applied as a step of more than 4 s. -/
theorem adjustedTime_forward {t a : Int} (far : 4000000 < a) (below : adjustedTime .running t a < 1800000000) :
    4000000 < adjustedTime .running t a - t := by
  rw [adjustedTime, clampShowTime_eq] at *
  simp only [true_and] at *
  split at below <;> rename_i h <;> simp only [h, if_true, if_false] <;> omega

theorem State.follow_of_new_counters {s : State} (running : s.ctl.state = .running) (hold : s.ctl.followHold = 0)
    (ending : s.ctl.followEnding = 0) : s.follow = s.followed := by
  have unheld : ¬ 3 ≤ s.followed.ctl.followHold := by
    rw [State.followed, three_le_followCount, hold]
    omega
  have going : ¬ 3 ≤ s.followed.ctl.followEnding := by
    rw [State.followed, three_le_followCount, ending]
    omega
  rw [State.follow_eq (by rw [running]; rfl), if_neg fun h => unheld h.2, if_neg (by rw [running]; exact fun h => nomatch h.1),
    if_neg going]

/-- A forward step in RUNNING (R91). -/
theorem State.paceExpiry_scans {s : State} {st : Staged} (pflt : BitVec 4) (t0 : Nat) (running : s.ctl.state = .running)
    (far : 4000000 < agreementOf (s.passTo t0).usableOffsets) (clear : s.seq.catchUp = false)
    (staged : s.seq.staged = some st) (fresh : st.stalled = false) (hold : s.ctl.followHold = 0)
    (ending : s.ctl.followEnding = 0)
    (below : adjustedTime .running (s.passTo t0).clock.showTime (agreementOf (s.passTo t0).usableOffsets) < 1800000000)
    (ahead : adjustedTime .running (s.passTo t0).clock.showTime (agreementOf (s.passTo t0).usableOffsets) <
      (st.cue.beat : Int) * 1000)
    (jets : ∀ e ∈ s.seq.queue, (e.cue.beat : Int) * 1000 ≤
      adjustedTime .running (s.passTo t0).clock.showTime (agreementOf (s.passTo t0).usableOffsets) → e.cue.isJet = true) :
    (s.atPaceExpiry pflt t0).paceExpiry = (s.paced pflt t0).adjusted.stepNoted.scanned.followed.grant ∧
      (s.paced pflt t0).adjusted.clock.showTime =
        adjustedTime .running (s.passTo t0).clock.showTime (agreementOf (s.passTo t0).usableOffsets) := by
  obtain ⟨ctl, seq, _, _, _, _, clock, _⟩ := s.paced_keeps pflt t0
  have offsets := s.paced_offsets pflt t0
  have large : 20000 < (agreementOf (s.paced pflt t0).usableOffsets).natAbs := by rw [offsets]; omega
  have time : (s.paced pflt t0).adjusted.clock.showTime =
      adjustedTime .running (s.passTo t0).clock.showTime (agreementOf (s.passTo t0).usableOffsets) := by
    rw [State.adjusted_showTime, adjustmentOf_step large, ctl, clock, offsets, running]
  have ctlA : (s.paced pflt t0).adjusted.ctl = s.ctl := by simp [State.adjusted, ctl]
  have seqA : (s.paced pflt t0).adjusted.seq = s.seq := by simp [State.adjusted, seq]
  refine ⟨?_, time⟩
  rw [State.paceExpiry_running pflt t0 (.inr running), State.agree_steps large, offsets, ctl, clock, running]
  dsimp only
  have forward := adjustedTime_forward far below
  generalize (s.paced pflt t0).adjusted = w at *
  have running' : w.stepNoted.ctl.state = .running := (congrArg ShowControl.state ctlA).trans running
  have cueing : w.stepNoted.ctl.state.cueing = true := by rw [running']; rfl
  have clear' : w.stepNoted.seq.catchUp = false := (congrArg Sequencer.catchUp seqA).trans clear
  have time' := (show w.stepNoted.clock.showTime = w.clock.showTime from rfl).trans time
  have scans : w.stepNoted.stepReported
      (adjustedTime .running (s.passTo t0).clock.showTime (agreementOf (s.passTo t0).usableOffsets) -
        (s.passTo t0).clock.showTime) = w.stepNoted.scanned := by
    rw [State.stepReported, if_neg (by rw [clear', cueing]; decide), if_pos forward]
    refine State.startScan_of_jets (st := st) cueing clear' ((congrArg Sequencer.staged seqA).trans staged) fresh
      (by rw [time']; exact ahead) fun e mem due => ?_
    have mem : e ∈ w.seq.queue := mem
    rw [seqA] at mem
    rw [State.dueByBeat, time', decide_eq_true_eq] at due
    exact jets e mem due
  have ctlS : w.stepNoted.scanned.ctl = s.ctl := by
    rw [State.scanned, (State.askPass_keeps _).2.2.1]
    exact ctlA
  have timeS : w.stepNoted.scanned.clock.showTime = w.clock.showTime := by
    rw [State.scanned, (State.askPass_keeps _).2.2.2.2.2.1]
    rfl
  rw [time] at timeS
  rw [scans]
  generalize w.stepNoted.scanned = x at *
  have runs : x.ctl.state = .running := by rw [ctlS, running]
  have uncrossed : x.checkZero = x := if_neg fun h => by rw [runs] at h; cases h.1
  rw [uncrossed, State.checkTimeLimit_below (by rw [timeS]; exact below),
    State.follow_of_new_counters runs (by rw [ctlS, hold]) (by rw [ctlS, ending])]
  exact State.settle_of_calm (by rw [State.followed, runs]; decide) (by rw [State.followed, runs]; decide)

/-- Settles O24. -/
theorem paceExpirySlewsOrSteps : Obligations.PaceExpirySlewsOrSteps := by
  intro s pflt t0 timer
  obtain ⟨ctl, seq, head, peers, mon, jet, clock, localTimer⟩ := s.paced_keeps pflt t0
  have offsets := s.paced_offsets pflt t0
  have next := exec_paceTimerExpiry pflt timer
  have line := (s.atPaceExpiry pflt t0).paceExpiry_line
  have lineAt : (s.atPaceExpiry pflt t0).line = s.line := by simp [State.atPaceExpiry]
  obtain ⟨slot, awake, tries⟩ := s.line.queuePace_spec
  rw [lineAt] at line
  obtain ⟨timerK, _, _, paceK, _⟩ := (s.atPaceExpiry pflt t0).paceExpiry_keeps
  have showTime : (s.paced pflt t0).clock.showTime = (s.passTo t0).clock.showTime := by rw [clock]
  have stepped : (s.paced pflt t0).clock.stepped = s.clock.stepped := by rw [clock]; exact (s.passTo_clock t0).1
  refine ⟨_, next, by rw [line]; exact slot, by rw [line]; exact awake, by rw [line]; exact tries,
    paceK.trans (congrArg Clock.paceTimer clock), timerK.trans localTimer, fun counting running => ?_, fun runs small => ?_,
    fun runs large => ?_, ?_⟩
  · exact (State.paceExpiry_still pflt t0 counting running).1.trans showTime
  · have loaded : (s.paced pflt t0).adjusted.ctl.state ≠ .loading := by
      rcases runs with e | e <;> simp [State.adjusted, ctl, e]
    obtain ⟨time, flag, _⟩ := State.crossings_setting loaded
    rw [State.paceExpiry_running pflt t0 runs, State.agree_slews (by rw [offsets]; exact small), time, flag,
      State.adjusted_showTime, ctl, showTime, offsets, adjustmentOf_small small]
    refine ⟨_, by omega, by omega, rfl, rfl, ?_⟩
    rw [← stepped]
    simp [State.adjusted]
  · have large' : 20000 < (agreementOf (s.paced pflt t0).usableOffsets).natAbs := by rw [offsets]; exact large
    have loaded : (s.paced pflt t0).adjusted.stepNoted.ctl.state ≠ .loading := by
      rcases runs with e | e <;> simp [State.adjusted, State.stepNoted, ctl, e]
    have adjusted := (s.paced pflt t0).adjusted_showTime
    rw [adjustmentOf_step large', ctl, showTime, offsets] at adjusted
    have timerA : (s.paced pflt t0).adjusted.localTimer = (s.passTo t0).localTimer := by simp [State.adjusted, localTimer]
    rw [State.paceExpiry_running pflt t0 runs, State.agree_steps large']
    generalize adjustedTime (s.paced pflt t0).ctl.state _ _ - _ = applied
    generalize (s.paced pflt t0).adjusted = w at *
    obtain ⟨time, flag, recent⟩ := (State.stepReported_onward applied w.stepNoted).setting_stands.trans
      (State.crossings_setting (State.stepReported_not_loading applied loaded))
    exact ⟨time.trans adjusted, flag, recent.trans (congrArg (fun n => some (n + 1000000)) timerA)⟩
  · intro st running far clear staged fresh hold ending T due below ahead jets
    obtain ⟨scans, time⟩ := State.paceExpiry_scans pflt t0 running far clear staged fresh hold ending below ahead jets
    have ctlA : (s.paced pflt t0).adjusted.ctl = s.ctl := by simp [State.adjusted, ctl]
    have seqA : (s.paced pflt t0).adjusted.seq = s.seq := by simp [State.adjusted, seq]
    have monA : (s.paced pflt t0).adjusted.mon = s.mon := by simp [State.adjusted, mon]
    rw [scans, State.grant_eq]
    generalize (s.paced pflt t0).adjusted = w at *
    obtain ⟨ctlX, monX, seqX, view, asked⟩ := w.stepNoted.scanned_leaves
    have op : w.stepNoted.operating = true := by
      rw [State.operating, show w.stepNoted.ctl = w.ctl from rfl, ctlA, running]
    have passDue := asked op
    generalize w.stepNoted.scanned = x at *
    have dueT : w.stepNoted.dueByBeat = fun e => decide ((e.cue.beat : Int) * 1000 ≤ T) := by
      funext e
      rw [State.dueByBeat, show w.stepNoted.clock.showTime = w.clock.showTime from rfl, time]
    have seqW : w.stepNoted.seq = s.seq := seqA
    rw [dueT, seqW] at seqX
    have others : s.seq.queue.filter (fun e => !decide ((e.cue.beat : Int) * 1000 ≤ T)) =
        s.seq.queue.filter fun e => decide (T < (e.cue.beat : Int) * 1000) :=
      List.filter_congr fun e _ => decide_not.symm.trans (decide_eq_decide.mpr Int.not_le)
    refine ⟨?_, ?_, view, passDue, ?_, ?_, ?_, fun c => ⟨fun none => ?_, fun e mem height set isDue body last => ?_⟩⟩
    · exact (congrArg ShowControl.state ctlX).trans ((congrArg ShowControl.state ctlA).trans running)
    · exact congrArg Sequencer.catchUp seqX
    · exact (congrArg Sequencer.staged seqX).trans staged
    · exact (congrArg Sequencer.queue seqX).trans others
    · refine monX.trans (Eq.trans ?_ (congrArg (fun T : Int => s.mon.count
        { kind := .clockStep, time := T, cueId := none, object := none }) time))
      rw [← monA]
      rfl
    · have table := congrArg (fun q : Sequencer => q.table[c]) seqX
      refine table.trans (foldl_applyTo_other (fun e mem height set body => ?_) s.seq.table)
      obtain ⟨inside, isDue⟩ := List.mem_filter.mp (((inBeatOrder_spec _).2 e).mp mem)
      exact none e inside (of_decide_eq_true isDue) height set body
    · have table := congrArg (fun q : Sequencer => q.table[c]) seqX
      refine table.trans (inBeatOrder_table (List.mem_filter.mpr ⟨mem, decide_eq_true isDue⟩) body (fun d hd own => ?_) s.seq.table)
      obtain ⟨inside, dueD⟩ := List.mem_filter.mp hd
      exact last d inside (of_decide_eq_true dueD) own

end Sys2Proof.Machine
end

