-- ==== Sys2Proof/Proofs/StagedRecords.lean ====
section
/-! PROOFS. The staged record (R84 to R86): into the queue, stalled at a full queue, or issued at once. -/

set_option Elab.async false

namespace Sys2Proof.Machine

/-! ### Issuing states and lead times -/

theorem State.issuing_iff (s : State) : s.issuing = true ↔ s.ctl.state.cueing = true ∧ s.seq.catchUp = false := by
  simp [State.issuing]

theorem ShowState.cueing_iff (n : ShowState) : n.cueing = true ↔ n = .countdown ∨ n = .running := by
  cases n <;> simp [ShowState.cueing]

theorem State.operating_of_cueing {s : State} (h : s.ctl.state.cueing = true) : s.operating = true := by
  rw [State.operating]
  rcases s.ctl.state.cueing_iff.mp h with e | e <;> rw [e]

/-- The end of a step in which cues issue. -/
theorem State.settle_cueing {s : State} (h : s.ctl.state.cueing = true) : s.settle = s.grant := by
  rcases s.ctl.state.cueing_iff.mp h with e | e <;> exact State.settle_of_calm (by rw [e]; decide) (by rw [e]; decide)

theorem State.leadOf_congr {s t : State} (config : t.store.config = s.store.config) (derate : t.jet.derate = s.jet.derate)
    (predicted : t.seq.predicted = s.seq.predicted) (c : CueRec) : t.leadOf c = s.leadOf c := by
  unfold State.leadOf State.aimTarget
  rw [config, derate, predicted]

theorem State.issueTime_congr {s t : State} (config : t.store.config = s.store.config) (derate : t.jet.derate = s.jet.derate)
    (predicted : t.seq.predicted = s.seq.predicted) (c : CueRec) : t.issueTime c = s.issueTime c := by
  rw [State.issueTime, State.issueTime, State.leadOf_congr config derate predicted]

theorem State.leadOf_jet {s : State} {c : CueRec} {ch : Channel} {height : Nat} {set : NozzleSet}
    (body : c.body = .jet ch height set) (high : height ≠ 0) : s.leadOf c = min 3500 ((s.store.config.channels[ch]).lbase +
      isqrt (min height (s.store.config.leastHmax ch) * s.jet.derate / 1000 * 2039)) := by
  rw [State.leadOf, body]
  dsimp only
  rw [if_neg high, flight]

theorem State.predict_of_jet {s : State} {c : CueRec} {ch : Channel} {height : Nat} {set : NozzleSet}
    (body : c.body = .jet ch height set) : s.predict c = s := by
  rw [State.predict, body]

theorem State.predict_eq (c : CueRec) (s : State) : ∃ p, s.predict c = { s with seq := { s.seq with predicted := p } } := by
  unfold State.predict
  split
  · exact ⟨_, rfl⟩
  · exact ⟨_, rfl⟩

theorem State.handOn_jet {s : State} {c : CueRec} {ch : Channel} {height : Nat} {set : NozzleSet}
    (body : c.body = .jet ch height set) : s.handOn c false = (s.applyJet ch height set c.id).askPass := by
  rw [State.handOn, body]
  rfl

/-- A JET's table entry is replaced, and in a show under way a pass is asked for (R88, R108). -/
theorem State.applyJet_asked {s : State} (cueing : s.ctl.state.cueing = true) (ch : Channel) (height id : Nat) (set : NozzleSet) :
    (s.applyJet ch height set id).askPass =
      { s with
        seq := { s.seq with
          table := s.seq.table.set ch (some { height := height, openSet := set, cueId := id, seen := false }) }
        jet := { s.jet with passDue := true } } := if_pos (State.operating_of_cueing cueing)

/-! ### Into the queue (R84, R86) -/

/-- A record ahead of its issue time joins a queue that has room. -/
theorem State.takeStaged_room {s : State} {st : Staged} (staged : s.seq.staged = some st)
    (ahead : s.clock.showTime < s.issueTime st.cue * 1000) (room : s.seq.queue.length < 64) : ∃ (p : Vector Nat 8) (due : Bool),
    s.takeStaged = { s with
      seq := { s.seq with
        staged := none, predicted := p, queue := insertEntry { cue := st.cue, issue := s.issueTime st.cue } s.seq.queue }
      jet := { s.jet with passDue := due } } ∧
      (s.jet.passDue = true → due = true) ∧ (st.cue.isJet = true → s.operating = true → due = true) := by
  obtain ⟨p, predicted⟩ := s.unstage.predict_eq st.cue
  refine ⟨p, s.jet.passDue || (st.cue.isJet && s.operating), ?_, fun due => by rw [due]; rfl, fun jet op => by rw [jet, op, Bool.and_self, Bool.or_true]⟩
  rw [State.takeStaged, staged]
  dsimp only
  rw [if_neg (by omega), if_neg (by omega), if_pos room, predicted]
  cases st.cue.isJet with
  | true =>
    rw [if_pos rfl]
    unfold State.askPass
    split
    · next op =>
      have op : s.operating = true := op
      rw [op, Bool.true_and, Bool.or_true]
      rfl
    · next op =>
      have op : s.operating = false := Bool.eq_false_iff.mpr op
      rw [op, Bool.and_false, Bool.or_false]
      rfl
  | false =>
    rw [if_neg (by decide), Bool.false_and, Bool.or_false]
    rfl

/-- A full queue stalls it. -/
theorem State.takeStaged_full {s : State} {st : Staged} (staged : s.seq.staged = some st) (fresh : st.stalled = false)
    (ahead : s.clock.showTime < s.issueTime st.cue * 1000) (full : 64 ≤ s.seq.queue.length) : s.takeStaged =
      { s with
        seq := { s.seq with staged := some { st with stalled := true } }
        mon := s.mon.count { kind := .queueFull, time := s.clock.showTime, cueId := some st.cue.id, object := none } } := by
  rw [State.takeStaged, staged]
  dsimp only
  rw [if_neg (by omega), if_neg (by omega), if_neg (by omega), if_neg (by rw [fresh]; decide)]
  rfl

/-- Its time come, a JET issues at once, late or not. -/
theorem State.takeStaged_due {s : State} {st : Staged} {ch : Channel} {height : Nat} {set : NozzleSet}
    (staged : s.seq.staged = some st) (cueing : s.ctl.state.cueing = true) (body : st.cue.body = .jet ch height set)
    (due : s.issueTime st.cue * 1000 ≤ s.clock.showTime) : s.takeStaged =
      { s with
        seq := { s.seq with
          staged := none
          table := s.seq.table.set ch (some { height := height, openSet := set, cueId := st.cue.id, seen := false }) }
        jet := { s.jet with passDue := true }
        mon := if s.issueTime st.cue * 1000 < s.clock.showTime
          then s.mon.count { kind := .lateCue, time := s.clock.showTime, cueId := some st.cue.id, object := some ch.val }
          else s.mon } := by
  rw [State.takeStaged, staged]
  dsimp only
  rw [State.predict_of_jet body]
  by_cases late : s.issueTime st.cue * 1000 < s.clock.showTime
  · rw [if_pos late, if_pos late, State.handOn_jet body, body]
    exact State.applyJet_asked (s := s.unstage.raise .lateCue (some st.cue.id) (some ch.val)) cueing _ _ _ _
  · rw [if_neg late, if_neg late, if_pos (by omega), State.handOn_jet body]
    exact State.applyJet_asked (s := s.unstage) cueing _ _ _ _

/-- Reading on does nothing while a record is staged, or while the reader waits for its block. -/
theorem State.readOn_of_staged {s : State} {st : Staged} (staged : s.seq.staged = some st) (clear : s.seq.catchUp = false) :
    s.readOn = s := by
  obtain ⟨n, steps⟩ : ∃ n, s.readSteps = n + 1 := ⟨_, rfl⟩
  rw [State.readOn, steps, readOnN, staged]
  dsimp only
  rw [if_pos clear, ite_self]

theorem State.readOn_of_waiting {s : State} (staged : s.seq.staged = none) (current : s.seq.current = none)
    (more : s.seq.endSeen = false) (waits : s.store.cueReq.isSome = true) : s.readOn = s := by
  obtain ⟨n, steps⟩ : ∃ n, s.readSteps = n + 1 := ⟨_, rfl⟩
  rw [State.readOn, steps, readOnN, staged]
  dsimp only
  rw [current]
  dsimp only
  rw [more, if_pos waits]
  exact ite_self _

/-! ### STAGED_RECORD_TAKEN -/

theorem exec_stagedRecordTaken {s : State} {st : Staged} (staged : s.seq.staged = some st) (fresh : st.stalled = false)
    (issues : s.issuing = true)
    (inside : (st.cue.beat : Int) * 1000 ≤ (s.passShowTo ((st.cue.beat : Int) * 1000 - 4000000)).clock.showTime + 4000000) :
    exec .stagedRecordTaken s =
      .next ((s.passShowTo ((st.cue.beat : Int) * 1000 - 4000000)).takeStaged.readOn).settle := by
  have ready : (s.passShowTo ((st.cue.beat : Int) * 1000 - 4000000)).stagedReady = true := by
    rw [State.issuing_iff] at issues
    simp only [State.stagedReady, State.issuing, State.passShowTo_keeps, staged, issues, fresh]
    simpa using inside
  have taken : exec .stagedRecordTaken s = .next (match s.seq.staged with
     | none => s
     | some st =>
       if s.issuing ∧ st.stalled = false then (((s.passShowTo (windowTime st.cue)).takeIfReady).settle) else s) := rfl
  rw [taken, staged]
  exact congrArg Host.Outcome.next ((if_pos ⟨issues, fresh⟩).trans (congrArg State.settle (if_pos ready)))

/-- Settles O31. -/
theorem stagedRecordEntersTheQueue : Obligations.StagedRecordEntersTheQueue := by
  refine ⟨?_, ?_⟩
  · intro s st staged fresh issues u issue inside ahead
    have next := exec_stagedRecordTaken staged fresh issues inside
    obtain ⟨cueing, clear⟩ := s.issuing_iff.mp issues
    obtain ⟨_, ctl, _, _, store, seq, jet, _, _, _, _, mon, _⟩ := s.passShowTo_keeps ((st.cue.beat : Int) * 1000 - 4000000)
    change u.ctl = s.ctl at ctl
    change u.store = s.store at store
    change u.seq = s.seq at seq
    change u.jet = s.jet at jet
    change u.mon = s.mon at mon
    change exec _ _ = Host.Outcome.next u.takeStaged.readOn.settle at next
    have issueTime : u.issueTime st.cue = issue :=
      State.issueTime_congr (by rw [store]) (by rw [jet]) (by rw [seq]) st.cue
    have cueing' : u.ctl.state.cueing = true := by rw [ctl]; exact cueing
    refine ⟨_, next, ?_⟩
    by_cases room : s.seq.queue.length < 64
    · obtain ⟨p, due, taken, _, asked⟩ := State.takeStaged_room (s := u) (by rw [seq]; exact staged)
        (by rw [issueTime]; exact ahead) (by rw [seq]; exact room)
      have reads : ReadAhead u.takeStaged u.takeStaged.readOn := State.readOn_reads (by rw [taken, seq]; exact clear)
      have queue := reads.queue
      have state : u.takeStaged.readOn.ctl = s.ctl := by rw [reads.ctl, taken]; exact ctl
      rw [State.settle_cueing (by rw [state]; exact cueing), State.grant_eq]
      refine ⟨fun _ => ⟨?_, fun isJet => ?_⟩, fun full => absurd room full.not_gt, congrArg ShowControl.state state, ?_,
        fun _ _ _ => State.leadOf_jet⟩
      · refine queue.1.trans ?_
        rw [taken, issueTime, seq]
      · refine (congrArg Jet.passDue reads.jet).trans ?_
        rw [taken]
        exact asked isJet (State.operating_of_cueing cueing')
      · refine queue.2.1.trans ?_
        rw [taken, seq]
    · have taken := State.takeStaged_full (s := u) (by rw [seq]; exact staged) fresh (by rw [issueTime]; exact ahead)
        (by rw [seq]; exact Nat.le_of_not_lt room)
      have still : u.takeStaged.readOn = u.takeStaged :=
        State.readOn_of_staged (st := { st with stalled := true }) (by rw [taken]) (by rw [taken, seq]; exact clear)
      rw [still, taken, State.settle_cueing (by exact cueing'), State.grant_eq]
      dsimp only
      rw [ctl, seq, mon]
      exact ⟨fun h => absurd h room, fun _ => ⟨rfl, rfl, rfl⟩, rfl, rfl, fun _ _ _ => State.leadOf_jet⟩
  · intro s st ch height set staged fresh issues body current more waits u issue inside due
    have next := exec_stagedRecordTaken staged fresh issues inside
    obtain ⟨cueing, clear⟩ := s.issuing_iff.mp issues
    obtain ⟨_, ctl, _, _, store, seq, jet, _, _, _, _, mon, _⟩ := s.passShowTo_keeps ((st.cue.beat : Int) * 1000 - 4000000)
    change u.ctl = s.ctl at ctl
    change u.store = s.store at store
    change u.seq = s.seq at seq
    change u.jet = s.jet at jet
    change u.mon = s.mon at mon
    change exec _ _ = Host.Outcome.next u.takeStaged.readOn.settle at next
    have issueTime : u.issueTime st.cue = issue :=
      State.issueTime_congr (by rw [store]) (by rw [jet]) (by rw [seq]) st.cue
    have cueing' : u.ctl.state.cueing = true := by rw [ctl]; exact cueing
    have taken := State.takeStaged_due (s := u) (by rw [seq]; exact staged) cueing' body (by rw [issueTime]; exact due)
    have still : u.takeStaged.readOn = u.takeStaged := State.readOn_of_waiting (by rw [taken]) (by rw [taken, seq]; exact current)
      (by rw [taken, seq]; exact more) (by rw [taken, store]; exact waits)
    refine ⟨_, next, ?_⟩
    rw [still, taken, State.settle_cueing (by exact cueing'), State.grant_eq, issueTime]
    dsimp only
    rw [ctl, seq, mon]
    exact ⟨rfl, rfl, rfl, rfl, fun late => if_pos late, fun onTime => if_neg (by omega)⟩

end Sys2Proof.Machine
end

