-- ==== Sys2Proof/Proofs/IssuedCues.lean ====
section
/-! PROOFS. The entry at the head of the queue issues to its block (R84, R87 to R90, R134, R148). -/

set_option Elab.async false

namespace Sys2Proof.Machine

/-! ### The issue and the reading after it -/

/-- The state in which the entry at the head of the queue is handed on: its time is reached, and it has left the queue. -/
def State.atIssue (e : QueueEntry) (rest : List QueueEntry) (s : State) : State :=
  { s.passShowTo (e.issue * 1000) with seq := { s.seq with queue := rest } }

theorem State.atIssue_eq (e : QueueEntry) (rest : List QueueEntry) (s : State) : s.atIssue e rest =
    { s.passShowTo (e.issue * 1000) with seq := { (s.passShowTo (e.issue * 1000)).seq with queue := rest } } := by
  rw [(State.passShowTo_keeps _ _).2.2.2.2.2.1]
  rfl

theorem State.atIssue_keeps (e : QueueEntry) (rest : List QueueEntry) (s : State) : (s.atIssue e rest).ctl = s.ctl ∧
    (s.atIssue e rest).store = s.store ∧ (s.atIssue e rest).jet = s.jet ∧ (s.atIssue e rest).head = s.head ∧
    (s.atIssue e rest).lights = s.lights ∧ (s.atIssue e rest).music = s.music := by
  simp [State.atIssue]

theorem exec_cueIssue {s : State} {e : QueueEntry} {rest : List QueueEntry} (queue : s.seq.queue = e :: rest)
    (issues : s.issuing = true) (due : e.issue * 1000 ≤ (s.passShowTo (e.issue * 1000)).clock.showTime) :
    exec .cueIssue s = .next ((((s.atIssue e rest).handOn e.cue false).retake).readOn).settle := by
  have queue' : (s.passShowTo (e.issue * 1000)).seq.queue = e :: rest := by simpa using queue
  have due' : (s.passShowTo (e.issue * 1000)).headDue = true := by
    rw [State.headDue, queue']
    exact decide_eq_true due
  have issued : (s.passShowTo (e.issue * 1000)).issueHead = ((s.atIssue e rest).handOn e.cue false).retake := by
    rw [State.issueHead, queue', State.atIssue_eq]
  have taken : exec .cueIssue s = .next (match s.seq.queue with
     | [] => s
     | e :: _ => if s.issuing then (((s.passShowTo (e.issue * 1000)).issueIfDue).settle) else s) := rfl
  rw [taken, queue]
  refine congrArg Host.Outcome.next ((if_pos issues).trans (congrArg State.settle ((if_pos due').trans ?_)))
  rw [issued]

/-- While cues issue and no record is stalled, the step only reads ahead after the cue is handed on. -/
theorem State.issue_ends {x : State} (cueing : x.ctl.state.cueing = true) (clear : x.seq.catchUp = false)
    (unstalled : ∀ st, x.seq.staged = some st → st.stalled = false) :
    ∃ y, x.retake.readOn.settle = y.grant ∧ ReadAhead x y := by
  have still : x.retake = x := by
    unfold State.retake
    split
    · rfl
    · next st staged => exact if_neg fun h => absurd (h.1.symm.trans (unstalled st staged)) (by decide)
  have reads := State.readOn_reads clear
  rw [still]
  exact ⟨_, State.settle_cueing (by rw [reads.ctl]; exact cueing), reads⟩

/-- What the end of such a step leaves. -/
theorem ReadAhead.granted {x y : State} (reads : ReadAhead x y) : y.grant.seq.queue = x.seq.queue ∧
    y.grant.seq.table = x.seq.table ∧ y.grant.seq.sectionNo = x.seq.sectionNo ∧
    y.grant.seq.sectionStart = x.seq.sectionStart ∧ y.grant.seq.beatLen = x.seq.beatLen ∧
    y.grant.jet = x.jet ∧ y.grant.head = x.head ∧ y.grant.lights = x.lights ∧ y.grant.music = x.music := by
  rw [State.grant_eq]
  dsimp only
  rw [reads.seq]
  exact ⟨rfl, rfl, rfl, rfl, rfl, reads.jet, reads.head, reads.lights, reads.music⟩

/-! ### What each cue leaves of the sequencer -/

theorem State.applyMark_seq (n len beat id : Nat) (s : State) : (s.applyMark n len beat id).seq =
    { s.seq with sectionNo := n, sectionStart := beat, beatLen := max 200 (min len 2000) } := by
  rw [← clampNat_eq 200 2000 len (by decide)]
  unfold State.applyMark
  dsimp only
  split <;> simp [State.markChases, State.markSweeps]

/-- The record of a LIGHT's fixture. -/
theorem State.takeLight_fixture (f : Fixture) (colours : List Colour) (fade divisor id : Nat) (s : State) :
    (s.takeLight f colours fade divisor id false).lights.fixtures[f] =
      FixtureRec.beginFade (colours.getD 0 {}) (min fade 60000)
        { s.lights.fixtures[f] with
          ending := false
          pattern := if 1 < colours.length then some
            { colours := colours, divisor := max 1 (min divisor 16), stepFade := min fade 60000, index := 0
              group := s.beatGroup (max 1 (min divisor 16)) } else none } := by
  rw [← clampNat_eq 1 16 divisor (by decide)]
  unfold State.takeLight
  dsimp only
  rw [State.regate_fixtures]
  simp [State.setFixture]

theorem State.takeLevel_music (gain fade id : Nat) (s : State) : (s.takeLevel gain fade id false).music =
    { Music.beginFade gain (min fade 60000) s.music with runOut := false } := by
  unfold State.takeLevel
  simp only [Bool.false_eq_true, if_false, true_and]
  split <;> rfl

/-! ### An AIM (R134, R141) -/

/-- The target of an AIM, clamped to the head's range. -/
def HeadCfg.aimed (g : HeadCfg) (target id : Nat) : Target := { step := min target (g.range - 1), cueId := some id }

/-- The sweep that an AIM sets up. -/
def State.aimSweep (s : State) (g : HeadCfg) (target id : Nat) (p : SweepPart) : Sweep :=
  { a := min target (g.range - 1), b := min p.partner (g.range - 1), beats := p.beats, anchor := s.legIndex p.beats
    anchorPos := min target (g.range - 1), cueId := id, leg := s.legIndex p.beats }

theorem State.takeAim_fault {s : State} {h : Head} (fault : (s.head.heads[h]).state = .fault) (target id : Nat)
    (part : Option SweepPart) : (s.takeAim h target part id).head = s.head := by
  unfold State.takeAim
  dsimp only
  rw [if_pos fault]
  rfl

theorem State.takeAim_head {s : State} {h : Head} (sound : (s.head.heads[h]).state ≠ .fault) (target id : Nat)
    (part : Option SweepPart) : (s.takeAim h target part id).head.heads[h] =
      HeadRec.take s.store.config.heads[h] s.localTimer (s.store.config.heads[h].aimed target id)
        { s.head.heads[h] with sweep := part.map (s.aimSweep s.store.config.heads[h] target id) } := by
  unfold State.takeAim
  dsimp only
  rw [if_neg sound, State.refreshPermits_heads, State.takeTarget_eq, State.setHead_setHead, State.setHead_same, State.setHead_same]
  split <;> rfl

/-- A settled head steps toward a target elsewhere (R134, R135). -/
theorem HeadRec.take_away {g : HeadCfg} {now p : Nat} {t : Target} {r : HeadRec} (settled : r.state = .settled)
    (position : r.position = some p) :
    (p < t.step → (r.take g now t).position = some (p + 1) ∧ (r.take g now t).direction = some .up ∧
      (r.take g now t).target = some t ∧ (r.take g now t).state =
        if 4 * g.tolerance < (r.encoder - ((p + 1) * g.ratio : Nat)).natAbs then .verifying else .moving) ∧
    (t.step < p → (r.take g now t).position = some (p - 1) ∧ (r.take g now t).direction = some .down ∧
      (r.take g now t).target = some t ∧ (r.take g now t).state =
        if 4 * g.tolerance < (r.encoder - ((p - 1) * g.ratio : Nat)).natAbs then .verifying else .moving) := by
  have goes (away : p ≠ t.step) : r.take g now t = r.goTo g now t :=
    HeadRec.take_settled settled (by rw [position]; exact fun e => away (Option.some.inj e))
  obtain ⟨up, down⟩ := HeadRec.goTo_away (g := g) (now := now) (t := t) position
  have target := (HeadRec.goTo_keeps g now t r).1
  refine ⟨fun above => ?_, fun below => ?_⟩
  · rw [goes (Nat.ne_of_lt above)]
    obtain ⟨place, direction, state⟩ := up above
    exact ⟨place, direction, target, state⟩
  · rw [goes (Nat.ne_of_gt below)]
    obtain ⟨place, direction, state⟩ := down below
    exact ⟨place, direction, target, state⟩

/-- What an AIM makes of a head that does not step at once (R134). -/
theorem HeadRec.take_cases (g : HeadCfg) (now : Nat) (t : Target) (r : HeadRec) :
    (r.state = .settled → r.position = some t.step → r.take g now t = r) ∧
    (r.state = .moving ∨ r.state = .reversing → r.take g now t = { r with target := some t }) ∧
    (r.state = .verifying ∨ r.state = .unhomed ∨ r.state = .homing →
      r.take g now t = { r with pending := some t, homing := if r.state = .homing then t else r.homing }) := by
  refine ⟨fun settled position => ?_, HeadRec.take_moving, fun other => ?_⟩
  · simp [HeadRec.take, settled, position]
  · rcases other with e | e | e <;> simp [HeadRec.take, e]

/-! ### The cues but END -/

/-- A cue that leaves Show Control, the staged record and the catch-up flag alone, with what the reading after it leaves. -/
theorem State.issue_leaves {s : State} {e : QueueEntry} {rest : List QueueEntry} (issues : s.issuing = true)
    (unstalled : ∀ st, s.seq.staged = some st → st.stalled = false)
    (ctl : ((s.atIssue e rest).handOn e.cue false).ctl = s.ctl)
    (staged : ((s.atIssue e rest).handOn e.cue false).seq.staged = s.seq.staged)
    (scan : ((s.atIssue e rest).handOn e.cue false).seq.catchUp = s.seq.catchUp) :
    ∃ y, (((s.atIssue e rest).handOn e.cue false).retake.readOn).settle = y.grant ∧
      ReadAhead ((s.atIssue e rest).handOn e.cue false) y := by
  obtain ⟨cueing, clear⟩ := s.issuing_iff.mp issues
  exact State.issue_ends (by rw [ctl]; exact cueing) (scan.trans clear) (by rw [staged]; exact unstalled)

theorem issues_jet {s : State} {e : QueueEntry} {rest : List QueueEntry} (issues : s.issuing = true)
    (unstalled : ∀ st, s.seq.staged = some st → st.stalled = false) {ch : Channel} {height : Nat} {set : NozzleSet}
    (body : e.cue.body = .jet ch height set) :
    let t := (((s.atIssue e rest).handOn e.cue false).retake.readOn).settle
    t.seq.queue = rest ∧ t.jet.passDue = true ∧ t.seq.table = s.seq.table.set ch
      (some { height := height, openSet := set, cueId := e.cue.id, seen := false }) := by
  obtain ⟨cueing, _⟩ := s.issuing_iff.mp issues
  have handed := (State.handOn_jet (s := s.atIssue e rest) body).trans
    (State.applyJet_asked (by rw [(s.atIssue_keeps e rest).1]; exact cueing) ch height e.cue.id set)
  obtain ⟨y, ends, reads⟩ := State.issue_leaves (e := e) (rest := rest) issues unstalled
    (by rw [handed]; exact (s.atIssue_keeps e rest).1) (by rw [handed]; rfl) (by rw [handed]; rfl)
  obtain ⟨queue, table, _, _, _, jet, _⟩ := reads.granted
  rw [ends]
  refine ⟨queue.trans ?_, (congrArg Jet.passDue jet).trans ?_, table.trans ?_⟩ <;> rw [handed] <;> rfl

theorem issues_mark {s : State} {e : QueueEntry} {rest : List QueueEntry} (issues : s.issuing = true)
    (unstalled : ∀ st, s.seq.staged = some st → st.stalled = false) {n len : Nat} (body : e.cue.body = .mark n len) :
    let t := (((s.atIssue e rest).handOn e.cue false).retake.readOn).settle
    t.seq.queue = rest ∧ t.seq.table = s.seq.table ∧ t.seq.sectionNo = n ∧ t.seq.sectionStart = e.cue.beat ∧
      t.seq.beatLen = max 200 (min len 2000) := by
  have handed : (s.atIssue e rest).handOn e.cue false = (s.atIssue e rest).applyMark n len e.cue.beat e.cue.id := by
    rw [State.handOn, body]
  have seq := (congrArg State.seq handed).trans (State.applyMark_seq n len e.cue.beat e.cue.id (s.atIssue e rest))
  obtain ⟨y, ends, reads⟩ := State.issue_leaves (e := e) (rest := rest) issues unstalled
    (by rw [handed, (State.applyMark_keeps _ _ _ _ _).2.2.1]; exact (s.atIssue_keeps e rest).1) (by rw [seq]; rfl)
    (by rw [seq]; rfl)
  obtain ⟨queue, table, number, start, beatLen, _⟩ := reads.granted
  rw [ends]
  refine ⟨queue.trans ?_, table.trans ?_, number.trans ?_, start.trans ?_, beatLen.trans ?_⟩ <;> rw [seq] <;> rfl

theorem issues_level {s : State} {e : QueueEntry} {rest : List QueueEntry} (issues : s.issuing = true)
    (unstalled : ∀ st, s.seq.staged = some st → st.stalled = false) {gain fade : Nat} (body : e.cue.body = .level gain fade) :
    let t := (((s.atIssue e rest).handOn e.cue false).retake.readOn).settle
    t.seq.queue = rest ∧ t.seq.table = s.seq.table ∧ t.music.targetGain = gain ∧ t.music.fadeLen = min fade 60000 ∧
      t.music.startGain = s.music.gain ∧ t.music.elapsed = 0 := by
  have handed : (s.atIssue e rest).handOn e.cue false = (s.atIssue e rest).takeLevel gain fade e.cue.id false := by
    rw [State.handOn, body]
  have seq : ((s.atIssue e rest).handOn e.cue false).seq = { s.seq with queue := rest } := by
    rw [handed]
    simp [State.atIssue]
  have levelled := (congrArg State.music handed).trans (State.takeLevel_music gain fade e.cue.id (s.atIssue e rest))
  rw [(s.atIssue_keeps e rest).2.2.2.2.2] at levelled
  obtain ⟨y, ends, reads⟩ := State.issue_leaves (e := e) (rest := rest) issues unstalled
    (by rw [handed]; simp [State.atIssue]) (by rw [seq]) (by rw [seq])
  obtain ⟨queue, table, _, _, _, _, _, _, music⟩ := reads.granted
  rw [ends]
  dsimp only
  rw [queue, table, music, seq, levelled]
  exact ⟨rfl, rfl, rfl, rfl, rfl, rfl⟩

theorem issues_light {s : State} {e : QueueEntry} {rest : List QueueEntry} (issues : s.issuing = true)
    (unstalled : ∀ st, s.seq.staged = some st → st.stalled = false) {f : Fixture} {colours : List Colour} {fade divisor : Nat}
    (body : e.cue.body = .light f colours fade divisor) :
    let t := (((s.atIssue e rest).handOn e.cue false).retake.readOn).settle
    t.seq.queue = rest ∧ t.lights.fixtures[f] = FixtureRec.beginFade (colours.getD 0 {}) (min fade 60000)
      { s.lights.fixtures[f] with
        ending := false
        pattern := if 1 < colours.length then some
          { colours := colours, divisor := max 1 (min divisor 16), stepFade := min fade 60000, index := 0
            group := (s.atIssue e rest).beatGroup (max 1 (min divisor 16)) } else none } := by
  have handed : (s.atIssue e rest).handOn e.cue false =
      (s.atIssue e rest).takeLight f colours fade divisor e.cue.id false := by
    rw [State.handOn, body]
  have seq : ((s.atIssue e rest).handOn e.cue false).seq = { s.seq with queue := rest } := by
    rw [handed]
    simp [State.atIssue]
  have lit := (s.atIssue e rest).takeLight_fixture f colours fade divisor e.cue.id
  rw [(s.atIssue_keeps e rest).2.2.2.2.1] at lit
  obtain ⟨y, ends, reads⟩ := State.issue_leaves (e := e) (rest := rest) issues unstalled
    (by rw [handed]; simp [State.atIssue]) (by rw [seq]) (by rw [seq])
  obtain ⟨queue, _, _, _, _, _, _, lights, _⟩ := reads.granted
  rw [ends]
  dsimp only
  rw [queue, lights, seq, handed]
  exact ⟨rfl, lit⟩

theorem issues_aim {s : State} {e : QueueEntry} {rest : List QueueEntry} (issues : s.issuing = true)
    (unstalled : ∀ st, s.seq.staged = some st → st.stalled = false) {h : Head} {target : Nat} {part : Option SweepPart}
    (body : e.cue.body = .aim h target part) :
    let t := (((s.atIssue e rest).handOn e.cue false).retake.readOn).settle
    t.seq.queue = rest ∧ ((s.head.heads[h]).state = .fault → t.head.heads[h] = s.head.heads[h]) ∧
      ((s.head.heads[h]).state ≠ .fault → t.head.heads[h] =
        HeadRec.take s.store.config.heads[h] (s.atIssue e rest).localTimer
          (s.store.config.heads[h].aimed target e.cue.id)
          { s.head.heads[h] with
            sweep := part.map ((s.atIssue e rest).aimSweep s.store.config.heads[h] target e.cue.id) }) := by
  have handed : (s.atIssue e rest).handOn e.cue false = (s.atIssue e rest).takeAim h target part e.cue.id := by
    rw [State.handOn, body]
  have seq : ((s.atIssue e rest).handOn e.cue false).seq = { s.seq with queue := rest } := by
    rw [handed]
    simp [State.atIssue]
  obtain ⟨_, store, _, head, _⟩ := s.atIssue_keeps e rest
  obtain ⟨y, ends, reads⟩ := State.issue_leaves (e := e) (rest := rest) issues unstalled
    (by rw [handed]; simp [State.atIssue]) (by rw [seq]) (by rw [seq])
  obtain ⟨queue, _, _, _, _, _, heads, _⟩ := reads.granted
  rw [ends]
  dsimp only
  rw [queue, heads, seq, handed]
  refine ⟨rfl, fun fault => ?_, fun sound => ?_⟩
  · rw [State.takeAim_fault (by rw [head]; exact fault), head]
  · rw [State.takeAim_head (by rw [head]; exact sound), head, store]

/-! ### END (R90) -/

theorem issues_end {s : State} {e : QueueEntry} {rest : List QueueEntry} (issues : s.issuing = true)
    (body : e.cue.body = .endCue) :
    let t := (((s.atIssue e rest).handOn e.cue false).retake.readOn).settle
    t.seq.queue = [] ∧ t.ctl.endingCause = some .endCue ∧ (t.ctl.state = .ending ∨ t.ctl.state = .idle) := by
  obtain ⟨cueing, _⟩ := s.issuing_iff.mp issues
  have handed : (s.atIssue e rest).handOn e.cue false = (s.atIssue e rest).enterEnding .endCue := by
    rw [State.handOn, body]
    exact if_pos (by rw [(s.atIssue_keeps e rest).1]; exact cueing)
  have ended := (s.atIssue e rest).enterEnding_ended .endCue
  have settled := State.enterEnding_settle .endCue (s.atIssue e rest)
  have still : ((s.atIssue e rest).enterEnding .endCue).retake = (s.atIssue e rest).enterEnding .endCue := by
    rw [State.retake, ended.staged]
  have quiet : ((s.atIssue e rest).enterEnding .endCue).readOn = (s.atIssue e rest).enterEnding .endCue := by
    obtain ⟨n, steps⟩ : ∃ n, ((s.atIssue e rest).enterEnding .endCue).readSteps = n + 1 := ⟨_, rfl⟩
    rw [State.readOn, steps, readOnN]
    exact if_pos (by rcases ended.state with e | e <;> rw [e] <;> rfl)
  rw [handed, still, quiet]
  exact ⟨settled.queue, settled.cause, settled.state⟩

/-! ### A stalled record behind the entry that issues (R84) -/

/-- No staged record is stalled. -/
def Unstalled (s : State) : Prop := ∀ st, s.seq.staged = some st → st.stalled = false

theorem Unstalled.of_staged {s t : State} (h : Unstalled s) (e : t.seq.staged = s.seq.staged) : Unstalled t := by
  rw [Unstalled, e]
  exact h

theorem Unstalled.checkRecord {s : State} (h : Unstalled s) (r : List Byte) : Unstalled (s.checkRecord r) := by
  unfold State.checkRecord
  dsimp only
  split
  · exact h
  split
  · exact h
  split
  · exact h
  · rintro st ⟨⟩
    rfl

theorem Unstalled.discardPartial {s : State} (h : Unstalled s) : Unstalled s.discardPartial := by
  unfold State.discardPartial
  split <;> exact h

theorem Unstalled.decodeOne {s : State} (h : Unstalled s) : Unstalled s.decodeOne := by
  unfold State.decodeOne
  split
  · exact h
  · exact h
  · dsimp only
    split
    · exact h
    split
    · exact h
    · refine Unstalled.checkRecord ?_ _
      exact h

/-- Outside a scan, no record that reading on stages is stalled. -/
theorem readOnN_unstalled (n : Nat) {s : State} (clear : s.seq.catchUp = false) (h : Unstalled s) :
    Unstalled (readOnN n s) := by
  induction n generalizing s with
  | zero => exact h
  | succ n ih =>
    have on {t : State} (reads : ReadAhead s t) (fresh : Unstalled t) : Unstalled (readOnN n t) :=
      ih (reads.queue.2.2.trans clear) fresh
    unfold readOnN
    split
    · exact h
    split
    · exact h
    split
    · exact on s.decodeOne_reads h.decodeOne
    split
    · rw [if_neg (by rw [clear]; decide)]
      exact h
    split
    · exact h
    split
    · split
      · exact on s.endOfStream_reads (h.discardPartial.of_staged rfl)
      split
      · exact on (.trans (s.raise_reads .blockLost none (some Reader.cue.object)) ⟨rfl, rfl, rfl, rfl, rfl, rfl, rfl, rfl, rfl, rfl, rfl⟩)
          (h.of_staged rfl)
      · exact h
    · exact h

theorem issues_jet_before_stalled {s : State} {e : QueueEntry} {rest : List QueueEntry} {st : Staged} (issues : s.issuing = true)
    {ch : Channel} {height : Nat} {set : NozzleSet} (body : e.cue.body = .jet ch height set)
    (staged : s.seq.staged = some st) (stalled : st.stalled = true) (room : rest.length < 64)
    (ahead : (s.passShowTo (e.issue * 1000)).clock.showTime < ((st.cue.beat : Int) - s.leadOf st.cue) * 1000) :
    let t := (((s.atIssue e rest).handOn e.cue false).retake.readOn).settle
    t.seq.queue = insertEntry { cue := st.cue, issue := (st.cue.beat : Int) - s.leadOf st.cue } rest ∧
      t.seq.staged ≠ some st ∧ t.jet.passDue = true ∧
      t.seq.table = s.seq.table.set ch
        (some { height := height, openSet := set, cueId := e.cue.id, seen := false }) := by
  obtain ⟨cueing, clear⟩ := s.issuing_iff.mp issues
  obtain ⟨ctl, store, jet, _⟩ := s.atIssue_keeps e rest
  have handed := (State.handOn_jet (s := s.atIssue e rest) body).trans
    (State.applyJet_asked (by rw [ctl]; exact cueing) ch height e.cue.id set)
  have seq : ((s.atIssue e rest).handOn e.cue false).seq = { s.seq with
      queue := rest
      table := s.seq.table.set ch (some { height := height, openSet := set, cueId := e.cue.id, seen := false }) } := by
    rw [handed]
    rfl
  have jetX : ((s.atIssue e rest).handOn e.cue false).jet = { s.jet with passDue := true } := by
    rw [handed, ← jet]
  have storeX : ((s.atIssue e rest).handOn e.cue false).store = s.store := by rw [handed]; exact store
  have ctlX : ((s.atIssue e rest).handOn e.cue false).ctl = s.ctl := by rw [handed]; exact ctl
  have timeX : ((s.atIssue e rest).handOn e.cue false).clock.showTime = (s.passShowTo (e.issue * 1000)).clock.showTime := by
    rw [handed]
    rfl
  generalize (s.atIssue e rest).handOn e.cue false = x at *
  have issue : x.issueTime st.cue = (st.cue.beat : Int) - s.leadOf st.cue :=
    State.issueTime_congr (s := s) (by rw [storeX]) (by rw [jetX]) (by rw [seq]) st.cue
  have stagedX : x.seq.staged = some st := by rw [seq]; exact staged
  have again : x.retake = x.takeStaged := by
    rw [State.retake, stagedX]
    exact if_pos ⟨stalled, x.issuing_iff.mpr ⟨by rw [ctlX]; exact cueing, by rw [seq]; exact clear⟩⟩
  obtain ⟨p, due, taken, asked, _⟩ := State.takeStaged_room stagedX (by rw [issue, timeX]; exact ahead) (by rw [seq]; exact room)
  have due' : due = true := asked (by rw [jetX])
  rw [again]
  have clear' : x.takeStaged.seq.catchUp = false := by rw [taken, seq]; exact clear
  have reads : ReadAhead x.takeStaged x.takeStaged.readOn := State.readOn_reads clear'
  have fresh : Unstalled x.takeStaged.readOn := readOnN_unstalled _ clear' (by rw [taken]; exact nofun)
  rw [State.settle_cueing (by rw [reads.ctl, taken, ctlX]; exact cueing)]
  obtain ⟨queue, table, _, _, _, jetY, _⟩ := reads.granted
  have gone : x.takeStaged.readOn.grant.seq.staged ≠ some st := by
    rw [State.grant_eq]
    intro still
    rw [fresh st still] at stalled
    cases stalled
  refine ⟨queue.trans ?_, gone, (congrArg Jet.passDue jetY).trans ?_, table.trans ?_⟩
  · rw [taken, seq, issue]
  · rw [taken]
    exact due'
  · rw [taken, seq]

/-- Settles O32. -/
theorem dueEntryIssues : Obligations.DueEntryIssues := by
  refine ⟨fun s e rest queue issues unstalled due => ?_, ?_⟩
  · refine ⟨_, exec_cueIssue queue issues due, fun ch height set => issues_jet issues unstalled,
      fun n len => issues_mark issues unstalled, fun gain fade => issues_level issues unstalled,
      fun h target part body => ?_, fun f colours fade divisor body => ?_, issues_end issues⟩
    · obtain ⟨rests, fault, sound⟩ := issues_aim (rest := rest) issues unstalled body
      generalize ((((s.atIssue e rest).handOn e.cue false).retake).readOn).settle = t at *
      refine ⟨rests, ?_⟩
      dsimp only
      have aimed := HeadRec.take_cases s.store.config.heads[h] (s.atIssue e rest).localTimer
        (s.store.config.heads[h].aimed target e.cue.id) { s.head.heads[h] with
          sweep := part.map ((s.atIssue e rest).aimSweep s.store.config.heads[h] target e.cue.id) }
      obtain ⟨settled, moving, waiting⟩ := aimed
      refine ⟨fault, fun other => ?_, fun p state position => ?_, fun state => ?_, fun state => ?_⟩
      · rw [sound other, HeadRec.take_sweep]
        rfl
      · have away := HeadRec.take_away (g := s.store.config.heads[h]) (now := (s.atIssue e rest).localTimer)
          (t := s.store.config.heads[h].aimed target e.cue.id) (r := { s.head.heads[h] with
            sweep := part.map ((s.atIssue e rest).aimSweep s.store.config.heads[h] target e.cue.id) }) state position
        rw [sound (by rw [state]; decide)]
        refine ⟨fun meets => ?_, away.1, away.2⟩
        rw [settled state (position.trans (congrArg some meets))]
        exact ⟨state, position, rfl⟩
      · rw [sound (by rcases state with e | e <;> rw [e] <;> decide), moving state]
        exact ⟨rfl, rfl, rfl, rfl⟩
      · rw [sound (by rcases state with e | e | e <;> rw [e] <;> decide), waiting state]
        exact ⟨rfl, rfl, rfl, rfl⟩
    · obtain ⟨rests, lit⟩ := issues_light (rest := rest) issues unstalled body
      generalize ((((s.atIssue e rest).handOn e.cue false).retake).readOn).settle = t at *
      refine ⟨rests, ?_⟩
      dsimp only
      rw [lit]
      refine ⟨rfl, rfl, rfl, rfl, rfl, rfl, fun one => if_neg (by omega), fun more => ?_⟩
      exact (if_pos (by omega)).trans rfl
  · intro s e rest st ch height set queue issues body staged stalled room u issue due ahead
    exact ⟨_, exec_cueIssue queue issues due, issues_jet_before_stalled issues body staged stalled room ahead⟩

end Sys2Proof.Machine
end

