-- ==== Sys2Proof/Proofs/ChannelTargets.lean ====
section
/-! PROOFS. The figures of a pass for a channel and their hand-off to its pump (R100 to R102, R107). -/

set_option Elab.async false

namespace Sys2Proof.Machine

/-! ### The figures that a pass works out for a channel -/

/-- The figures of a channel for the table entry that a pass reads. -/
def State.passFigures (s : State) (c : Channel) : JetChan :=
  s.chanFigures c (((s.passTable[c]).map fun e => e.height).getD 0) (((s.passTable[c]).map fun e => e.openSet).getD 0)

/-- The figures of a channel for an entry rest on the configuration, derate and scale, the pumps and nozzles, and the permits. -/
theorem State.chanFigures_congr {s t : State} (store : t.store = s.store) (pump : t.pump = s.pump) (head : t.head = s.head)
    (derate : t.jet.derate = s.jet.derate) (scale : t.jet.scale = s.jet.scale) (c : Channel) (height : Nat)
    (set : NozzleSet) : t.chanFigures c height set = s.chanFigures c height set := by
  have open_ : t.openSetOf set = s.openSetOf set := by
    rw [State.openSetOf, State.withoutOut, State.outNozzles, pump, head]
    rfl
  have latched : t.latchedAt c = s.latchedAt c := by rw [State.latchedAt, pump]; rfl
  unfold State.chanFigures
  rw [open_, latched, store, derate, scale]

/-- To mark an entry as seen changes nothing that a pass reads of it. -/
theorem State.markSeen_passTable {α : Type} (read : TableEntry → α) (blind : ∀ e b, read { e with seen := b } = read e)
    (d c : Channel) (s : State) : ((s.markSeen d).passTable[c]).map read = (s.passTable[c]).map read := by
  have marked (t : Vector (Option TableEntry) 4) (id : Option Nat) :
      ((t.set d ((t[d]).map fun e => if id = none ∨ id = some e.cueId then { e with seen := true } else e))[c]).map read =
        (t[c]).map read := by
    have same (e : TableEntry) : read (if id = none ∨ id = some e.cueId then { e with seen := true } else e) = read e := by
      split
      · exact blind e true
      · rfl
    by_cases h : d.val = c.val
    · obtain rfl : d = c := Fin.ext h
      simp [same, Function.comp_def]
    · simp [h]
  unfold State.markSeen
  dsimp only
  split
  · next view =>
    simp only [State.passTable, view]
    exact marked s.seq.table none
  · next v view =>
    simp only [State.passTable, view]
    exact marked v.table none

theorem State.markSeen_derate (c : Channel) (s : State) : (s.markSeen c).jet.derate = s.jet.derate := by
  unfold State.markSeen
  dsimp only
  split <;> rfl

/-- To work a present channel is to raise its events, to hold its figures and to mark its entry. -/
theorem State.passChannel_shape {d : Channel} {s : State} (present : (s.store.config.channels[d]).present = true) :
    ∃ (m : Monitor) (figures : JetChan), s.passChannel d =
      State.markSeen d { s with mon := m, jet := { s.jet with chans := s.jet.chans.set d figures } } := by
  unfold State.passChannel
  rw [if_neg (by rw [present]; decide)]
  extract_lets entry height id figures s1 s2
  have counted : ∃ m, s2 = { s with mon := m } := by
    unfold s2 s1
    split <;> split <;> exact ⟨_, rfl⟩
  obtain ⟨m, counted⟩ := counted
  refine ⟨m, figures, ?_⟩
  change State.markSeen d { s2 with jet := { s2.jet with chans := s2.jet.chans.set d figures } } = _
  rw [counted]

/-- To work a channel changes nothing that the pass reads of any channel. -/
theorem State.passChannel_passFigures (d c : Channel) (s : State) : (s.passChannel d).passFigures c = s.passFigures c := by
  by_cases present : (s.store.config.channels[d]).present = true
  · have scale : (s.passChannel d).jet.scale = s.jet.scale := State.scale_of_shareFigures (s.passChannel_shareFigures d)
    obtain ⟨m, figures, shape⟩ := State.passChannel_shape present
    have derate : (s.passChannel d).jet.derate = s.jet.derate := by rw [shape, State.markSeen_derate]
    have table {α : Type} (read : TableEntry → α) (blind : ∀ e b, read { e with seen := b } = read e) :
        ((s.passChannel d).passTable[c]).map read = (s.passTable[c]).map read := by
      rw [shape, State.markSeen_passTable read blind]
      rfl
    unfold State.passFigures
    rw [table (fun e => e.height) fun _ _ => rfl, table (fun e => e.openSet) fun _ _ => rfl]
    exact State.chanFigures_congr (by simp) (by simp) (by simp) derate scale c _ _
  · rw [State.passChannel_absent (by simpa using present)]

theorem State.passChannel_chan {c d : Channel} {s : State} (present : (s.store.config.channels[c]).present = true)
    (h : c = d ∨ s.jet.chans[c] = s.passFigures c) : (s.passChannel d).jet.chans[c] = s.passFigures c := by
  by_cases worked : (s.store.config.channels[d]).present = true
  · have chans := congrArg PassFigures.chans (State.passChannel_figures worked)
    simp only [State.figures] at chans
    rw [chans]
    by_cases same : c = d
    · subst same
      simp [State.passFigures]
    · have other : d.val ≠ c.val := fun e => same (Fin.ext e).symm
      simpa [other] using h.resolve_left same
  · rw [State.passChannel_absent (by simpa using worked)]
    exact h.resolve_left fun same => worked (same ▸ present)

/-- Step 3 works every present channel from the state in which it begins. -/
theorem foldl_passChannel_chan {c : Channel} (l : List Channel) {s : State}
    (present : (s.store.config.channels[c]).present = true) (h : c ∈ l ∨ s.jet.chans[c] = s.passFigures c) :
    (l.foldl (fun s c => s.passChannel c) s).jet.chans[c] = s.passFigures c := by
  induction l generalizing s with
  | nil => exact h.resolve_left List.not_mem_nil
  | cons d ds ih =>
    rw [List.mem_cons, or_assoc, or_left_comm] at h
    rw [List.foldl_cons, ih (s := s.passChannel d) (by simpa using present), State.passChannel_passFigures]
    refine h.imp_right fun worked => ?_
    rw [State.passChannel_passFigures]
    exact State.passChannel_chan present worked

theorem State.passShare_jet (s : State) : s.passShare.jet.derate = s.jet.derate ∧ s.passShare.jet.view = s.jet.view := by
  unfold State.passShare
  dsimp only
  split <;> exact ⟨rfl, rfl⟩

theorem State.passFigures_congr {s t : State} (store : t.store = s.store) (pump : t.pump = s.pump) (head : t.head = s.head)
    (derate : t.jet.derate = s.jet.derate) (scale : t.jet.scale = s.jet.scale) (table : t.passTable = s.passTable)
    (c : Channel) : t.passFigures c = s.passFigures c := by
  rw [State.passFigures, table]
  exact State.chanFigures_congr store pump head derate scale c _ _

theorem State.passTable_congr {s t : State} (seq : t.seq = s.seq) (view : t.jet.view = s.jet.view) :
    t.passTable = s.passTable := by
  rw [State.passTable, State.passTable, seq, view]

/-- Steps 1 to 3 of a pass leave of a present channel its figures at the scale that step 2 worked out. -/
theorem State.passComputed_chan {s : State} {c : Channel} (present : (s.store.config.channels[c]).present = true)
    {x : State} (store : x.store = s.store) (pump : x.pump = s.pump) (head : x.head = s.head) (seq : x.seq = s.seq)
    (derate : x.jet.derate = s.jet.derate) (view : x.jet.view = s.jet.view)
    (scale : x.jet.scale = s.passComputed.jet.scale) : s.passComputed.jet.chans[c] = x.passFigures c := by
  have begins : ∃ b : State, b = { s with jet := { s.jet with passDue := false } } := ⟨_, rfl⟩
  obtain ⟨b, begins⟩ := begins
  have same : b.store = s.store ∧ b.pump = s.pump ∧ b.head = s.head ∧ b.seq = s.seq ∧ b.jet.derate = s.jet.derate ∧
      b.jet.view = s.jet.view := by
    rw [begins]
    exact ⟨rfl, rfl, rfl, rfl, rfl, rfl⟩
  obtain ⟨storeB, pumpB, headB, seqB, derateB, viewB⟩ := same
  have worked : s.passComputed = (List.finRange 4).foldl (fun s c => s.passChannel c) b.passShare := by
    rw [State.passComputed, begins]
  have shared : s.passComputed.jet.scale = b.passShare.jet.scale := by
    rw [worked]
    exact State.scale_of_shareFigures (foldl_proj (fun s => s.figures.toShareFigures) _ (by simp) _ _)
  obtain ⟨derateS, viewS⟩ := b.passShare_jet
  rw [worked, foldl_passChannel_chan _ (by simpa [storeB] using present) (.inl (List.mem_finRange c))]
  exact State.passFigures_congr (by simp [storeB, store]) (by simp [pumpB, pump]) (by simp [headB, head])
    (derateS.trans (derateB.trans derate.symm)) (shared.symm.trans scale.symm)
    (State.passTable_congr (by simp [seqB, seq]) (viewS.trans (viewB.trans view.symm))) c

/-- The state at another scale. -/
def State.atScale (scale : Nat) (s : State) : State := { s with jet := { s.jet with scale := scale } }

theorem State.atScale_keeps (k : Nat) (s : State) : (s.atScale k).store = s.store ∧ (s.atScale k).pump = s.pump ∧
    (s.atScale k).head = s.head ∧ (s.atScale k).seq = s.seq ∧ (s.atScale k).jet.derate = s.jet.derate ∧
    (s.atScale k).jet.view = s.jet.view ∧ (s.atScale k).jet.scale = k := ⟨rfl, rfl, rfl, rfl, rfl, rfl, rfl⟩

/-- The pass of a command works from the state with the levels that the command carries. -/
theorem State.afterPass_eq (pflt : BitVec 4) (s : State) : ∃ w : State, s.afterPass pflt = w.pass ∧ w.store = s.store ∧
    w.pump = s.pump ∧ w.head = s.head ∧ w.seq = s.seq ∧ w.jet = s.jet := ⟨_, rfl, rfl, rfl, rfl, rfl, rfl⟩

/-- What a pass holds of a present channel at its end: its figures in the state before it, at the scale of the pass. -/
theorem State.afterPass_chan (pflt : BitVec 4) (s : State) {c : Channel}
    (present : (s.store.config.channels[c]).present = true) :
    (s.afterPass pflt).jet.chans[c] = (s.atScale (s.afterPass pflt).jet.scale).passFigures c := by
  obtain ⟨w, passes, store, pump, head, seq, jet⟩ := s.afterPass_eq pflt
  have scale : w.pass.jet.scale = _ := State.scale_of_figures w.pass_figures
  rw [passes, scale, State.chans_of_figures w.pass_figures]
  obtain ⟨storeX, pumpX, headX, seqX, derateX, viewX, scaleX⟩ := s.atScale_keeps w.passComputed.jet.scale
  rw [← store] at storeX
  rw [← pump] at pumpX
  rw [← head] at headX
  rw [← seq] at seqX
  rw [← jet] at derateX viewX
  exact State.passComputed_chan (by rw [store]; exact present) storeX pumpX headX seqX derateX viewX scaleX

/-! ### The hand-off to the pump (R107) -/

/-- What a pump holds of the latest hand-off. -/
structure HandOff where
  nt : Nat
  openSet : NozzleSet
  hd : Nat
  fs : Nat

def PumpRec.handOff (p : PumpRec) : HandOff where
  nt := p.nt
  openSet := p.openSet
  hd := p.hd
  fs := p.fs

/-- The hand-off that a channel's pump holds. -/
def State.handOffAt (c : Channel) (s : State) : HandOff := (s.pump.pumps[c]).handOff

theorem State.setPump_handOffAt {c d : Channel} {p : PumpRec} {s : State} (h : p.handOff = s.handOffAt d) :
    (s.setPump d p).handOffAt c = s.handOffAt c := by
  by_cases same : d.val = c.val
  · obtain rfl : d = c := Fin.ext same
    simpa [State.handOffAt, State.setPump] using h
  · simp [State.handOffAt, State.setPump, same]

@[simp] theorem PumpRec.resettle_handOff (now : Nat) (p : PumpRec) : (p.resettle now).handOff = p.handOff := rfl

@[simp] theorem State.refreshValves_handOffAt (c : Channel) (s : State) : s.refreshValves.handOffAt c = s.handOffAt c := by
  obtain ⟨timer, pump⟩ := s.refreshValves_pump c
  rw [State.handOffAt, pump]
  rfl

@[simp] theorem State.raise_handOffAt (kind : EventKind) (cueId object : Option Nat) (c : Channel) (s : State) :
    (s.raise kind cueId object).handOffAt c = s.handOffAt c := by
  simp [State.handOffAt]

@[simp] theorem State.askPass_handOffAt (c : Channel) (s : State) : s.askPass.handOffAt c = s.handOffAt c := by
  simp [State.handOffAt]

/-- A trip leaves what the pump holds of the hand-off. -/
@[simp] theorem State.trip_handOffAt (d : Channel) (cause : TripCause) (c : Channel) (s : State) :
    (s.trip d cause).handOffAt c = s.handOffAt c := by
  unfold State.trip
  extract_lets p latch p' s1
  have tripped : s1.handOffAt c = s.handOffAt c := (State.raise_handOffAt _ _ _ _ _).trans (State.setPump_handOffAt rfl)
  rw [State.refreshValves_handOffAt]
  split
  · rw [State.askPass_handOffAt, tripped]
  · exact tripped

@[simp] theorem State.startPump_handOffAt (d c : Channel) (s : State) : (s.startPump d).handOffAt c = s.handOffAt c := by
  unfold State.startPump
  extract_lets p s1
  have started : s1.handOffAt c = s.handOffAt c := State.setPump_handOffAt rfl
  split
  · rw [State.trip_handOffAt, started]
  · exact started

/-- What a pump does on its goal leaves what it holds of the hand-off. -/
@[simp] theorem State.actGoal_handOffAt (handOff : Bool) (d c : Channel) (s : State) :
    (s.actGoal handOff d).handOffAt c = s.handOffAt c := by
  unfold State.actGoal
  extract_lets p goal renew q
  split
  · rfl
  split
  · split
    · rw [State.startPump_handOffAt]
      exact State.setPump_handOffAt rfl
    · exact State.setPump_handOffAt rfl
  · split
    · exact State.setPump_handOffAt rfl
    · exact State.setPump_handOffAt (by split <;> rfl)
  · split
    · exact State.setPump_handOffAt rfl
    · exact State.setPump_handOffAt (by split <;> rfl)
  · split <;> exact State.setPump_handOffAt rfl
  · exact State.setPump_handOffAt rfl

@[simp] theorem State.workGoals_handOffAt (c : Channel) (s : State) : s.workGoals.handOffAt c = s.handOffAt c := by
  rw [State.workGoals, State.refreshValves_handOffAt]
  exact foldl_proj (State.handOffAt c) _ (by simp) _ _

theorem State.handOffAt_congr {s t : State} (pump : t.pump = s.pump) (c : Channel) : t.handOffAt c = s.handOffAt c := by
  rw [State.handOffAt, pump]
  rfl

/-- The entry to IDLE leaves what every pump holds of the hand-off. -/
theorem State.enterIdle_handOffAt (soft : Bool) (c : Channel) (s : State) : (s.enterIdle soft).handOffAt c = s.handOffAt c := by
  have idle {x : State} (pump : x.pump = s.pump) : (x.mapPumps PumpRec.idle).handOffAt c = s.handOffAt c := by
    have record : (x.mapPumps PumpRec.idle).pump.pumps[c] = PumpRec.idle s.pump.pumps[c] := by
      simp [State.mapPumps, pump]
    rw [State.handOffAt, record, PumpRec.idle]
    split <;> rfl
  unfold State.enterIdle
  dsimp only
  rw [State.workGoals_handOffAt]
  cases soft
  · refine Eq.trans (State.handOffAt_congr ?_ c) (idle (x := ((State.changeState .idle { s with ctl :=
      { s.ctl with selected := 0, held := none, lightRunOut := false, audioRunOut := false } }).clearSequencer.resetSection
        ).dropEntry.flushMusic) (by simp))
    simp
  · exact idle (by simp)

theorem State.checkEnding_handOffAt (c : Channel) (s : State) : s.checkEnding.handOffAt c = s.handOffAt c := by
  unfold State.checkEnding
  split
  · exact s.enterIdle_handOffAt false c
  · rfl

/-- What Jet Computation hands to the pump of its channel (R107). -/
def JetChan.handOff (j : JetChan) : HandOff where
  nt := j.nt
  openSet := j.openSet
  hd := j.hd
  fs := j.fs

theorem State.handOffChannel_handOffAt {c d : Channel} {s : State} (present : (s.store.config.channels[c]).present = true)
    (h : c = d ∨ s.handOffAt c = (s.jet.chans[c]).handOff) :
    (s.handOffChannel d).handOffAt c = (s.jet.chans[c]).handOff := by
  unfold State.handOffChannel
  by_cases same : c = d
  · subst same
    rw [if_neg (by rw [present]; decide)]
    dsimp only
    rw [State.actGoal_handOffAt, State.handOffAt, State.setPump_same]
    rfl
  · have stands := h.resolve_left same
    split
    · exact stands
    · dsimp only
      rw [State.actGoal_handOffAt, State.handOffAt, State.setPump_other same]
      exact stands

/-- Step 4 of a pass hands every present channel's figures to its pump. -/
theorem foldl_handOffChannel_handOffAt {c : Channel} (l : List Channel) {s : State}
    (present : (s.store.config.channels[c]).present = true) (h : c ∈ l ∨ s.handOffAt c = (s.jet.chans[c]).handOff) :
    (l.foldl (fun s c => s.handOffChannel c) s).handOffAt c = (s.jet.chans[c]).handOff := by
  induction l generalizing s with
  | nil => exact h.resolve_left List.not_mem_nil
  | cons d ds ih =>
    have chans : (s.handOffChannel d).jet.chans = s.jet.chans := State.chans_of_figures (s.handOffChannel_figures d)
    rw [List.mem_cons, or_assoc, or_left_comm] at h
    rw [List.foldl_cons, ih (s := s.handOffChannel d) (by simpa using present), chans]
    refine h.imp_right fun worked => ?_
    rw [chans]
    exact State.handOffChannel_handOffAt present worked

/-- At the end of a pass the pump of a present channel holds the figures that the pass holds of it. -/
theorem State.afterPass_handOffAt (pflt : BitVec 4) (s : State) {c : Channel}
    (present : (s.store.config.channels[c]).present = true) :
    (s.afterPass pflt).handOffAt c = ((s.afterPass pflt).jet.chans[c]).handOff := by
  obtain ⟨w, passes, store, _⟩ := s.afterPass_eq pflt
  rw [passes, State.chans_of_figures w.pass_figures, State.pass_eq_checkEnding, State.checkEnding_handOffAt,
    State.passHanded, State.refreshValves_handOffAt]
  exact foldl_handOffChannel_handOffAt _ (by simpa [State.passComputed, store] using present) (.inl (List.mem_finRange c))

/-! ### The figures spelled out -/

/-- Settles O34: the statement's figures are those of the model at the scale of the pass, and the pump holds them. -/
theorem targetsOfThePass : Obligations.TargetsOfThePass := by
  intro s pflt c op present
  refine ⟨_, exec_jetComputationPass pflt op, ?_⟩
  have chan := s.afterPass_chan pflt present
  have handed := s.afterPass_handOffAt pflt present
  generalize s.afterPass pflt = t at *
  intro g entry H E j idle scaled
  have figures : j = State.chanFigures (s.atScale t.jet.scale) c H
      ((entry.map fun e => e.openSet).getD 0) := chan
  have none_ (nothing : idle) : j.n = 0 ∧ j.f = 0 := by
    rw [figures]
    exact ⟨if_pos nothing, if_pos nothing⟩
  have speed : j.nt = if 0 < scaled ∧ scaled < g.nmin then 0 else scaled := by
    simp only [scaled, figures]
    rfl
  refine ⟨by rw [figures]; rfl, by rw [figures]; rfl, fun nothing => ?_, fun some_ => ?_, speed, ?_,
    congrArg HandOff.nt handed, (congrArg HandOff.openSet handed).trans (by rw [chan]; rfl), congrArg HandOff.hd handed,
    congrArg HandOff.fs handed⟩
  · obtain ⟨n, f⟩ := none_ nothing
    refine ⟨n, f, ?_⟩
    have still : scaled = 0 := by simp [scaled, n]
    rw [speed, still]
    rfl
  · have n : j.n = min (isqrt (j.hd * 1000000 / g.hfull)) g.nmax := by
      rw [figures]
      exact if_neg some_
    refine ⟨n, ?_⟩
    rw [figures]
    exact if_neg some_
  · have flow : j.fs = if 0 < j.nt then j.f * t.jet.scale / 1000 else 0 := by
      rw [figures]
      rfl
    rw [flow]
    simp [Nat.pos_iff_ne_zero]

end Sys2Proof.Machine
end

