-- ==== Sys2Proof/Proofs/ReadVerdicts.lean ====
section
/-! PROOFS. Reads that are withdrawn, failed or lost, and audio blocks (R67, R68, R70, R71 to R74). -/

set_option Elab.async false

namespace Sys2Proof.Machine

/-- What the end of a request leaves. -/
theorem State.requestEnded_leaves (estop : Bool) (r : Reader) (s : State) :
    (s.requestEnded estop r).ctl = s.ctl ∧ (s.requestEnded estop r).clock = s.clock ∧
      (s.requestEnded estop r).seq = s.seq ∧ (s.requestEnded estop r).music = s.music ∧
      (s.requestEnded estop r).mon = s.mon ∧ (s.requestEnded estop r).head = s.head ∧
      (s.requestEnded estop r).localTimer = s.localTimer ∧
      (s.requestEnded estop r).store = { s.store with port := none }.setRequest none r := by
  cases r <;> exact ⟨rfl, rfl, rfl, rfl, rfl, rfl, rfl, rfl⟩

/-- What the store holds after the end of a request, but for the request and the port. -/
theorem Store.setRequest_leaves (st : Store) (q : Option Request) (r : Reader) :
    (st.setRequest q r).request r = q ∧ (st.setRequest q r).header = st.header ∧ (st.setRequest q r).entry = st.entry ∧
      (st.setRequest q r).config = st.config ∧ (st.setRequest q r).dirStep = st.dirStep ∧
      (st.setRequest q r).cuePos = st.cuePos ∧ (st.setRequest q r).audioPos = st.audioPos := by
  cases r <;> exact ⟨rfl, rfl, rfl, rfl, rfl, rfl, rfl⟩

theorem exec_flashReadComplete_lost {s : State} {data : List Byte} {estop : Bool} {r : Reader} {q : Request}
    (port : s.store.port = some { reader := r, withdrawn := false }) (standing : s.store.request r = some q)
    (bad : goodRead q.expect data = false) (last : 2 ≤ q.attempts) :
    exec (.flashReadComplete data estop) s = .next ((s.requestEnded estop r).lose r q.expect.seq).settle := by
  rw [exec_flashReadComplete port standing, State.judge_lost estop bad last]

theorem exec_flashReadComplete_good {s : State} {data : List Byte} {estop : Bool} {r : Reader} {q : Request}
    (port : s.store.port = some { reader := r, withdrawn := false }) (standing : s.store.request r = some q)
    (good : goodRead q.expect data = true) : exec (.flashReadComplete data estop) s =
      .next ((s.requestEnded estop r).deliver r q.expect.seq (blockPayload data)).settle := by
  rw [exec_flashReadComplete port standing, State.judge_good estop good]

/-! ### Withdrawn and failed attempts (R67, R70) -/

theorem exec_flashReadComplete_withdrawn {s : State} {data : List Byte} {estop : Bool} {p : PortRead}
    (port : s.store.port = some p) (withdrawn : p.withdrawn = true) :
    exec (.flashReadComplete data estop) s = .next (s.portFreed estop).settle := by
  refine congrArg Host.Outcome.next ((if_neg (by rw [port]; exact nofun)).trans (congrArg State.settle ?_))
  unfold State.readCompletes
  simp only [port, withdrawn, if_true]
  rfl

/-- A grant fills the port wherever a request stands. -/
theorem State.grant_fills {s : State} {r : Reader} (standing : (s.store.request r).isSome = true) :
    s.grant.store.port.isSome = true := by
  have chosen : s.grantChoice.isSome = true := by
    unfold State.grantChoice
    cases r <;> simp only [Store.request] at standing <;> simp only [standing, if_true] <;> (repeat' split) <;> simp_all
  unfold State.grant
  split
  · rfl
  · next full =>
    cases port : s.store.port with
    | some _ => rfl
    | none =>
      obtain ⟨c, choice⟩ := Option.isSome_iff_exists.mp chosen
      exact absurd choice (full _ port)

theorem State.grant_request (r : Reader) (s : State) : s.grant.store.request r = s.store.request r := by
  rw [State.grant_eq]
  cases r <;> rfl

/-! ### The audio reader (R74, R158) -/

theorem askAudio_fifo (n : Nat) (s : State) : ∃ more, (askAudio n s).music.fifo = s.music.fifo ++ more := by
  induction n generalizing s with
  | zero => exact ⟨[], (List.append_nil _).symm⟩
  | succ n ih =>
    unfold askAudio
    split
    · split
      · split
        · obtain ⟨more, e⟩ := ih ((s.raise .blockLost none (some Reader.audio.object)).deliverAudio _)
          exact ⟨_, e.trans (List.append_assoc _ _ _)⟩
        · exact ⟨[], (List.append_nil _).symm⟩
      · exact ⟨[], (List.append_nil _).symm⟩
    · exact ⟨[], (List.append_nil _).symm⟩

/-- Where the next audio block lies within the flash, the filling at most asks for it. -/
theorem State.fillAudio_asks {s : State} {e : ShowSection} {k : Nat} (entry : s.store.entry = some e)
    (place : s.store.audioPos = some k) (inside : e.firstAudio + k ≤ 131071) :
    s.fillAudio = if s.hasAudio = true ∧ k < audioBlocks e.frames ∧ s.store.audioReq = none ∧ s.music.fifo.length ≤ 3080 ∧
        s.filling = true then s.makeRequest .audio (e.firstAudio + k) (s.expectAudio e.frames k) else s := by
  unfold State.fillAudio askAudio
  rw [entry, place]
  dsimp only
  rw [if_neg (show ¬ maxBlock < e.firstAudio + k by unfold maxBlock; omega)]

/-! ### The verdicts of a steady step -/

theorem withdrawn_read {s : State} {data : List Byte} {estop : Bool} {p : PortRead} (port : s.store.port = some p)
    (steady : s.steady) (withdrawn : p.withdrawn = true) :
    ∃ t, exec (.flashReadComplete data estop) s = .next t ∧
      t = { s with inputs := { s.inputs with estop := estop }, store := { s.store with port := t.store.port } } := by
  refine ⟨_, exec_flashReadComplete_withdrawn port withdrawn, ?_⟩
  rw [State.settle_of_steady (s := s.portFreed estop) steady]
  exact State.grant_eq _

theorem failed_read {s : State} {data : List Byte} {estop : Bool} {r : Reader} {q : Request} (steady : s.steady)
    (port : s.store.port = some { reader := r, withdrawn := false }) (standing : s.store.request r = some q)
    (bad : goodRead q.expect data = false) (left : q.attempts < 2) :
    ∃ t, exec (.flashReadComplete data estop) s = .next t ∧
      t.store.request r = some { q with attempts := q.attempts + 1 } ∧ t.store.port.isSome ∧
      t.music = s.music ∧ t.seq = s.seq ∧ t.ctl = s.ctl ∧
      t.mon = s.mon.count
        { kind := .blockReread, time := s.clock.showTime, cueId := none, object := some r.object } := by
  have judged : (s.portFreed estop).judge r q data = State.raise .blockReread none (some r.object)
      { s.portFreed estop with
        store := (s.portFreed estop).store.setRequest (some { q with attempts := q.attempts + 1 }) r } :=
    (if_neg (by rw [bad]; decide)).trans (if_pos (by omega))
  refine ⟨_, exec_flashReadComplete port standing, ?_⟩
  have again := ((s.portFreed estop).store.setRequest_leaves (some { q with attempts := q.attempts + 1 }) r).1
  rw [judged, State.settle_of_steady (by exact steady)]
  refine ⟨?_, State.grant_fills (r := r) ?_, ?_⟩
  · rw [State.grant_request]
    exact again
  · exact (congrArg Option.isSome again).trans rfl
  · rw [State.grant_eq]
    exact ⟨rfl, rfl, rfl, rfl⟩

theorem accepted_audio {s : State} {data : List Byte} {estop : Bool} {q : Request} (steady : s.steady)
    (port : s.store.port = some { reader := .audio, withdrawn := false }) (standing : s.store.audioReq = some q)
    (good : goodRead q.expect data = true) :
    ∃ t more, exec (.flashReadComplete data estop) s = .next t ∧
      t.music.fifo = s.music.fifo ++
        ((readFrames (blockPayload data) q.expect.seq (audioBlockFrames s.frameCount q.expect.seq)).filter
          fun f => decide (s.music.playIndex ≤ f.index)) ++ more ∧
      t.seq = s.seq ∧ t.ctl = s.ctl := by
  obtain ⟨w, ended⟩ : ∃ w, w = s.requestEnded estop .audio := ⟨_, rfl⟩
  have leaves : w.ctl = s.ctl ∧ w.seq = s.seq ∧ w.music = s.music ∧ w.frameCount = s.frameCount := by
    rw [ended]
    exact ⟨rfl, rfl, rfl, rfl⟩
  obtain ⟨ctl, seq, music, frames⟩ := leaves
  obtain ⟨more, fifo⟩ := askAudio_fifo
    (audioBlocks (w.deliverAudio (readFrames (blockPayload data) q.expect.seq
      (audioBlockFrames w.frameCount q.expect.seq))).frameCount + 1)
    (w.deliverAudio (readFrames (blockPayload data) q.expect.seq (audioBlockFrames w.frameCount q.expect.seq)))
  refine ⟨_, more, exec_flashReadComplete_good port standing good, ?_⟩
  rw [← ended, show w.deliver .audio q.expect.seq (blockPayload data) = (w.deliverAudio (readFrames (blockPayload data)
      q.expect.seq (audioBlockFrames w.frameCount q.expect.seq))).fillAudio from rfl,
    State.settle_of_steady (State.steady_congr (s := s) (by simpa using ctl) steady), State.grant_eq]
  dsimp only
  rw [State.fillAudio, fifo, ← frames, ← music]
  exact ⟨rfl, by simpa using seq, by simpa using ctl⟩

/-! ### A third failure (R67, R71 to R74) -/

theorem State.enterConfigFault_fault (reason : Nat) (s : State) :
    (s.enterConfigFault reason).ctl.state = .configFault ∧ (s.enterConfigFault reason).ctl.reason = reason := by
  unfold State.enterConfigFault State.startAlerts
  dsimp only
  (repeat' split) <;> simp

theorem lost_config {s : State} (estop : Bool) (seq : Nat) :
    let t := ((s.requestEnded estop .config).lose .config seq).settle
    t.ctl.state = .configFault ∧ t.ctl.reason = (if s.store.header = none then 1 else 5) ∧
      t.mon = s.mon.count
        { kind := .blockLost, time := s.clock.showTime, cueId := none, object := some Reader.config.object } := by
  obtain ⟨u, lost⟩ : ∃ u, u = (s.requestEnded estop .config).raise .blockLost none (some Reader.config.object) := ⟨_, rfl⟩
  have mon : u.mon = s.mon.count
      { kind := .blockLost, time := s.clock.showTime, cueId := none, object := some Reader.config.object } := by
    rw [lost]
    rfl
  have faults : (s.requestEnded estop .config).lose .config seq =
      u.enterConfigFault (if s.store.header = none then 1 else 5) := by
    rw [lost]
    rfl
  obtain ⟨state, reason⟩ := u.enterConfigFault_fault (if s.store.header = none then 1 else 5)
  dsimp only
  rw [faults, State.settle_of_calm (by rw [state]; decide) (by rw [state]; decide), State.grant_eq]
  exact ⟨state, reason, (by simpa using mon)⟩

/-- NO SHOW, and the return to IDLE (R7, R72). -/
theorem State.noShow_settle (s : State) : s.noShow.settle.ctl.state = .idle ∧ s.noShow.settle.ctl.selected = 0 ∧
    s.noShow.settle.ctl.held = none ∧ s.noShow.settle.store.entry = none ∧ s.noShow.settle.store.dirReq = none ∧
    s.noShow.settle.mon = s.mon.count
      { kind := .noShow, time := s.clock.showTime, cueId := none, object := some s.ctl.selected } := by
  have idle : s.noShow.ctl.state = .idle ∧ s.noShow.ctl.selected = 0 ∧ s.noShow.ctl.held = none ∧
      s.noShow.store.entry = none ∧ s.noShow.store.dirReq = none := by
    simp [State.noShow]
  obtain ⟨state, selected, held, entry, request⟩ := idle
  have mon : s.noShow.mon = (s.raise .noShow none (some s.ctl.selected)).mon := State.enterIdle_mon false _
  generalize s.noShow = t at *
  rw [State.settle_of_calm (by rw [state]; decide) (by rw [state]; decide), State.grant_eq]
  exact ⟨state, selected, held, entry, request, mon⟩

/-- A lost cue block: the reader asks for the next. -/
theorem lost_cue {s : State} (estop : Bool) (seq : Nat) {e : ShowSection} {j : Nat}
    (counting : s.ctl.state = .countdown ∨ s.ctl.state = .running) (entry : s.store.entry = some e)
    (place : s.store.cuePos = some j) (left : j + 1 < e.cueCount) (inside : e.firstCue + (j + 1) ≤ 131071)
    (staged : s.seq.staged = none) (more : s.seq.endSeen = false) :
    let t := ((s.requestEnded estop .cue).lose .cue seq).settle
    t.seq = { s.seq with current := none, partialRec := none } ∧ t.store.cuePos = some (j + 1) ∧
      t.store.cueReq = some { block := e.firstCue + (j + 1), expect := s.expectCue (j + 1), attempts := 0 } ∧
      t.ctl = s.ctl ∧ t.mon = s.mon.count
        { kind := .blockLost, time := s.clock.showTime, cueId := none, object := some Reader.cue.object } := by
  obtain ⟨u, lost⟩ : ∃ u, u = (((s.requestEnded estop .cue).raise .blockLost none
    (some Reader.cue.object)).cueReaderOn.cueBlockLost) := ⟨_, rfl⟩
  have leaves : u.ctl = s.ctl ∧ u.seq = { s.seq with current := none, partialRec := none } ∧
      u.store.entry = s.store.entry ∧ u.store.cuePos = s.store.cuePos.map (fun j => j + 1) ∧ u.store.cueReq = none ∧
      u.mon = s.mon.count
        { kind := .blockLost, time := s.clock.showTime, cueId := none, object := some Reader.cue.object } := by
    rw [lost]
    exact ⟨rfl, rfl, rfl, rfl, rfl, rfl⟩
  obtain ⟨ctl, sequencer, entry', place', free, mon⟩ := leaves
  have cueing : u.ctl.state.cueing = true := by
    rw [ctl]
    rcases counting with state | state <;> rw [state] <;> rfl
  have asks : u.readOn = u.makeRequest .cue (e.firstCue + (j + 1)) (u.expectCue (j + 1)) := by
    obtain ⟨n, steps⟩ : ∃ n, u.readSteps = n + 1 := ⟨_, rfl⟩
    rw [State.readOn, steps, readOnN, if_neg (by rw [cueing]; decide), sequencer]
    dsimp only
    rw [staged]
    dsimp only
    rw [more, free, entry', place', entry, place]
    exact (if_neg (Nat.not_le_of_gt left)).trans
      (if_neg (show ¬ maxBlock < e.firstCue + (j + 1) by unfold maxBlock; omega))
  have reads : (s.requestEnded estop .cue).lose .cue seq = u.readOn := by
    rw [lost]
    rfl
  dsimp only
  rw [reads, asks, State.settle_cueing (s := u.makeRequest .cue _ _) cueing, State.grant_eq]
  refine ⟨sequencer, place'.trans (by rw [place]; rfl), ?_, ctl, mon⟩
  have expects : u.expectCue (j + 1) = s.expectCue (j + 1) := by
    rw [State.expectCue, ctl]
    rfl
  rw [← expects]
  rfl

/-- A lost audio block: silent frames in its place. -/
theorem lost_audio {s : State} (estop : Bool) (seq : Nat) {e : ShowSection} {k : Nat} (steady : s.steady)
    (entry : s.store.entry = some e) (place : s.store.audioPos = some k) (inside : e.firstAudio + (k + 1) ≤ 131071) :
    let t := ((s.requestEnded estop .audio).lose .audio seq).settle
    t.music.fifo = s.music.fifo ++ ((silentFrames seq (audioBlockFrames e.frames seq)).filter
        fun f => decide (s.music.playIndex ≤ f.index)) ∧
      t.store.audioPos = some (k + 1) ∧ t.seq = s.seq ∧ t.ctl = s.ctl ∧ t.mon = s.mon.count
        { kind := .blockLost, time := s.clock.showTime, cueId := none, object := some Reader.audio.object } := by
  have count : s.frameCount = e.frames := by rw [State.frameCount, entry]
  obtain ⟨u, lost⟩ : ∃ u, u = (((s.requestEnded estop .audio).raise .blockLost none
    (some Reader.audio.object)).deliverAudio (silentFrames seq (audioBlockFrames s.frameCount seq))) := ⟨_, rfl⟩
  have leaves : u.ctl = s.ctl ∧ u.seq = s.seq ∧ u.store.entry = s.store.entry ∧
      u.store.audioPos = s.store.audioPos.map (fun k => k + 1) ∧
      u.music.fifo = s.music.fifo ++ ((silentFrames seq (audioBlockFrames s.frameCount seq)).filter
        fun f => decide (s.music.playIndex ≤ f.index)) ∧
      u.mon = s.mon.count
        { kind := .blockLost, time := s.clock.showTime, cueId := none, object := some Reader.audio.object } := by
    rw [lost]
    exact ⟨rfl, rfl, rfl, rfl, rfl, rfl⟩
  obtain ⟨ctl, sequencer, entry', place', fifo, mon⟩ := leaves
  rw [count] at fifo
  rw [place] at place'
  have fills : ∃ req, u.fillAudio = { u with store := { u.store with audioReq := req } } := by
    rw [State.fillAudio_asks (entry'.trans entry) place' inside]
    split <;> exact ⟨_, rfl⟩
  obtain ⟨req, fills⟩ := fills
  have delivers : (s.requestEnded estop .audio).lose .audio seq = u.fillAudio := by
    rw [lost]
    rfl
  dsimp only
  rw [delivers, fills, State.settle_of_steady (by rw [State.steady, ctl]; exact steady), State.grant_eq]
  exact ⟨fifo, place', sequencer, ctl, mon⟩

end Sys2Proof.Machine
end

