-- ==== Sys2Proof/Proofs/ShowLoading.lean ====
section
/-! PROOFS. Accepted directory and cue blocks, up to ARMED and a held START (R7, R9, R64, R72, R79 to R81). -/

set_option Elab.async false

namespace Sys2Proof.Machine

/-! ### The directory blocks (R64, R72) -/

theorem State.requestDirectory_within {block : Nat} (inside : block ≤ 131071) (step : DirStep) (e : Expect) (s : State) :
    s.requestDirectory step block e =
      State.makeRequest .directory block e { s with store := { s.store with dirStep := step } } :=
  if_neg (show ¬ maxBlock < block by unfold maxBlock; omega)

/-- A directory block leads to the table it names, to the next directory block, or to NO SHOW. -/
theorem State.takeDirectory_cases (i : Nat) (p : List Byte) (s : State) :
    (∀ table, findSlot p s.ctl.selected = some table →
      s.takeDirectory i p = s.requestDirectory .table table (expectTable s.ctl.selected)) ∧
    (findSlot p s.ctl.selected = none → i + 1 < s.dirCount →
      s.takeDirectory i p = s.requestDirectory (.block (i + 1)) (s.dirBlock (i + 1)) (expectDirectory (i + 1))) ∧
    (findSlot p s.ctl.selected = none → s.dirCount ≤ i + 1 → s.takeDirectory i p = s.noShow) := by
  unfold State.takeDirectory
  refine ⟨fun table found => ?_, fun absent more => ?_, fun absent last => ?_⟩
  · rw [found]
  · rw [absent]
    exact if_pos more
  · rw [absent]
    exact if_neg (Nat.not_lt_of_ge last)

/-- The directory reader's request leaves the station loading. -/
theorem State.requestDirectory_settle {s : State} (loading : s.ctl.state = .loading) (entry : s.store.entry = none)
    {block : Nat} (inside : block ≤ 131071) (step : DirStep) (e : Expect) :
    (s.requestDirectory step block e).settle.store.dirStep = step ∧ (s.requestDirectory step block e).settle.ctl = s.ctl ∧
      (s.requestDirectory step block e).settle.mon = s.mon ∧
      (s.requestDirectory step block e).settle.store.dirReq = some { block := block, expect := e, attempts := 0 } := by
  obtain ⟨u, asked⟩ : ∃ u, u = s.requestDirectory step block e := ⟨_, rfl⟩
  have leaves : u.ctl = s.ctl ∧ u.store.entry = s.store.entry ∧ u.store.dirStep = step ∧ u.mon = s.mon ∧
      u.store.dirReq = some { block := block, expect := e, attempts := 0 } := by
    rw [asked, State.requestDirectory_within inside]
    exact ⟨rfl, rfl, rfl, rfl, rfl⟩
  obtain ⟨ctl, entry', dirStep, mon, request⟩ := leaves
  rw [← asked, State.settle_of_no_entry (by rw [ctl]; exact loading) (entry'.trans entry), State.grant_eq]
  exact ⟨dirStep, ctl, mon, request⟩

/-! ### The end of LOADING (R7) -/

theorem State.headsReady_iff (s : State) : s.headsReady = true ↔ ∀ h : Head, (s.store.config.heads[h]).present = true →
    (s.head.heads[h]).state = .settled ∨ (s.head.heads[h]).state = .fault := by
  rw [State.headsReady, List.all_eq_true]
  refine forall_congr' fun h => ?_
  rw [or_iff_not_imp_left]
  simp [State.headPresent, List.mem_finRange, or_iff_not_imp_left]

/-- While an operation of R7 is outstanding, LOADING lasts. -/
theorem State.settle_of_unready {s : State} (loading : s.ctl.state = .loading)
    (unready : ¬ (s.prefillDone = true ∧ s.headsReady = true)) : s.settle = s.grant := by
  have unarmed : s.checkArmed = s := if_neg fun k => unready k.2
  have unended : s.checkEnding = s := if_neg fun k => by
    rw [loading] at k
    cases k.1
  rw [State.settle, unarmed, unended]

/-- When the last operation of R7 is complete, ARMED is entered. -/
theorem State.settle_of_ready {s : State} (loading : s.ctl.state = .loading) (filled : s.prefillDone = true)
    (ready : s.headsReady = true) (left : s.enterArmed.ctl.state ≠ .ending) : s.settle = s.enterArmed.grant := by
  have armed : s.checkArmed = s.enterArmed := if_pos ⟨loading, filled, ready⟩
  have unended : s.enterArmed.checkEnding = s.enterArmed := if_neg fun k => left k.1
  rw [State.settle, armed, unended]

theorem State.armedEntry_leaves (s : State) : s.armedEntry.ctl.state = .armed ∧ s.armedEntry.ctl.held = none ∧
    s.armedEntry.ctl.selected = s.ctl.selected ∧ s.armedEntry.ctl.station = s.ctl.station ∧
    s.armedEntry.store = s.store ∧ s.armedEntry.seq = s.seq ∧ s.armedEntry.localTimer = s.localTimer ∧
    s.armedEntry.mon = s.mon ∧ s.armedEntry.lights.fixtures = Vector.replicate 12 {} := by
  have still : ((s.changeState .armed).resetFixtures).ctl.state.cueing = false := by simp [ShowState.cueing]
  have mon := State.workGoals_mon still
  refine ⟨?_, ?_, ?_, ?_, ?_, ?_, ?_, ?_, ?_⟩
  case refine_9 =>
    simp only [State.armedEntry, State.workGoals_fixtures]
    rfl
  all_goals simp [State.armedEntry, mon]

/-! ### The section table (R64, R7) -/

/-- The state in which the section of this station has been found. -/
def State.tableTaken (e : ShowSection) (s : State) : State :=
  { s with
    store := { s.store with
      entry := some e, cuePos := some 0, audioPos := if 0 < e.frames ∧ s.store.config.zone then some 0 else none }
    seq := { s.seq with current := none, partialRec := none, staged := none, lastId := none, endSeen := false } }

theorem State.takeTable_eq (p : List Byte) (s : State) :
    s.takeTable p = (s.tableTaken (readSection p s.ctl.station)).fillAudio := rfl

theorem State.tableTaken_hasAudio (e : ShowSection) (s : State) :
    (s.tableTaken e).hasAudio = true ↔ 0 < e.frames ∧ s.store.config.zone = true := by
  rw [State.hasAudio, Bool.and_eq_true]
  exact and_congr decide_eq_true_iff Iff.rfl

/-- With audio the first block is asked for, and the prefill is still to come. -/
theorem State.tableTaken_audio {s : State} {e : ShowSection} (audio : 0 < e.frames ∧ s.store.config.zone = true)
    (loading : s.ctl.state = .loading) (inside : e.firstAudio ≤ 131071) (empty : s.music.fifo = [])
    (free : s.store.audioReq = none) :
    (s.tableTaken e).fillAudio.settle = (State.makeRequest .audio e.firstAudio (s.expectAudio e.frames 0) (s.tableTaken e)).grant := by
  have place : (s.tableTaken e).store.audioPos = some 0 := if_pos audio
  have blocks : 0 < audioBlocks e.frames := Nat.div_pos (by omega) (by decide)
  have filling : (s.tableTaken e).filling = true := by
    rw [State.filling, show (s.tableTaken e).ctl.state = .loading from loading]
  have asks : (s.tableTaken e).fillAudio =
      State.makeRequest .audio e.firstAudio (s.expectAudio e.frames 0) (s.tableTaken e) := by
    rw [State.fillAudio_asks (e := e) rfl place inside]
    refine if_pos ⟨(s.tableTaken_hasAudio e).mpr audio, blocks, free, ?_, filling⟩
    rw [show (s.tableTaken e).music.fifo = [] from empty]
    decide
  rw [asks]
  refine State.settle_of_unready loading fun done => ?_
  have sounds : (State.makeRequest .audio e.firstAudio (s.expectAudio e.frames 0) (s.tableTaken e)).hasAudio = true :=
    (s.tableTaken_hasAudio e).mpr audio
  have filled := done.1
  rw [State.prefillDone, sounds, show (State.makeRequest .audio e.firstAudio (s.expectAudio e.frames 0)
      (s.tableTaken e)).music.fifo = [] from empty, show (State.makeRequest .audio e.firstAudio (s.expectAudio e.frames 0)
      (s.tableTaken e)).store.audioPos = some 0 from place] at filled
  simp [State.frameCount, State.makeRequest, Store.setRequest, State.tableTaken, blocks.ne'] at filled

/-- Without audio nothing is filled, and the prefill is complete. -/
theorem State.tableTaken_silent {s : State} {e : ShowSection} (silent : ¬ (0 < e.frames ∧ s.store.config.zone = true)) :
    (s.tableTaken e).fillAudio = s.tableTaken e ∧ (s.tableTaken e).prefillDone = true := by
  have place : (s.tableTaken e).store.audioPos = none := if_neg silent
  have none_ : (s.tableTaken e).hasAudio = false := by
    rw [← Bool.not_eq_true, State.tableTaken_hasAudio]
    exact silent
  constructor
  · unfold State.fillAudio askAudio
    rw [place]
    split
    · next absent => cases absent
    · rfl
  · rw [State.prefillDone, none_]
    rfl

/-! ### A held START (R9) -/

theorem State.retake_of_none {s : State} (staged : s.seq.staged = none) : s.retake = s := by rw [State.retake, staged]

/-- With nothing staged and no block current, reading on leaves Show Control and the Show Clock. -/
theorem readOnN_of_empty (n : Nat) {s : State} (staged : s.seq.staged = none) (current : s.seq.current = none) :
    (readOnN n s).ctl = s.ctl ∧ (readOnN n s).clock = s.clock ∧ (readOnN n s).store.entry = s.store.entry := by
  have scanEnds (t : State) (none_ : t.seq.staged = none) : t.endScan.ctl = t.ctl ∧ t.endScan.clock = t.clock ∧
      t.endScan.store.entry = t.store.entry := by
    rw [State.endScan, State.retake_of_none (by simpa using none_)]
    simp
  induction n generalizing s with
  | zero => exact ⟨rfl, rfl, rfl⟩
  | succ n ih =>
    unfold readOnN
    rw [staged, current]
    dsimp only
    split
    · exact ⟨rfl, rfl, rfl⟩
    split
    · split
      · exact scanEnds s staged
      · exact ⟨rfl, rfl, rfl⟩
    split
    · exact ⟨rfl, rfl, rfl⟩
    split
    · next e j entry place =>
      split
      · have kept : s.discardPartial.seq.staged = s.seq.staged ∧ s.discardPartial.seq.current = s.seq.current := by
          unfold State.discardPartial
          split <;> exact ⟨rfl, rfl⟩
        obtain ⟨ctl, clock, held⟩ := ih (s := s.endOfStream) (kept.1.trans staged) (kept.2.trans current)
        exact ⟨ctl.trans (by simp), clock.trans (by simp), held.trans (by simp)⟩
      split
      · exact ih staged rfl
      · exact ⟨rfl, rfl, rfl⟩
    · exact ⟨rfl, rfl, rfl⟩

/-- The state in which a held START has set show time. -/
def State.heldStarted (hs : HeldStart) (s : State) : State :=
  s.armedEntry.setShowTime (s.startTime hs.delay hs.moment)

theorem State.heldStarted_leaves (hs : HeldStart) (s : State) : (s.heldStarted hs).ctl = s.armedEntry.ctl ∧
    (s.heldStarted hs).seq = s.seq ∧ (s.heldStarted hs).store = s.store ∧
    (s.heldStarted hs).clock.showTime = clampShowTime (s.startTime hs.delay hs.moment) := by
  obtain ⟨_, _, _, _, store, seq, _⟩ := s.armedEntry_leaves
  refine ⟨by simp [State.heldStarted], ?_, ?_, (State.setShowTime_sets _ _).1⟩
  · simpa [State.heldStarted] using seq
  · simpa [State.heldStarted] using store

theorem State.enterArmed_held {s : State} {hs : HeldStart} (held : s.ctl.held = some hs) : s.enterArmed =
    if s.startTime hs.delay hs.moment < 0 then (s.heldStarted hs).enterCountdown else (s.heldStarted hs).joinRunning := by
  obtain ⟨_, _, _, _, _, _, now, _⟩ := s.armedEntry_leaves
  have time : s.armedEntry.startTime hs.delay hs.moment = s.startTime hs.delay hs.moment := by
    rw [State.startTime, now]
    rfl
  rw [State.enterArmed_eq, held]
  dsimp only
  rw [time]
  rfl

theorem clampShowTime_neg {t : Int} (before : t < 0) : clampShowTime t < 0 := by
  rw [clampShowTime_eq]
  omega

/-- A held START whose moment is still to come counts down. -/
theorem State.enterArmed_counts {s : State} {hs : HeldStart} (held : s.ctl.held = some hs) (staged : s.seq.staged = none)
    (current : s.seq.current = none) (before : s.startTime hs.delay hs.moment < 0) :
    s.enterArmed.ctl.state = .countdown ∧ s.enterArmed.ctl.held = none ∧
      s.enterArmed.clock.showTime = clampShowTime (s.startTime hs.delay hs.moment) ∧
      s.enterArmed.store.entry = s.store.entry := by
  obtain ⟨ctl, seq, store, time⟩ := s.heldStarted_leaves hs
  obtain ⟨_, unheld, _⟩ := s.armedEntry_leaves
  obtain ⟨v, counts⟩ : ∃ v, v = (((s.heldStarted hs).changeState .countdown).startRun.workGoals) := ⟨_, rfl⟩
  have leaves : v.ctl.state = .countdown ∧ v.ctl.held = (s.heldStarted hs).ctl.held ∧
      v.clock.showTime = (s.heldStarted hs).clock.showTime ∧ v.store = (s.heldStarted hs).store ∧
      v.seq.staged = (s.heldStarted hs).seq.staged ∧ v.seq.current = (s.heldStarted hs).seq.current := by
    rw [counts]
    simp [State.startRun, State.resetSection]
  obtain ⟨state, held', time', store', staged', current'⟩ := leaves
  rw [seq] at staged' current'
  obtain ⟨ctlR, clockR, entryR⟩ := readOnN_of_empty v.readSteps (staged'.trans staged) (current'.trans current)
  have early : (v.readOn).clock.showTime < 0 := by
    rw [State.readOn, clockR, time', time]
    exact clampShowTime_neg before
  have entered : s.enterArmed = v.readOn := by
    rw [State.enterArmed_held held, if_pos before]
    refine Eq.trans ?_ (State.checkZero_before early)
    rw [counts]
    rfl
  rw [entered, State.readOn, ctlR, clockR, entryR, state, held', time', store', ctl, time, unheld, store]
  exact ⟨rfl, rfl, rfl, rfl⟩

/-- A held START whose moment has passed joins RUNNING through a scan that asks for the first block. -/
theorem State.enterArmed_joins {s : State} {hs : HeldStart} {e : ShowSection} {j : Nat} (held : s.ctl.held = some hs)
    (begun : 0 ≤ s.startTime hs.delay hs.moment) (below : s.startTime hs.delay hs.moment < 1800000000)
    (clear : s.seq.catchUp = false) (queue : s.seq.queue = []) (staged : s.seq.staged = none) (current : s.seq.current = none)
    (more : s.seq.endSeen = false) (free : s.store.cueReq = none) (entry : s.store.entry = some e)
    (place : s.store.cuePos = some j) (left : j < e.cueCount) (inside : e.firstCue + j ≤ 131071) :
    s.enterArmed.ctl.state = .running ∧ s.enterArmed.ctl.held = none ∧ s.enterArmed.clock.showTime = s.startTime hs.delay hs.moment ∧
      s.enterArmed.seq.catchUp = true ∧
      s.enterArmed.store.cueReq = some { block := e.firstCue + j, expect := s.expectCue j, attempts := 0 } := by
  obtain ⟨ctl, seq, store, time⟩ := s.heldStarted_leaves hs
  obtain ⟨_, unheld, selected, station, _⟩ := s.armedEntry_leaves
  rw [clampShowTime_of_range (by omega) (by omega)] at time
  rw [State.enterArmed_held held, if_neg (Int.not_lt.mpr begun)]
  have expects : (s.heldStarted hs).expectCue j = s.expectCue j := by
    rw [State.expectCue, ctl, selected, station]
    rfl
  generalize s.heldStarted hs = u at *
  rw [← seq] at clear queue staged current more
  rw [← store] at free entry place
  obtain ⟨v, joined, control, time', scan, request⟩ :=
    State.joinRunning_asks clear queue staged current more free entry place left inside
  have within : v.checkTimeLimit = v := if_neg fun k => by
    have reached := k.2
    rw [time', time] at reached
    exact absurd reached (Int.not_le.mpr below)
  rw [joined, within, control]
  exact ⟨by simp, by simpa [ctl] using unheld, time'.trans time, scan, by rw [request, expects]⟩

end Sys2Proof.Machine
end

