-- ==== Sys2Proof/Proofs/FlashReads.lean ====
section
/-! PROOFS. The verdicts on a flash read and what each reader does with them (R7, R9, R67 to R74, R79 to R81). -/

set_option Elab.async false

namespace Sys2Proof.Machine

/-! ### An accepted directory block or section table (R72, R7, R9) -/

/-- What the section table leaves while the station goes on loading. -/
theorem State.tableTaken_waits {s : State} {e : ShowSection} (loading : s.ctl.state = .loading)
    (silent : ¬ (0 < e.frames ∧ s.store.config.zone = true)) (unready : s.headsReady = false) :
    (s.tableTaken e).fillAudio.settle.ctl = s.ctl ∧ (s.tableTaken e).fillAudio.settle.store.entry = some e := by
  rw [(State.tableTaken_silent silent).1, State.settle_of_unready (s := s.tableTaken e) loading fun k => ?_, State.grant_eq]
  · exact ⟨rfl, rfl⟩
  · exact Bool.false_ne_true (unready.symm.trans k.2)

/-- What the section table leaves of a station that enters ARMED. -/
theorem State.tableTaken_arms {s : State} {e : ShowSection} (loading : s.ctl.state = .loading)
    (silent : ¬ (0 < e.frames ∧ s.store.config.zone = true)) (ready : s.headsReady = true) (unheld : s.ctl.held = none) :
    let t := (s.tableTaken e).fillAudio.settle
    t.ctl.state = .armed ∧ t.ctl.selected = s.ctl.selected ∧ t.store.entry = some e ∧ t.store.cuePos = some 0 ∧
      t.seq.lastId = none ∧ t.lights.fixtures = Vector.replicate 12 {} ∧ t.mon = s.mon := by
  obtain ⟨fills, filled⟩ := State.tableTaken_silent silent
  obtain ⟨state, _, selected, _, store, seq, _, mon, dark⟩ := (s.tableTaken e).armedEntry_leaves
  have armed : (s.tableTaken e).enterArmed = (s.tableTaken e).armedEntry := by
    rw [State.enterArmed_eq, show (s.tableTaken e).ctl.held = none from unheld]
  dsimp only
  rw [fills, State.settle_of_ready (s := s.tableTaken e) loading filled ready (by rw [armed, state]; decide), armed]
  generalize (s.tableTaken e).armedEntry = t at *
  rw [State.grant_eq]
  dsimp only
  rw [store, seq]
  exact ⟨state, selected, rfl, rfl, rfl, dark, mon⟩

/-- What the section table leaves of a station that holds a START. -/
theorem State.tableTaken_starts {s : State} {e : ShowSection} {hs : HeldStart} (loading : s.ctl.state = .loading)
    (silent : ¬ (0 < e.frames ∧ s.store.config.zone = true)) (ready : s.headsReady = true) (held : s.ctl.held = some hs) :
    let t := (s.tableTaken e).fillAudio.settle
    let T := s.startTime hs.delay hs.moment
    (T < 0 → t.ctl.state = .countdown ∧ t.ctl.held = none ∧ t.clock.showTime = clampShowTime T ∧ t.store.entry = some e) ∧
    (0 ≤ T → T < 1800000000 → s.seq.queue = [] → s.seq.catchUp = false → s.store.cueReq = none →
      0 < e.cueCount → e.firstCue ≤ 131071 →
      t.ctl.state = .running ∧ t.ctl.held = none ∧ t.clock.showTime = T ∧ t.seq.catchUp = true ∧
        t.store.cueReq = some { block := e.firstCue, expect := s.expectCue 0, attempts := 0 }) := by
  obtain ⟨fills, filled⟩ := State.tableTaken_silent silent
  obtain ⟨x, taken⟩ : ∃ x, x = s.tableTaken e := ⟨_, rfl⟩
  have leaves : x.ctl = s.ctl ∧ x.localTimer = s.localTimer ∧ x.seq.staged = none ∧ x.seq.current = none ∧
      x.seq.endSeen = false ∧ x.seq.queue = s.seq.queue ∧ x.seq.catchUp = s.seq.catchUp ∧
      x.store.cueReq = s.store.cueReq ∧ x.store.entry = some e ∧ x.store.cuePos = some 0 ∧ x.headsReady = s.headsReady := by
    rw [taken]
    exact ⟨rfl, rfl, rfl, rfl, rfl, rfl, rfl, rfl, rfl, rfl, rfl⟩
  obtain ⟨ctl, now, staged, current, more, queue, scan, req, entry, place, heads⟩ := leaves
  have time : x.startTime hs.delay hs.moment = s.startTime hs.delay hs.moment := by rw [State.startTime, now]; rfl
  have expects : x.expectCue 0 = s.expectCue 0 := by rw [State.expectCue, ctl]; rfl
  rw [fills, ← taken]
  rw [← taken] at filled
  rw [← ctl] at loading held
  rw [← heads] at ready
  dsimp only
  rw [← time, ← expects, ← queue, ← scan, ← req]
  refine ⟨fun before => ?_, fun begun below queue scan req some_ inside => ?_⟩
  · obtain ⟨state, unheld, time, entry'⟩ := State.enterArmed_counts held staged current before
    rw [State.settle_of_ready loading filled ready (by rw [state]; decide)]
    generalize x.enterArmed = t at *
    rw [State.grant_eq]
    exact ⟨state, unheld, time, entry'.trans entry⟩
  · obtain ⟨state, unheld, time, scan', request⟩ := State.enterArmed_joins held begun below scan queue staged current more req
      entry place some_ inside
    rw [State.settle_of_ready loading filled ready (by rw [state]; decide)]
    generalize x.enterArmed = t at *
    rw [State.grant_eq]
    exact ⟨state, unheld, time, scan', request⟩

/-! ### An accepted cue block (R79 to R81) -/

theorem readOnN_of_staged (n : Nat) {s : State} {st : Staged} (staged : s.seq.staged = some st)
    (clear : s.seq.catchUp = false) : readOnN n s = s := by
  cases n with
  | zero => rfl
  | succ n =>
    rw [readOnN, staged]
    dsimp only
    rw [if_pos clear, ite_self]

/-- The cue that a record spells. -/
def cueOf (r : List Byte) (order : Nat) (body : CueBody) : CueRec := { id := be16 r 2, beat := be32 r 4, order := order, body := body }

/-- A whole record of a higher id with a target becomes the staged record (R80). -/
theorem State.checkRecord_stages {s : State} {r : List Byte} {form : CueForm} {body : CueBody} (forms : cueForm r = some form)
    (higher : ∀ l, s.seq.lastId = some l → l < be16 r 2) (target : form.resolve s.store.config = .ok body) :
    s.checkRecord r = { s with seq := { s.seq with
      staged := some { cue := cueOf r s.seq.nextOrder body, stalled := false }
      lastId := some (be16 r 2), nextOrder := s.seq.nextOrder + 1 } } := by
  have fresh : ¬ (s.seq.lastId.any fun l => decide (be16 r 2 ≤ l)) = true := by
    cases last : s.seq.lastId with
    | none => exact Bool.false_ne_true
    | some l => simpa using higher l last
  unfold State.checkRecord
  rw [forms]
  dsimp only
  rw [if_neg fresh, target]
  rfl

/-- The first record of the current block is decoded (R79, R80). -/
theorem State.decodeOne_whole {s : State} {r rest : List Byte} (current : s.seq.current = some (r ++ rest))
    (len : r.length = byteAt r 0) (low : 8 ≤ r.length) (high : r.length ≤ 40) :
    s.decodeOne = State.checkRecord r { s with seq := { s.seq with current := some rest } } := by
  obtain ⟨b, bs, rfl⟩ : ∃ b bs, r = b :: bs := List.exists_cons_of_length_pos (by omega)
  have count : b.toNat = (b :: bs).length := len.symm
  have rest_ : (b :: (bs ++ rest)).drop b.toNat = rest := by rw [count, ← List.cons_append, List.drop_left]
  have first : (b :: (bs ++ rest)).take b.toNat = b :: bs := by rw [count, ← List.cons_append, List.take_left]
  rw [State.decodeOne, current, List.cons_append]
  dsimp only
  rw [if_neg (by omega), if_neg (by rw [count]; simp), first, rest_]

/-- A block that begins with a whole record: it is staged, and the rest stays current. -/
theorem State.cueBlock_whole {s : State} {r rest : List Byte} {form : CueForm} {body : CueBody}
    (cueing : s.ctl.state.cueing = true) (staged : s.seq.staged = none) (clear : s.seq.catchUp = false)
    (whole : s.seq.partialRec = none) (len : r.length = byteAt r 0) (low : 8 ≤ r.length) (high : r.length ≤ 40)
    (forms : cueForm r = some form) (higher : ∀ l, s.seq.lastId = some l → l < be16 r 2)
    (target : form.resolve s.store.config = .ok body) :
    (s.takeCueBlock (0 :: (r ++ rest))).readOn = { s with seq := { s.seq with
      staged := some { cue := cueOf r s.seq.nextOrder body, stalled := false }
      current := some rest, partialRec := none, lastId := some (be16 r 2), nextOrder := s.seq.nextOrder + 1 } } := by
  obtain ⟨u, taken⟩ : ∃ u, u = s.takeCueBlock (0 :: (r ++ rest)) := ⟨_, rfl⟩
  have current : u = { s with seq := { s.seq with current := some (r ++ rest) } } := by
    rw [taken, State.takeCueBlock]
    dsimp only
    rw [if_neg (by simp), whole]
    rfl
  have decoded : u.decodeOne = State.checkRecord r { s with seq := { s.seq with current := some rest } } := by
    rw [State.decodeOne_whole (by rw [current]) len low high, current]
  rw [State.checkRecord_stages (s := { s with seq := { s.seq with current := some rest } }) forms higher target] at decoded
  obtain ⟨b, bs, some_⟩ : ∃ b bs, r = b :: bs := List.exists_cons_of_length_pos (by omega)
  obtain ⟨n, steps⟩ : ∃ n, u.readSteps = n + 1 := ⟨_, rfl⟩
  have first : u.readOn = readOnN n u.decodeOne := by
    rw [State.readOn, steps, readOnN, if_neg (by rw [current]; simp [cueing])]
    rw [show u.seq.staged = none by rw [current]; exact staged,
      show u.seq.current = some (b :: (bs ++ rest)) by rw [current, some_]; rfl]
  rw [← taken, first, decoded, readOnN_of_staged n rfl (by exact clear)]
  dsimp only
  rw [whole]

/-- A block whose carry completes the partial record: that record is staged, and the rest is current. -/
theorem State.cueBlock_carried {s : State} {held carry rest : List Byte} {form : CueForm} {body : CueBody}
    (clear : s.seq.catchUp = false) (partial_ : s.seq.partialRec = some held)
    (some_ : held ≠ []) (len : (held ++ carry).length = byteAt (held ++ carry) 0) (high : (held ++ carry).length ≤ 40)
    (forms : cueForm (held ++ carry) = some form) (higher : ∀ l, s.seq.lastId = some l → l < be16 (held ++ carry) 2)
    (target : form.resolve s.store.config = .ok body) :
    (s.takeCueBlock (BitVec.ofNat 8 carry.length :: (carry ++ rest))).readOn = { s with seq := { s.seq with
      staged := some { cue := cueOf (held ++ carry) s.seq.nextOrder body, stalled := false }
      current := some rest, partialRec := none, lastId := some (be16 (held ++ carry) 2)
      nextOrder := s.seq.nextOrder + 1 } } := by
  have count : (BitVec.ofNat 8 carry.length).toNat = carry.length := by
    rw [List.length_append] at high
    exact Nat.mod_eq_of_lt (by omega)
  have head : byteAt (held ++ carry) 0 = byteAt held 0 := by
    obtain ⟨b, bs, rfl⟩ := List.exists_cons_of_ne_nil some_
    rfl
  have completes : carry.length = byteAt held 0 - held.length := by
    rw [← head, ← len, List.length_append]
    omega
  have taken : s.takeCueBlock (BitVec.ofNat 8 carry.length :: (carry ++ rest)) = { s with seq := { s.seq with
      staged := some { cue := cueOf (held ++ carry) s.seq.nextOrder body, stalled := false }
      current := some rest, partialRec := none, lastId := some (be16 (held ++ carry) 2)
      nextOrder := s.seq.nextOrder + 1 } } := by
    rw [State.takeCueBlock]
    dsimp only
    rw [count, if_neg (by rw [List.length_append]; omega), partial_]
    dsimp only
    rw [if_pos completes, List.take_left, List.drop_left,
      State.checkRecord_stages (s := { s with seq := { s.seq with partialRec := none } }) forms higher target]
  rw [taken]
  exact State.readOn_of_staged rfl clear

/-- A lost directory block or section table: NO SHOW. -/
theorem lost_directory {s : State} (estop : Bool) (seq : Nat) :
    let t := ((s.requestEnded estop .directory).lose .directory seq).settle
    t.ctl.state = .idle ∧ t.ctl.selected = 0 ∧ t.ctl.held = none ∧ t.store.entry = none ∧ t.store.dirReq = none ∧
      t.mon = (s.mon.count
          { kind := .blockLost, time := s.clock.showTime, cueId := none, object := some Reader.directory.object }).count
        { kind := .noShow, time := s.clock.showTime, cueId := none, object := some s.ctl.selected } := by
  obtain ⟨u, lost⟩ : ∃ u, u = (s.requestEnded estop .directory).raise .blockLost none (some Reader.directory.object) := ⟨_, rfl⟩
  have leaves : u.ctl = s.ctl ∧ u.clock = s.clock ∧ u.mon = s.mon.count
      { kind := .blockLost, time := s.clock.showTime, cueId := none, object := some Reader.directory.object } := by
    rw [lost]
    exact ⟨rfl, rfl, rfl⟩
  obtain ⟨ctl, clock, mon⟩ := leaves
  have shown := u.noShow_settle
  rw [mon, clock, ctl] at shown
  have noShow : (s.requestEnded estop .directory).lose .directory seq = u.noShow := by
    rw [lost]
    rfl
  rw [noShow]
  exact shown

/-- Settles O28, one lemma for each verdict and reader. -/
theorem flashReadVerdicts : Obligations.FlashReadVerdicts := by
  refine ⟨fun s data estop p port steady => ⟨fun withdrawn => ?_, fun q stands standing bad left => ?_,
      fun q stands audio standing good => ?_⟩,
    fun s data estop r q port standing bad last => ?_, fun s data estop q port standing good loading entry => ?_,
    fun s data estop q r rest form body port standing good counting staged clear len low high block forms target higher => ?_⟩
  · exact withdrawn_read port steady withdrawn
  · obtain ⟨reader, withdrawn⟩ := p
    subst stands
    exact failed_read steady port standing bad left
  · obtain ⟨reader, withdrawn⟩ := p
    subst stands audio
    exact accepted_audio steady port standing good
  · refine ⟨_, exec_flashReadComplete_lost port standing bad last, ?_⟩
    dsimp only
    refine ⟨?_, ?_, ?_, ?_⟩
    · rintro rfl
      exact lost_config estop _
    · rintro rfl loading
      exact lost_directory estop _
    · rintro e j rfl counting entry place left inside staged more
      exact lost_cue estop _ counting entry place left inside staged more
    · rintro e k rfl steady entry place inside
      exact lost_audio estop _ steady entry place inside
  · refine ⟨_, exec_flashReadComplete_good port standing good, ?_⟩
    have headsReady := s.headsReady_iff
    obtain ⟨w, ended⟩ : ∃ w, w = s.requestEnded estop .directory := ⟨_, rfl⟩
    have leaves : w.ctl = s.ctl ∧ w.mon = s.mon ∧ w.clock = s.clock ∧ w.localTimer = s.localTimer ∧ w.seq = s.seq ∧
        w.music = s.music ∧ w.store.entry = s.store.entry ∧ w.store.config = s.store.config ∧
        w.store.dirStep = s.store.dirStep ∧ w.store.audioReq = s.store.audioReq ∧ w.store.cueReq = s.store.cueReq ∧
        w.store.dirReq = none ∧ w.headsReady = s.headsReady ∧ w.dirCount = s.dirCount ∧ w.dirBlock = s.dirBlock ∧
        w.expectAudio = s.expectAudio ∧ w.expectCue = s.expectCue := by
      rw [ended]
      exact ⟨rfl, rfl, rfl, rfl, rfl, rfl, rfl, rfl, rfl, rfl, rfl, rfl, rfl, rfl, rfl, rfl, rfl⟩
    obtain ⟨ctl, mon, clock, now, seq, music, entry', config, dirStep, audioReq, cueReq, dirReq, heads, count, block, expectAudio, expectCue⟩ := leaves
    have loading' : w.ctl.state = .loading := by rw [ctl]; exact loading
    have directory {i : Nat} (step : s.store.dirStep = .block i) :
        w.deliver .directory q.expect.seq (blockPayload data) = w.takeDirectory i (blockPayload data) := by
      rw [← dirStep] at step
      simp only [State.deliver, step]
    have table (step : s.store.dirStep = .table) : w.deliver .directory q.expect.seq (blockPayload data) =
        (w.tableTaken (readSection (blockPayload data) s.ctl.station)).fillAudio := by
      rw [← dirStep] at step
      simp only [State.deliver, step, State.takeTable_eq, ctl]
    rw [← ended]
    dsimp only
    generalize readSection (blockPayload data) s.ctl.station = e at *
    rw [← headsReady, ← heads, ← config, ← ctl, ← mon, ← clock, ← now, ← seq, ← music, ← audioReq, ← cueReq, ← count, ← block,
      ← expectAudio, ← expectCue]
    rw [← entry'] at entry
    refine ⟨fun i block_ step found inside => ?_, fun i step absent more inside => ?_, fun i step absent last => ?_,
      fun step audio inside empty free => ?_, fun step silent unready => ?_, fun step silent ready unheld => ?_,
      fun hs step silent ready held => ?_⟩
    · rw [directory step, (w.takeDirectory_cases i _).1 _ found]
      exact State.requestDirectory_settle loading' entry inside _ _
    · rw [directory step, (w.takeDirectory_cases i _).2.1 absent more]
      exact State.requestDirectory_settle loading' entry inside _ _
    · rw [directory step, (w.takeDirectory_cases i _).2.2 absent last]
      obtain ⟨state, selected, _, entry, request, events⟩ := w.noShow_settle
      exact ⟨state, selected, entry, request, events⟩
    · rw [table step, State.tableTaken_audio audio loading' inside empty free, State.grant_eq]
      exact ⟨rfl, rfl, rfl, rfl, if_pos audio, dirReq, rfl⟩
    · rw [table step]
      exact State.tableTaken_waits loading' silent (Bool.eq_false_iff.mpr unready)
    · rw [table step]
      exact State.tableTaken_arms loading' silent ready unheld
    · rw [table step]
      exact State.tableTaken_starts loading' silent ready held
  · have cueing : s.ctl.state.cueing = true := by
      rcases counting with e | e <;> rw [e] <;> rfl
    obtain ⟨v, moved⟩ : ∃ v, v = (s.requestEnded estop .cue).cueReaderOn := ⟨_, rfl⟩
    have leaves : v.ctl = s.ctl ∧ v.mon = s.mon ∧ v.seq = s.seq ∧ v.store.config = s.store.config ∧
        v.store.cuePos = s.store.cuePos.map (fun j => j + 1) ∧ v.store.cueReq = none := by
      rw [moved]
      exact ⟨rfl, rfl, rfl, rfl, rfl, rfl⟩
    obtain ⟨ctl, mon, seq, config, place, request⟩ := leaves
    have delivers : (s.requestEnded estop .cue).deliver .cue q.expect.seq (blockPayload data) =
        (v.takeCueBlock (blockPayload data)).readOn := by
      rw [moved]
      rfl
    rw [← config] at target
    rw [← seq] at staged clear block higher ⊢
    rw [← ctl] at cueing ⊢
    rw [← mon]
    have stages : (v.takeCueBlock (blockPayload data)).readOn = { v with seq := { v.seq with
        staged := some { cue := cueOf r v.seq.nextOrder body, stalled := false }
        current := some rest, partialRec := none, lastId := some (be16 r 2), nextOrder := v.seq.nextOrder + 1 } } := by
      rcases block with ⟨whole, payload⟩ | ⟨held, carry, partial_, some_, rfl, payload⟩
      · rw [payload]
        exact State.cueBlock_whole cueing staged clear whole len low high forms higher target
      · rw [payload]
        exact State.cueBlock_carried clear partial_ some_ len high forms higher target
    refine ⟨_, exec_flashReadComplete_good port standing good, ?_⟩
    rw [delivers, State.settle_cueing (by rw [stages]; exact cueing), stages, State.grant_eq]
    exact ⟨rfl, place, request, rfl, rfl⟩

end Sys2Proof.Machine
end

