-- ==== Sys2Proof/Proofs/LineWaves.lean ====
section
/-! PROOFS. The receiver hears the wave that a transmitter drives (R22 to R25, R31). -/

set_option Elab.async false

namespace Sys2Proof.Machine

/-! ### One bit time -/

/-- What an edge makes of the runs, the own driver off (R24, R25, R31). -/
theorem Line.edge_heard {l : Line} (hears : l.receiver ≠ .off) (now : Rx) (level : Bool) :
    (l.edge now level).quietSince = (if level then some (l.quietSince.getD now.moment) else none) ∧
      (l.edge now level).lowRun = (if level then 0 else l.lowRun + 1) ∧
      (l.edge now level).latch = (if level = false ∧ l.lowRun = 0 then now else l.latch) := by
  unfold Line.edge
  rw [if_neg hears]
  extract_lets l1
  have same : l1.quietSince = l.quietSince ∧ l1.lowRun = l.lowRun ∧ l1.latch = l.latch := by
    unfold l1
    split <;> exact ⟨rfl, rfl, rfl⟩
  obtain ⟨quiet, run, latch⟩ := same
  cases level <;> simp [quiet, run, latch]

/-- Hunting, the twelfth bit time of a low level is a start mark (R24). -/
theorem Line.hear_hunting_receiver {l : Line} (hunts : l.receiver = .hunting) (now : Rx) (level : Bool) :
    (l.hear now level).1.receiver =
      if level = false ∧ l.lowRun = 11 then .receiving (RxBuffer.start (l.edge now level).latch) else .hunting := by
  have receiver : (l.edge now level).receiver = .hunting := by rw [Line.edge_receiver, hunts]; rfl
  have run := (Line.edge_heard (l := l) (by rw [hunts]; exact nofun) now level).2.1
  unfold Line.hear
  simp only [receiver]
  cases level with
  | true => exact receiver
  | false =>
    rw [run]
    by_cases twelfth : l.lowRun = 11
    · simp [twelfth]
    · simp [twelfth, receiver]

/-- In reception the buffer hears each bit time. -/
theorem Line.hear_in_reception {l : Line} {b : RxBuffer} (receives : l.receiver = .receiving b) (now : Rx) (level : Bool) :
    (l.hear now level).2 = (b.hear level (l.edge now level).lowRun (l.edge now level).latch).2 ∧
      (l.hear now level).1.receiver =
        .receiving (b.hear level (l.edge now level).lowRun (l.edge now level).latch).1 := by
  have receiver : (l.edge now level).receiver = .receiving b := by rw [Line.edge_receiver, receives]; rfl
  unfold Line.hear
  simp only [receiver, and_self]

/-- While the line has not been idle for 50 µs, the receiver waits on. -/
theorem Line.hear_waiting {l : Line} (waits : l.receiver = .waitIdle) {now : Rx} (brief : l.idleFor 50 now.moment = false)
    (level : Bool) : (l.hear now level).1.receiver = .waitIdle := by
  have receiver : (l.edge now level).receiver = .waitIdle := by rw [Line.edge_receiver, waits, brief]; rfl
  unfold Line.hear
  simp only [receiver]

/-- Once the line has been idle for 50 µs the receiver hunts again. -/
theorem Line.hear_waiting_idle {l : Line} (waits : l.receiver = .waitIdle) {now : Rx} (long : l.idleFor 50 now.moment = true) :
    (l.hear now true).1.receiver = .hunting := by
  have receiver : (l.edge now true).receiver = .hunting := by rw [Line.edge_receiver, if_pos ⟨waits, long⟩]
  unfold Line.hear
  simp only [receiver]
  exact receiver

/-- What a bit time makes of the runs, the own driver off. -/
theorem Line.hear_runs {l : Line} (hears : l.receiver ≠ .off) (now : Rx) (level : Bool) :
    (l.hear now level).1.quietSince = (if level then some (l.quietSince.getD now.moment) else none) ∧
      (l.hear now level).1.lowRun = (if level then 0 else l.lowRun + 1) ∧
      (l.hear now level).1.latch = (if level = false ∧ l.lowRun = 0 then now else l.latch) := by
  rw [Line.hear_keeps]
  exact Line.edge_heard hears now level

theorem Line.hear_on {l : Line} (hears : l.receiver ≠ .off) (now : Rx) (level : Bool) :
    (l.hear now level).1.receiver ≠ .off := fun off => hears ((Line.hear_off now level l).mp off)

/-- The receiver stays on while the own driver is off. -/
theorem Line.hearWave_on {l : Line} (hears : l.receiver ≠ .off) (now : Rx) (w : List Bool) :
    (l.hearWave now w).1.receiver ≠ .off := by
  induction w generalizing l now with
  | nil => exact hears
  | cons level w ih => exact ih (Line.hear_on hears now level) _

/-- The pair of the next bit time. -/
def nextPair (now : Rx) : Rx := { latch := now.latch + 1, moment := now.moment + 1 }

theorem Line.hearWave_cons (now : Rx) (level : Bool) (w : List Bool) (l : Line) :
    l.hearWave now (level :: w) = (((l.hear now level).1.hearWave (nextPair now) w).1,
      (l.hear now level).2 :: ((l.hear now level).1.hearWave (nextPair now) w).2) := rfl

/-! ### Where the 1s at the end begin (R31) -/

/-- A high level after a rise leaves the reading of the rise. -/
theorem Line.hearWave_high {l : Line} (hears : l.receiver ≠ .off) {q : Nat} (rose : l.quietSince = some q) (now : Rx)
    (k : Nat) : (l.hearWave now (List.replicate k true)).1.quietSince = some q := by
  induction k generalizing l now with
  | zero => exact rose
  | succ k ih =>
    refine ih (Line.hear_on hears now true) ?_ _
    rw [(Line.hear_runs hears now true).1, rose]
    rfl

/-- The line is idle from the rising edge at which the 1s of a wave's end begin. -/
theorem Line.hearWave_rise {l : Line} (hears : l.receiver ≠ .off) (now : Rx) (a : List Bool) (k : Nat) :
    (l.hearWave now (a ++ false :: List.replicate (k + 1) true)).1.quietSince = some (now.moment + (a.length + 1)) := by
  rw [Line.hearWave_append]
  have on := Line.hearWave_on hears now a
  generalize (l.hearWave now a).1 = m at *
  have fell := (Line.hear_runs on (laterPair a.length now) false).1
  have on' := Line.hear_on on (laterPair a.length now) false
  change (Line.hearWave _ (List.replicate k true) (Line.hear _ true (m.hear (laterPair a.length now) false).1).1).1.quietSince = _
  refine Line.hearWave_high (Line.hear_on on' _ true) ?_ _ k
  rw [(Line.hear_runs on' _ true).1, fell]
  simp [laterPair, Nat.add_assoc]

/-- A list with a 0 in it, cut at its last 0. -/
theorem eq_append_false_replicate {w : List Bool} (low : false ∈ w) :
    ∃ a, w = a ++ false :: List.replicate (w.reverse.takeWhile id).length true := by
  induction w using List.reverseRecOn with
  | nil => cases low
  | append_singleton w x ih =>
    cases x with
    | false => exact ⟨w, by simp⟩
    | true =>
      obtain ⟨a, cut⟩ := ih (by simpa using low)
      refine ⟨a, ?_⟩
      conv_lhs => rw [cut]
      simp [List.replicate_succ']

/-- A frame's wave ends with the 1s of its last character. -/
theorem frameWave_ends (bytes : List Byte) (last : Byte) :
    ∃ a, frameWave (bytes ++ [last]) = a ++ false :: List.replicate (endHighs (bytes ++ [last])) true := by
  obtain ⟨a, cut⟩ := eq_append_false_replicate (w := charWave last) (by simp [charWave])
  refine ⟨List.replicate 14 false ++ true :: (bytes.flatMap charWave ++ a), ?_⟩
  have highs : endHighs (bytes ++ [last]) = ((charWave last).reverse.takeWhile id).length := by simp [endHighs]
  rw [highs, frameWave, List.flatMap_append, List.flatMap_singleton]
  conv_lhs => rw [cut]
  simp

/-! ### Characters (R22, R24) -/

theorem foldl_range_withBit (n : Nat) (f : Nat → Bool) (b : Byte) (j : Nat) (fits : n ≤ 8) :
    ((List.range n).foldl (fun b i => withBit b i (f i)) b).getLsbD j = if j < n then f j else b.getLsbD j := by
  induction n with
  | zero => rfl
  | succ n ih =>
    rw [List.range_succ, List.foldl_append, List.foldl_cons, List.foldl_nil, withBit_getLsbD _ _ _ _ (by omega), ih (by omega)]
    by_cases last : j = n
    · simp [last]
    · simp only [last, if_false]
      exact if_congr (by omega) rfl rfl

/-- The eight data bits of a character read back (R22). -/
theorem byteOfBits_bits (x : Byte) : byteOfBits ((List.range 8).map fun i => x.getLsbD i) = x := by
  refine BitVec.eq_of_getLsbD_eq fun i small => ?_
  rw [byteOfBits, foldl_range_withBit 8 _ 0 i (le_refl 8), if_pos small]
  simp [List.getD_eq_getElem?_getD, List.getElem?_range small]

/-- The data bits of a character join the buffer (R24). -/
theorem Line.hearWave_bits {l : Line} {b : RxBuffer} (receives : l.receiver = .receiving b) (inside : b.inMark = false)
    (begun : b.bits ≠ []) (run : l.lowRun ≤ b.bits.length) (bits : List Bool) (short : b.bits.length + bits.length ≤ 9)
    (now : Rx) :
    (l.hearWave now bits).2 = List.replicate bits.length .nothing ∧
      (l.hearWave now bits).1.receiver = .receiving { b with bits := b.bits ++ bits } := by
  induction bits generalizing l b now with
  | nil => exact ⟨rfl, by rw [List.append_nil]; exact receives⟩
  | cons level bits ih =>
    rw [List.length_cons] at short
    have hears : l.receiver ≠ .off := by rw [receives]; exact nofun
    have joins : ∀ run latch, run ≤ 9 → b.hear level run latch = ({ b with bits := b.bits ++ [level] }, .nothing) :=
      fun run latch low => by
        unfold RxBuffer.hear
        rw [inside, if_neg Bool.false_ne_true, if_neg begun, if_neg (by omega), if_neg (by omega)]
    obtain ⟨event, receiver⟩ := Line.hear_in_reception receives now level
    have runE := (Line.edge_heard hears now level).2.1
    have runH := (Line.hear_runs hears now level).2.1
    have low : (l.edge now level).lowRun ≤ 9 := by
      rw [runE]
      split <;> omega
    rw [joins _ _ low] at event receiver
    have next : (l.hear now level).1.lowRun ≤ (b.bits ++ [level]).length := by
      rw [runH, List.length_append]
      split
      · simp
      · simp
        omega
    obtain ⟨events, ends⟩ := ih (b := { b with bits := b.bits ++ [level] }) receiver inside (by simp) next
      (by simp; omega) (nextPair now)
    refine ⟨?_, ?_⟩
    · rw [Line.hearWave_cons]
      dsimp only
      rw [event, events]
      rfl
    · rw [Line.hearWave_cons]
      refine Eq.trans ends ?_
      simp

/-- What a receiver between two characters holds of the frame in reception. -/
def RxBuffer.between (rx : Rx) (chars : List Byte) (highs : Nat) : RxBuffer :=
  { rx := rx, inMark := false, chars := chars, bits := [], highs := highs }

/-- The buffer and the event at the stop bit of a character (R24). -/
def RxBuffer.charEnd (rx : Rx) (chars : List Byte) (x : Byte) : RxBuffer × RxEvent :=
  { RxBuffer.between rx chars 0 with bits := false :: (List.range 8).map fun i => x.getLsbD i }.endChar

/-- The receiver hears a character. -/
theorem Line.hearWave_char {l : Line} {rx : Rx} {chars : List Byte} {highs : Nat}
    (receives : l.receiver = .receiving (RxBuffer.between rx chars highs)) (run : l.lowRun = 0) (x : Byte) (now : Rx) :
    (l.hearWave now (charWave x)).2 = List.replicate 9 .nothing ++ [(RxBuffer.charEnd rx chars x).2] ∧
      (l.hearWave now (charWave x)).1.receiver = .receiving (RxBuffer.charEnd rx chars x).1 ∧
      (l.hearWave now (charWave x)).1.lowRun = 0 := by
  have hears : l.receiver ≠ .off := by rw [receives]; exact nofun
  obtain ⟨event, receiver⟩ := Line.hear_in_reception receives now false
  have started : ∀ run latch, (RxBuffer.between rx chars highs).hear false run latch =
      ({ RxBuffer.between rx chars 0 with bits := [false] }, .nothing) := fun _ _ => rfl
  rw [started] at event receiver
  have low : (l.hear now false).1.lowRun = 1 := by rw [(Line.hear_runs hears now false).2.1, run]; rfl
  have shape : charWave x = false :: ((List.range 8).map (fun i => x.getLsbD i) ++ [true]) := rfl
  rw [shape, Line.hearWave_cons, event]
  generalize (l.hear now false).1 = m at *
  obtain ⟨quiet, receives'⟩ := Line.hearWave_bits receiver rfl (by simp) (by rw [low]; simp)
    ((List.range 8).map fun i => x.getLsbD i) (by simp) (nextPair now)
  have on : (m.hearWave (nextPair now) ((List.range 8).map fun i => x.getLsbD i)).1.receiver ≠ .off := by
    rw [receives']
    exact nofun
  rw [Line.hearWave_append, quiet]
  generalize (m.hearWave (nextPair now) ((List.range 8).map fun i => x.getLsbD i)).1 = n at *
  dsimp only
  rw [Line.hearWave_cons]
  obtain ⟨last, ends⟩ := Line.hear_in_reception receives'
    (laterPair ((List.range 8).map fun i => x.getLsbD i).length (nextPair now)) true
  have stops : ∀ run latch, RxBuffer.hear true run latch
      { RxBuffer.between rx chars 0 with bits := [false] ++ (List.range 8).map fun i => x.getLsbD i } =
        RxBuffer.charEnd rx chars x := fun _ _ => rfl
  refine ⟨?_, ?_, ?_⟩
  · rw [last]
    rfl
  · exact ends
  · exact (Line.hear_runs on _ true).2.1

theorem RxBuffer.charEnd_eq (rx : Rx) (chars : List Byte) (x : Byte) : RxBuffer.charEnd rx chars x =
    if 3 ≤ (chars ++ [x]).length ∧ 80 < byteAt (chars ++ [x]) 2 then
      (RxBuffer.between rx (chars ++ [x]) 0, .failed .lengthOver80)
    else if 3 ≤ (chars ++ [x]).length ∧ 5 + byteAt (chars ++ [x]) 2 ≤ (chars ++ [x]).length then
      (RxBuffer.between rx (chars ++ [x]) 0, .frame rx (chars ++ [x]))
    else (RxBuffer.between rx (chars ++ [x]) 0, .nothing) := by
  have read : byteOfBits ((false :: (List.range 8).map fun i => x.getLsbD i).drop 1) = x := byteOfBits_bits x
  unfold RxBuffer.charEnd RxBuffer.endChar
  dsimp only
  rw [read]
  rfl

/-! ### The characters of a frame (R23, R24) -/

/-- The character that completes the frame brings it, and none before it brings anything. -/
theorem RxBuffer.charEnd_frame {f : LineFrame} (short : f.payload.length ≤ 80) (rx : Rx) {chars rest : List Byte} {x : Byte}
    (whole : f.bytes = chars ++ x :: rest) : RxBuffer.charEnd rx chars x =
      (RxBuffer.between rx (chars ++ [x]) 0, if rest = [] then .frame rx f.bytes else .nothing) := by
  obtain ⟨count, third, _⟩ := (LineFrame.bytes_parts f)
  rw [Nat.mod_eq_of_lt (by omega)] at third
  have parts : f.bytes = (chars ++ [x]) ++ rest := by rw [whole, List.append_assoc]; rfl
  have length : (chars ++ [x]).length + rest.length = 5 + f.payload.length := by
    rw [← count, parts, List.length_append (as := chars ++ [x])]
  have field (long : 3 ≤ (chars ++ [x]).length) : byteAt (chars ++ [x]) 2 = f.payload.length := by
    rw [← third, parts, byteAt, byteAt, List.getD_append (chars ++ [x]) rest 0 2 (by omega)]
  rw [RxBuffer.charEnd_eq, if_neg fun over_ => absurd (field over_.1) (by omega)]
  cases rest with
  | nil =>
    rw [List.append_nil] at parts
    rw [List.length_nil] at length
    rw [if_pos ⟨by omega, by rw [field (by omega)]; omega⟩, if_pos rfl, parts]
  | cons y ys =>
    rw [List.length_cons] at length
    rw [if_neg fun done => by rw [field done.1] at done; omega, if_neg nofun]

/-- The receiver hears the characters of a frame that are still to come. -/
theorem Line.hearWave_chars {f : LineFrame} (short : f.payload.length ≤ 80) (rx : Rx) (rest : List Byte) {l : Line}
    {chars : List Byte} {highs : Nat} (receives : l.receiver = .receiving (RxBuffer.between rx chars highs))
    (run : l.lowRun = 0) (whole : f.bytes = chars ++ rest) (left : rest ≠ []) (now : Rx) :
    (l.hearWave now (rest.flatMap charWave)).2 =
      List.replicate (10 * rest.length - 1) .nothing ++ [.frame rx f.bytes] := by
  induction rest generalizing l chars highs now with
  | nil => exact absurd rfl left
  | cons x rest ih =>
    obtain ⟨events, receiver, low⟩ := Line.hearWave_char receives run x now
    rw [RxBuffer.charEnd_frame short rx whole] at events receiver
    rw [List.flatMap_cons, Line.hearWave_append, events]
    generalize (l.hearWave now (charWave x)).1 = m at *
    cases rest with
    | nil => rfl
    | cons y ys =>
      have later := ih receiver low (by rw [whole, List.append_assoc]; rfl) nofun (laterPair (charWave x).length now)
      rw [later, if_neg nofun]
      have sum : 10 * (x :: y :: ys).length - 1 = 9 + 1 + (10 * (y :: ys).length - 1) := by
        simp only [List.length_cons]
        omega
      rw [sum, List.replicate_add, List.replicate_add]
      simp

/-! ### The start mark (R24) -/

/-- Hunting, the first eleven bit times of a low level bring nothing, and the first of them is latched. -/
theorem Line.hearWave_lows {l : Line} (hunts : l.receiver = .hunting) (run : l.lowRun = 0) (now : Rx) (n : Nat) (few : n ≤ 11) :
    (l.hearWave now (List.replicate n false)).2 = List.replicate n .nothing ∧
      (l.hearWave now (List.replicate n false)).1.receiver = .hunting ∧
      (l.hearWave now (List.replicate n false)).1.lowRun = n ∧
      (0 < n → (l.hearWave now (List.replicate n false)).1.latch = now) := by
  induction n with
  | zero => exact ⟨rfl, hunts, run, nofun⟩
  | succ n ih =>
    obtain ⟨events, hunting, low, latched⟩ := ih (by omega)
    rw [List.replicate_succ', Line.hearWave_append, events, List.length_replicate]
    generalize (l.hearWave now (List.replicate n false)).1 = m at *
    have on : m.receiver ≠ .off := by rw [hunting]; exact nofun
    obtain ⟨_, runs, latch⟩ := Line.hear_runs on (laterPair n now) false
    refine ⟨?_, ?_, ?_, fun _ => ?_⟩
    · rw [List.replicate_succ', Line.hearWave_cons, Line.hear_hunting hunting]
      rfl
    · exact (Line.hear_hunting_receiver hunting (laterPair n now) false).trans (if_neg (by omega))
    · refine runs.trans ?_
      rw [low]
      rfl
    · refine latch.trans ?_
      by_cases first : n = 0
      · rw [if_pos ⟨rfl, by omega⟩, first, laterPair_zero]
      · rw [if_neg (by omega), latched (by omega)]

/-- A start mark that goes on brings nothing within its 20 bit times. -/
theorem Line.hear_mark {l : Line} {rx : Rx} (receives : l.receiver = .receiving (RxBuffer.start rx)) (run : l.lowRun < 20)
    (now : Rx) : (l.hear now false).2 = .nothing ∧ (l.hear now false).1.receiver = .receiving (RxBuffer.start rx) ∧
      (l.hear now false).1.lowRun = l.lowRun + 1 := by
  have on : l.receiver ≠ .off := by rw [receives]; exact nofun
  obtain ⟨event, receiver⟩ := Line.hear_in_reception receives now false
  have heard : (RxBuffer.start rx).hear false (l.edge now false).lowRun (l.edge now false).latch =
      (RxBuffer.start rx, .nothing) := by
    have short : ¬ 20 < (l.edge now false).lowRun := by
      rw [(Line.edge_heard on now false).2.1]
      exact Nat.not_lt_of_ge run
    unfold RxBuffer.hear
    rw [if_pos (show (RxBuffer.start rx).inMark = true from rfl), if_neg Bool.false_ne_true, if_neg short]
  rw [heard] at event receiver
  exact ⟨event, receiver, (Line.hear_runs on now false).2.1⟩

/-- The start mark and the delimiter open the reception of a frame, with the pair of the first falling edge. -/
theorem Line.hearWave_opening {l : Line} (hunts : l.receiver = .hunting) (run : l.lowRun = 0) (now : Rx) :
    (l.hearWave now (List.replicate 14 false ++ [true])).2 = List.replicate 15 .nothing ∧
      (l.hearWave now (List.replicate 14 false ++ [true])).1.receiver = .receiving (RxBuffer.between now [] 1) ∧
      (l.hearWave now (List.replicate 14 false ++ [true])).1.lowRun = 0 := by
  obtain ⟨events, hunting, low, latched⟩ := Line.hearWave_lows hunts run now 11 (le_refl 11)
  have split_ : List.replicate 14 false ++ [true] = List.replicate 11 false ++ [false, false, false, true] := rfl
  rw [split_, Line.hearWave_append, events, List.length_replicate]
  generalize (l.hearWave now (List.replicate 11 false)).1 = m at *
  generalize laterPair 11 now = p
  have on : m.receiver ≠ .off := by rw [hunting]; exact nofun
  have twelfth := Line.hear_hunting_receiver hunting p false
  rw [if_pos ⟨rfl, low⟩, (Line.edge_heard on p false).2.2, if_neg (by omega), latched (by decide)] at twelfth
  have low12 : (m.hear p false).1.lowRun = 12 := by rw [(Line.hear_runs on p false).2.1, low]; rfl
  have event12 := Line.hear_hunting hunting p false
  simp only [Line.hearWave_cons, event12]
  generalize (m.hear p false).1 = m12 at *
  obtain ⟨event13, receiver13, low13⟩ := Line.hear_mark twelfth (by omega) (nextPair p)
  rw [event13]
  generalize (m12.hear (nextPair p) false).1 = m13 at *
  obtain ⟨event14, receiver14, low14⟩ := Line.hear_mark receiver13 (by omega) (nextPair (nextPair p))
  rw [event14]
  generalize (m13.hear (nextPair (nextPair p)) false).1 = m14 at *
  have on14 : m14.receiver ≠ .off := by rw [receiver14]; exact nofun
  obtain ⟨event15, receiver15⟩ := Line.hear_in_reception receiver14 (nextPair (nextPair (nextPair p))) true
  exact ⟨by rw [event15]; rfl, receiver15, (Line.hear_runs on14 _ true).2.1⟩

/-! ### The whole frame -/

theorem frameWave_eq (bytes : List Byte) :
    frameWave bytes = (List.replicate 14 false ++ [true]) ++ bytes.flatMap charWave := by
  simp [frameWave]

theorem frameWave_length (bytes : List Byte) : (frameWave bytes).length = 15 + 10 * bytes.length := by
  have chars : (bytes.flatMap charWave).length = 10 * bytes.length := by
    induction bytes with
    | nil => rfl
    | cons x xs ih => simp [charWave, ih]; omega
  rw [frameWave_eq, List.length_append, chars]
  rfl

/-- A hunting receiver takes the frame from the wave, at the end of its last stop bit. -/
theorem Line.hearWave_frame {f : LineFrame} {l : Line} (short : f.payload.length ≤ 80) (hunts : l.receiver = .hunting)
    (run : l.lowRun = 0) (now : Rx) : (l.hearWave now (frameWave f.bytes)).2 =
      List.replicate (14 + 10 * f.bytes.length) .nothing ++ [.frame now f.bytes] := by
  obtain ⟨events, receiver, low⟩ := Line.hearWave_opening hunts run now
  have count := (LineFrame.bytes_parts f).1
  rw [frameWave_eq, Line.hearWave_append, events]
  generalize (l.hearWave now (List.replicate 14 false ++ [true])).1 = m at *
  have rest := Line.hearWave_chars short now f.bytes receiver low rfl (List.ne_nil_of_length_pos (by omega))
    (laterPair (List.replicate 14 false ++ [true]).length now)
  have sum : 14 + 10 * f.bytes.length = 15 + (10 * f.bytes.length - 1) := by omega
  rw [rest, sum, List.replicate_add, List.append_assoc]

/-- The line is idle from the last rising edge of a frame. -/
theorem Line.hearWave_quiet {l : Line} (hears : l.receiver ≠ .off) (now : Rx) {bytes : List Byte} (some_ : bytes ≠ []) :
    (l.hearWave now (frameWave bytes)).1.quietSince = some (now.moment + (15 + 10 * bytes.length - endHighs bytes)) := by
  obtain ⟨k, highs⟩ : ∃ k, endHighs bytes = k + 1 := ⟨endHighs bytes - 1, by have := (endHighs_bounds bytes).1; omega⟩
  obtain ⟨a, cut⟩ := frameWave_ends bytes.dropLast (bytes.getLast some_)
  rw [List.dropLast_append_getLast some_, highs] at cut
  have length := congrArg List.length cut
  rw [frameWave_length, List.length_append, List.length_cons, List.length_replicate] at length
  rw [cut, Line.hearWave_rise hears now a k, highs, length]
  congr 2
  omega

/-- Settles O51: a wave is heard mark, delimiter and character by character. -/
theorem waveCarriesTheFrame : Obligations.WaveCarriesTheFrame := by
  refine ⟨fun f l now short hunts run => ⟨Line.hearWave_frame short hunts run now, ?_⟩, fun bytes last => ?_,
    fun l now hears => ?_, fun l now level off => ?_, fun l now hunts => ?_, fun l now waits => ?_⟩
  · exact Line.hearWave_quiet (by rw [hunts]; exact nofun) now
      (List.ne_nil_of_length_pos (by have := (LineFrame.bytes_parts f).1; omega))
  · obtain ⟨a, cut⟩ := frameWave_ends bytes last
    have turned : (frameWave (bytes ++ [last])).reverse =
        List.replicate (endHighs (bytes ++ [last])) true ++ false :: a.reverse := by
      rw [cut]
      simp
    rw [turned]
    refine ⟨fun i inside => ?_, ?_⟩
    · rw [List.getElem?_append_left (by simpa using inside), List.getElem?_replicate, if_pos inside]
    · rw [List.getElem?_append_right (by simp)]
      simp
  · obtain ⟨quietLow, runLow, latchLow⟩ := Line.edge_heard hears now false
    obtain ⟨quietHigh, runHigh, latchHigh⟩ := Line.edge_heard hears now true
    dsimp only
    rw [quietLow, runLow, latchLow, quietHigh, runHigh, latchHigh]
    refine ⟨rfl, rfl, fun first => if_pos ⟨rfl, first⟩, fun later => if_neg (by omega), rfl, rfl, fun low => ?_, fun q high => ?_⟩
    · rw [low]
      rfl
    · rw [high]
      rfl
  · have edge : l.edge now level = { l with quietSince := none, lowRun := if level then 0 else 21 } := if_pos off
    have heard : l.hear now level = (l.edge now level, .nothing) := by
      unfold Line.hear
      simp only [edge, off]
    dsimp only
    rw [heard, edge]
    exact ⟨off, rfl, rfl, rfl⟩
  · refine ⟨fun eleven => ?_, fun other => ?_, ?_⟩
    · rw [Line.hear_hunting_receiver hunts, if_pos ⟨rfl, eleven⟩,
        (Line.edge_heard (by rw [hunts]; exact nofun) now false).2.2, if_neg (by omega)]
    · rw [Line.hear_hunting_receiver hunts, if_neg fun k => other k.2]
    · rw [Line.hear_hunting_receiver hunts, if_neg fun k => Bool.false_ne_true k.1.symm]
  · refine ⟨fun q high long => ?_, fun q high brief => ?_, fun low level => ?_⟩
    · exact Line.hear_waiting_idle waits (by rw [Line.idleFor, high]; exact decide_eq_true long)
    · exact Line.hear_waiting waits (by rw [Line.idleFor, high]; exact decide_eq_false (by omega)) true
    · exact Line.hear_waiting waits (by rw [Line.idleFor, low]) level

end Sys2Proof.Machine
end
